-- ==== Sys2Proof/Word.lean ====
section
/-! DEFINITION. The word types of the machine and their plainest arithmetic (R3, R30, R53). -/

namespace Sys2Proof

/-- A general register, an address, a memory word. -/
abbrev Word := BitVec 64

/-- One byte of memory. -/
abbrev Byte := BitVec 8

/-- One 16-bit instruction word (R30). -/
abbrev Half := BitVec 16

/-- A task handle (R89). -/
abbrev Handle := BitVec 32

/-- A context identifier (R382, R383). -/
abbrev CtxId := BitVec 12

end Sys2Proof
end

