-- ==== Sys2Proof/Syntax.lean ====
section
/-! DEFINITION. The instructions of a strand and the events of the device, one constructor per row of
spec/opcode_table.json, with their operands in the manual's own kinds (R38-R44). -/

namespace Sys2Proof

/-- A general-register field (R42): g0-g23, q0-q3 or s0-s3. -/
inductive Reg where
  | g (i : Fin 24)
  | q (i : Fin 4)
  | s (i : Fin 4)
deriving DecidableEq, Repr

/-- A guard `pP?` or `!pP?` (R12, R35). -/
structure Guard where
  neg : Bool
  p : BitVec 4
deriving DecidableEq, Repr

/-- Integer size suffixes, in the order of their codes (R39). -/
inductive Size where
  | s64 | s32 | s16 | s8 | n64 | n32 | n16 | n8
deriving DecidableEq, Repr

/-- Scalar floating-point formats by size/class (R39, R119). -/
inductive FSize where
  | f64 | f32
deriving DecidableEq, Repr

/-- Destination types of `fcvt` by size/class (R39, R123). -/
inductive CvtDst where
  | f64 | f32 | f16 | bf16 | s64 | n64 | s32 | n32
deriving DecidableEq, Repr

/-- Element types (R40). -/
inductive EType where
  | f32 | f64 | bf16 | f16 | e4m3 | e5m2 | px8
  | mx4 | mx6a | mx6b | mx8a | mx8b | mxi8
  | s8 | s16 | s32 | s64 | n8 | n16 | n32 | n64
deriving DecidableEq, Repr

/-- Rounding modes (R70). -/
inductive Rm where
  | rne | rtz | rup | rdn | rst
deriving DecidableEq, Repr

/-- Condition codes (R38). -/
inductive Cond where
  | eq | ne | lt | le | gt | ge | uo | or
deriving DecidableEq, Repr

/-- Scopes of the memory reading of QUAL (R38). -/
inductive Scope where
  | strand | core | cluster | die | pkg | fabric | sys
deriving DecidableEq, Repr

/-- Orderings of the memory reading of QUAL (R38, R127). -/
inductive MOrd where
  | plain | acq | rel | ar
deriving DecidableEq, Repr

/-- The memory reading of QUAL without its size (R38). -/
structure MemQ where
  scope : Scope
  ord : MOrd
  mig : Bool
  fe : Bool
  keep : Bool
deriving DecidableEq, Repr

/-- The second part of a format-M address (R43): a sign-extended displacement, or an index register. -/
inductive MOff where
  | disp (d : Word)
  | index (i : Fin 24)
deriving DecidableEq, Repr

/-- A format-M memory operand (R14, R15, R43). -/
structure Mem where
  base : Fin 24
  off : MOff
deriving DecidableEq, Repr

/-- A core of the module: the die, cluster and core fields of a handle (R89). -/
structure CoreId where
  die : BitVec 2
  cluster : BitVec 7
  core : BitVec 3
deriving DecidableEq, Repr

/-- A cluster of the module (R283). -/
structure ClusterId where
  die : BitVec 2
  cluster : BitVec 7
deriving DecidableEq, Repr

/-- A quad of a cluster (R1): cores 0-3 (`false`) and 4-7 (`true`). -/
structure QuadId where
  cluster : ClusterId
  hi : Bool
deriving DecidableEq, Repr

/-- A slice of the module (R284, R287). -/
structure SliceId where
  die : BitVec 2
  slice : BitVec 5
deriving DecidableEq, Repr

/-- Units that can be taken out of service (R210, R306, R393). -/
inductive HwUnit where
  | core (c : CoreId)
  | bank (c : CoreId)
  | laneGroup (c : ClusterId) (i : BitVec 3)
  | array (q : QuadId)
  | copyEngine (c : ClusterId)
  | debug (c : ClusterId)
  | brush (c : ClusterId)
  | slice (s : SliceId)
  | router (c : ClusterId)
  | ringLink (d : BitVec 2)
  | qengine (d : BitVec 2)
  | die (d : BitVec 2)
deriving DecidableEq, Repr

/-- Sites of detected errors (R389). -/
inductive ErrorSite where
  | arith (h : Handle) (u : HwUnit)
  | parity (h : Handle) (u : HwUnit)
  | sram (u : HwUnit)
  | line (key : Nat) (mac : Bool)
  | link (u : HwUnit)
deriving DecidableEq, Repr

/-- How a detected error is detected and retried: the retry of R389 succeeded or not. -/
inductive RetryResult where
  | transient | lasting
deriving DecidableEq, Repr

/-- The detail of an ILLEGAL trap found in the encoding (R48). -/
structure IllegalDetail where
  cause : BitVec 4
  at_ : BitVec 5
  eword : BitVec 6
deriving DecidableEq, Repr

/-- What the host driver asks for when a context is created (R388): the context registers that system
software fills, the mark of the system context, and its image with the physical address that the firmware loads it at (R397). -/
structure ContextImage where
  ctx : CtxId
  system : Bool
  traptab : Word
  flttab : Word
  fltrec : Word
  qtab : Word
  ptroot : Word
  rrspill : Word
  smpbuf : Word
  image : List Byte
  loadAt : Nat
deriving DecidableEq, Repr

/-- Operations of a collective window (R408). -/
inductive CollOp where
  | add | min | max
deriving DecidableEq, Repr

/-- Element types of a collective window (R408). -/
inductive CollType where
  | f32 | f64 | s64
deriving DecidableEq, Repr

/-- A binding of a slice window by the firmware (R406, R408). -/
structure WindowBinding where
  ctx : CtxId
  slice : SliceId
  window : BitVec 4
  home : BitVec 12
  collective : Option (Nat × CollType × CollOp × Bool)
deriving DecidableEq, Repr

/-- A cause of a cluster halt other than a write of crash (R209). -/
inductive HaltCause where
  | pc (i : BitVec 2)
  | word (i : BitVec 1)
  | network
deriving DecidableEq, Repr

/-- An access of the host through a base address register (R411): reads and writes of module memory, a write of `qtail` and a read of a register of a
notification page, and a request in the firmware's mailbox. -/
inductive BarAccess where
  | read (pa : Nat) (n : Nat)
  | write (pa : Nat) (bytes : List Byte)
  | qtail (ctx : CtxId) (q : BitVec 4) (value : Word)
  | notice (ctx : CtxId) (off : BitVec 12)
  | mailbox (request : List Byte)
deriving DecidableEq, Repr

/-- A request of the host debug path (R208, R383). -/
structure DebugRequest where
  cluster : ClusterId
  write : Bool
  number : BitVec 6
  value : Word
deriving DecidableEq, Repr

/-- Access kinds as the fault buffer codes them (R382). -/
inductive AccessKind where
  | read | write | fetch
deriving DecidableEq, Repr

/-- Directions of the fabric (R401). -/
inductive FabricDir where
  | xp | xm | yp | ym | zp | zm
deriving DecidableEq, Repr

/-- The instructions and events of spec/opcode_table.json, the instructions in the table's order. `g` is the guard of an
instruction (R12). -/
inductive Instr where
  -- page 0: integer and logic (R108-R113)
  | add (g : Option Guard) (sz : Size) (a b c : Reg)
  | sub (g : Option Guard) (sz : Size) (a b c : Reg)
  | mul (g : Option Guard) (sz : Size) (a b c : Reg)
  | mulh (g : Option Guard) (sz : Size) (a b c : Reg)
  | div (g : Option Guard) (sz : Size) (a b c : Reg)
  | rem (g : Option Guard) (sz : Size) (a b c : Reg)
  | and (g : Option Guard) (sz : Size) (a b c : Reg)
  | or (g : Option Guard) (sz : Size) (a b c : Reg)
  | xor (g : Option Guard) (sz : Size) (a b c : Reg)
  | andn (g : Option Guard) (sz : Size) (a b c : Reg)
  | shl (g : Option Guard) (sz : Size) (a b c : Reg)
  | shr (g : Option Guard) (sz : Size) (a b c : Reg)
  | sar (g : Option Guard) (sz : Size) (a b c : Reg)
  | rol (g : Option Guard) (sz : Size) (a b c : Reg)
  | clz (g : Option Guard) (sz : Size) (a b : Reg)
  | popc (g : Option Guard) (sz : Size) (a b : Reg)
  | min (g : Option Guard) (sz : Size) (a b c : Reg)
  | max (g : Option Guard) (sz : Size) (a b c : Reg)
  | sel (g : Option Guard) (a b c : Reg) (p : BitVec 4)
  | mov (g : Option Guard) (sz : Size) (a b : Reg)
  | li (g : Option Guard) (a : Reg) (imm : Word)
  | addi (g : Option Guard) (sz : Size) (a b : Reg) (imm : Word)
  | lea (g : Option Guard) (a : Reg) (m : Mem)
  | cmp (g : Option Guard) (sz : Size) (cc : Cond) (p : BitVec 4) (b c : Reg)
  | cmpi (g : Option Guard) (sz : Size) (cc : Cond) (p : BitVec 4) (b : Reg) (imm : Word)
  | psetAnd (g : Option Guard) (p : BitVec 4) (nx : Bool) (x : BitVec 4) (ny : Bool) (y : BitVec 4)
  | psetOr (g : Option Guard) (p : BitVec 4) (nx : Bool) (x : BitVec 4) (ny : Bool) (y : BitVec 4)
  | psetXor (g : Option Guard) (p : BitVec 4) (nx : Bool) (x : BitVec 4) (ny : Bool) (y : BitVec 4)
  | psetConst (g : Option Guard) (p : BitVec 4) (v : Bool)
  | bfx (g : Option Guard) (signed : Bool) (a b : Reg) (pos len : BitVec 6)
  | bfi (g : Option Guard) (a b : Reg) (pos len : BitVec 6)
  -- control transfers (R116-R118)
  | br (g : Guard) (off : Word)
  | jmp (off : Word)
  | jr (g : Option Guard) (a : Reg)
  | call (g : Option Guard) (off : Word)
  | ret (g : Option Guard)
  | loop (g : Option Guard) (a : Reg) (off : Word)
  | trap (g : Option Guard) (imm : Word)
  | nop (g : Option Guard)
  -- scalar floating point (R119-R123)
  | fadd (g : Option Guard) (f : FSize) (rm : Rm) (a b c : Reg)
  | fsub (g : Option Guard) (f : FSize) (rm : Rm) (a b c : Reg)
  | fmul (g : Option Guard) (f : FSize) (rm : Rm) (a b c : Reg)
  | ffma (g : Option Guard) (f : FSize) (rm : Rm) (a b c : Reg)
  | fmin (g : Option Guard) (f : FSize) (a b c : Reg)
  | fmax (g : Option Guard) (f : FSize) (a b c : Reg)
  | fcmp (g : Option Guard) (f : FSize) (cc : Cond) (p : BitVec 4) (b c : Reg)
  | fcvt (g : Option Guard) (dst : CvtDst) (src : EType) (rm : Rm) (a b : Reg)
  -- memory (R124-R140)
  | ld (g : Option Guard) (sz : Size) (q : MemQ) (a : Reg) (m : Mem)
  | st (g : Option Guard) (sz : Size) (q : MemQ) (a : Reg) (m : Mem)
  | ldf (g : Option Guard) (sz : Size) (q : MemQ) (a : Reg) (m : Mem)
  | stf (g : Option Guard) (sz : Size) (q : MemQ) (a : Reg) (m : Mem)
  | amoSwap (g : Option Guard) (sz : Size) (q : MemQ) (a : Reg) (b : Fin 24) (c : Reg)
  | amoAdd (g : Option Guard) (sz : Size) (q : MemQ) (a : Reg) (b : Fin 24) (c : Reg)
  | amoAnd (g : Option Guard) (sz : Size) (q : MemQ) (a : Reg) (b : Fin 24) (c : Reg)
  | amoOr (g : Option Guard) (sz : Size) (q : MemQ) (a : Reg) (b : Fin 24) (c : Reg)
  | amoXor (g : Option Guard) (sz : Size) (q : MemQ) (a : Reg) (b : Fin 24) (c : Reg)
  | amoMin (g : Option Guard) (sz : Size) (q : MemQ) (a : Reg) (b : Fin 24) (c : Reg)
  | amoMax (g : Option Guard) (sz : Size) (q : MemQ) (a : Reg) (b : Fin 24) (c : Reg)
  | amoFadd (g : Option Guard) (f : FSize) (q : MemQ) (a : Reg) (b : Fin 24) (c : Reg)
  | amoFaddSeq (g : Option Guard) (f : FSize) (q : MemQ) (a : Reg) (b : Fin 24) (c : Reg)
  | cas (g : Option Guard) (sz : Size) (q : MemQ) (a : Reg) (b : Fin 24) (c : Reg)
  | fence (g : Option Guard) (scope : Scope)
  | waita (g : Option Guard) (sz : Size) (q : MemQ) (a : Reg) (m : Mem)
  | pref (g : Option Guard) (m : Mem)
  -- page 1: core instructions (R164-R183)
  | send (g : Option Guard) (a : Reg) (b : Fin 24) (mbox : BitVec 4) (len : BitVec 3)
  | sendNb (g : Option Guard) (p : BitVec 4) (a : Reg) (b : Fin 24) (mbox : BitVec 4) (len : BitVec 3)
  | recv (g : Option Guard) (a : Fin 24) (mask : BitVec 16)
  | recvn (g : Option Guard) (a : Fin 24) (b : Reg) (mbox : BitVec 4)
  | mbstat (g : Option Guard) (a : Reg) (mbox : BitVec 4)
  | fork (g : Option Guard) (join : Bool) (a : Reg) (b : Fin 24)
  | join (g : Option Guard) (mig : Bool) (a : Reg) (m : Mem)
  | spawn (g : Option Guard) (join : Bool) (a : Reg) (b : Fin 24)
  | exit (g : Option Guard) (join : Bool)
  | yield (g : Option Guard)
  | migrate (g : Option Guard) (a : Reg)
  | getidHandle (g : Option Guard) (a : Reg)
  | getidLogicalIndex (g : Option Guard) (a : Reg)
  | getidBank (g : Option Guard) (a : Reg)
  | getidSlot (g : Option Guard) (a : Reg)
  | getidModulePosition (g : Option Guard) (a : Reg)
  | getidCycleCounter (g : Option Guard) (a : Reg)
  | cpy (g : Option Guard) (a b : Fin 24)
  | cwait (g : Option Guard) (c : BitVec 4) (n : BitVec 16)
  | barinit (g : Option Guard) (mig : Bool) (a : Reg) (m : Mem)
  | bararv (g : Option Guard) (mig : Bool) (a : Reg) (m : Mem)
  | barinv (g : Option Guard) (mig : Bool) (m : Mem)
  | barwait (g : Option Guard) (mig : Bool) (a : Reg) (m : Mem)
  | fill (g : Option Guard) (a b : Reg) (n : Fin 24)
  | qctlSetRoles (g : Option Guard) (a : Reg)
  | qctlReadRoles (g : Option Guard) (a : Reg)
  | qctlQueueCounts (g : Option Guard) (a : Reg)
  | qctlDiscard (g : Option Guard) (a : Reg)
  | wdq (g : Option Guard) (a : Reg) (m : Mem)
  | launch (g : Option Guard) (a : Reg) (m : Mem)
  -- page 2: vector instructions (R217-R234)
  | vclaim (g : Option Guard) (a : Fin 24) (lo hi : BitVec 2)
  | vren (g : Option Guard) (a : Fin 24) (lo hi : BitVec 2)
  | vrenSetn (g : Option Guard) (a : Reg)
  | vrenStat (g : Option Guard) (a : Fin 24)
  | vrel (g : Option Guard)
  | vld (g : Option Guard) (t : EType) (a : BitVec 4) (m : Mem)
  | vst (g : Option Guard) (t : EType) (a : BitVec 4) (m : Mem)
  | vgth (g : Option Guard) (t : EType) (a : BitVec 4) (b : Fin 24) (c : BitVec 4)
  | vsct (g : Option Guard) (t : EType) (a : BitVec 4) (b : Fin 24) (c : BitVec 4)
  | vadd (g : Option Guard) (t : EType) (rm : Rm) (a b c : BitVec 4)
  | vsub (g : Option Guard) (t : EType) (rm : Rm) (a b c : BitVec 4)
  | vmul (g : Option Guard) (t : EType) (rm : Rm) (a b c : BitVec 4)
  | vfma (g : Option Guard) (t : EType) (rm : Rm) (a b c : BitVec 4)
  | vmin (g : Option Guard) (t : EType) (a b c : BitVec 4)
  | vmax (g : Option Guard) (t : EType) (a b c : BitVec 4)
  | vabs (g : Option Guard) (t : EType) (a b : BitVec 4)
  | vneg (g : Option Guard) (t : EType) (a b : BitVec 4)
  | vand (g : Option Guard) (t : EType) (a b c : BitVec 4)
  | vor (g : Option Guard) (t : EType) (a b c : BitVec 4)
  | vxor (g : Option Guard) (t : EType) (a b c : BitVec 4)
  | vshl (g : Option Guard) (t : EType) (a b c : BitVec 4)
  | vshr (g : Option Guard) (t : EType) (a b c : BitVec 4)
  | vcmp (g : Option Guard) (t : EType) (cc : Cond) (a b c : BitVec 4)
  | vsel (g : Option Guard) (t : EType) (a b c : BitVec 4)
  | vcvt (g : Option Guard) (dst src : EType) (h : Bool) (rm : Rm) (a b : BitVec 4)
  | vredAdd (g : Option Guard) (t : EType) (a : Fin 24) (b : BitVec 4)
  | vredMin (g : Option Guard) (t : EType) (a : Fin 24) (b : BitVec 4)
  | vredMax (g : Option Guard) (t : EType) (a : Fin 24) (b : BitVec 4)
  | vdot (g : Option Guard) (t : EType) (a : Fin 24) (b c : BitVec 4)
  | vperm (g : Option Guard) (t : EType) (a b c : BitVec 4)
  | vbcst (g : Option Guard) (t : EType) (a : BitVec 4) (b : Reg)
  | vexp2 (g : Option Guard) (rm : Rm) (a b : BitVec 4)
  | vlog2 (g : Option Guard) (rm : Rm) (a b : BitVec 4)
  | vrsq (g : Option Guard) (rm : Rm) (a b : BitVec 4)
  | vrcp (g : Option Guard) (t : EType) (rm : Rm) (a b : BitVec 4)
  | vsqrt (g : Option Guard) (t : EType) (rm : Rm) (a b : BitVec 4)
  | vdiv (g : Option Guard) (t : EType) (rm : Rm) (a b c : BitVec 4)
  | viota (g : Option Guard) (t : EType) (a : BitVec 4)
  | vscanAdd (g : Option Guard) (t : EType) (a b : BitVec 4)
  | vscanMin (g : Option Guard) (t : EType) (a b : BitVec 4)
  | vscanMax (g : Option Guard) (t : EType) (a b : BitVec 4)
  | vfence (g : Option Guard)
  -- page 3: directional vectors (R247-R256)
  | dfrom (g : Option Guard) (f64 : Bool) (h : Bool) (a : BitVec 3) (b : BitVec 4)
  | dto (g : Option Guard) (f64 : Bool) (h : Bool) (rm : Rm) (a : BitVec 4) (b : BitVec 3)
  | dld (g : Option Guard) (a : BitVec 3) (m : Mem)
  | dldRn (g : Option Guard) (a : BitVec 3) (m : Mem)
  | dst (g : Option Guard) (a : BitVec 3) (m : Mem)
  | dcos (g : Option Guard) (a : Fin 24) (b c : BitVec 3)
  | ddot (g : Option Guard) (f64 : Bool) (a : Fin 24) (b c : BitVec 3)
  | dscl (g : Option Guard) (a : BitVec 3) (b : Reg)
  | dadd (g : Option Guard) (a b c : BitVec 3)
  | dlerp (g : Option Guard) (a b : BitVec 3) (c : Reg)
  | dneg (g : Option Guard) (a b : BitVec 3)
  | dproj (g : Option Guard) (a b c : BitVec 3)
  | dnorm (g : Option Guard) (a b : BitVec 3)
  | dsetn (g : Option Guard) (a : BitVec 3) (b : Reg)
  | dmov (g : Option Guard) (a b : BitVec 3)
  | dtest (g : Option Guard) (a : Fin 24) (b : BitVec 3)
  -- page 4: matrix, quantisation, random numbers (R268-R274, R301-R305)
  | mmul (g : Option Guard) (a b : Fin 24)
  | mmula (g : Option Guard) (a b : Fin 24)
  | mzero (g : Option Guard) (a : BitVec 1)
  | mld (g : Option Guard) (a b : Fin 24)
  | mst (g : Option Guard) (t : EType) (rm : Rm) (a b : Fin 24)
  | mscl (g : Option Guard) (rm : Rm) (a b : Fin 24)
  | mwait (g : Option Guard)
  | mgovRead (g : Option Guard) (a : Fin 24)
  | mgovReadClear (g : Option Guard) (a : Fin 24)
  | qcmd (g : Option Guard) (a b : Fin 24)
  | qwait (g : Option Guard)
  | rngres (g : Option Guard) (a b : Fin 24)
  | rngrel (g : Option Guard) (a : Fin 24)
  | rnd (g : Option Guard) (a b : Reg) (c : Fin 24)
  -- page 5: history memory (R340-R344)
  | hdecl (g : Option Guard) (a b : Reg)
  | hput (g : Option Guard) (a b c : Reg)
  | hget (g : Option Guard) (a b : Reg) (c : Fin 24)
  | hgetn (g : Option Guard) (a b : Reg) (c : Fin 24)
  | hfront (g : Option Guard) (a : Fin 24) (b : Reg)
  | hdrop (g : Option Guard) (a : Reg)
  -- page 6: element contexts (R366)
  | tdecl (g : Option Guard) (a : Fin 24) (b : Reg)
  | eprog (g : Option Guard) (a b : Reg)
  | sweep (g : Option Guard) (a b : Reg)
  | swwait (g : Option Guard) (a : Reg)
  | skset (g : Option Guard) (a b c : Reg)
  | wake (g : Option Guard) (a b c : Reg)
  -- page 7: system (R384-R388)
  | tret (g : Option Guard)
  | sysr (g : Option Guard) (a : Fin 24) (number : Word)
  | sysw (g : Option Guard) (a : Reg) (number : Word)
  | resume (g : Option Guard) (a : Reg)
  | kill (g : Option Guard) (a : Reg)
  | retry (g : Option Guard) (a : Reg)
  | replay (g : Option Guard)
  | tlbinv (g : Option Guard) (a b : Reg)
  | syswQload (g : Option Guard) (a : Reg)
  | syswEwt (g : Option Guard) (a : Reg)
  | syswSmpctl (g : Option Guard) (a : Reg)
  -- events
  | unassignedEncoding (detail : IllegalDetail)
  | taskReplay (h : Handle)
  | crashHalt (c : ClusterId) (cause : HaltCause)
  | handlerBind (c : ClusterId)
  | migrationPacket (h : Handle)
  | inboxBind (c : CoreId)
  | dequeBind (c : CoreId)
  | workPacketBind (c : CoreId)
  | preemptedReturn (c : CoreId)
  | steal (c : CoreId)
  | dequeSpill (c : CoreId)
  | dequeRefill (c : CoreId)
  | fillApply (h : Handle)
  | messageOffer (id : Nat)
  | relayOffer (id : Nat)
  | sendTimeout (h : Handle)
  | requestRetry (h : Handle)
  | accessPerform (h : Handle)
  | accessReply (h : Handle)
  | fenceProbe (h : Handle)
  | claimGrant (c : ClusterId)
  | vectorDispatch (c : CoreId)
  | vectorPoolCommit (c : CoreId)
  | exceptionDelivery (h : Handle)
  | matrixStart (q : QuadId)
  | matrixCommit (q : QuadId)
  | governorWindow (q : QuadId)
  | matrixTurn (q : QuadId)
  | matrixAbandon (q : QuadId)
  | copyIssue (c : CoreId)
  | copyBurst (c : CoreId)
  | copyComplete (c : CoreId)
  | copyFirmwareFinish (c : CoreId)
  | qcmdComplete (d : BitVec 2)
  | qcmdResume (d : BitVec 2)
  | wdqAnswer (d : BitVec 2)
  | leaseGrant (launch : Nat) (c : CoreId)
  | leaseRelease (launch : Nat) (c : CoreId)
  | preempt (launch : Nat)
  | contextSwitchOut (c : CoreId)
  | contextRestore (c : CoreId) (ctx : CtxId)
  | packetLaunch (ctx : CtxId) (q : BitVec 4)
  | packetWaitev (ctx : CtxId) (q : BitVec 4)
  | waitevWriteReport (ctx : CtxId) (q : BitVec 4)
  | packetSignal (ctx : CtxId) (q : BitVec 4)
  | packetSetdet (ctx : CtxId) (q : BitVec 4)
  | packetQfence (ctx : CtxId) (q : BitVec 4)
  | launchPlace (d : BitVec 2)
  | launchRetire (launch : Nat)
  | epochCompletion (c : CoreId)
  | sweepPass (c : ClusterId)
  | slabExchange (c : ClusterId)
  | sweepComplete (c : ClusterId)
  | pageWalk (c : ClusterId) (ctx : CtxId) (va : Word) (kind : AccessKind)
  | resetBoot
  | recoveryImage (image : List Byte)
  | attestationRequest (ctx : Option CtxId) (nonce : BitVec 256)
  | contextCreate (image : ContextImage)
  | jobJoin (ctx : CtxId) (members : List (BitVec 12))
  | windowBind (w : WindowBinding)
  | linkUp (d : BitVec 2) (dir : FabricDir) (lane : BitVec 2) (sameFirmware debugFlag : Bool)
  | linkRekey (d : BitVec 2) (dir : FabricDir) (lane : BitVec 2)
  | flitReceive (d : BitVec 2) (dir : FabricDir) (lane : BitVec 2) (good : Bool)
  | laneFail (d : BitVec 2) (dir : FabricDir) (lane : BitVec 2)
  | collContribution (window : Nat) (member : Nat) (off : Nat) (words : List Word)
  | hostBarAccess (access : BarAccess)
  | samplingPulse
  | contextFinalRelease (ctx : CtxId)
  | sliceWindowGrant (ctx : CtxId) (s : SliceId) (window : BitVec 4)
  | hostDebugRequest (r : DebugRequest)
  | errorRetry (site : ErrorSite) (result : RetryResult)
  | dbgctlCrash (c : ClusterId)
  | dbgctlGo (c : ClusterId)
  | qtailWrite (ctx : CtxId) (q : BitVec 4) (value : Word)
  | unitOutOfService (u : HwUnit)
deriving DecidableEq, Repr

end Sys2Proof
end

