-- ==== Sys2Proof/Config.lean ====
section
/-! DEFINITION. What an implementation fixes and the manual leaves open, and the free values. Every constant here is
opaque: nothing in a proof can see its value (DESIGN CHOICE, log entry 4). -/

namespace Sys2Proof.Config

/-- The word that a device read of a table of system software returns when no memory answers it (R101, R103). -/
opaque freeWord : Nat → Word

/-- The LPDDR6 or CXL lines that a slice moves, and the flits that the ring and the fabric carry, for an access at a cycle to a numbered byte, which
programs cannot follow (R398; DESIGN CHOICE, log entry 86). -/
opaque lineEvents (cycle key : Nat) : Nat
opaque flitEvents (cycle key : Nat) : Nat

/-- The accesses of a bank that a tile command makes for a range of some bytes, at a cycle (R398). -/
opaque bankEvents : Nat → Nat → Nat

/-- The bytes of CXL memory that are installed; the manual gives only their limit of 8 TiB (R2, R375): DESIGN CHOICE, log entry 71. -/
opaque cxlInstalled : Nat

/-- The key that the firmware draws for the n-th context from the hardware's random source (R378). -/
opaque contextKey : Nat → BitVec 256

/-- The Ed25519 signature of an image holds against the key whose digest is fused (R395). -/
opaque imageSigned : List Byte → Bool

/-- The version of an image, and the fused minimum version (R395). -/
opaque imageVersion : List Byte → Nat
opaque minimumVersion : Nat

/-- The Ed25519 signature that the firmware key makes over a byte string (R396). -/
opaque firmwareSign : List Byte → BitVec 512

/-- The public part of the firmware key of a measurement (R396). -/
opaque firmwareKey : List Byte → BitVec 256

/-- The module's serial number (R396). -/
opaque serial : BitVec 128

/-- The debug path is enabled (R396). -/
opaque debugEnabled : Bool

/-- The bytes of the configuration that attestation measures besides `diemap` and `slicemap`: fuses, CXL devices (R396). -/
opaque fuses : List Byte

/-- The extents X, Y, Z of the fabric domain less one, as the firmware finds them at boot (R401). -/
opaque extents : BitVec 4 × BitVec 4 × BitVec 4

/-- The module's position, as the firmware finds it at boot (R401). -/
opaque bootPosition : BitVec 12

/-- The firmware image that NVMe namespace 1 holds at power-on, if any (R395). -/
opaque storedImage : Option (List Byte)

/-- The correctly rounded value of a quantity that the model's exact procedure has not separated from a rounding
boundary within its fuel: DEDUCED, log entry 17. -/
opaque unresolved : Nat → Nat

/-- The bytes under which the measured configuration names the units out of service (R396). -/
opaque unitBytes : List HwUnit → List Byte

/-- What the firmware's request mailbox answers to a request (R411). -/
opaque mailboxReply : Nat → List Byte → List Byte

end Sys2Proof.Config
end

