-- ==== Sys2Proof/WellFormed.lean ====
section
/-! DEFINITION. What an encoding can hold beyond the types of Syntax.lean: immediate ranges, admitted sizes and types,
register ranges, queue sources, the limit of four prefixes (R34, R39-R43, R50, R51 and the instruction entries). -/

namespace Sys2Proof

/-- `v` is the sign extension of its low `n` bits (R34, R52). -/
def fitsSigned (n : Nat) (v : Word) : Bool := (v.truncate n).signExtend 64 == v

/-- `v` is below 2^n (R34, R52). -/
def fitsUnsigned (n : Nat) (v : Word) : Bool := v.toNat < 2 ^ n

/-- The least number of IMM words that hold `v` beside a base field of `b` bits (R13, R34); 4 where three do not suffice. -/
def immCount (signed : Bool) (b : Nat) (v : Word) : Nat :=
  let fits := fun k => if signed then fitsSigned (11 * k + b) v || (11 * k + b == 0 && v == 0) else fitsUnsigned (11 * k + b) v
  if fits 0 then 0 else if fits 1 then 1 else if fits 2 then 2 else if fits 3 then 3 else 4

/-- One prefix word, or none. -/
def preCount (b : Bool) : Nat := if b then 1 else 0

/-- Prefix words number at most four (R41). -/
def prefixesFit (page ext qual : Bool) (k : Nat) : Bool :=
  k ≤ 3 && preCount page + preCount ext + preCount qual + k ≤ 4

/-- Two source fields do not name one queue (R50). -/
def srcsOk : List Reg → Bool
  | [] => true
  | .q i :: rs => !rs.contains (.q i) && srcsOk rs
  | _ :: rs => srcsOk rs

/-- A register number that R383 lists and `sysr` can read: all but the write-only `qload` (R384). -/
def sysReadable (n : Word) : Bool := n.toNat < 0x30 && n != 0x24

/-- A register number that R383 lists and `sysw` can write (R384). -/
def sysWritable (n : Word) : Bool :=
  let k := n.toNat
  k ≤ 0x01 || (0x0B ≤ k && k ≤ 0x11) || (0x13 ≤ k && k ≤ 0x26) || (0x28 ≤ k && k ≤ 0x2C)

/-- Size codes other than `.s64` and flags make the QUAL word nonzero (R17). -/
def sizeQual (sz : Size) : Bool := sz != .s64

/-- The memory reading is not all zero. -/
def memQual (q : MemQ) : Bool := q.scope != .strand || q.ord != .plain || q.mig || q.fe || q.keep

/-- The displacement's IMM words; an index carries none (R43). -/
def offImm : MOff → Nat
  | .disp d => immCount true 0 d
  | .index _ => 0

/-- An index needs the EXT word (R35). -/
def offExt : MOff → Bool
  | .disp _ => false
  | .index _ => true

/-- A format-M operand fits beside its other prefixes. -/
def memFits (page : Bool) (g : Option Guard) (qual : Bool) (m : Mem) : Bool :=
  prefixesFit page (g.isSome || offExt m.off) qual (offImm m.off)

/-- A memory QUAL of the page-0 loads and stores (R125, R126): no `.keep`, `.fe` only on 64 bits. -/
def ldstOk (sz : Size) (q : MemQ) : Bool := !q.keep && (!q.fe || sz == .s64 || sz == .n64)

/-- Sizes of `ldf` and `stf` (R128). -/
def longSize (sz : Size) : Bool := sz == .s64 || sz == .n64

/-- Sizes of atomics, `cas` and `waita` (R132, R135, R138). -/
def wordSize (sz : Size) : Bool := sz == .s64 || sz == .s32 || sz == .n64 || sz == .n32

/-- The six arithmetic types (R224). -/
def arithType : EType → Bool
  | .f32 | .f64 | .s32 | .n32 | .s64 | .n64 => true
  | _ => false

/-- binary32 and binary64. -/
def floatType : EType → Bool
  | .f32 | .f64 => true
  | _ => false

/-- The integer types of R227. -/
def wideInt : EType → Bool
  | .s32 | .n32 | .s64 | .n64 => true
  | _ => false

/-- Integer types. -/
def EType.isInt : EType → Bool
  | .s8 | .s16 | .s32 | .s64 | .n8 | .n16 | .n32 | .n64 => true
  | _ => false

/-- Microscaling types (R64). -/
def EType.isMx : EType → Bool
  | .mx4 | .mx6a | .mx6b | .mx8a | .mx8b | .mxi8 => true
  | _ => false

/-- The view is 64 bits wide (R214). -/
def EType.wide : EType → Bool
  | .f64 | .s64 | .n64 => true
  | _ => false

/-- Types of vector memory instructions (R221). -/
def memType (t : EType) : Bool := !t.isMx && t != .px8

/-- The rounding of a vector operation: none on integers, no `.rst` (R224, R38). -/
def vroundOk (t : EType) (rm : Rm) : Bool := if floatType t then rm != .rst else rm == .rne

/-- `fcvt` admits this pair (R123). -/
def fcvtOk (dst : CvtDst) (src : EType) : Bool :=
  let intDst := match dst with | .s64 | .n64 | .s32 | .n32 => true | _ => false
  let same := match dst, src with
    | .f64, .f64 | .f32, .f32 | .f16, .f16 | .bf16, .bf16 => true
    | _, _ => false
  !src.isMx && src != .px8 && !same && !(intDst && src.isInt)

/-- `vcvt` admits this pair, half and rounding (R230, R232). -/
def vcvtOk (dst src : EType) (h : Bool) (rm : Rm) : Bool :=
  dst != .px8 && src != .px8 && dst != src && !(dst.isInt && src.isInt)
    && !(dst.isMx && src != .f32) && !(src.isMx && dst != .f32)
    && !(h && dst.wide == src.wide) && !(rm == .rst && dst.isInt)

/-- A three-register instruction: EXT is always there. -/
def rrrOk (page qual : Bool) : Bool := prefixesFit page true qual 0

/-- The conditions `.uo` and `.or` are for floating point only (R38). -/
def cmpCond (cc : Cond) : Bool := cc != .uo && cc != .or

/-- Well-formedness of an instruction: what its encoding can hold. Events have no encoding. -/
def Instr.wf : Instr → Bool
  | .add _ _ _ b c | .sub _ _ _ b c | .mul _ _ _ b c | .mulh _ _ _ b c | .div _ _ _ b c | .rem _ _ _ b c
  | .and _ _ _ b c | .or _ _ _ b c | .xor _ _ _ b c | .andn _ _ _ b c | .shl _ _ _ b c | .shr _ _ _ b c
  | .sar _ _ _ b c | .rol _ _ _ b c | .min _ _ _ b c | .max _ _ _ b c => srcsOk [b, c]
  | .clz .. | .popc .. | .mov .. => true
  | .sel _ _ b c _ => srcsOk [b, c]
  | .li g _ imm => prefixesFit false g.isSome false (immCount true 5 imm)
  | .addi g sz _ _ imm => prefixesFit false g.isSome (sizeQual sz) (immCount true 0 imm)
  | .lea g _ m => memFits false g false m
  | .cmp _ _ cc _ b c => cmpCond cc && srcsOk [b, c]
  | .cmpi g sz cc _ _ imm => cmpCond cc && prefixesFit false g.isSome (sizeQual sz || cc != .eq) (immCount true 0 imm)
  | .psetAnd .. | .psetOr .. | .psetXor .. | .psetConst .. => true
  | .bfx _ _ _ _ pos len => pos.toNat + len.toNat + 1 ≤ 64
  | .bfi _ a b pos len => pos.toNat + len.toNat + 1 ≤ 64 && srcsOk [a, b]
  | .br _ off => prefixesFit false true false (immCount true 10 off)
  | .jmp off => prefixesFit false false false (immCount true 10 off)
  | .jr .. | .ret .. | .nop .. => true
  | .call g off => prefixesFit false g.isSome false (immCount true 10 off)
  | .loop g _ off => prefixesFit false g.isSome false (immCount true 5 off)
  | .trap g imm => prefixesFit false g.isSome false (immCount false 10 imm)
  | .fadd _ _ rm _ b c | .fsub _ _ rm _ b c | .fmul _ _ rm _ b c => rm != .rst && srcsOk [b, c]
  | .ffma _ _ rm a b c => rm != .rst && srcsOk [a, b, c]
  | .fmin _ _ _ b c | .fmax _ _ _ b c | .fcmp _ _ _ _ b c => srcsOk [b, c]
  | .fcvt _ ty src rm _ _ => rm != .rst && fcvtOk ty src
  | .ld g sz q _ m | .st g sz q _ m => ldstOk sz q && memFits false g (sizeQual sz || memQual q) m
  | .ldf g sz q _ m => longSize sz && q.ord == .plain && !q.fe && memFits false g (sizeQual sz || memQual q) m
  | .stf g sz q _ m => longSize sz && q.ord == .plain && !q.fe && !q.keep && memFits false g (sizeQual sz || memQual q) m
  | .amoSwap _ sz q _ _ _ | .amoAdd _ sz q _ _ _ | .amoAnd _ sz q _ _ _ | .amoOr _ sz q _ _ _
  | .amoXor _ sz q _ _ _ | .amoMin _ sz q _ _ _ | .amoMax _ sz q _ _ _ => wordSize sz && !q.fe && !q.keep
  | .amoFadd _ _ q _ _ _ => !q.fe && !q.keep
  | .amoFaddSeq _ _ q a _ c => !q.fe && !q.keep && srcsOk [a, c]
  | .cas _ sz q a _ c => wordSize sz && !q.fe && !q.keep && srcsOk [a, c]
  | .fence .. => true
  | .waita g sz q _ m => wordSize sz && (q.ord == .plain || q.ord == .acq) && !q.fe && !q.keep
      && memFits false g (sizeQual sz || memQual q) m
  | .pref g m => memFits false g false m
  | .send _ _ b _ len | .sendNb _ _ _ b _ len => len != 7 && b.val + len.toNat ≤ 24 && (len != 0 || b.val == 0)
  | .recv _ a mask => a.val ≤ 17 && mask != 0
  | .recvn _ a _ _ => a.val ≤ 17
  | .mbstat .. => true
  | .fork _ _ _ b => b.val ≤ 20
  | .spawn _ _ _ b => b.val ≤ 19
  | .join g mig _ m | .barinit g mig _ m | .bararv g mig _ m | .barwait g mig _ m | .barinv g mig m => memFits true g mig m
  | .exit .. | .yield .. | .migrate .. | .getidHandle .. | .getidLogicalIndex .. | .getidBank .. | .getidSlot ..
  | .getidModulePosition .. | .getidCycleCounter .. | .cpy .. | .cwait .. => true
  | .fill _ a b _ => srcsOk [a, b]
  | .qctlSetRoles .. | .qctlReadRoles .. | .qctlQueueCounts .. | .qctlDiscard .. => true
  | .wdq g _ m | .launch g _ m => memFits true g false m
  | .vclaim _ _ lo hi | .vren _ _ lo hi => lo.toNat ≤ hi.toNat
  | .vrenSetn .. | .vrenStat .. | .vrel .. | .vfence .. => true
  | .vld g t _ m | .vst g t _ m => memType t && memFits true g false m
  | .vgth _ t _ _ _ | .vsct _ t _ _ _ => memType t
  | .vadd _ t rm _ _ _ | .vsub _ t rm _ _ _ | .vmul _ t rm _ _ _ => arithType t && vroundOk t rm
  | .vfma _ t rm _ _ _ | .vdiv _ t rm _ _ _ => floatType t && rm != .rst
  | .vmin _ t _ _ _ | .vmax _ t _ _ _ => arithType t
  | .vabs _ t _ _ | .vneg _ t _ _ => t == .f32 || t == .f64 || t == .s32 || t == .s64
  | .vand _ t _ _ _ | .vor _ t _ _ _ | .vxor _ t _ _ _ | .vshl _ t _ _ _ | .vshr _ t _ _ _ => wideInt t
  | .vcmp _ t cc _ _ _ => arithType t && (floatType t || cmpCond cc)
  | .vsel _ t _ _ _ => arithType t
  | .vcvt _ ty src h rm _ _ => vcvtOk ty src h rm
  | .vredAdd _ t _ _ | .vredMin _ t _ _ | .vredMax _ t _ _ => arithType t
  | .vdot _ t _ _ _ => floatType t
  | .vperm _ t _ _ _ | .vbcst _ t _ _ => arithType t
  | .vexp2 _ rm _ _ | .vlog2 _ rm _ _ | .vrsq _ rm _ _ => rm != .rst
  | .vrcp _ t rm _ _ | .vsqrt _ t rm _ _ => floatType t && rm != .rst
  | .viota _ t _ => wideInt t
  | .vscanAdd _ t _ _ | .vscanMin _ t _ _ | .vscanMax _ t _ _ => arithType t
  | .dfrom _ f64 h _ _ => !(f64 && h)
  | .dto _ f64 h rm _ _ => !(f64 && h) && rm != .rst
  | .dld g _ m | .dldRn g _ m | .dst g _ m => memFits true g false m
  | .dcos .. | .ddot .. | .dscl .. | .dadd .. | .dlerp .. | .dneg .. | .dproj .. | .dnorm .. | .dsetn .. | .dmov ..
  | .dtest .. => true
  | .mmul .. | .mmula .. | .mzero .. | .mld .. => true
  | .mst _ t rm _ _ => (t == .f32 || t == .bf16 || t == .f16 || t == .e4m3 || t == .e5m2) && rm != .rst
  | .mscl _ rm _ _ => rm != .rst
  | .mwait .. | .mgovRead .. | .mgovReadClear .. | .qcmd .. | .qwait .. | .rngres .. | .rngrel .. => true
  | .rnd _ _ _ c => c.val ≤ 22
  | .hdecl .. | .hdrop .. => true
  | .hput _ a b c => srcsOk [a, b, c]
  | .hget _ _ _ c | .hgetn _ _ _ c => c.val ≤ 22
  | .hfront _ a _ => a.val ≤ 21
  | .tdecl .. | .swwait .. => true
  | .eprog _ a b | .sweep _ a b => srcsOk [a, b]
  | .skset _ a b c | .wake _ a b c => srcsOk [a, b, c]
  | .tret .. => true
  | .sysr g _ n => prefixesFit true g.isSome false (immCount false 5 n) && sysReadable n
  | .sysw g _ n => prefixesFit true g.isSome false (immCount false 5 n) && sysWritable n && n != 0x24 && n != 0x28 && n != 0x29
  | .resume .. | .kill .. | .retry .. | .replay .. => true
  | .tlbinv _ a b => srcsOk [a, b]
  | .syswQload .. | .syswEwt .. | .syswSmpctl .. => true
  | .dbgctlCrash .. | .dbgctlGo .. | .qtailWrite .. | .handlerBind .. | .migrationPacket .. | .inboxBind .. | .dequeBind ..
  | .workPacketBind .. | .preemptedReturn .. | .steal .. | .dequeSpill .. | .dequeRefill .. | .fillApply ..
  | .messageOffer .. | .relayOffer .. | .sendTimeout .. | .requestRetry .. | .accessPerform .. | .accessReply ..
  | .fenceProbe .. | .claimGrant .. | .vectorDispatch .. | .vectorPoolCommit .. | .exceptionDelivery .. | .matrixStart ..
  | .matrixCommit .. | .governorWindow .. | .matrixTurn .. | .matrixAbandon .. | .copyIssue .. | .copyBurst ..
  | .copyComplete .. | .copyFirmwareFinish .. | .qcmdComplete .. | .qcmdResume .. | .wdqAnswer .. | .leaseGrant ..
  | .leaseRelease .. | .preempt .. | .contextSwitchOut .. | .contextRestore .. | .packetLaunch .. | .packetWaitev ..
  | .waitevWriteReport .. | .packetSignal .. | .packetSetdet .. | .packetQfence .. | .launchPlace .. | .launchRetire ..
  | .epochCompletion .. | .sweepPass .. | .slabExchange .. | .sweepComplete .. | .crashHalt .. | .pageWalk .. | .errorRetry ..
  | .unitOutOfService .. | .taskReplay .. | .resetBoot | .recoveryImage .. | .attestationRequest .. | .contextCreate ..
  | .jobJoin .. | .windowBind .. | .linkUp .. | .linkRekey .. | .flitReceive .. | .laneFail .. | .collContribution ..
  | .hostBarAccess .. | .samplingPulse | .unassignedEncoding .. | .contextFinalRelease .. | .sliceWindowGrant ..
  | .hostDebugRequest .. => true

/-- An event of the device, not an instruction of a strand: the rows of the table from DBGCTL_CRASH on. -/
def Instr.isEvent : Instr → Bool
  | .dbgctlCrash .. | .dbgctlGo .. | .qtailWrite .. | .handlerBind .. | .migrationPacket .. | .inboxBind .. | .dequeBind ..
  | .workPacketBind .. | .preemptedReturn .. | .steal .. | .dequeSpill .. | .dequeRefill .. | .fillApply ..
  | .messageOffer .. | .relayOffer .. | .sendTimeout .. | .requestRetry .. | .accessPerform .. | .accessReply ..
  | .fenceProbe .. | .claimGrant .. | .vectorDispatch .. | .vectorPoolCommit .. | .exceptionDelivery .. | .matrixStart ..
  | .matrixCommit .. | .governorWindow .. | .matrixTurn .. | .matrixAbandon .. | .copyIssue .. | .copyBurst ..
  | .copyComplete .. | .copyFirmwareFinish .. | .qcmdComplete .. | .qcmdResume .. | .wdqAnswer .. | .leaseGrant ..
  | .leaseRelease .. | .preempt .. | .contextSwitchOut .. | .contextRestore .. | .packetLaunch .. | .packetWaitev ..
  | .waitevWriteReport .. | .packetSignal .. | .packetSetdet .. | .packetQfence .. | .launchPlace .. | .launchRetire ..
  | .epochCompletion .. | .sweepPass .. | .slabExchange .. | .sweepComplete .. | .crashHalt .. | .pageWalk .. | .errorRetry ..
  | .unitOutOfService .. | .taskReplay .. | .resetBoot | .recoveryImage .. | .attestationRequest .. | .contextCreate ..
  | .jobJoin .. | .windowBind .. | .linkUp .. | .linkRekey .. | .flitReceive .. | .laneFail .. | .collContribution ..
  | .hostBarAccess .. | .samplingPulse | .contextFinalRelease .. | .sliceWindowGrant .. | .hostDebugRequest .. => true
  | _ => false

end Sys2Proof
end

