-- ==== Sys2Proof/Decode.lean ====
section
/-! DEFINITION. The decoder of R47, total on any words, the encoder of R13, R41, and the table-word decoder of the host. -/

namespace Sys2Proof

/-! ### Fields -/

/-- The register that a 5-bit field names (R42). -/
def Reg.ofField (f : BitVec 5) : Reg :=
  if h : f.toNat < 24 then .g ⟨f.toNat, h⟩
  else if f.toNat < 28 then .q (Fin.ofNat 4 (f.toNat - 24))
  else .s (Fin.ofNat 4 (f.toNat - 28))

/-- The 5-bit field of a register (R42). -/
def Reg.field : Reg → BitVec 5
  | .g i => BitVec.ofNat 5 i.val
  | .q i => BitVec.ofNat 5 (24 + i.val)
  | .s i => BitVec.ofNat 5 (28 + i.val)

/-- The code of a size (R39). -/
def Size.code : Size → BitVec 3
  | .s64 => 0 | .s32 => 1 | .s16 => 2 | .s8 => 3 | .n64 => 4 | .n32 => 5 | .n16 => 6 | .n8 => 7

def Size.ofCode (c : BitVec 3) : Size :=
  match c.toNat with
  | 0 => .s64 | 1 => .s32 | 2 => .s16 | 3 => .s8 | 4 => .n64 | 5 => .n32 | 6 => .n16 | _ => .n8

def FSize.code : FSize → BitVec 3
  | .f64 => 0 | .f32 => 1

def CvtDst.code : CvtDst → BitVec 3
  | .f64 => 0 | .f32 => 1 | .f16 => 2 | .bf16 => 3 | .s64 => 4 | .n64 => 5 | .s32 => 6 | .n32 => 7

def CvtDst.ofCode (c : BitVec 3) : CvtDst :=
  match c.toNat with
  | 0 => .f64 | 1 => .f32 | 2 => .f16 | 3 => .bf16 | 4 => .s64 | 5 => .n64 | 6 => .s32 | _ => .n32

/-- The element-type codes (R40). -/
def EType.code : EType → BitVec 5
  | .f32 => 0x00 | .f64 => 0x01 | .bf16 => 0x02 | .f16 => 0x03 | .e4m3 => 0x04 | .e5m2 => 0x05 | .px8 => 0x06
  | .mx4 => 0x08 | .mx6a => 0x09 | .mx6b => 0x0A | .mx8a => 0x0B | .mx8b => 0x0C | .mxi8 => 0x0D
  | .s8 => 0x10 | .s16 => 0x11 | .s32 => 0x12 | .s64 => 0x13 | .n8 => 0x14 | .n16 => 0x15 | .n32 => 0x16 | .n64 => 0x17

/-- The type of a code; none for the reserved codes (R40). -/
def EType.ofCode (c : BitVec 5) : Option EType :=
  match c.toNat with
  | 0x00 => some .f32 | 0x01 => some .f64 | 0x02 => some .bf16 | 0x03 => some .f16 | 0x04 => some .e4m3
  | 0x05 => some .e5m2 | 0x06 => some .px8 | 0x08 => some .mx4 | 0x09 => some .mx6a | 0x0A => some .mx6b
  | 0x0B => some .mx8a | 0x0C => some .mx8b | 0x0D => some .mxi8 | 0x10 => some .s8 | 0x11 => some .s16
  | 0x12 => some .s32 | 0x13 => some .s64 | 0x14 => some .n8 | 0x15 => some .n16 | 0x16 => some .n32
  | 0x17 => some .n64 | _ => none

def Rm.code : Rm → BitVec 3
  | .rne => 0 | .rtz => 1 | .rup => 2 | .rdn => 3 | .rst => 4

def Rm.ofCode (c : BitVec 3) : Rm :=
  match c.toNat with
  | 0 => .rne | 1 => .rtz | 2 => .rup | 3 => .rdn | _ => .rst

def Cond.code : Cond → BitVec 5
  | .eq => 0 | .ne => 1 | .lt => 2 | .le => 3 | .gt => 4 | .ge => 5 | .uo => 6 | .or => 7

def Cond.ofCode (c : BitVec 5) : Cond :=
  match c.toNat with
  | 0 => .eq | 1 => .ne | 2 => .lt | 3 => .le | 4 => .gt | 5 => .ge | 6 => .uo | _ => .or

def Scope.code : Scope → BitVec 3
  | .strand => 0 | .core => 1 | .cluster => 2 | .die => 3 | .pkg => 4 | .fabric => 5 | .sys => 6

def Scope.ofCode (c : BitVec 3) : Scope :=
  match c.toNat with
  | 0 => .strand | 1 => .core | 2 => .cluster | 3 => .die | 4 => .pkg | 5 => .fabric | _ => .sys

def MOrd.code : MOrd → BitVec 2
  | .plain => 0 | .acq => 1 | .rel => 2 | .ar => 3

def MOrd.ofCode (c : BitVec 2) : MOrd :=
  match c.toNat with
  | 0 => .plain | 1 => .acq | 2 => .rel | _ => .ar

/-! ### Prefixes (R33-R41) -/

/-- The prefixes met so far: how many words, their payloads and where each stands. -/
structure Pre where
  n : Nat := 0
  imms : List (BitVec 11) := []
  immAt : Nat := 0
  ext : Option (BitVec 11 × Nat) := none
  page : Option (BitVec 11 × Nat) := none
  qual : Option (BitVec 11 × Nat) := none
deriving DecidableEq, Repr

/-- What one more word does to the prefixes: another prefix, the base word, or ILLEGAL with its cause (R47). -/
inductive Scan where
  | more (p : Pre)
  | base (p : Pre) (w : Half)
  | bad (cause : BitVec 4) (at_ : Nat)
deriving DecidableEq, Repr

/-- One word of the loop of R47. -/
def scanWord (p : Pre) (w : Half) : Scan :=
  if w.extractLsb' 13 3 != 0b111#3 then .base p w
  else if p.n == 4 then .bad 3 4
  else
    let pay := w.extractLsb' 0 11
    match (w.extractLsb' 11 2).toNat with
    | 0 =>
      if p.imms.length == 3 then .bad 1 p.n
      else .more { p with n := p.n + 1, imms := p.imms ++ [pay], immAt := if p.imms.isEmpty then p.n else p.immAt }
    | 1 => if p.ext.isSome then .bad 1 p.n else .more { p with n := p.n + 1, ext := some (pay, p.n) }
    | 2 => if p.page.isSome then .bad 1 p.n else .more { p with n := p.n + 1, page := some (pay, p.n) }
    | _ => if p.qual.isSome then .bad 1 p.n else .more { p with n := p.n + 1, qual := some (pay, p.n) }

/-! ### The opcode map (R43, R44) -/

/-- Instruction formats (R43). `at_ true` admits IMM words (`amo`), `at_ false` does not (`cas`, R135). -/
inductive Fmt where
  | z | r1 | rr | rrr | ri | rri | j | i | m | at_ (imm : Bool) | d
deriving DecidableEq, Repr

/-- What a row of the opcode map fixes: the format, the memory reading of QUAL, the rounding codes admitted
(0 none, 1 all but stochastic, 2 all), whether PAGE names a type, and the largest variant. -/
structure OpRow where
  fmt : Fmt
  mem : Bool := false
  rnd : Nat := 0
  typed : Bool := false
  variants : Nat := 0
deriving DecidableEq, Repr

def opRow0 (major : Nat) : Option OpRow :=
  if major ≤ 13 then some ⟨.rrr, false, 0, false, 0⟩
  else if major ≤ 15 then some ⟨.rr, false, 0, false, 0⟩
  else if major ≤ 18 then some ⟨.rrr, false, 0, false, 0⟩
  else match major with
  | 19 => some ⟨.rr, false, 0, false, 0⟩
  | 20 => some ⟨.ri, false, 0, false, 0⟩
  | 21 => some ⟨.rri, false, 0, false, 0⟩
  | 22 => some ⟨.m, true, 0, false, 0⟩
  | 23 => some ⟨.rrr, false, 0, false, 0⟩
  | 24 => some ⟨.rri, false, 0, false, 0⟩
  | 25 => some ⟨.ri, false, 0, false, 0⟩
  | 26 | 27 => some ⟨.rri, false, 0, false, 0⟩
  | 28 | 29 => some ⟨.j, false, 0, false, 0⟩
  | 30 => some ⟨.r1, false, 0, false, 0⟩
  | 31 => some ⟨.j, false, 0, false, 0⟩
  | 32 => some ⟨.z, false, 0, false, 0⟩
  | 33 => some ⟨.ri, false, 0, false, 0⟩
  | 34 => some ⟨.i, false, 0, false, 0⟩
  | 35 => some ⟨.z, false, 0, false, 0⟩
  | 36 | 37 | 38 | 39 => some ⟨.rrr, false, 1, false, 0⟩
  | 40 | 41 | 42 => some ⟨.rrr, false, 0, false, 0⟩
  | 43 => some ⟨.rr, false, 1, false, 0⟩
  | 44 | 45 | 46 | 47 => some ⟨.m, true, 0, false, 0⟩
  | 48 => some ⟨.at_ true, true, 0, false, 0⟩
  | 49 => some ⟨.at_ false, true, 0, false, 0⟩
  | 50 => some ⟨.z, true, 0, false, 0⟩
  | 51 | 52 => some ⟨.m, true, 0, false, 0⟩
  | _ => none

def opRow1 (major : Nat) : Option OpRow :=
  match major with
  | 0 => some ⟨.rri, false, 0, false, 0⟩
  | 1 => some ⟨.ri, false, 0, false, 0⟩
  | 2 => some ⟨.rrr, false, 0, false, 0⟩
  | 3 => some ⟨.ri, false, 0, false, 0⟩
  | 4 | 6 => some ⟨.rr, false, 0, false, 0⟩
  | 5 => some ⟨.m, true, 0, false, 0⟩
  | 7 | 8 => some ⟨.z, false, 0, false, 0⟩
  | 9 => some ⟨.r1, false, 0, false, 0⟩
  | 10 => some ⟨.ri, false, 0, false, 0⟩
  | 11 => some ⟨.d, false, 0, false, 0⟩
  | 12 => some ⟨.ri, false, 0, false, 0⟩
  | 13 | 14 | 15 | 16 => some ⟨.m, true, 0, false, 0⟩
  | 17 => some ⟨.rri, false, 0, false, 0⟩
  | 18 => some ⟨.ri, false, 0, false, 0⟩
  | 19 | 20 => some ⟨.m, true, 0, false, 0⟩
  | _ => none

def opRow2 (major : Nat) : Option OpRow :=
  match major with
  | 0 => some ⟨.ri, false, 0, false, 0⟩
  | 1 => some ⟨.ri, false, 0, false, 2⟩
  | 2 => some ⟨.z, false, 0, false, 0⟩
  | 3 | 4 => some ⟨.m, true, 0, true, 0⟩
  | 5 | 6 => some ⟨.rrr, false, 0, true, 0⟩
  | 7 | 8 | 9 | 10 => some ⟨.rrr, false, 1, true, 0⟩
  | 11 | 12 => some ⟨.rrr, false, 0, true, 0⟩
  | 13 | 14 => some ⟨.rr, false, 0, true, 0⟩
  | 15 | 16 | 17 | 18 | 19 | 20 | 21 => some ⟨.rrr, false, 0, true, 0⟩
  | 22 => some ⟨.rr, false, 2, true, 1⟩
  | 23 => some ⟨.rr, false, 0, true, 0⟩
  | 24 | 25 => some ⟨.rrr, false, 0, true, 0⟩
  | 26 => some ⟨.rr, false, 0, true, 0⟩
  | 27 | 28 | 29 | 30 | 31 => some ⟨.rr, false, 1, true, 0⟩
  | 32 => some ⟨.rrr, false, 1, true, 0⟩
  | 33 => some ⟨.r1, false, 0, true, 0⟩
  | 34 => some ⟨.rr, false, 0, true, 0⟩
  | 35 => some ⟨.z, false, 0, false, 0⟩
  | _ => none

def opRow3 (major : Nat) : Option OpRow :=
  match major with
  | 0 => some ⟨.rr, false, 0, true, 1⟩
  | 1 => some ⟨.rr, false, 1, true, 1⟩
  | 2 => some ⟨.m, true, 0, false, 1⟩
  | 3 => some ⟨.m, true, 0, false, 0⟩
  | 4 | 5 => some ⟨.rrr, false, 0, true, 0⟩
  | 6 | 9 | 11 | 12 | 13 | 14 => some ⟨.rr, false, 0, false, 0⟩
  | 7 | 8 | 10 => some ⟨.rrr, false, 0, false, 0⟩
  | _ => none

def opRow4 (major : Nat) : Option OpRow :=
  match major with
  | 0 | 1 | 3 | 8 | 10 => some ⟨.d, false, 0, false, 0⟩
  | 2 | 11 => some ⟨.r1, false, 0, false, 0⟩
  | 4 => some ⟨.d, false, 1, true, 0⟩
  | 5 => some ⟨.d, false, 1, false, 0⟩
  | 6 | 9 => some ⟨.z, false, 0, false, 0⟩
  | 7 => some ⟨.ri, false, 0, false, 0⟩
  | 12 => some ⟨.rrr, false, 0, false, 0⟩
  | _ => none

def opRow5 (major : Nat) : Option OpRow :=
  match major with
  | 0 | 4 => some ⟨.rr, false, 0, false, 0⟩
  | 1 | 2 | 3 => some ⟨.rrr, false, 0, false, 0⟩
  | 5 => some ⟨.r1, false, 0, false, 0⟩
  | _ => none

def opRow6 (major : Nat) : Option OpRow :=
  match major with
  | 0 | 1 | 2 => some ⟨.rr, false, 0, false, 0⟩
  | 3 => some ⟨.r1, false, 0, false, 0⟩
  | 4 | 5 => some ⟨.rrr, false, 0, false, 0⟩
  | _ => none

def opRow7 (major : Nat) : Option OpRow :=
  match major with
  | 0 | 6 => some ⟨.z, false, 0, false, 0⟩
  | 1 | 2 => some ⟨.ri, false, 0, false, 0⟩
  | 3 | 4 | 5 => some ⟨.r1, false, 0, false, 0⟩
  | 7 => some ⟨.rr, false, 0, false, 0⟩
  | _ => none

/-- The opcode map of R44; none for the majors of R45. -/
def opRow (page major : Nat) : Option OpRow :=
  match page with
  | 0 => opRow0 major | 1 => opRow1 major | 2 => opRow2 major | 3 => opRow3 major
  | 4 => opRow4 major | 5 => opRow5 major | 6 => opRow6 major | 7 => opRow7 major
  | _ => none

/-! ### Fields of one instruction -/

/-- All fields of an instruction, with the index of the word that holds each. -/
structure Fields where
  page : Nat
  major : Nat
  a : BitVec 5
  b : BitVec 5
  c : Option (BitVec 5)
  g : Option Guard
  k : Nat
  sImm : Word
  uImm : Word
  ty : BitVec 5
  variant : BitVec 2
  q : BitVec 11
  iBase : Nat
  iExt : Nat
  iQual : Nat
  iImm : Nat
  iPage : Nat
deriving DecidableEq, Repr

/-- A failed check: the cause of R48 and the word at which it stands. -/
abbrev Checked (α : Type) := Except (BitVec 4 × Nat) α

/-- A check that fails with `cause` at word `at_`. -/
def check (ok : Bool) (cause : BitVec 4) (at_ : Nat) : Checked Unit :=
  if ok then .ok () else .error (cause, at_)

/-- Width of the base word's immediate field (R34, R43). -/
def Fmt.immBits : Fmt → Nat
  | .ri => 5
  | .j | .i => 10
  | _ => 0

/-- The format has an immediate (R34, R43). -/
def Fmt.hasImm : Fmt → Bool
  | .ri | .rri | .j | .i | .m | .at_ true => true
  | _ => false

/-- The format's third operand may be named by EXT (R43). -/
def Fmt.usesC : Fmt → Bool
  | .rrr | .m | .at_ _ => true
  | _ => false

/-- The raw immediate as a number (R34): the IMM payloads, first most significant, then the base field. -/
def rawImm (imms : List (BitVec 11)) (base b : Nat) : Nat :=
  imms.foldl (fun acc p => acc * 2048 + p.toNat) 0 * 2 ^ b + base

/-- A w-bit number sign-extended to 64 bits (R52). -/
def sextNat (w n : Nat) : Word :=
  if w == 0 then 0
  else if n ≥ 2 ^ (w - 1) then BitVec.ofInt 64 ((n : Int) - 2 ^ w) else BitVec.ofNat 64 n

/-- The fields of a word sequence on a row of the opcode map. -/
def fieldsOf (p : Pre) (w : Half) (page : Nat) (row : OpRow) : Fields :=
  let b := row.fmt.immBits
  let k := p.imms.length
  let raw := rawImm p.imms (w.toNat % 2 ^ b) b
  let ext := (p.ext.map (·.1)).getD 0
  let pg := (p.page.map (·.1)).getD 0
  { page := page
    major := (w.extractLsb' 10 6).toNat
    a := w.extractLsb' 5 5
    b := w.extractLsb' 0 5
    c := p.ext.map fun e => e.1.extractLsb' 6 5
    g := if p.ext.isSome && ext.getLsbD 5 then some ⟨ext.getLsbD 4, ext.extractLsb' 0 4⟩ else none
    k := k
    sImm := sextNat (11 * k + b) raw
    uImm := BitVec.ofNat 64 raw
    ty := pg.extractLsb' 2 5
    variant := pg.extractLsb' 0 2
    q := (p.qual.map (·.1)).getD 0
    iBase := p.n
    iExt := (p.ext.map (·.2)).getD p.n
    iQual := (p.qual.map (·.2)).getD p.n
    iImm := if k == 0 then p.n else p.immAt
    iPage := (p.page.map (·.2)).getD p.n }

/-- The modifier of the operation reading (R38). -/
def Fields.mod (x : Fields) : BitVec 5 := x.q.extractLsb' 3 5

/-- The size/class field (R38). -/
def Fields.size (x : Fields) : BitVec 3 := x.q.extractLsb' 0 3

/-- The rounding field, or the scope of the memory reading (R38). -/
def Fields.hi (x : Fields) : BitVec 3 := x.q.extractLsb' 8 3

/-- Cause 5 (R47): a prefix kind or field that the format does not use; unused IMM words stand at the first of them, a missing EXT at the base word
(DESIGN CHOICE, log entry 85). A variant that the entry does not define gives cause 5 on `vcvt` too, where both types have one view (R37, R230; DEDUCED, log
entry 110). -/
def checkUnused (x : Fields) (p : Pre) (row : OpRow) : Checked Unit := do
  check (p.imms.isEmpty || row.fmt.hasImm) 5 p.immAt
  let ext := (p.ext.map (·.1)).getD 0
  check (p.ext.isNone || ext.getLsbD 5 || ext.extractLsb' 0 5 == 0) 5 x.iExt
  check (p.ext.isNone || row.fmt.usesC || x.c == some 31) 5 x.iExt
  match row.fmt with
  | .rrr | .at_ _ => check p.ext.isSome 5 x.iBase
  | .z => check (x.a == 0 && x.b == 0) 5 x.iBase
  | .r1 => check (x.b == 0) 5 x.iBase
  | _ => pure ()
  check (row.typed || x.ty == 0) 5 x.iPage
  check (x.variant.toNat ≤ row.variants) 5 x.iPage

/-- Cause 6 (R47): a reserved field value. -/
def checkReserved (x : Fields) (row : OpRow) : Checked Unit := do
  if row.mem then check (x.hi != 7) 6 x.iQual
  else
    check (x.hi.toNat ≤ 4 && (x.hi == 0 || row.rnd != 0) && (x.hi != 4 || row.rnd == 2)) 6 x.iQual
  check (!row.typed || (EType.ofCode x.ty).isSome) 6 x.iPage
  let isInt := row.typed && ((EType.ofCode x.ty).map EType.isInt).getD false
  match x.page, x.major with
  | 0, 23 | 0, 24 => check (x.mod.toNat < 6) 6 x.iQual
  | 0, 42 => check (x.mod.toNat < 8) 6 x.iQual
  | 0, 43 => check (EType.ofCode x.mod).isSome 6 x.iQual
  | 2, 7 | 2, 8 | 2, 9 => check (x.hi == 0 || !isInt) 6 x.iQual
  | 2, 20 => check (x.mod.toNat < (if isInt then 6 else 8)) 6 x.iQual
  | 2, 22 => do
      check (EType.ofCode x.mod).isSome 6 x.iQual
      check (!(isInt && x.hi == 4)) 6 x.iQual
  | _, _ => pure ()

/-! ### Building the instruction: cause 7 -/

/-- A general register g0-g23 in a field (R42), else cause 7 (DEDUCED, log entry 72). -/
def gField (f : BitVec 5) (at_ : Nat) : Checked (Fin 24) :=
  if h : f.toNat < 24 then .ok ⟨f.toNat, h⟩ else .error (7, at_)

/-- A field that names one of 16 registers of a class (R42), else cause 7 (DEDUCED, log entry 72). -/
def idx16 (f : BitVec 5) (at_ : Nat) : Checked (BitVec 4) :=
  if f.toNat < 16 then .ok (f.extractLsb' 0 4) else .error (7, at_)

/-- A field that names one of 8 registers of a class (R42), else cause 7 (DEDUCED, log entry 72). -/
def idx8 (f : BitVec 5) (at_ : Nat) : Checked (BitVec 3) :=
  if f.toNat < 8 then .ok (f.extractLsb' 0 3) else .error (7, at_)

def Fields.cField (x : Fields) : BitVec 5 := x.c.getD 31

/-- The source fields are not one queue twice (R50). -/
def checkSrcs (x : Fields) (rs : List Reg) : Checked Unit := check (srcsOk rs) 7 x.iBase

/-- The modifier is zero (R38), else cause 7 (DEDUCED, log entry 72). -/
def noMod (x : Fields) : Checked Unit := check (x.mod == 0) 7 x.iQual

/-- The size is zero. -/
def noSize (x : Fields) : Checked Unit := check (x.size == 0) 7 x.iQual

/-- Modifier and size are zero (R38, R39), else cause 7 (DEDUCED, log entry 72). -/
def noModSize (x : Fields) : Checked Unit := check (x.mod == 0 && x.size == 0) 7 x.iQual

/-- The whole QUAL word is zero. -/
def noQual (x : Fields) : Checked Unit := check (x.q == 0) 7 x.iQual

/-- The memory reading without its size. -/
def Fields.memq (x : Fields) : MemQ :=
  { scope := Scope.ofCode x.hi, ord := MOrd.ofCode (x.q.extractLsb' 6 2)
    mig := x.q.getLsbD 5, fe := x.q.getLsbD 4, keep := x.q.getLsbD 3 }

/-- The format-M operand (R43). -/
def Fields.memOp (x : Fields) : Checked Mem := do
  let base ← gField x.b x.iBase
  if x.cField == 31 then pure ⟨base, .disp x.sImm⟩
  else do
    let i ← gField x.cField x.iExt
    check (x.k == 0) 7 x.iImm
    pure ⟨base, .index i⟩

/-- An integer ALU instruction of format RRR (R108). -/
def buildAlu (x : Fields) (f : Option Guard → Size → Reg → Reg → Reg → Instr) : Checked Instr := do
  noMod x
  let b := Reg.ofField x.b
  let c := Reg.ofField x.cField
  checkSrcs x [b, c]
  pure (f x.g (Size.ofCode x.size) (Reg.ofField x.a) b c)

/-- A scalar floating-point instruction of format RRR (R120). -/
def buildFp (x : Fields) (useA : Bool) (f : FSize → Rm → Reg → Reg → Reg → Instr) : Checked Instr := do
  noMod x
  check (x.size.toNat < 2) 7 x.iQual
  let a := Reg.ofField x.a
  let b := Reg.ofField x.b
  let c := Reg.ofField x.cField
  checkSrcs x (if useA then [a, b, c] else [b, c])
  pure (f (if x.size == 0 then .f64 else .f32) (Rm.ofCode x.hi) a b c)

/-- An atomic of format AT (R132). -/
def buildAmo (x : Fields) : Checked Instr := do
  let q := x.memq
  check (x.k < 2 && x.uImm.toNat ≤ 8) 7 x.iImm
  check (!q.fe && !q.keep) 7 x.iQual
  let a := Reg.ofField x.a
  let b ← gField x.b x.iBase
  let c := Reg.ofField x.cField
  let sz := Size.ofCode x.size
  let f : FSize := if x.size == 0 then .f64 else .f32
  match x.uImm.toNat with
  | 7 => do
    check (x.size.toNat < 2) 7 x.iQual
    pure (.amoFadd x.g f q a b c)
  | 8 => do
    check (x.size.toNat < 2) 7 x.iQual
    checkSrcs x [a, c]
    pure (.amoFaddSeq x.g f q a b c)
  | n => do
    check (wordSize sz) 7 x.iQual
    match n with
    | 0 => pure (.amoSwap x.g sz q a b c)
    | 1 => pure (.amoAdd x.g sz q a b c)
    | 2 => pure (.amoAnd x.g sz q a b c)
    | 3 => pure (.amoOr x.g sz q a b c)
    | 4 => pure (.amoXor x.g sz q a b c)
    | 5 => pure (.amoMin x.g sz q a b c)
    | _ => pure (.amoMax x.g sz q a b c)

/-- `pset` (R115). -/
def buildPset (x : Fields) : Checked Instr := do
  noModSize x
  let p ← idx16 x.a x.iBase
  check (x.uImm.toNat < 65536) 7 x.iImm
  check (x.uImm.extractLsb' 8 4 == 0) 7 x.iImm
  let nx := x.uImm.getLsbD 13
  let ny := x.uImm.getLsbD 12
  let px := x.uImm.extractLsb' 4 4
  let py := x.uImm.extractLsb' 0 4
  match (x.uImm.extractLsb' 14 2).toNat with
  | 0 => pure (.psetAnd x.g p nx px ny py)
  | 1 => pure (.psetOr x.g p nx px ny py)
  | 2 => pure (.psetXor x.g p nx px ny py)
  | _ => do
    check (!ny && px == 0 && py == 0) 7 x.iImm
    pure (.psetConst x.g p nx)

/-- The bit field of `bfx` and `bfi` (R113). -/
def Fields.bitField (x : Fields) : Checked (BitVec 6 × BitVec 6) := do
  check (x.k != 0) 7 x.iBase
  check (x.uImm.toNat < 4096) 7 x.iImm
  let pos := x.uImm.extractLsb' 6 6
  let len := x.uImm.extractLsb' 0 6
  check (pos.toNat + len.toNat + 1 ≤ 64) 7 x.iImm
  pure (pos, len)

/-- Page 0 (R106-R140). -/
def build0 (x : Fields) : Checked Instr :=
  let a := Reg.ofField x.a
  let b := Reg.ofField x.b
  let c := Reg.ofField x.cField
  let sz := Size.ofCode x.size
  match x.major with
  | 0 => buildAlu x .add
  | 1 => buildAlu x .sub
  | 2 => buildAlu x .mul
  | 3 => buildAlu x .mulh
  | 4 => buildAlu x .div
  | 5 => buildAlu x .rem
  | 6 => buildAlu x .and
  | 7 => buildAlu x .or
  | 8 => buildAlu x .xor
  | 9 => buildAlu x .andn
  | 10 => buildAlu x .shl
  | 11 => buildAlu x .shr
  | 12 => buildAlu x .sar
  | 13 => buildAlu x .rol
  | 14 => do noMod x; pure (.clz x.g sz a b)
  | 15 => do noMod x; pure (.popc x.g sz a b)
  | 16 => buildAlu x .min
  | 17 => buildAlu x .max
  | 18 => do
    noSize x
    check (!x.q.getLsbD 7) 7 x.iQual
    checkSrcs x [b, c]
    pure (.sel x.g a b c (x.q.extractLsb' 3 4))
  | 19 => do noMod x; pure (.mov x.g sz a b)
  | 20 => do noModSize x; pure (.li x.g a x.sImm)
  | 21 => do noMod x; pure (.addi x.g sz a b x.sImm)
  | 22 => do noQual x; let m ← x.memOp; pure (.lea x.g a m)
  | 23 => do
    let p ← idx16 x.a x.iBase
    checkSrcs x [b, c]
    pure (.cmp x.g sz (Cond.ofCode x.mod) p b c)
  | 24 => do
    let p ← idx16 x.a x.iBase
    pure (.cmpi x.g sz (Cond.ofCode x.mod) p b x.sImm)
  | 25 => buildPset x
  | 26 => do
    noMod x
    check (x.size == 0 || x.size == 4) 7 x.iQual
    let f ← x.bitField
    pure (.bfx x.g (x.size == 0) a b f.1 f.2)
  | 27 => do
    noModSize x
    let f ← x.bitField
    checkSrcs x [a, b]
    pure (.bfi x.g a b f.1 f.2)
  | 28 => do
    noModSize x
    match x.g with
    | some g => pure (.br g x.sImm)
    | none => .error (7, x.iBase)
  | 29 => do
    noModSize x
    check x.g.isNone 7 x.iExt
    pure (.jmp x.sImm)
  | 30 => do noModSize x; pure (.jr x.g a)
  | 31 => do noModSize x; pure (.call x.g x.sImm)
  | 32 => do noModSize x; pure (.ret x.g)
  | 33 => do noModSize x; pure (.loop x.g a x.sImm)
  | 34 => do noModSize x; pure (.trap x.g x.uImm)
  | 35 => do noModSize x; pure (.nop x.g)
  | 36 => buildFp x false (.fadd x.g)
  | 37 => buildFp x false (.fsub x.g)
  | 38 => buildFp x false (.fmul x.g)
  | 39 => buildFp x true (.ffma x.g)
  | 40 => buildFp x false fun f _ a b c => .fmin x.g f a b c
  | 41 => buildFp x false fun f _ a b c => .fmax x.g f a b c
  | 42 => do
    check (x.size.toNat < 2) 7 x.iQual
    let p ← idx16 x.a x.iBase
    checkSrcs x [b, c]
    pure (.fcmp x.g (if x.size == 0 then .f64 else .f32) (Cond.ofCode x.mod) p b c)
  | 43 => do
    let src := (EType.ofCode x.mod).getD .px8
    check (fcvtOk (CvtDst.ofCode x.size) src) 7 x.iQual
    pure (.fcvt x.g (CvtDst.ofCode x.size) src (Rm.ofCode x.hi) a b)
  | 44 => do check (ldstOk sz x.memq) 7 x.iQual; let m ← x.memOp; pure (.ld x.g sz x.memq a m)
  | 45 => do check (ldstOk sz x.memq) 7 x.iQual; let m ← x.memOp; pure (.st x.g sz x.memq a m)
  | 46 => do
    check ((x.size == 0 || x.size == 4) && x.memq.ord == .plain && !x.memq.fe) 7 x.iQual
    let m ← x.memOp
    pure (.ldf x.g sz x.memq a m)
  | 47 => do
    check ((x.size == 0 || x.size == 4) && x.memq.ord == .plain && !x.memq.fe && !x.memq.keep) 7 x.iQual
    let m ← x.memOp
    pure (.stf x.g sz x.memq a m)
  | 48 => buildAmo x
  | 49 => do
    check (wordSize sz && !x.memq.fe && !x.memq.keep) 7 x.iQual
    let b ← gField x.b x.iBase
    checkSrcs x [a, c]
    pure (.cas x.g sz x.memq a b c)
  | 50 => do
    check (x.q.extractLsb' 0 8 == 0) 7 x.iQual
    pure (.fence x.g (Scope.ofCode x.hi))
  | 51 => do
    check (wordSize sz && !x.q.getLsbD 7 && !x.memq.fe && !x.memq.keep) 7 x.iQual
    let m ← x.memOp
    pure (.waita x.g sz x.memq a m)
  | _ => do
    check (x.a == 0) 7 x.iBase
    noQual x
    let m ← x.memOp
    pure (.pref x.g m)

/-- A format-M instruction of page 1 that admits `.mig` alone (R170, R180). -/
def migOnly (x : Fields) : Checked (Bool × Mem) := do
  check (x.q == 0 || x.q == 0x20) 7 x.iQual
  let m ← x.memOp
  pure (x.q.getLsbD 5, m)

/-- `send` and `send.nb` (R164). -/
def buildSend (x : Fields) : Checked Instr := do
  noSize x
  check (x.k < 2 && x.uImm.toNat < 128) 7 x.iImm
  let len := x.uImm.extractLsb' 4 3
  check (len != 7) 7 x.iImm
  let nb := x.q.getLsbD 7
  check (nb || x.mod == 0) 7 x.iQual
  let b ← gField x.b x.iBase
  check (b.val + len.toNat ≤ 24 && (len != 0 || b.val == 0)) 7 x.iBase
  let a := Reg.ofField x.a
  let mbox := x.uImm.extractLsb' 0 4
  pure (if nb then .sendNb x.g (x.q.extractLsb' 3 4) a b mbox len else .send x.g a b mbox len)

/-- Page 1 (R162-R183). -/
def build1 (x : Fields) : Checked Instr :=
  let a := Reg.ofField x.a
  let b := Reg.ofField x.b
  match x.major with
  | 0 => buildSend x
  | 1 => do
    noModSize x
    let ga ← gField x.a x.iBase
    check (ga.val ≤ 17) 7 x.iBase
    check (x.uImm != 0 && x.uImm.toNat < 65536) 7 x.iImm
    pure (.recv x.g ga (x.uImm.extractLsb' 0 16))
  | 2 => do
    noModSize x
    let ga ← gField x.a x.iBase
    check (ga.val ≤ 17) 7 x.iBase
    let mb ← idx16 x.cField x.iExt
    pure (.recvn x.g ga b mb)
  | 3 => do
    noModSize x
    check (x.k == 0 && x.uImm.toNat < 16) 7 x.iImm
    pure (.mbstat x.g a (x.uImm.extractLsb' 0 4))
  | 4 => do
    check (x.size == 0 && x.mod.toNat < 2) 7 x.iQual
    let gb ← gField x.b x.iBase
    check (gb.val ≤ 20) 7 x.iBase
    pure (.fork x.g (x.mod == 1) a gb)
  | 5 => do let r ← migOnly x; pure (.join x.g r.1 a r.2)
  | 6 => do
    check (x.size == 0 && x.mod.toNat < 2) 7 x.iQual
    let gb ← gField x.b x.iBase
    check (gb.val ≤ 19) 7 x.iBase
    pure (.spawn x.g (x.mod == 1) a gb)
  | 7 => do
    check (x.size == 0 && x.mod.toNat < 2) 7 x.iQual
    pure (.exit x.g (x.mod == 1))
  | 8 => do noModSize x; pure (.yield x.g)
  | 9 => do noModSize x; pure (.migrate x.g a)
  | 10 => do
    noModSize x
    match x.uImm.toNat with
    | 0 => pure (.getidHandle x.g a)
    | 1 => pure (.getidLogicalIndex x.g a)
    | 2 => pure (.getidBank x.g a)
    | 3 => pure (.getidSlot x.g a)
    | 4 => pure (.getidModulePosition x.g a)
    | 5 => pure (.getidCycleCounter x.g a)
    | _ => .error (7, x.iImm)
  | 11 => do
    noModSize x
    let ga ← gField x.a x.iBase
    let gb ← gField x.b x.iBase
    pure (.cpy x.g ga gb)
  | 12 => do
    noModSize x
    let ca ← idx16 x.a x.iBase
    check (x.uImm.toNat < 65536) 7 x.iImm
    pure (.cwait x.g ca (x.uImm.extractLsb' 0 16))
  | 13 => do let r ← migOnly x; pure (.barinit x.g r.1 a r.2)
  | 14 => do let r ← migOnly x; pure (.bararv x.g r.1 a r.2)
  | 15 => do
    check (x.a == 0) 7 x.iBase
    let r ← migOnly x
    pure (.barinv x.g r.1 r.2)
  | 16 => do let r ← migOnly x; pure (.barwait x.g r.1 a r.2)
  | 17 => do
    noModSize x
    checkSrcs x [a, b]
    if h : x.uImm.toNat < 24 then pure (.fill x.g a b ⟨x.uImm.toNat, h⟩) else .error (7, x.iImm)
  | 18 => do
    noModSize x
    match x.uImm.toNat with
    | 0 => pure (.qctlSetRoles x.g a)
    | 1 => pure (.qctlReadRoles x.g a)
    | 2 => pure (.qctlQueueCounts x.g a)
    | 3 => pure (.qctlDiscard x.g a)
    | _ => .error (7, x.iImm)
  | 19 => do noQual x; let m ← x.memOp; pure (.wdq x.g a m)
  | _ => do noQual x; let m ← x.memOp; pure (.launch x.g a m)

/-- The type of a typed instruction; the reserved codes have been refused before (R47). -/
def Fields.etype (x : Fields) : EType := (EType.ofCode x.ty).getD .px8

/-- A claim's counts (R218). -/
def Fields.claim (x : Fields) : Checked (BitVec 2 × BitVec 2) := do
  check (x.k == 0 && x.uImm.toNat < 16) 7 x.iImm
  let lo := x.uImm.extractLsb' 2 2
  let hi := x.uImm.extractLsb' 0 2
  check (lo.toNat ≤ hi.toNat) 7 x.iImm
  pure (lo, hi)

/-- Three v registers and a type (R224, R227-R229). -/
def buildV3 (x : Fields) (ok : EType → Bool) (f : EType → Rm → BitVec 4 → BitVec 4 → BitVec 4 → Instr) : Checked Instr := do
  noModSize x
  check (ok x.etype) 7 x.iPage
  let a ← idx16 x.a x.iBase
  let b ← idx16 x.b x.iBase
  let c ← idx16 x.cField x.iExt
  pure (f x.etype (Rm.ofCode x.hi) a b c)

/-- Two v registers and a type. -/
def buildV2 (x : Fields) (ok : EType → Bool) (f : EType → Rm → BitVec 4 → BitVec 4 → Instr) : Checked Instr := do
  noModSize x
  check (ok x.etype) 7 x.iPage
  let a ← idx16 x.a x.iBase
  let b ← idx16 x.b x.iBase
  pure (f x.etype (Rm.ofCode x.hi) a b)

/-- Page 2 (R216-R234). -/
def build2 (x : Fields) : Checked Instr :=
  let absType := fun t : EType => t == .f32 || t == .f64 || t == .s32 || t == .s64
  match x.major with
  | 0 => do
    noModSize x
    let a ← gField x.a x.iBase
    let c ← x.claim
    pure (.vclaim x.g a c.1 c.2)
  | 1 => do
    noModSize x
    match x.variant.toNat with
    | 0 => do
      let a ← gField x.a x.iBase
      let c ← x.claim
      pure (.vren x.g a c.1 c.2)
    | 1 => do
      check (x.uImm == 0) 7 x.iImm
      pure (.vrenSetn x.g (Reg.ofField x.a))
    | _ => do
      check (x.uImm == 0) 7 x.iImm
      let a ← gField x.a x.iBase
      pure (.vrenStat x.g a)
  | 2 => do noModSize x; pure (.vrel x.g)
  | 3 => do
    noQual x
    check (memType x.etype) 7 x.iPage
    let a ← idx16 x.a x.iBase
    let m ← x.memOp
    pure (.vld x.g x.etype a m)
  | 4 => do
    noQual x
    check (memType x.etype) 7 x.iPage
    let a ← idx16 x.a x.iBase
    let m ← x.memOp
    pure (.vst x.g x.etype a m)
  | 5 => do
    noModSize x
    check (memType x.etype) 7 x.iPage
    let a ← idx16 x.a x.iBase
    let b ← gField x.b x.iBase
    let c ← idx16 x.cField x.iExt
    pure (.vgth x.g x.etype a b c)
  | 6 => do
    noModSize x
    check (memType x.etype) 7 x.iPage
    let a ← idx16 x.a x.iBase
    let b ← gField x.b x.iBase
    let c ← idx16 x.cField x.iExt
    pure (.vsct x.g x.etype a b c)
  | 7 => buildV3 x arithType (.vadd x.g)
  | 8 => buildV3 x arithType (.vsub x.g)
  | 9 => buildV3 x arithType (.vmul x.g)
  | 10 => buildV3 x floatType (.vfma x.g)
  | 11 => buildV3 x arithType fun t _ a b c => .vmin x.g t a b c
  | 12 => buildV3 x arithType fun t _ a b c => .vmax x.g t a b c
  | 13 => buildV2 x absType fun t _ a b => .vabs x.g t a b
  | 14 => buildV2 x absType fun t _ a b => .vneg x.g t a b
  | 15 => buildV3 x wideInt fun t _ a b c => .vand x.g t a b c
  | 16 => buildV3 x wideInt fun t _ a b c => .vor x.g t a b c
  | 17 => buildV3 x wideInt fun t _ a b c => .vxor x.g t a b c
  | 18 => buildV3 x wideInt fun t _ a b c => .vshl x.g t a b c
  | 19 => buildV3 x wideInt fun t _ a b c => .vshr x.g t a b c
  | 20 => do
    noSize x
    check (arithType x.etype) 7 x.iPage
    let a ← idx16 x.a x.iBase
    let b ← idx16 x.b x.iBase
    let c ← idx16 x.cField x.iExt
    pure (.vcmp x.g x.etype (Cond.ofCode x.mod) a b c)
  | 21 => buildV3 x arithType fun t _ a b c => .vsel x.g t a b c
  | 22 => do
    noSize x
    let src := (EType.ofCode x.mod).getD .px8
    check (vcvtOk x.etype src (x.variant == 1) (Rm.ofCode x.hi)) 7 x.iPage
    let a ← idx16 x.a x.iBase
    let b ← idx16 x.b x.iBase
    pure (.vcvt x.g x.etype src (x.variant == 1) (Rm.ofCode x.hi) a b)
  | 23 => do
    noSize x
    check (x.mod.toNat < 3) 7 x.iQual
    check (arithType x.etype) 7 x.iPage
    let a ← gField x.a x.iBase
    let b ← idx16 x.b x.iBase
    match x.mod.toNat with
    | 0 => pure (.vredAdd x.g x.etype a b)
    | 1 => pure (.vredMin x.g x.etype a b)
    | _ => pure (.vredMax x.g x.etype a b)
  | 24 => do
    noModSize x
    check (floatType x.etype) 7 x.iPage
    let a ← gField x.a x.iBase
    let b ← idx16 x.b x.iBase
    let c ← idx16 x.cField x.iExt
    pure (.vdot x.g x.etype a b c)
  | 25 => buildV3 x arithType fun t _ a b c => .vperm x.g t a b c
  | 26 => do
    noModSize x
    check (arithType x.etype) 7 x.iPage
    let a ← idx16 x.a x.iBase
    pure (.vbcst x.g x.etype a (Reg.ofField x.b))
  | 27 => buildV2 x (· == .f32) fun _ rm a b => .vexp2 x.g rm a b
  | 28 => buildV2 x (· == .f32) fun _ rm a b => .vlog2 x.g rm a b
  | 29 => buildV2 x (· == .f32) fun _ rm a b => .vrsq x.g rm a b
  | 30 => buildV2 x floatType (.vrcp x.g)
  | 31 => buildV2 x floatType (.vsqrt x.g)
  | 32 => buildV3 x floatType (.vdiv x.g)
  | 33 => do
    noModSize x
    check (wideInt x.etype) 7 x.iPage
    let a ← idx16 x.a x.iBase
    pure (.viota x.g x.etype a)
  | 34 => do
    noSize x
    check (x.mod.toNat < 3) 7 x.iQual
    check (arithType x.etype) 7 x.iPage
    let a ← idx16 x.a x.iBase
    let b ← idx16 x.b x.iBase
    match x.mod.toNat with
    | 0 => pure (.vscanAdd x.g x.etype a b)
    | 1 => pure (.vscanMin x.g x.etype a b)
    | _ => pure (.vscanMax x.g x.etype a b)
  | _ => do noModSize x; pure (.vfence x.g)

/-- Page 3 (R246). -/
def build3 (x : Fields) : Checked Instr :=
  let f64 := x.ty == 1
  let h := x.variant == 1
  match x.major with
  | 0 => do
    noModSize x
    check (floatType x.etype && !(f64 && h)) 7 x.iPage
    let a ← idx8 x.a x.iBase
    let b ← idx16 x.b x.iBase
    pure (.dfrom x.g f64 h a b)
  | 1 => do
    noModSize x
    check (floatType x.etype && !(f64 && h)) 7 x.iPage
    let a ← idx16 x.a x.iBase
    let b ← idx8 x.b x.iBase
    pure (.dto x.g f64 h (Rm.ofCode x.hi) a b)
  | 2 => do
    noQual x
    let a ← idx8 x.a x.iBase
    let m ← x.memOp
    pure (if h then .dldRn x.g a m else .dld x.g a m)
  | 3 => do
    noQual x
    let a ← idx8 x.a x.iBase
    let m ← x.memOp
    pure (.dst x.g a m)
  | 4 => do
    noModSize x
    check (x.ty == 0) 7 x.iPage
    let a ← gField x.a x.iBase
    let b ← idx8 x.b x.iBase
    let c ← idx8 x.cField x.iExt
    pure (.dcos x.g a b c)
  | 5 => do
    noModSize x
    check (floatType x.etype) 7 x.iPage
    let a ← gField x.a x.iBase
    let b ← idx8 x.b x.iBase
    let c ← idx8 x.cField x.iExt
    pure (.ddot x.g f64 a b c)
  | 6 => do noModSize x; let a ← idx8 x.a x.iBase; pure (.dscl x.g a (Reg.ofField x.b))
  | 7 => do
    noModSize x
    let a ← idx8 x.a x.iBase
    let b ← idx8 x.b x.iBase
    let c ← idx8 x.cField x.iExt
    pure (.dadd x.g a b c)
  | 8 => do
    noModSize x
    let a ← idx8 x.a x.iBase
    let b ← idx8 x.b x.iBase
    pure (.dlerp x.g a b (Reg.ofField x.cField))
  | 9 => do noModSize x; let a ← idx8 x.a x.iBase; let b ← idx8 x.b x.iBase; pure (.dneg x.g a b)
  | 10 => do
    noModSize x
    let a ← idx8 x.a x.iBase
    let b ← idx8 x.b x.iBase
    let c ← idx8 x.cField x.iExt
    pure (.dproj x.g a b c)
  | 11 => do noModSize x; let a ← idx8 x.a x.iBase; let b ← idx8 x.b x.iBase; pure (.dnorm x.g a b)
  | 12 => do noModSize x; let a ← idx8 x.a x.iBase; pure (.dsetn x.g a (Reg.ofField x.b))
  | 13 => do noModSize x; let a ← idx8 x.a x.iBase; let b ← idx8 x.b x.iBase; pure (.dmov x.g a b)
  | _ => do noModSize x; let a ← gField x.a x.iBase; let b ← idx8 x.b x.iBase; pure (.dtest x.g a b)

/-- Page 4 (R265, R298). -/
def build4 (x : Fields) : Checked Instr := do
  noModSize x
  match x.major with
  | 2 => do
    check (x.a.toNat < 2) 7 x.iBase
    pure (.mzero x.g (x.a.extractLsb' 0 1))
  | 6 => pure (.mwait x.g)
  | 9 => pure (.qwait x.g)
  | 7 => do
    let a ← gField x.a x.iBase
    check (x.k == 0 && x.uImm.toNat < 2) 7 x.iImm
    pure (if x.uImm == 0 then .mgovRead x.g a else .mgovReadClear x.g a)
  | 11 => do let a ← gField x.a x.iBase; pure (.rngrel x.g a)
  | 12 => do
    checkSrcs x [Reg.ofField x.b]
    let c ← gField x.cField x.iExt
    check (c.val ≤ 22) 7 x.iExt
    pure (.rnd x.g (Reg.ofField x.a) (Reg.ofField x.b) c)
  | m => do
    let a ← gField x.a x.iBase
    let b ← gField x.b x.iBase
    match m with
    | 0 => pure (.mmul x.g a b)
    | 1 => pure (.mmula x.g a b)
    | 3 => pure (.mld x.g a b)
    | 4 => do
      let t := x.etype
      check (t == .f32 || t == .bf16 || t == .f16 || t == .e4m3 || t == .e5m2) 7 x.iPage
      pure (.mst x.g t (Rm.ofCode x.hi) a b)
    | 5 => pure (.mscl x.g (Rm.ofCode x.hi) a b)
    | 8 => pure (.qcmd x.g a b)
    | _ => pure (.rngres x.g a b)

/-- Page 5 (R339). -/
def build5 (x : Fields) : Checked Instr := do
  noModSize x
  let a := Reg.ofField x.a
  let b := Reg.ofField x.b
  match x.major with
  | 0 => pure (.hdecl x.g a b)
  | 1 => do
    checkSrcs x [a, b, Reg.ofField x.cField]
    pure (.hput x.g a b (Reg.ofField x.cField))
  | 2 => do
    let c ← gField x.cField x.iExt
    check (c.val ≤ 22) 7 x.iExt
    pure (.hget x.g a b c)
  | 3 => do
    let c ← gField x.cField x.iExt
    check (c.val ≤ 22) 7 x.iExt
    pure (.hgetn x.g a b c)
  | 4 => do
    let ga ← gField x.a x.iBase
    check (ga.val ≤ 21) 7 x.iBase
    pure (.hfront x.g ga b)
  | _ => pure (.hdrop x.g a)

/-- Page 6 (R366). -/
def build6 (x : Fields) : Checked Instr := do
  noModSize x
  let a := Reg.ofField x.a
  let b := Reg.ofField x.b
  let c := Reg.ofField x.cField
  match x.major with
  | 0 => do let ga ← gField x.a x.iBase; pure (.tdecl x.g ga b)
  | 1 => do checkSrcs x [a, b]; pure (.eprog x.g a b)
  | 2 => do checkSrcs x [a, b]; pure (.sweep x.g a b)
  | 3 => pure (.swwait x.g a)
  | 4 => do checkSrcs x [a, b, c]; pure (.skset x.g a b c)
  | _ => do checkSrcs x [a, b, c]; pure (.wake x.g a b c)

/-- Page 7 (R384): a register number that R383 does not list, a write to a read-only register and a read of `qload` are ruled out before the guard is
read (R47). A `sysw` to a register with a behaviour of its own is a row of its own in the table. -/
def build7 (x : Fields) : Checked Instr := do
  noModSize x
  let a := Reg.ofField x.a
  match x.major with
  | 0 => pure (.tret x.g)
  | 1 => do
    let ga ← gField x.a x.iBase
    check (sysReadable x.uImm) 7 x.iBase
    pure (.sysr x.g ga x.uImm)
  | 2 => do
    check (sysWritable x.uImm) 7 x.iBase
    match x.uImm.toNat with
    | 0x24 => pure (.syswQload x.g a)
    | 0x28 => pure (.syswEwt x.g a)
    | 0x29 => pure (.syswSmpctl x.g a)
    | _ => pure (.sysw x.g a x.uImm)
  | 3 => pure (.resume x.g a)
  | 4 => pure (.kill x.g a)
  | 5 => pure (.retry x.g a)
  | 6 => pure (.replay x.g)
  | _ => do
    checkSrcs x [a, Reg.ofField x.b]
    pure (.tlbinv x.g a (Reg.ofField x.b))

/-- The checks of R47 after the prefixes, in their order, and the instruction. -/
def decodeBase (p : Pre) (w : Half) : Checked Instr := do
  let page := match p.page with
    | some (pay, _) => (pay.extractLsb' 7 4).toNat
    | none => 0
  check (p.page.isNone || (page != 0 && page < 8)) 2 ((p.page.map (·.2)).getD 0)
  match opRow page (w.extractLsb' 10 6).toNat with
  | none => .error (4, p.n)
  | some row => do
    let x := fieldsOf p w page row
    checkUnused x p row
    checkReserved x row
    match page with
    | 0 => build0 x | 1 => build1 x | 2 => build2 x | 3 => build3 x
    | 4 => build4 x | 5 => build5 x | 6 => build6 x | _ => build7 x

/-- What the decoder makes of a word sequence: an instruction, ILLEGAL (always as the event UNASSIGNED_ENCODING
with its detail), in both cases with the number of words fetched; or too few words. -/
inductive Decoded where
  | instr (i : Instr) (n : Nat)
  | illegal (d : IllegalDetail) (n : Nat)
  | short
deriving DecidableEq, Repr

/-- What the scan of the words so far gives (R47). -/
def scanResult (sc : Scan) : Option Decoded :=
  match sc with
  | .more _ => none
  | .bad cause at_ => some (.illegal ⟨cause, BitVec.ofNat 5 at_, 0⟩ (at_ + 1))
  | .base p w =>
    match decodeBase p w with
    | .ok i => some (.instr i (p.n + 1))
    | .error e => some (.illegal ⟨e.1, BitVec.ofNat 5 e.2, 0⟩ (p.n + 1))

/-- The loop of R47 over a word list. -/
def decodeFrom (p : Pre) : List Half → Decoded
  | [] => .short
  | w :: ws =>
    match scanWord p w with
    | .more p' => decodeFrom p' ws
    | sc => (scanResult sc).getD .short

/-- The decoder: total on any words (R47). -/
def decode (ws : List Half) : Decoded := decodeFrom {} ws

/-! ### The encoder (R13, R17, R41) -/

/-- The fields of an instruction's encoding. -/
structure Form where
  page : BitVec 4 := 0
  ty : BitVec 5 := 0
  variant : BitVec 2 := 0
  major : BitVec 6
  a : BitVec 5 := 0
  b : BitVec 5 := 0
  c : Option (BitVec 5) := none
  g : Option Guard := none
  q : BitVec 11 := 0
  k : Nat := 0
  imm : Word := 0
deriving DecidableEq, Repr

/-- A prefix word (R33). -/
def preWord (kind : BitVec 2) (payload : BitVec 11) : Half := (0b111#3 ++ kind) ++ payload

/-- The EXT payload (R35). -/
def extPayload (c : BitVec 5) : Option Guard → BitVec 11
  | none => c ++ 0b000000#6
  | some g => ((c ++ 1#1) ++ BitVec.ofBool g.neg) ++ g.p

/-- The IMM words: `k` payloads of the immediate above a base field of `b` bits, most significant first (R34). -/
def immWords (b : Nat) (v : Word) : Nat → List Half
  | 0 => []
  | k + 1 => preWord 0 (v.extractLsb' (11 * k + b) 11) :: immWords b v k

/-- The words of a form, in the order PAGE, EXT, QUAL, IMM, base (R41). -/
def Form.words (f : Form) (immBits : Nat) : List Half :=
  (if f.page == 0 then [] else [preWord 2 ((f.page ++ f.ty) ++ f.variant)])
  ++ (if f.g.isNone && f.c.isNone then [] else [preWord 1 (extPayload (f.c.getD 31) f.g)])
  ++ (if f.q == 0 then [] else [preWord 3 f.q])
  ++ immWords immBits f.imm f.k
  ++ [(f.major ++ f.a) ++ f.b]

/-- The operation reading of QUAL. -/
def qualOp (rm : BitVec 3) (mod : BitVec 5) (size : BitVec 3) : BitVec 11 := (rm ++ mod) ++ size

/-- The memory reading of QUAL. -/
def qualMem (q : MemQ) (size : BitVec 3) : BitVec 11 :=
  ((((q.scope.code ++ q.ord.code) ++ BitVec.ofBool q.mig) ++ BitVec.ofBool q.fe) ++ BitVec.ofBool q.keep) ++ size

def gf (i : Fin 24) : BitVec 5 := BitVec.ofNat 5 i.val
def vf (i : BitVec 4) : BitVec 5 := 0#1 ++ i
def df (i : BitVec 3) : BitVec 5 := 0#2 ++ i

/-- An integer ALU form. -/
def encAlu (major : BitVec 6) (g : Option Guard) (sz : Size) (a b c : Reg) : List Half :=
  Form.words { major := major, a := a.field, b := b.field, c := some c.field, g := g, q := qualOp 0 0 sz.code } 0

/-- A scalar floating-point form. -/
def encFp (major : BitVec 6) (g : Option Guard) (f : FSize) (rm : BitVec 3) (mod a b c : BitVec 5) : List Half :=
  Form.words { major := major, a := a, b := b, c := some c, g := g, q := qualOp rm mod f.code } 0

/-- A form with registers only, on any page. -/
def encRegs (page : BitVec 4) (major : BitVec 6) (g : Option Guard) (a b : BitVec 5) (c : Option (BitVec 5)) (q : BitVec 11)
    (ty : BitVec 5) (variant : BitVec 2) : List Half :=
  Form.words { page := page, ty := ty, variant := variant, major := major, a := a, b := b, c := c, g := g, q := q } 0

/-- A format-M form. -/
def encMem (page : BitVec 4) (major : BitVec 6) (g : Option Guard) (a : BitVec 5) (m : Mem) (q : BitVec 11)
    (ty : BitVec 5) (variant : BitVec 2) : List Half :=
  match m.off with
  | .disp d => Form.words { page := page, ty := ty, variant := variant, major := major, a := a, b := gf m.base, g := g, q := q,
                            k := immCount true 0 d, imm := d } 0
  | .index i => Form.words { page := page, ty := ty, variant := variant, major := major, a := a, b := gf m.base,
                             c := some (gf i), g := g, q := q } 0

/-- A form with an immediate of `k` IMM words above a base field of `b` bits; `lo` is what the base word holds beside it. -/
def encImm (page : BitVec 4) (major : BitVec 6) (g : Option Guard) (a bfield : BitVec 5) (q : BitVec 11) (k immBits : Nat)
    (imm : Word) (variant : BitVec 2 := 0) : List Half :=
  match immBits with
  | 0 => Form.words { page := page, variant := variant, major := major, a := a, b := bfield, g := g, q := q, k := k, imm := imm } 0
  | 5 => Form.words { page := page, variant := variant, major := major, a := a, b := imm.extractLsb' 0 5, g := g, q := q, k := k, imm := imm } 5
  | _ => Form.words { page := page, variant := variant, major := major, a := imm.extractLsb' 5 5, b := imm.extractLsb' 0 5, g := g, q := q,
                      k := k, imm := imm } 10

/-- An atomic form (R132): operation code 0 needs no IMM word. -/
def encAmo (code : BitVec 11) (g : Option Guard) (size : BitVec 3) (q : MemQ) (a : Reg) (b : Fin 24) (c : Reg) : List Half :=
  Form.words { major := 48, a := a.field, b := gf b, c := some c.field, g := g, q := qualMem q size,
               k := if code == 0 then 0 else 1, imm := code.zeroExtend 64 } 0

/-- The 16-bit immediate of `pset` (R115). -/
def psetImm (op : BitVec 2) (nx ny : Bool) (x y : BitVec 4) : Word :=
  (((((op ++ BitVec.ofBool nx) ++ BitVec.ofBool ny) ++ 0#4) ++ x) ++ y).zeroExtend 64

def encPset (g : Option Guard) (p : BitVec 4) (imm : Word) : List Half :=
  encImm 0 25 g (vf p) 0 0 (immCount false 5 imm) 5 imm

/-- Page-2 forms of three v registers. -/
def encV3 (major : BitVec 6) (g : Option Guard) (t : EType) (q : BitVec 11) (a b c : BitVec 4) : List Half :=
  encRegs 2 major g (vf a) (vf b) (some (vf c)) q t.code 0

/-- Page-2 forms of two v registers. -/
def encV2 (major : BitVec 6) (g : Option Guard) (t : EType) (q : BitVec 11) (a b : BitVec 4) : List Half :=
  encRegs 2 major g (vf a) (vf b) none q t.code 0

def sendImm (mbox : BitVec 4) (len : BitVec 3) : Word := (len ++ mbox).zeroExtend 64

/-- The words of a well-formed instruction, in fyas order and shortest form (R13, R41). Events have no words. -/
def encode : Instr → List Half
  | .add g sz a b c => encAlu 0 g sz a b c
  | .sub g sz a b c => encAlu 1 g sz a b c
  | .mul g sz a b c => encAlu 2 g sz a b c
  | .mulh g sz a b c => encAlu 3 g sz a b c
  | .div g sz a b c => encAlu 4 g sz a b c
  | .rem g sz a b c => encAlu 5 g sz a b c
  | .and g sz a b c => encAlu 6 g sz a b c
  | .or g sz a b c => encAlu 7 g sz a b c
  | .xor g sz a b c => encAlu 8 g sz a b c
  | .andn g sz a b c => encAlu 9 g sz a b c
  | .shl g sz a b c => encAlu 10 g sz a b c
  | .shr g sz a b c => encAlu 11 g sz a b c
  | .sar g sz a b c => encAlu 12 g sz a b c
  | .rol g sz a b c => encAlu 13 g sz a b c
  | .clz g sz a b => encRegs 0 14 g a.field b.field none (qualOp 0 0 sz.code) 0 0
  | .popc g sz a b => encRegs 0 15 g a.field b.field none (qualOp 0 0 sz.code) 0 0
  | .min g sz a b c => encAlu 16 g sz a b c
  | .max g sz a b c => encAlu 17 g sz a b c
  | .sel g a b c p => encRegs 0 18 g a.field b.field (some c.field) (qualOp 0 (0#1 ++ p) 0) 0 0
  | .mov g sz a b => encRegs 0 19 g a.field b.field none (qualOp 0 0 sz.code) 0 0
  | .li g a imm => encImm 0 20 g a.field 0 0 (immCount true 5 imm) 5 imm
  | .addi g sz a b imm => encImm 0 21 g a.field b.field (qualOp 0 0 sz.code) (immCount true 0 imm) 0 imm
  | .lea g a m => encMem 0 22 g a.field m 0 0 0
  | .cmp g sz cc p b c => encRegs 0 23 g (vf p) b.field (some c.field) (qualOp 0 cc.code sz.code) 0 0
  | .cmpi g sz cc p b imm => encImm 0 24 g (vf p) b.field (qualOp 0 cc.code sz.code) (immCount true 0 imm) 0 imm
  | .psetAnd g p nx x ny y => encPset g p (psetImm 0 nx ny x y)
  | .psetOr g p nx x ny y => encPset g p (psetImm 1 nx ny x y)
  | .psetXor g p nx x ny y => encPset g p (psetImm 2 nx ny x y)
  | .psetConst g p v => encPset g p (psetImm 3 v false 0 0)
  | .bfx g signed a b pos len =>
    encImm 0 26 g a.field b.field (qualOp 0 0 (if signed then 0 else 4))
      (Nat.max 1 (immCount false 0 ((pos ++ len).zeroExtend 64))) 0 ((pos ++ len).zeroExtend 64)
  | .bfi g a b pos len =>
    encImm 0 27 g a.field b.field 0 (Nat.max 1 (immCount false 0 ((pos ++ len).zeroExtend 64))) 0 ((pos ++ len).zeroExtend 64)
  | .br g off => encImm 0 28 (some g) 0 0 0 (immCount true 10 off) 10 off
  | .jmp off => encImm 0 29 none 0 0 0 (immCount true 10 off) 10 off
  | .jr g a => encRegs 0 30 g a.field 0 none 0 0 0
  | .call g off => encImm 0 31 g 0 0 0 (immCount true 10 off) 10 off
  | .ret g => encRegs 0 32 g 0 0 none 0 0 0
  | .loop g a off => encImm 0 33 g a.field 0 0 (immCount true 5 off) 5 off
  | .trap g imm => encImm 0 34 g 0 0 0 (immCount false 10 imm) 10 imm
  | .nop g => encRegs 0 35 g 0 0 none 0 0 0
  | .fadd g f rm a b c => encFp 36 g f rm.code 0 a.field b.field c.field
  | .fsub g f rm a b c => encFp 37 g f rm.code 0 a.field b.field c.field
  | .fmul g f rm a b c => encFp 38 g f rm.code 0 a.field b.field c.field
  | .ffma g f rm a b c => encFp 39 g f rm.code 0 a.field b.field c.field
  | .fmin g f a b c => encFp 40 g f 0 0 a.field b.field c.field
  | .fmax g f a b c => encFp 41 g f 0 0 a.field b.field c.field
  | .fcmp g f cc p b c => encFp 42 g f 0 cc.code (vf p) b.field c.field
  | .fcvt g ty src rm a b => encRegs 0 43 g a.field b.field none (qualOp rm.code src.code ty.code) 0 0
  | .ld g sz q a m => encMem 0 44 g a.field m (qualMem q sz.code) 0 0
  | .st g sz q a m => encMem 0 45 g a.field m (qualMem q sz.code) 0 0
  | .ldf g sz q a m => encMem 0 46 g a.field m (qualMem q sz.code) 0 0
  | .stf g sz q a m => encMem 0 47 g a.field m (qualMem q sz.code) 0 0
  | .amoSwap g sz q a b c => encAmo 0 g sz.code q a b c
  | .amoAdd g sz q a b c => encAmo 1 g sz.code q a b c
  | .amoAnd g sz q a b c => encAmo 2 g sz.code q a b c
  | .amoOr g sz q a b c => encAmo 3 g sz.code q a b c
  | .amoXor g sz q a b c => encAmo 4 g sz.code q a b c
  | .amoMin g sz q a b c => encAmo 5 g sz.code q a b c
  | .amoMax g sz q a b c => encAmo 6 g sz.code q a b c
  | .amoFadd g f q a b c => encAmo 7 g f.code q a b c
  | .amoFaddSeq g f q a b c => encAmo 8 g f.code q a b c
  | .cas g sz q a b c => encRegs 0 49 g a.field (gf b) (some c.field) (qualMem q sz.code) 0 0
  | .fence g scope => encRegs 0 50 g 0 0 none (qualMem ⟨scope, .plain, false, false, false⟩ 0) 0 0
  | .waita g sz q a m => encMem 0 51 g a.field m (qualMem q sz.code) 0 0
  | .pref g m => encMem 0 52 g 0 m 0 0 0
  | .send g a b mbox len => encImm 1 0 g a.field (gf b) 0 (immCount false 0 (sendImm mbox len)) 0 (sendImm mbox len)
  | .sendNb g p a b mbox len =>
    encImm 1 0 g a.field (gf b) (qualOp 0 (1#1 ++ p) 0) (immCount false 0 (sendImm mbox len)) 0 (sendImm mbox len)
  | .recv g a mask => encImm 1 1 g (gf a) 0 0 (immCount false 5 (mask.zeroExtend 64)) 5 (mask.zeroExtend 64)
  | .recvn g a b mbox => encRegs 1 2 g (gf a) b.field (some (vf mbox)) 0 0 0
  | .mbstat g a mbox => encImm 1 3 g a.field 0 0 0 5 (mbox.zeroExtend 64)
  | .fork g j a b => encRegs 1 4 g a.field (gf b) none (qualOp 0 (if j then 1 else 0) 0) 0 0
  | .join g mig a m => encMem 1 5 g a.field m (if mig then 0x20 else 0) 0 0
  | .spawn g j a b => encRegs 1 6 g a.field (gf b) none (qualOp 0 (if j then 1 else 0) 0) 0 0
  | .exit g j => encRegs 1 7 g 0 0 none (qualOp 0 (if j then 1 else 0) 0) 0 0
  | .yield g => encRegs 1 8 g 0 0 none 0 0 0
  | .migrate g a => encRegs 1 9 g a.field 0 none 0 0 0
  | .getidHandle g a => encRegs 1 10 g a.field 0 none 0 0 0
  | .getidLogicalIndex g a => encRegs 1 10 g a.field 1 none 0 0 0
  | .getidBank g a => encRegs 1 10 g a.field 2 none 0 0 0
  | .getidSlot g a => encRegs 1 10 g a.field 3 none 0 0 0
  | .getidModulePosition g a => encRegs 1 10 g a.field 4 none 0 0 0
  | .getidCycleCounter g a => encRegs 1 10 g a.field 5 none 0 0 0
  | .cpy g a b => encRegs 1 11 g (gf a) (gf b) none 0 0 0
  | .cwait g c n => encImm 1 12 g (vf c) 0 0 (immCount false 5 (n.zeroExtend 64)) 5 (n.zeroExtend 64)
  | .barinit g mig a m => encMem 1 13 g a.field m (if mig then 0x20 else 0) 0 0
  | .bararv g mig a m => encMem 1 14 g a.field m (if mig then 0x20 else 0) 0 0
  | .barinv g mig m => encMem 1 15 g 0 m (if mig then 0x20 else 0) 0 0
  | .barwait g mig a m => encMem 1 16 g a.field m (if mig then 0x20 else 0) 0 0
  | .fill g a b n => encImm 1 17 g a.field b.field 0 (immCount false 0 (BitVec.ofNat 64 n.val)) 0 (BitVec.ofNat 64 n.val)
  | .qctlSetRoles g a => encRegs 1 18 g a.field 0 none 0 0 0
  | .qctlReadRoles g a => encRegs 1 18 g a.field 1 none 0 0 0
  | .qctlQueueCounts g a => encRegs 1 18 g a.field 2 none 0 0 0
  | .qctlDiscard g a => encRegs 1 18 g a.field 3 none 0 0 0
  | .wdq g a m => encMem 1 19 g a.field m 0 0 0
  | .launch g a m => encMem 1 20 g a.field m 0 0 0
  | .vclaim g a lo hi => encRegs 2 0 g (gf a) (0#1 ++ (lo ++ hi)) none 0 0 0
  | .vren g a lo hi => encRegs 2 1 g (gf a) (0#1 ++ (lo ++ hi)) none 0 0 0
  | .vrenSetn g a => encRegs 2 1 g a.field 0 none 0 0 1
  | .vrenStat g a => encRegs 2 1 g (gf a) 0 none 0 0 2
  | .vrel g => encRegs 2 2 g 0 0 none 0 0 0
  | .vld g t a m => encMem 2 3 g (vf a) m 0 t.code 0
  | .vst g t a m => encMem 2 4 g (vf a) m 0 t.code 0
  | .vgth g t a b c => encRegs 2 5 g (vf a) (gf b) (some (vf c)) 0 t.code 0
  | .vsct g t a b c => encRegs 2 6 g (vf a) (gf b) (some (vf c)) 0 t.code 0
  | .vadd g t rm a b c => encV3 7 g t (qualOp rm.code 0 0) a b c
  | .vsub g t rm a b c => encV3 8 g t (qualOp rm.code 0 0) a b c
  | .vmul g t rm a b c => encV3 9 g t (qualOp rm.code 0 0) a b c
  | .vfma g t rm a b c => encV3 10 g t (qualOp rm.code 0 0) a b c
  | .vmin g t a b c => encV3 11 g t 0 a b c
  | .vmax g t a b c => encV3 12 g t 0 a b c
  | .vabs g t a b => encV2 13 g t 0 a b
  | .vneg g t a b => encV2 14 g t 0 a b
  | .vand g t a b c => encV3 15 g t 0 a b c
  | .vor g t a b c => encV3 16 g t 0 a b c
  | .vxor g t a b c => encV3 17 g t 0 a b c
  | .vshl g t a b c => encV3 18 g t 0 a b c
  | .vshr g t a b c => encV3 19 g t 0 a b c
  | .vcmp g t cc a b c => encV3 20 g t (qualOp 0 cc.code 0) a b c
  | .vsel g t a b c => encV3 21 g t 0 a b c
  | .vcvt g ty src h rm a b => encRegs 2 22 g (vf a) (vf b) none (qualOp rm.code src.code 0) ty.code (if h then 1 else 0)
  | .vredAdd g t a b => encRegs 2 23 g (gf a) (vf b) none 0 t.code 0
  | .vredMin g t a b => encRegs 2 23 g (gf a) (vf b) none (qualOp 0 1 0) t.code 0
  | .vredMax g t a b => encRegs 2 23 g (gf a) (vf b) none (qualOp 0 2 0) t.code 0
  | .vdot g t a b c => encRegs 2 24 g (gf a) (vf b) (some (vf c)) 0 t.code 0
  | .vperm g t a b c => encV3 25 g t 0 a b c
  | .vbcst g t a b => encRegs 2 26 g (vf a) b.field none 0 t.code 0
  | .vexp2 g rm a b => encV2 27 g .f32 (qualOp rm.code 0 0) a b
  | .vlog2 g rm a b => encV2 28 g .f32 (qualOp rm.code 0 0) a b
  | .vrsq g rm a b => encV2 29 g .f32 (qualOp rm.code 0 0) a b
  | .vrcp g t rm a b => encV2 30 g t (qualOp rm.code 0 0) a b
  | .vsqrt g t rm a b => encV2 31 g t (qualOp rm.code 0 0) a b
  | .vdiv g t rm a b c => encV3 32 g t (qualOp rm.code 0 0) a b c
  | .viota g t a => encRegs 2 33 g (vf a) 0 none 0 t.code 0
  | .vscanAdd g t a b => encV2 34 g t 0 a b
  | .vscanMin g t a b => encV2 34 g t (qualOp 0 1 0) a b
  | .vscanMax g t a b => encV2 34 g t (qualOp 0 2 0) a b
  | .vfence g => encRegs 2 35 g 0 0 none 0 0 0
  | .dfrom g f64 h a b => encRegs 3 0 g (df a) (vf b) none 0 (if f64 then 1 else 0) (if h then 1 else 0)
  | .dto g f64 h rm a b => encRegs 3 1 g (vf a) (df b) none (qualOp rm.code 0 0) (if f64 then 1 else 0) (if h then 1 else 0)
  | .dld g a m => encMem 3 2 g (df a) m 0 0 0
  | .dldRn g a m => encMem 3 2 g (df a) m 0 0 1
  | .dst g a m => encMem 3 3 g (df a) m 0 0 0
  | .dcos g a b c => encRegs 3 4 g (gf a) (df b) (some (df c)) 0 0 0
  | .ddot g f64 a b c => encRegs 3 5 g (gf a) (df b) (some (df c)) 0 (if f64 then 1 else 0) 0
  | .dscl g a b => encRegs 3 6 g (df a) b.field none 0 0 0
  | .dadd g a b c => encRegs 3 7 g (df a) (df b) (some (df c)) 0 0 0
  | .dlerp g a b c => encRegs 3 8 g (df a) (df b) (some c.field) 0 0 0
  | .dneg g a b => encRegs 3 9 g (df a) (df b) none 0 0 0
  | .dproj g a b c => encRegs 3 10 g (df a) (df b) (some (df c)) 0 0 0
  | .dnorm g a b => encRegs 3 11 g (df a) (df b) none 0 0 0
  | .dsetn g a b => encRegs 3 12 g (df a) b.field none 0 0 0
  | .dmov g a b => encRegs 3 13 g (df a) (df b) none 0 0 0
  | .dtest g a b => encRegs 3 14 g (gf a) (df b) none 0 0 0
  | .mmul g a b => encRegs 4 0 g (gf a) (gf b) none 0 0 0
  | .mmula g a b => encRegs 4 1 g (gf a) (gf b) none 0 0 0
  | .mzero g a => encRegs 4 2 g (0#4 ++ a) 0 none 0 0 0
  | .mld g a b => encRegs 4 3 g (gf a) (gf b) none 0 0 0
  | .mst g t rm a b => encRegs 4 4 g (gf a) (gf b) none (qualOp rm.code 0 0) t.code 0
  | .mscl g rm a b => encRegs 4 5 g (gf a) (gf b) none (qualOp rm.code 0 0) 0 0
  | .mwait g => encRegs 4 6 g 0 0 none 0 0 0
  | .mgovRead g a => encRegs 4 7 g (gf a) 0 none 0 0 0
  | .mgovReadClear g a => encRegs 4 7 g (gf a) 1 none 0 0 0
  | .qcmd g a b => encRegs 4 8 g (gf a) (gf b) none 0 0 0
  | .qwait g => encRegs 4 9 g 0 0 none 0 0 0
  | .rngres g a b => encRegs 4 10 g (gf a) (gf b) none 0 0 0
  | .rngrel g a => encRegs 4 11 g (gf a) 0 none 0 0 0
  | .rnd g a b c => encRegs 4 12 g a.field b.field (some (gf c)) 0 0 0
  | .hdecl g a b => encRegs 5 0 g a.field b.field none 0 0 0
  | .hput g a b c => encRegs 5 1 g a.field b.field (some c.field) 0 0 0
  | .hget g a b c => encRegs 5 2 g a.field b.field (some (gf c)) 0 0 0
  | .hgetn g a b c => encRegs 5 3 g a.field b.field (some (gf c)) 0 0 0
  | .hfront g a b => encRegs 5 4 g (gf a) b.field none 0 0 0
  | .hdrop g a => encRegs 5 5 g a.field 0 none 0 0 0
  | .tdecl g a b => encRegs 6 0 g (gf a) b.field none 0 0 0
  | .eprog g a b => encRegs 6 1 g a.field b.field none 0 0 0
  | .sweep g a b => encRegs 6 2 g a.field b.field none 0 0 0
  | .swwait g a => encRegs 6 3 g a.field 0 none 0 0 0
  | .skset g a b c => encRegs 6 4 g a.field b.field (some c.field) 0 0 0
  | .wake g a b c => encRegs 6 5 g a.field b.field (some c.field) 0 0 0
  | .tret g => encRegs 7 0 g 0 0 none 0 0 0
  | .sysr g a n => encImm 7 1 g (gf a) 0 0 (immCount false 5 n) 5 n
  | .sysw g a n => encImm 7 2 g a.field 0 0 (immCount false 5 n) 5 n
  | .resume g a => encRegs 7 3 g a.field 0 none 0 0 0
  | .kill g a => encRegs 7 4 g a.field 0 none 0 0 0
  | .retry g a => encRegs 7 5 g a.field 0 none 0 0 0
  | .replay g => encRegs 7 6 g 0 0 none 0 0 0
  | .tlbinv g a b => encRegs 7 7 g a.field b.field none 0 0 0
  | .syswQload g a => encImm 7 2 g a.field 0 0 1 5 0x24
  | .syswEwt g a => encImm 7 2 g a.field 0 0 1 5 0x28
  | .syswSmpctl g a => encImm 7 2 g a.field 0 0 1 5 0x29
  | .dbgctlCrash .. | .dbgctlGo .. | .qtailWrite .. | .handlerBind .. | .migrationPacket .. | .inboxBind .. | .dequeBind ..
  | .workPacketBind .. | .preemptedReturn .. | .steal .. | .dequeSpill .. | .dequeRefill .. | .fillApply ..
  | .messageOffer .. | .relayOffer .. | .sendTimeout .. | .requestRetry .. | .accessPerform .. | .accessReply ..
  | .fenceProbe .. | .claimGrant .. | .vectorDispatch .. | .vectorPoolCommit .. | .exceptionDelivery .. | .matrixStart ..
  | .matrixCommit .. | .governorWindow .. | .matrixTurn .. | .matrixAbandon .. | .copyIssue .. | .copyBurst ..
  | .copyComplete .. | .copyFirmwareFinish .. | .qcmdComplete .. | .qcmdResume .. | .wdqAnswer .. | .leaseGrant ..
  | .leaseRelease .. | .preempt .. | .contextSwitchOut .. | .contextRestore .. | .packetLaunch .. | .packetWaitev ..
  | .waitevWriteReport .. | .packetSignal .. | .packetSetdet .. | .packetQfence .. | .launchPlace .. | .launchRetire ..
  | .epochCompletion .. | .sweepPass .. | .slabExchange .. | .sweepComplete .. | .crashHalt .. | .pageWalk .. | .errorRetry ..
  | .unitOutOfService .. | .taskReplay .. | .resetBoot | .recoveryImage .. | .attestationRequest .. | .contextCreate ..
  | .jobJoin .. | .windowBind .. | .linkUp .. | .linkRekey .. | .flitReceive .. | .laneFail .. | .collContribution ..
  | .hostBarAccess .. | .samplingPulse | .unassignedEncoding .. | .contextFinalRelease .. | .sliceWindowGrant ..
  | .hostDebugRequest .. => []

/-! ### Bytes -/

/-- The 16-bit words of a byte list, little-endian (R30); a last odd byte is dropped. -/
def wordsOfBytes : List Byte → List Half
  | lo :: hi :: bs => (hi ++ lo) :: wordsOfBytes bs
  | _ => []

/-- The bytes of words, low byte first (R30). -/
def bytesOfWords : List Half → List Byte
  | [] => []
  | w :: ws => w.extractLsb' 0 8 :: w.extractLsb' 8 8 :: bytesOfWords ws

/-- The words of a number: bit 0 is bit 0 of the first word. -/
def wordsOfNat (w : Nat) : Nat → List Half
  | 0 => []
  | n + 1 => BitVec.ofNat 16 w :: wordsOfNat (w / 65536) n

/-- The bytes of an instruction given as the table numbers its bits, filled with zeros up to the longest instruction
(five words, R30). -/
def tableBytes (nbits w : Nat) : List Byte := bytesOfWords (wordsOfNat (w % 2 ^ nbits) 5)

/-- The instruction the decoder reads from the bits of a row of the opcode table. -/
def decodeTableWord (nbits w : Nat) : Option Instr :=
  match decode (wordsOfBytes (tableBytes nbits w)) with
  | .instr i _ => some i
  | _ => none

end Sys2Proof
end

