-- ==== Sys2Proof/Machine/Assoc.lean ====
section
/-! DEFINITION. Finite tables as lists of key and value, and lists without repeats. -/

namespace Sys2Proof.Machine

/-- A table: keys with their values. A key that is not listed has the table's reset value. -/
abbrev Table (κ α : Type) := List (κ × α)

/-- The value at a key, if listed. -/
def Table.find {κ α : Type} [DecidableEq κ] (k : κ) : Table κ α → Option α
  | [] => none
  | (k', v) :: t => if k' = k then some v else Table.find k t

/-- The value at a key; `d` where the key is not listed. -/
def Table.get {κ α : Type} [DecidableEq κ] (d : α) (k : κ) (t : Table κ α) : α := (Table.find k t).getD d

/-- The table with one value replaced, or added at its end. -/
def Table.put {κ α : Type} [DecidableEq κ] (k : κ) (v : α) : Table κ α → Table κ α
  | [] => [(k, v)]
  | (k', v') :: t => if k' = k then (k, v) :: t else (k', v') :: Table.put k v t

/-- The table without a key. -/
def Table.remove {κ α : Type} [DecidableEq κ] (k : κ) : Table κ α → Table κ α
  | [] => []
  | (k', v') :: t => if k' = k then Table.remove k t else (k', v') :: Table.remove k t

/-- A list with an element added at its end unless it stands there. -/
def addOnce {α : Type} [DecidableEq α] (x : α) (l : List α) : List α := if x ∈ l then l else l ++ [x]

/-- A list without every occurrence of an element. -/
def dropAll {α : Type} [DecidableEq α] (x : α) (l : List α) : List α := l.filter fun y => !decide (y = x)

end Sys2Proof.Machine
end

