-- ==== Sys2Proof/Machine/Float.lean ====
section
/-! DEFINITION. The number formats of R53-R58, R64, exact values, and rounding into a format (R70, R71, R76). -/

namespace Sys2Proof.Machine

/-- The results of a floating-point operation that sflags keeps (R55, R87). -/
structure Flags where
  invalid : Bool := false
  overflow : Bool := false
  inexact : Bool := false
deriving DecidableEq, Repr

/-- The union of two sets of results. -/
def Flags.or (a b : Flags) : Flags :=
  ⟨a.invalid || b.invalid, a.overflow || b.overflow, a.inexact || b.inexact⟩

/-- The results as bits [2:0] of sflags (R87). -/
def Flags.bits (f : Flags) : BitVec 6 :=
  (if f.invalid then 4#6 else 0#6) ||| (if f.overflow then 2#6 else 0#6) ||| (if f.inexact then 1#6 else 0#6)

/-- The results as a number: invalid, overflow, inexact in [2:0] (R87). -/
def Flags.toWord (f : Flags) : Word := f.bits.setWidth 64

/-- The exact value of an operand: a NaN, an infinity, or (-1)^neg · m · 2^e. A zero keeps its sign. -/
inductive FVal where
  | nan (signalling : Bool)
  | inf (neg : Bool)
  | fin (neg : Bool) (m : Nat) (e : Int)
deriving DecidableEq, Repr

/-- How a format uses its top codes (R54, R58, R64). -/
inductive FKind where
  | ieee
  | e4m3 (xr : Bool)
  | e5m2 (xr : Bool)
  | plain
deriving DecidableEq, Repr

/-- A binary format: exponent width, fraction width, bias, and the use of its top codes. -/
structure FFmt where
  ebits : Nat
  mbits : Nat
  bias : Nat
  kind : FKind
deriving DecidableEq, Repr

/-- The formats of R54. -/
def FFmt.f64 : FFmt := ⟨11, 52, 1023, .ieee⟩
def FFmt.f32 : FFmt := ⟨8, 23, 127, .ieee⟩
def FFmt.f16 : FFmt := ⟨5, 10, 15, .ieee⟩
def FFmt.bf16 : FFmt := ⟨8, 7, 127, .ieee⟩
/-- The formats of R58. -/
def FFmt.e4m3 (xr : Bool) : FFmt := ⟨4, 3, 7, .e4m3 xr⟩
def FFmt.e5m2 (xr : Bool) : FFmt := ⟨5, 2, 15, .e5m2 xr⟩
/-- The element formats of R64 that have no special codes. -/
def FFmt.fp4 : FFmt := ⟨2, 1, 1, .plain⟩
def FFmt.fp6a : FFmt := ⟨2, 3, 1, .plain⟩
def FFmt.fp6b : FFmt := ⟨3, 2, 3, .plain⟩

/-- The position of the sign bit. -/
def FFmt.signPos (f : FFmt) : Nat := f.ebits + f.mbits

/-- The code of the largest finite magnitude of a sign (R54, R58, R64). -/
def FFmt.maxCode (f : FFmt) (neg : Bool) : Nat :=
  match f.kind with
  | .ieee | .e5m2 false => (2 ^ f.ebits - 1) * 2 ^ f.mbits - 1
  | .e4m3 false => 0x7E
  | .e4m3 true | .e5m2 true => if neg then 0x7E else 0x7F
  | .plain => 2 ^ (f.ebits + f.mbits) - 1

/-- The NaN that the device writes (R55, R58). -/
def FFmt.nanCode (f : FFmt) : Nat :=
  match f.kind with
  | .ieee => (2 ^ f.ebits - 1) * 2 ^ f.mbits + 2 ^ (f.mbits - 1)
  | .e4m3 false => 0x7F
  | .e5m2 false => 0x7E
  | .e4m3 true | .e5m2 true => 0xFF
  | .plain => 0

/-- A code with its sign. -/
def FFmt.withSign (f : FFmt) (neg : Bool) (code : Nat) : Nat :=
  if neg then code + 2 ^ f.signPos else code

/-- The value of a code (R54, R58, R64). No FP8 NaN is signalling (R58). -/
def FFmt.value (f : FFmt) (bits : Nat) : FVal :=
  let neg := bits.testBit f.signPos
  let E := bits / 2 ^ f.mbits % 2 ^ f.ebits
  let M := bits % 2 ^ f.mbits
  let low : Int := 1 - (f.bias : Int) - (f.mbits : Int)
  let finite : FVal := if E == 0 then .fin neg M low else .fin neg (2 ^ f.mbits + M) (low + (E : Int) - 1)
  match f.kind with
  | .ieee =>
    if E == 2 ^ f.ebits - 1 then
      if M == 0 then .inf neg else .nan (!M.testBit (f.mbits - 1))
    else finite
  | .e5m2 false =>
    if E == 2 ^ f.ebits - 1 then
      if M == 0 then .inf neg else .nan false
    else finite
  | .e4m3 false => if bits % 128 == 0x7F then .nan false else finite
  | .e4m3 true | .e5m2 true => if bits % 256 == 0xFF then .nan false else finite
  | .plain => finite

/-- A nonzero code with exponent field zero, in a format whose subnormal operands trap (R56). -/
def FFmt.subnormal (f : FFmt) (bits : Nat) : Bool :=
  f.kind == .ieee && bits / 2 ^ f.mbits % 2 ^ f.ebits == 0 && bits % 2 ^ f.mbits != 0

/-- A code with a subnormal replaced by the zero of its sign, as DAZ reads it (R56). -/
def FFmt.flush (f : FFmt) (bits : Nat) : Nat :=
  if f.subnormal bits then f.withSign (bits.testBit f.signPos) 0 else bits

/-! ### Rounding -/

/-- Where an exact value lies between two neighbours. -/
inductive Rest where
  | exact | below | tie | above
deriving DecidableEq, Repr

/-- m · 2^(-sh), plus something below one unit of m's scale when `sticky`: its floor and the rest. -/
def splitRight (m sh : Nat) (sticky : Bool) : Nat × Rest :=
  let z := m / 2 ^ sh
  let r := m % 2 ^ sh
  let twice := 2 * r
  if r == 0 && !sticky then (z, .exact)
  else if sh == 0 then (z, .below)
  else if twice < 2 ^ sh then (z, .below)
  else if twice == 2 ^ sh then (z, if sticky then .above else .tie)
  else (z, .above)

/-- m · 2^e in units of 2^q: the floor and the rest. -/
def splitAt (m : Nat) (e q : Int) (sticky : Bool) : Nat × Rest :=
  if q ≤ e then (m * 2 ^ (e - q).toNat, if sticky then .below else .exact)
  else splitRight m (q - e).toNat sticky

/-- The rounding direction of R70: whether the magnitude goes up from its floor `z`. -/
def goesUp (rm : Rm) (neg : Bool) (z : Nat) (rest : Rest) : Bool :=
  match rm, rest with
  | _, .exact => false
  | .rne, .above => true
  | .rne, .tie => z % 2 == 1
  | .rne, .below => false
  | .rtz, _ => false
  | .rup, _ => !neg
  | .rdn, _ => neg
  | .rst, _ => false

/-- The scale of the last kept bit of a nonzero magnitude m · 2^e (R54, R71). -/
def FFmt.quantum (f : FFmt) (m : Nat) (e : Int) : Int :=
  let top : Int := (Nat.log2 m : Int) + e
  max (top - (f.mbits : Int)) (1 - (f.bias : Int) - (f.mbits : Int))

/-- The magnitude code of z · 2^q, with the exponent range unbounded above. -/
def FFmt.codeOf (f : FFmt) (z : Nat) (q : Int) : Nat :=
  (q + (f.mbits : Int) + (f.bias : Int) - 1).toNat * 2 ^ f.mbits + z

/-- The fate of a magnitude code: the code itself, or the overflow of R76 and R71 (`away`: the mode, or the draw,
goes away from zero). -/
def FFmt.settle (f : FFmt) (neg away : Bool) (code : Nat) (inexact : Bool) : Nat × Flags :=
  if code > f.maxCode neg then
    let r := if f.kind == .ieee && away then (2 ^ f.ebits - 1) * 2 ^ f.mbits else f.maxCode neg
    (f.withSign neg r, { overflow := true, inexact := true })
  else (f.withSign neg code, { inexact := inexact })

/-- A mode carries an overflow of this sign to infinity (IEEE 754-2019 clause 7.4). -/
def overflowsAway (rm : Rm) (neg : Bool) : Bool :=
  match rm with
  | .rne => true
  | .rtz => false
  | .rup => !neg
  | .rdn => neg
  | .rst => false

/-- A finite nonzero magnitude m · 2^e, above it by less than one unit when `sticky`, rounded into the format under
one of the first four modes of R70. -/
def FFmt.roundMag (f : FFmt) (rm : Rm) (neg : Bool) (m : Nat) (e : Int) (sticky : Bool) : Nat × Flags :=
  let q := f.quantum m e
  let (z, rest) := splitAt m e q sticky
  let z' := if goesUp rm neg z rest then z + 1 else z
  f.settle neg (overflowsAway rm neg) (f.codeOf z' q) (rest != .exact)

/-- The stochastic rounding of R71 with draw `r`. The quantum is that of the unbounded grid of R76 also above the largest finite value (DEDUCED, log
entry 73). -/
def FFmt.roundDraw (f : FFmt) (neg : Bool) (m : Nat) (e : Int) (r : BitVec 32) : Nat × Flags :=
  let q := f.quantum m e
  let (y, _) := splitAt m e (q - 16) false
  let z := (y + r.toNat / 65536) / 65536
  let carried := z > y / 65536
  let (_, rest) := splitAt m e q false
  f.settle neg carried (f.codeOf z q) (rest != .exact)

/-- Conversion of an exact value into a format (R76); `draw` serves the stochastic mode. -/
def FFmt.ofVal (f : FFmt) (rm : Rm) (draw : BitVec 32) (v : FVal) : Nat × Flags :=
  match v with
  | .nan sig => (f.nanCode, { invalid := sig })
  | .inf neg =>
    match f.kind with
    | .ieee | .e5m2 false => (f.withSign neg ((2 ^ f.ebits - 1) * 2 ^ f.mbits), {})
    | _ => (f.withSign neg (f.maxCode neg), { overflow := true, inexact := true })
  | .fin neg 0 _ => (f.withSign neg 0, {})
  | .fin neg m e => if rm == .rst then f.roundDraw neg m e draw else f.roundMag rm neg m e false

/-- Conversion of an exact value to an N-bit integer, as a two's-complement number (R76). -/
def intOfVal (signed : Bool) (n : Nat) (rm : Rm) (draw : BitVec 32) (v : FVal) : Int × Flags :=
  let lo : Int := if signed then -(2 ^ (n - 1) : Int) else 0
  let hi : Int := if signed then 2 ^ (n - 1) - 1 else 2 ^ n - 1
  match v with
  | .nan _ => (0, { invalid := true })
  | .inf neg => (if neg then lo else hi, { invalid := true })
  | .fin _ 0 _ => (0, {})
  | .fin neg m e =>
    let (z, rest) := splitAt m e 0 false
    let z' :=
      if rm == .rst then ((splitAt m e (-16) false).1 + draw.toNat / 65536) / 65536
      else if goesUp rm neg z rest then z + 1 else z
    let x : Int := if neg then -(z' : Int) else z'
    if x < lo then (lo, { invalid := true })
    else if x > hi then (hi, { invalid := true })
    else (x, { inexact := rest != .exact })

/-! ### Exact arithmetic on values -/

/-- The value of an integer. -/
def FVal.ofInt (x : Int) : FVal := .fin (decide (x < 0)) x.natAbs 0

/-- The value with its sign inverted. -/
def FVal.neg : FVal → FVal
  | .nan s => .nan s
  | .inf n => .inf (!n)
  | .fin n m e => .fin (!n) m e

/-- The value is a NaN. -/
def FVal.isNan : FVal → Bool
  | .nan _ => true
  | _ => false

/-- The value is a signalling NaN. -/
def FVal.isSnan : FVal → Bool
  | .nan s => s
  | _ => false

/-- The signed integer of a finite value at scale `q`, where q is at most its exponent. -/
def scaled (neg : Bool) (m : Nat) (e q : Int) : Int :=
  let x : Int := (m * 2 ^ (e - q).toNat : Nat)
  if neg then -x else x

/-- The exact sum of two finite values; `rm` decides the sign of an exact zero (R120). -/
def addFin (rm : Rm) (n1 : Bool) (m1 : Nat) (e1 : Int) (n2 : Bool) (m2 : Nat) (e2 : Int) : FVal :=
  let q := min e1 e2
  let x := scaled n1 m1 e1 q + scaled n2 m2 e2 q
  if x == 0 then
    if m1 == 0 && m2 == 0 && n1 == n2 then .fin n1 0 q else .fin (rm == .rdn) 0 q
  else .fin (decide (x < 0)) x.natAbs q

/-- The exact sum and whether it is an invalid operation. -/
def FVal.add (rm : Rm) (x y : FVal) : FVal × Bool :=
  match x, y with
  | .nan a, .nan b => (.nan false, a || b)
  | .nan a, _ => (.nan false, a)
  | _, .nan b => (.nan false, b)
  | .inf a, .inf b => if a == b then (.inf a, false) else (.nan false, true)
  | .inf a, .fin .. => (.inf a, false)
  | .fin .., .inf b => (.inf b, false)
  | .fin n1 m1 e1, .fin n2 m2 e2 => (addFin rm n1 m1 e1 n2 m2 e2, false)

/-- The exact product and whether it is an invalid operation. -/
def FVal.mul (x y : FVal) : FVal × Bool :=
  match x, y with
  | .nan a, .nan b => (.nan false, a || b)
  | .nan a, _ => (.nan false, a)
  | _, .nan b => (.nan false, b)
  | .inf a, .inf b => (.inf (a != b), false)
  | .inf a, .fin n m _ => if m == 0 then (.nan false, true) else (.inf (a != n), false)
  | .fin n m _, .inf b => if m == 0 then (.nan false, true) else (.inf (n != b), false)
  | .fin n1 m1 e1, .fin n2 m2 e2 => (.fin (n1 != n2) (m1 * m2) (e1 + e2), false)

/-- The order of two values; none when either is a NaN. The zeros compare equal (R122). -/
def FVal.cmp (x y : FVal) : Option Ordering :=
  match x, y with
  | .nan _, _ => none
  | _, .nan _ => none
  | .inf a, .inf b => some (if a == b then .eq else if a then .lt else .gt)
  | .inf a, .fin .. => some (if a then .lt else .gt)
  | .fin .., .inf b => some (if b then .gt else .lt)
  | .fin n1 m1 e1, .fin n2 m2 e2 =>
    let q := min e1 e2
    some (compare (scaled n1 m1 e1 q) (scaled n2 m2 e2 q))

/-- The sign of a value. -/
def FVal.isNeg : FVal → Bool
  | .nan _ => false
  | .inf n => n
  | .fin n _ _ => n

/-- Strictly below, with -0 below +0, as `fmin` and `fmax` order (R120). -/
def FVal.below (x y : FVal) : Bool :=
  match x.cmp y with
  | some .lt => true
  | some .eq => x.isNeg && !y.isNeg
  | _ => false

/-! ### Operations on codes of a format -/

/-- A code with the results of forming it. -/
abbrev FRes := Nat × Flags

/-- Round an exact result whose operation was invalid or not. -/
def FFmt.deliver (f : FFmt) (rm : Rm) (v : FVal × Bool) : FRes :=
  if v.2 then (f.nanCode, { invalid := true }) else f.ofVal rm 0 v.1

/-- round(x + y) (R120). -/
def FFmt.add (f : FFmt) (rm : Rm) (x y : Nat) : FRes := f.deliver rm ((f.value x).add rm (f.value y))

/-- round(x - y) (R120). -/
def FFmt.sub (f : FFmt) (rm : Rm) (x y : Nat) : FRes := f.deliver rm ((f.value x).add rm (f.value y).neg)

/-- round(x × y) (R120). -/
def FFmt.mul (f : FFmt) (rm : Rm) (x y : Nat) : FRes := f.deliver rm ((f.value x).mul (f.value y))

/-- round(x × y + z), one rounding (R120). A product of zero and infinity is invalid whatever z is (R55). -/
def FFmt.fma (f : FFmt) (rm : Rm) (x y z : Nat) : FRes :=
  let p := (f.value x).mul (f.value y)
  let a := p.1.add rm (f.value z)
  f.deliver rm (a.1, p.2 || a.2)

/-- The lesser (`lesser`) or the greater of two codes (R120). -/
def FFmt.pick (f : FFmt) (lesser : Bool) (x y : Nat) : FRes :=
  let a := f.value x
  let b := f.value y
  if a.isNan || b.isNan then (f.nanCode, { invalid := a.isSnan || b.isSnan })
  else if lesser then (if b.below a then y else x, {})
  else (if a.below b then y else x, {})

/-- The truth of a condition on an order (R122). -/
def condOfOrder (c : Cond) : Option Ordering → Bool
  | some o =>
    match c, o with
    | .eq, .eq | .le, .eq | .ge, .eq => true
    | .ne, .lt | .ne, .gt => true
    | .lt, .lt | .le, .lt => true
    | .gt, .gt | .ge, .gt => true
    | .or, _ => true
    | _, _ => false
  | none =>
    match c with
    | .ne | .uo => true
    | _ => false

/-- A comparison sets invalid on a signalling NaN, and on any NaN under the four order conditions (R122). -/
def condSignals (c : Cond) (a b : FVal) : Bool :=
  match c with
  | .lt | .le | .gt | .ge => a.isNan || b.isNan
  | _ => a.isSnan || b.isSnan

/-- The truth of `x cond y` and its results (R122). -/
def FFmt.compare (f : FFmt) (c : Cond) (x y : Nat) : Bool × Flags :=
  let a := f.value x
  let b := f.value y
  (condOfOrder c (a.cmp b), { invalid := condSignals c a b })

/-! ### Formats by suffix -/

/-- The format of a scalar suffix (R119). -/
def fsizeFmt : FSize → FFmt
  | .f64 => .f64
  | .f32 => .f32

/-- The binary format of an element type, where it has one; E4M3 and E5M2 are read under XR (R40, R58). -/
def etypeFmt (xr : Bool) : EType → Option FFmt
  | .f32 => some .f32
  | .f64 => some .f64
  | .bf16 => some .bf16
  | .f16 => some .f16
  | .e4m3 => some (.e4m3 xr)
  | .e5m2 => some (.e5m2 xr)
  | .mx4 => some .fp4
  | .mx6a => some .fp6a
  | .mx6b => some .fp6b
  | .mx8a => some (.e4m3 xr)
  | .mx8b => some (.e5m2 xr)
  | _ => none

/-- Width and signedness of an integer element type (R40, R53). -/
def etypeInt : EType → Option (Bool × Nat)
  | .s8 => some (true, 8)
  | .s16 => some (true, 16)
  | .s32 => some (true, 32)
  | .s64 => some (true, 64)
  | .n8 => some (false, 8)
  | .n16 => some (false, 16)
  | .n32 => some (false, 32)
  | .n64 => some (false, 64)
  | _ => none

/-- The signed or unsigned value of the low `n` bits of a number (R53). -/
def intOfBits (signed : Bool) (n bits : Nat) : Int :=
  let x := bits % 2 ^ n
  if signed && x ≥ 2 ^ (n - 1) then (x : Int) - 2 ^ n else x

/-- The low `n` bits of an integer, as a number (R53). -/
def bitsOfInt (n : Nat) (x : Int) : Nat := (x % (2 ^ n : Int)).toNat

/-- The width in bits of an element of a type in memory or a lane (R40, R64). -/
def etypeBits : EType → Nat
  | .f32 | .s32 | .n32 => 32
  | .f64 | .s64 | .n64 => 64
  | .bf16 | .f16 | .s16 | .n16 => 16
  | .mx4 => 4
  | .mx6a | .mx6b => 6
  | _ => 8

end Sys2Proof.Machine
end

