-- ==== Sys2Proof/Machine/State.lean ====
section
/-! DEFINITION. The state of the module as plain data: everything the manual gives the machine, the model's own
schedule fields, the reasons a step can stop, and the state after reset. -/

namespace Sys2Proof.Machine

/-! ### Reasons to stop -/

/-- Reasons for which the model's step stops. No instruction of the manual stops the machine: a fault of R103 is a
next state. -/
inductive Fault where
  /-- Raised by `exec` where it is asked to execute an instruction of a strand while no strand is issuing (`cur` is
  none or names no live task). `step` never does so. Safe. -/
  | noStrand
deriving DecidableEq, Repr

/-- Reasons for which the model has no meaning for an instruction. -/
inductive Refusal where
  /-- Raised by an arm of `exec` that has no meaning yet. Safe. -/
  | notModelled (mnemonic : String)
deriving DecidableEq, Repr

/-! ### Places and waiting -/

/-- Where an access is performed (R211, R289, R376, R394, R406): a bank, a slice, the host endpoint, or a slice of
another module. -/
inductive Place where
  | bank (c : CoreId)
  | slice (s : SliceId)
  | host
  | module (position : BitVec 12) (s : SliceId)
deriving DecidableEq, Repr

/-- What a parked strand waits for (R52, R141). A wait for room in a queue carries the entries of it that the instruction itself pops (R145);
`dequeRoom` is a `fork` or `spawn` for which the movement slot is to make room (R156), `transit` an access on its way to its place, with its words, what
each of its sources would read from each shared register at its issue, the general registers as they stood then, and the XR bit that it read (R49, R58, R124, R144), `link` an access to a module to which no link has come up (R404), and `tlbinv` the accesses that used the translations it has
dropped (R387). -/
inductive Wait where
  | reg (i : Fin 24)
  | vreg (i : BitVec 4)
  | queueRead (q : Fin 4)
  | queueWrite (q : Fin 4) (pops : Nat)
  | mailbox
  | mailboxRoom (c : CoreId) (mb : BitVec 4)
  | relayRoom (s : SliceId)
  | relay (id : Nat)
  | counter (c : BitVec 4) (n : Nat)
  | copyRegister
  | dequeRoom (c : CoreId)
  | dispatchRoom (c : CoreId) (trap : Bool)
  | vectorWork
  | allWork
  | claim
  | matrixRoom
  | matrixWork (ids : List Nat)
  | atPlace (p : Place)
  | refused (p : Place)
  | reply
  | transit (shared : List Word) (gpr : Vector Word 24) (xr : Bool) (words : List Half) (banks : List CoreId)
  | link (m : BitVec 12)
  | tlbinv (mode : Nat) (ctx : CtxId) (ranges : List (Nat × Nat))
  | translation
  | inbox (c : CoreId)
  | fence
  | replaying
  | wdqRoom
  | queueRoom (q : BitVec 4)
  | engineRoom
  | qcmds (ids : List Nat)
  | brushRoom (c : ClusterId)
  | brushCommand (ids : List Nat)
  | pendingRoom (c : ClusterId)
deriving DecidableEq, Repr

/-- Whether a strand is in rotation (R141): ready, parked, out of rotation for a matrix command, frozen (R103),
pre-empted (R317), or travelling in a migration packet (R97). -/
inductive Status where
  | ready
  | parked (w : Wait)
  | removed
  | frozen
  | preempted
  | packet (c : CoreId)
deriving DecidableEq, Repr

/-! ### Strands -/

/-- What a reply delivers: the value as the place gives it, and the bits it sets in sflags (R133, R342). -/
structure Reply where
  value : Word
  sflags : BitVec 6
deriving DecidableEq, Repr

/-- Detail of a trap (R101): what trec2 to trec7 receive. -/
structure TrapInfo where
  number : BitVec 8
  t2 : Word := 0
  t3 : Word := 0
  t4 : Word := 0
  t5 : Word := 0
  t6 : Word := 0
  t7 : Word := 0
deriving DecidableEq, Repr

/-- A fault (R103): its code, its effective address and its detail words. -/
structure FaultInfo where
  code : Nat
  addr : Word
  detail : List Word
deriving DecidableEq, Repr

/-- An access that has left the strand and will commit at its reply (R124): its destination, the size under which the
value is extended, the queues it pops, its word count, and what R391 records of it. -/
structure Pending where
  dst : Option Reg
  pdst : Option (BitVec 4)
  sz : Size
  pops : List Reg
  len : Nat
  kind : Nat
  sel : Nat
  addr : Word
  tmask : BitVec 48
  reply : Option (Reply ⊕ FaultInfo)
deriving DecidableEq, Repr

/-- An element write of a command that has passed its checks and has not been performed (R222, R223): its position among the accesses of the command, its
place, the number of its first byte, its width, its value, and its tmask bits. -/
structure ElementWrite where
  pos : Nat
  place : Place
  key : Nat
  width : Nat
  value : Nat
  mask : BitVec 48
deriving DecidableEq, Repr

/-- A vector or directional command (R215, R245): the instruction, its strand, where it stood, and what was captured at
issue. `args` are the scalar operands that its entry reads at issue; `prior` is what its general-register destination held before it issued, and its
full bit, which it takes back if the command is abandoned (R49); `trap` says that it issued with the in-trap bit set, and so entered the trap dispatch
queue, `ahead` that the other queue was held then (R236); `got` lists the element reads that have been performed, with the values read, and `owed` the element
writes that are still to be performed once some have been (R223). -/
structure VCmd where
  id : Nat
  op : Instr
  h : Handle
  pc : Word
  words : List Half
  args : List Word
  daz : Bool
  xr : Bool
  trap : Bool
  ahead : Bool
  prior : Option (Word × Bool)
  got : List (Nat × Nat)
  owed : List ElementWrite
deriving DecidableEq, Repr

/-- A tile command or `mzero` in a matrix queue (R266): what was captured at issue. -/
structure MCmd where
  id : Nat
  op : Instr
  h : Handle
  core : CoreId
  pc : Word
  words : List Half
  lo : Word
  hi : Word
  fmta : BitVec 5
  fmtb : BitVec 5
  scla : Word
  sclb : Word
  xr : Bool
  idx : List (BitVec 32)
deriving DecidableEq, Repr

/-- An exception in flight waiting for its delivery point (R235): a trap or a fault, with the abandoned command and
the vn it read. -/
structure Flight where
  cmd : VCmd
  vn : Nat
  what : TrapInfo ⊕ FaultInfo
deriving DecidableEq, Repr

/-- A frozen task's fault (R103, R385): where it stands, the word count to skip on `resume` (0 at a delivery point), the
vector command that `retry` dispatches again, its record slot, and whether its handler has been asked for. -/
structure Frozen where
  info : FaultInfo
  pc : Word
  skip : Nat
  again : Option VCmd
  slot : Option Nat
  handled : Bool
deriving DecidableEq, Repr

/-- One replay record (R391). -/
structure Record where
  kind : Nat
  sel : Nat
  addr : Word
  values : List Word
deriving DecidableEq, Repr

/-- What a task is created with (R93, R155, R321), besides its launch. -/
structure TaskSource where
  entry : Word
  args : Vector Word 4
  fmta : BitVec 5
  fmtb : BitVec 5
  scla : Word
  sclb : Word
  role : BitVec 2
  launch : Nat
  ctx : CtxId
  level : BitVec 2
  index : Option (BitVec 32)
deriving DecidableEq, Repr

/-- The registers of a strand (R84). -/
structure Regs where
  pc : Word
  gpr : Vector Word 24
  full : BitVec 24
  preds : BitVec 16
  sflags : BitVec 6
  fmta : BitVec 5
  fmtb : BitVec 5
  scla : Word
  sclb : Word
  tmask : BitVec 48
  trappc : Word
  trec : Vector Word 8
  inTrap : Bool
deriving DecidableEq, Repr

/-- A message (R148). -/
structure Message where
  sender : Handle
  seq : BitVec 16
  xr : Bool
  len : BitVec 3
  mbox : BitVec 4
  firmware : Bool
  engine : Bool
  dest : Handle
  words : List Word
deriving DecidableEq, Repr

/-- A blocking send that has issued and has not been accepted (R152): the cycle of its first refusal, the address word that A held as read, the target core,
the message as it was at the issue (R58, R164), and the word count of the instruction. -/
structure SendWait where
  since : Option Nat
  word : Word
  core : CoreId
  msg : Message
  len : Nat
deriving DecidableEq, Repr

/-- What a parked receive wants (R149). -/
inductive Want where
  | mask (m : BitVec 16)
  | exact (mb : BitVec 4) (sender : Handle) (seq : BitVec 16)
deriving DecidableEq, Repr

/-- What an instruction that parks after its issue has read from its operands, and keeps until it commits (R49): the message that a `recvn` wants, with the
word that B held (R166); the deque entry of a `fork` or `spawn`, with the core where one is reserved for it (R168); a captured tile command (R263, R266). -/
inductive Kept where
  | want (w : Want) (word : Word)
  | entry (c : CoreId) (t : TaskSource)
  | tile (m : MCmd)
deriving DecidableEq, Repr

/-- A live task: its registers (R84), its place (R99), what it is (R147, R321), and everything the device keeps for it. `entryAt` lists where the entries of
its replay records that have been written stand: below 2048 in the replay region of its cluster, from there on in the spill area of its context (R390,
R391). `tile` names the tile command that it has entered and that has neither completed nor been abandoned by a fault (R272); `counted` says that the issue of
its present instruction has been counted (R398), `redo` lists the vector commands that `retry` dispatches again (R236). -/
structure Strand where
  r : Regs
  core : CoreId
  slot : BitVec 4
  role : BitVec 2
  launch : Nat
  ctx : CtxId
  level : BitVec 2
  index : Option (BitVec 32)
  status : Status
  vl : Nat
  claim : Option (BitVec 2 × BitVec 2)
  yieldUntil : Nat
  pending : Option Pending
  flight : Option Flight
  frozen : Option Frozen
  due : List FaultInfo
  sending : Option SendWait
  kept : Option Kept
  source : TaskSource
  records : List Record
  entryAt : List Nat
  replay : Option Nat
  unreplayable : Bool
  wdqCounts : Table (BitVec 16) Nat
  qflags : Flags
  fills : List (Fin 24 × Word)
  saved : List VCmd
  savedMatrix : List MCmd
  tile : Option Nat
  redo : List VCmd
  counted : Bool
deriving DecidableEq, Repr

/-! ### Cores -/

/-- A shared register: its value, and the earlier values with the cycle at which each was overwritten (R144). -/
structure SReg where
  val : Word
  old : List (Word × Nat)
deriving DecidableEq, Repr

/-- Who waits for a place in a mailbox (R151). -/
inductive Sender where
  | strand (h : Handle)
  | engine (id : Nat)
deriving DecidableEq, Repr

/-- A mailbox: its messages and its reservation list (R151). -/
structure Mailbox where
  msgs : List Message
  reserved : List Sender
deriving DecidableEq, Repr

/-- A copy (R177, R178): its command, its strand, and how far it has come. `state` is 0 before it begins, 1 while it moves words, 2 once it
is handed to the firmware (R205), 3 when it has failed a check (R194, R410), 4 while a contribution waits for its generation (R409). `home` is the cluster
whose scratchpad holds its local side, `core` the core to whose counters and mailboxes it completes (R177, R393). -/
structure Copy where
  id : Nat
  h : Handle
  ctx : CtxId
  launch : Nat
  core : CoreId
  lo : Word
  hi : Word
  level : BitVec 2
  xr : Bool
  issued : Nat
  home : ClusterId
  state : BitVec 3
  done : Nat
  firmware : Bool
  epoch : Nat
  missed : Bool
deriving DecidableEq, Repr

/-- A migration packet (R96): the registers that travel, and who they belong to. -/
structure Packet where
  h : Handle
deriving DecidableEq, Repr

/-- The vector side of a core (R202, R214, R235, R239). `held` lists the strands whose exceptions hold the dispatch queue, with whether the exception has been
delivered, so that a trap handler of the strand runs (R235, R236). -/
structure VectorFile where
  v : Table (BitVec 4) (Vector (BitVec 32) 256)
  vfull : BitVec 16
  vn : Nat
  d : Table (BitVec 3) (Vector (BitVec 16) 128 × BitVec 32)
  dfull : BitVec 8
  queue : List VCmd
  trapQueue : List VCmd
  running : List VCmd
  held : List (Handle × Bool)
  waiting : List Nat
deriving DecidableEq, Repr

/-- A core: everything its slots share (06, 07, 10, 11, 12). A spilled deque entry stands beside the offset of the core's bank where it lies, and
`dequeRes` lists the strands for which an entry of the deque is reserved (R156, R168). `regrant` says that the movement slot has still to save and restore
the core's context for a lost lane group (R210), `leaving` that the core's context is leaving it, and waits for copies to complete (R159). -/
structure Core where
  s : Vector SReg 4
  q : Vector (List Word) 4
  qwait : List (Fin 4 × Bool × Handle)
  mb : Vector Mailbox 16
  mbwait : List (Handle × Want)
  c : Vector (BitVec 16) 16
  daz : Bool
  xr : Bool
  level : BitVec 2
  ctx : Option CtxId
  slotrole : Vector (BitVec 2) 15
  dqspill : Word
  deque : List TaskSource
  spilled : List (Nat × TaskSource)
  dequeRes : List Handle
  inbox : List Packet
  work : List TaskSource
  away : List Handle
  gens : Vector (BitVec 16) 15
  vec : VectorFile
  m : Table (BitVec 1) (Vector (BitVec 32) 4096)
  mqueue : List MCmd
  copyReg : Option Copy
  copies : List Copy
  lastSlot : Option (BitVec 4)
  issued : Table (BitVec 4) Nat
  wdqOpen : Nat
  regrant : Bool
  leaving : Bool
deriving DecidableEq, Repr

/-! ### Clusters -/

/-- A translation kept in a TLB (R380): context, first VA and size of the page, and its leaf PTE. -/
structure TlbEntry where
  ctx : CtxId
  base : Nat
  size : Nat
  pte : Word
deriving DecidableEq, Repr

/-- A line of the instruction cache (R380): context, VA of the line, and its bytes. -/
structure ILine where
  ctx : CtxId
  va : Nat
  bytes : List Byte
deriving DecidableEq, Repr

/-- A handler task waiting for a slot (R103). `frozen` is 0 where the task has exited (R194). -/
structure HandlerTask where
  frozen : Handle
  record : Word
  core : BitVec 3
  source : TaskSource
deriving DecidableEq, Repr

/-- A declared tensor on one slab cluster (R356-R358): `halo` holds what its elements read in other slabs, `cross` the wakes that its
elements made there in the present sweep, with the direction of an `eput` or none for an `ewake` (R361). -/
structure Tensor where
  gen : BitVec 16
  ctx : CtxId
  launch : Nat
  die : Bool
  cluster0 : ClusterId
  slabs : List ClusterId
  slab : Nat
  e0 : Nat
  e1 : Nat
  e2 : Nat
  ty : BitVec 2
  bmax : Bool
  banks : BitVec 8
  soff : Nat
  koff : Nat
  prog : List Half
  halo : Table Nat (BitVec 32)
  cross : List (Nat × Option (BitVec 3))
deriving DecidableEq, Repr

/-- A `skset` or `wake` request of a task waiting for the next sweep (R362). -/
structure TensorRequest where
  h : Handle
  slot : BitVec 2
  first : Nat
  count : Nat
  word : Option (BitVec 32)
  epc : Option (BitVec 6)
deriving DecidableEq, Repr

/-- A command of a brush (R366): a sweep with its counts so far, or a program to load. `passed`: the slab has finished the present sweep;
`ended`: the command has no further sweep. -/
structure BrushCmd where
  id : Nat
  h : Handle
  launch : Nat
  core : CoreId
  xr : Bool
  slot : BitVec 2
  ctrl : Word
  prog : Option (List Half)
  started : Bool
  sweeps : Nat
  passed : Bool
  ended : Bool
  visits : Nat
  bad : Nat
  flags : Flags
deriving DecidableEq, Repr

/-- A brush (R358, R362, R366). -/
structure Brush where
  slots : Vector (Option Tensor) 4
  gens : Vector (BitVec 16) 4
  queue : List BrushCmd
  pending : List TensorRequest
deriving DecidableEq, Repr

/-- The array of a quad (R273-R276): the command it runs, the core that it serves next, its turn, and its governor. -/
structure Quad where
  running : Option (MCmd × Nat)
  next : Nat
  turn : Nat
  turnStarted : Bool
  budget : Nat
  issued : Nat
  window : Nat
  stalls : Nat
deriving DecidableEq, Repr

/-- The strands whose atomics a reduce packet carries, with their operands (R293): one, or two packets combined. -/
inductive Reducers where
  | one (h : Handle) (operand : Word)
  | two (first second : Reducers)
deriving DecidableEq, Repr

/-- A reduce packet in the outbound request queue of a cluster's router (R292, R293): its context, the place and the number of its word, the
operation code and size, whether it carries no ordering at determinism level 0, and what it carries. -/
structure ReducePacket where
  ctx : CtxId
  place : Place
  key : Nat
  op : BitVec 4
  size : Size
  plain : Bool
  parts : Reducers
deriving DecidableEq, Repr

/-- A claim waiting at the lane pool (R201). -/
structure Claim where
  h : Handle
  lo : BitVec 2
  hi : BitVec 2
  back : Bool
deriving DecidableEq, Repr

/-- The debug module (R208, R383); `matched` holds the triggers that have occurred and have not yet halted the cluster (R209). -/
structure Debug where
  bpen : BitVec 4
  wpen : BitVec 2
  xin : Bool
  xout : Bool
  pc : Vector Word 4
  wa : Vector Word 2
  halted : Bool
  matched : List HaltCause
deriving DecidableEq, Repr

/-- A cluster (09, 19, 21). -/
structure Cluster where
  claims : List Claim
  quads : Vector Quad 2
  nextVec : Nat
  dbg : Debug
  cadmiss : BitVec 32
  brush : Brush
  handlers : List HandlerTask
  tlb : List TlbEntry
  icache : List ILine
  nextCopy : Nat
  outbox : List ReducePacket
deriving DecidableEq, Repr

/-! ### Places -/

/-- A request in a wait station (R196): 0 `ldf`, 1 `ldf.keep`, 2 `stf`, 3 `join`, 4 `barwait`; its word, and its value or
generation. -/
structure Waiter where
  h : Handle
  key : Nat
  kind : BitVec 3
  value : Word
  addr : Word
deriving DecidableEq, Repr

/-- An entry of a watch table (R139). -/
structure Watch where
  h : Handle
  key : Nat
  bytes : Nat
  addr : Word
deriving DecidableEq, Repr

/-- An addition that a sequence table holds (R199). -/
structure Held where
  h : Handle
  number : BitVec 16
  value : Word
  addr : Word
deriving DecidableEq, Repr

/-- An entry of a sequence table (R198). -/
structure SeqEntry where
  key : Nat
  f64 : Bool
  next : BitVec 16
  held : List Held
deriving DecidableEq, Repr

/-- An entry of an arrival register (R206): state 0 valid, 1 stale, 2 lost. -/
structure Arrival where
  copy : Nat
  key : Nat
  gen : BitVec 16
  state : BitVec 2
deriving DecidableEq, Repr

/-- What a place keeps for waiting requests (R139, R196, R198, R206, R290), and the offers in its relay buffer (R291). -/
structure PlaceState where
  station : List Waiter
  refused : List Handle
  watch : List Watch
  seq : List SeqEntry
  arrivals : List Arrival
  relay : List Nat
deriving DecidableEq, Repr

/-! ### History memory -/

/-- A key (R327-R330, R337): `states` from the oldest to the newest, each a stamp and its record words. -/
structure Key where
  slot : BitVec 8
  gen : BitVec 16
  ctx : CtxId
  owner : Handle
  pkg : Bool
  size : Nat
  f64 : Bool
  keep : Nat
  xlim : Nat
  horizon : Nat
  states : List (Nat × List Word)
  retired : Option Nat
  closed : Bool
deriving DecidableEq, Repr

/-- A parked history read (R333). -/
structure HistWait where
  h : Handle
  slot : BitVec 8
  t : Nat
  level : BitVec 2
  buf : Word
deriving DecidableEq, Repr

/-- The history part of a slice (R328, R333). -/
structure HistSlice where
  keys : List Key
  gens : Table (BitVec 8) (BitVec 16)
  waits : List HistWait
  refused : List Handle
deriving DecidableEq, Repr

/-! ### Dies -/

/-- A quantisation command (R299-R302): the next block, the destination byte offset where a px8 block goes (`pos`), where its row
began (`rowPos`), and the row's scales not yet written (`tail`); `reread` once it has met a poisoned line (R389). -/
structure QCmd where
  id : Nat
  h : Handle
  ctx : CtxId
  launch : Nat
  core : CoreId
  ctrl : Word
  blockAt : Word
  params : Vector Word 8
  xr : Bool
  level : BitVec 2
  epoch : Nat
  block : Nat
  pos : Nat
  rowPos : Nat
  tail : List Nat
  aside : Bool
  reread : Bool
  missed : Bool
  flags : Flags
  amax : Option Nat
deriving DecidableEq, Repr

/-- A reservation (R74). -/
structure Reservation where
  seed : Word
  tlo : BitVec 32
  thi : BitVec 32
  clo : Word
  chi : Word
deriving DecidableEq, Repr

/-- An unread entry of the fault buffer (R382). -/
structure FbEntry where
  index : Nat
  ctx : CtxId
  page : Nat
  count : Nat
deriving DecidableEq, Repr

/-- Something parked on a translation fault (R386): a strand, a vector command of a core, a copy, a quantisation command. -/
inductive XlateWait where
  | strand (h : Handle)
  | vector (c : CoreId) (id : Nat)
  | copy (id : Nat)
  | qcmd (id : Nat)
deriving DecidableEq, Repr

/-- A run of claimed work-list indices (R322). -/
structure WorkRun where
  launch : Nat
  list : Nat
  next : Nat
  stop : Nat
deriving DecidableEq, Repr

/-- A `wdq` query (R182, R322). -/
structure WorkQuery where
  h : Handle
  core : CoreId
  ctx : CtxId
  launch : Nat
  level : BitVec 2
  index : Option (BitVec 32)
  list : Nat
  i : Nat
  key : Nat
deriving DecidableEq, Repr

/-- A compute die (15, 16, 21). `answers`: the answers of the distributor on their way to their words (R182). -/
structure Die where
  slicemap : Vector (BitVec 5) 32
  qqueue : List QCmd
  rng : Table CtxId (List Reservation)
  fbbase : Word
  fbhead : Word
  fbtail : BitVec 16
  fbdropped : Bool
  fb : List FbEntry
  runs : List WorkRun
  queries : List WorkQuery
  answers : List (WorkQuery × Word)
  tlb2 : List TlbEntry
deriving DecidableEq, Repr

/-- A write of an engine that has left it and has not been performed at its place (R294): the engine, the command and the core, the task, the
context and the launch that it serves, the place, the number of its first byte, its bytes, and the code of the place's scope from the core's
position (R137). -/
structure Posted where
  unit : HwUnit
  cmd : Nat
  core : CoreId
  h : Handle
  ctx : CtxId
  launch : Nat
  place : Place
  key : Nat
  n : Nat
  v : Nat
  scope : Nat
deriving DecidableEq, Repr

/-! ### Contexts and launches -/

/-- A command queue (R308, R309). -/
structure CmdQueue where
  ring : Word
  slots : Nat
  deviceFed : Bool
  enabled : Bool
  head : BitVec 32
  tail : BitVec 32
  state : BitVec 8
  error : BitVec 8
  deriving DecidableEq, Repr

/-- What a context switch saves of a core (R159). -/
structure SavedCore where
  core : CoreId
  image : Core
deriving DecidableEq, Repr

/-- A fault of a task that has exited (R194): the task, the core of its command, its launch and level. -/
structure LateFault where
  h : Handle
  core : CoreId
  launch : Nat
  level : BitVec 2
  info : FaultInfo
deriving DecidableEq, Repr

/-- Who waits for a free record slot (R388). -/
inductive RecordWait where
  | task (h : Handle)
  | exited (f : LateFault)
deriving DecidableEq, Repr

/-- A context (R383, R388). `energy` is what has been charged to it in femtojoules, `past` what had been charged by the end of earlier cycles, the newest first,
as far back as the age of the count reaches, and `shown` what the last read of the count gave (R398). -/
structure Context where
  system : Bool
  level : BitVec 2
  sndto : Word
  traptab : Word
  flttab : Word
  fltrec : Word
  qtab : Word
  ptroot : Word
  rrspill : Word
  smpbuf : Word
  records : List Nat
  waitingRecord : List RecordWait
  queues : Table (BitVec 4) CmdQueue
  setdet : List (BitVec 4 × BitVec 2)
  energy : Nat
  past : List (Nat × Nat)
  shown : Nat
  saved : List SavedCore
  measurement : List Byte
  key : BitVec 256
deriving DecidableEq, Repr

/-- An accepted launch (R313-R322): its cores by logical core number as far as they are placed, the cores whose lease it takes before its first
task binds (`granting`), the cores with a live lease, and one entry of `freed` for each slot that pre-emption has freed for it (R317). -/
structure Launch where
  ctx : CtxId
  queue : BitVec 4
  die : BitVec 2
  role : BitVec 2
  lists : Nat
  listTable : Word
  entry : Word
  args : Vector Word 4
  event : Word
  tasks : Nat
  cores : Nat
  clusters : Nat
  dies : Nat
  modules : Nat
  priority : Nat
  fmta : BitVec 5
  fmtb : BitVec 5
  scla : Word
  sclb : Word
  origin : Nat
  length : Nat
  level : BitVec 2
  logical : List CoreId
  placed : Bool
  retired : Bool
  granting : List CoreId
  leases : List CoreId
  freed : List CoreId
deriving DecidableEq, Repr

/-! ### Fabric -/

/-- A lane of a die (R401-R404): `flits` counts those received under the present keys and `sent` those sent, one nonce for each direction; `retrying`: the
last flit received failed, and is being retransmitted (R389). -/
structure Link where
  up : Bool
  failed : Bool
  flits : Nat
  sent : Nat
  retrying : Bool
  keys : Nat
deriving DecidableEq, Repr

/-- A contribution that a collective window holds (R409). -/
structure Contribution where
  member : Nat
  gen : Nat
  off : Nat
  words : List Word
  copy : Option Nat
deriving DecidableEq, Repr

/-- A bound window (R406, R408). -/
structure Window where
  bind : WindowBinding
  counts : Table Nat Nat
  pending : List Contribution
deriving DecidableEq, Repr

/-- A message on its way through relay slices, or offered by an engine (R151, R291, R374). -/
structure Offer where
  id : Nat
  sender : Sender
  blocking : Bool
  core : CoreId
  msg : Message
  path : List SliceId
deriving DecidableEq, Repr

/-- A WAITEV that waits (R311): its queue, the number of its event word in memory, and the reports of writes to the word that its front end has
not compared yet, oldest first. -/
structure EventWait where
  ctx : CtxId
  queue : BitVec 4
  key : Nat
  value : Word
  reports : List Word
deriving DecidableEq, Repr

/-- The boot of the module (R395): the ROM has not run, it waits for a recovery image, or the firmware runs. -/
inductive Boot where
  | rom
  | recovery
  | running
deriving DecidableEq, Repr

/-- What a party of another module does to a word of a fabric window (R406, R412): it writes bytes, as a store, an atomic or an engine does, takes the word
with `ldf`, puts it with `stf`, watches it with `waita`, or adds in sequence. A plain read leaves nothing here. -/
inductive ForeignAct where
  | write (n : Nat) (v : Nat) (setsFull : Bool)
  | take (keep : Bool)
  | put (v : Word)
  | watch (n : Nat)
  | add (f64 : Bool) (number : BitVec 16) (v : Word)
deriving DecidableEq, Repr

/-- An access by a party of another module (R406, R412): the context here whose window it is, the slice and the offset, a name for the party, and what it
does. -/
structure Foreign where
  ctx : CtxId
  slice : SliceId
  off : Nat
  party : BitVec 16
  act : ForeignAct
deriving DecidableEq, Repr

/-- What the next turn does: an issue on a core; an issue on a core whose access is still on its way when the turn ends, and the arrival of such an access
at its place (R124); an event; the arrival of a posted write at its place (R294); an access of a party of another module (R412); a module that failures elsewhere cut off (R403); a flit sent on a lane
(R404); the next entry of a task's replay records written (R391); or what the default schedule chooses. -/
inductive Choice where
  | issue (c : CoreId)
  | hold (c : CoreId)
  | reach (h : Handle)
  | event (i : Instr)
  | arrive (i : Nat)
  | foreign (x : Foreign)
  | cut (m : BitVec 12)
  | flit (d : BitVec 2) (dir : FabricDir) (lane : BitVec 2)
  | record (h : Handle)
  | auto
deriving DecidableEq, Repr

/-- One entry of the agenda: what happens, how many cycles pass before it, and which of several allowed values each
shared-register read returns. -/
structure Turn where
  what : Choice
  dt : Nat
  picks : List Nat
deriving DecidableEq, Repr

/-! ### The module -/

/-- The state of the module. `poisoned` gives each poisoned line the reason that its next access reports (R389, R400): 1 ECC, 2 MAC, 3 poisoned
earlier. `pulseDue` is the cycle at which the sampling pulse next fires (R399). `heirs` names the core to which what a context held on a lost core has gone
(R393). `xlate` lists what is parked on a translation fault, in the order of the faults, and `reissue` what a `replay` has still to issue again (R386). -/
structure State where
  strands : Table Handle Strand
  cores : Table CoreId Core
  clusters : Table ClusterId Cluster
  dies : Table (BitVec 2) Die
  places : Table Place PlaceState
  hist : Table SliceId HistSlice
  contexts : Table CtxId Context
  launches : Table Nat Launch
  mem : List Host.Cell
  empties : List Nat
  tags : List Nat
  owners : Table Nat CtxId
  poisoned : Table Nat Nat
  cxlDirty : List (Nat × CtxId)
  grants : List (CtxId × SliceId × BitVec 4)
  offers : List Offer
  posted : List Posted
  eventWaits : List EventWait
  xlate : List XlateWait
  reissue : List XlateWait
  diemap : Vector (BitVec 2) 4
  memsize : Word
  ewt : Vector (BitVec 32) 8
  smpctl : Word
  pulses : Nat
  pulseDue : Nat
  out : List HwUnit
  heirs : Table (CoreId × CtxId) CoreId
  errors : Nat
  boot : Boot
  nvme : Option (List Byte)
  firmware : Option (List Byte)
  reports : List (List Byte)
  reads : List (List Byte)
  debugReads : List Word
  position : BitVec 12
  jobs : Table CtxId (List (BitVec 12))
  windows : List Window
  links : Table (BitVec 2 × FabricDir × BitVec 2) Link
  unreachable : List (BitVec 12)
  cycle : Nat
  -- the model's own fields
  agenda : List Turn
  turn : Nat
  picks : List Nat
  cur : Option Handle
  latch : List Half
  fresh : Nat
deriving DecidableEq, Repr

/-! ### Reset -/

/-- A mailbox at reset: no message, no reserved sender (R151). -/
def Mailbox.reset : Mailbox := ⟨[], []⟩

/-- The vector side of a core as a context's first binding finds it (R214, R239). -/
def VectorFile.reset : VectorFile :=
  { v := [], vfull := BitVec.allOnes 16, vn := 256, d := [], dfull := BitVec.allOnes 8, queue := [], trapQueue := [],
    running := [], held := [], waiting := [] }

/-- A core at reset (R147, R153, R158, R383; DESIGN CHOICE, log entry 10). -/
def Core.reset : Core :=
  { s := Vector.replicate 4 ⟨0, []⟩, q := Vector.replicate 4 [], qwait := [], mb := Vector.replicate 16 Mailbox.reset,
    mbwait := [], c := Vector.replicate 16 0, daz := false, xr := false, level := 0, ctx := none,
    slotrole := Vector.replicate 15 0, dqspill := 0, deque := [], spilled := [], dequeRes := [], inbox := [], work := [], away := [],
    gens := Vector.replicate 15 0, vec := VectorFile.reset, m := [], mqueue := [], copyReg := none, copies := [],
    lastSlot := none, issued := [], wdqOpen := 0, regrant := false, leaving := false }

/-- The array of a quad at reset (R273): budget 24, nothing issued, no stall. -/
def Quad.reset : Quad :=
  { running := none, next := 0, turn := 0, turnStarted := false, budget := 24, issued := 0, window := 0, stalls := 0 }

/-- A brush at reset: no tensor, no command, no request (R358). -/
def Brush.reset : Brush :=
  { slots := Vector.replicate 4 none, gens := Vector.replicate 4 0, queue := [], pending := [] }

/-- The debug module at reset (R208; DESIGN CHOICE, log entry 10). -/
def Debug.reset : Debug :=
  { bpen := 0, wpen := 0, xin := false, xout := false, pc := Vector.replicate 4 0, wa := Vector.replicate 2 0,
    halted := false, matched := [] }

/-- A cluster at reset. -/
def Cluster.reset : Cluster :=
  { claims := [], quads := Vector.replicate 2 Quad.reset, nextVec := 0, dbg := Debug.reset, cadmiss := 0,
    brush := Brush.reset, handlers := [], tlb := [], icache := [], nextCopy := 0, outbox := [] }

/-- A place at reset: nothing waits. -/
def PlaceState.reset : PlaceState :=
  { station := [], refused := [], watch := [], seq := [], arrivals := [], relay := [] }

/-- The history part of a slice at reset. -/
def HistSlice.reset : HistSlice := { keys := [], gens := [], waits := [], refused := [] }

/-- A die at reset: `slicemap` is the identity (R288; DESIGN CHOICE, log entry 10 for fbbase and fbhead). -/
def Die.reset : Die :=
  { slicemap := Vector.ofFn fun i => BitVec.ofNat 5 i.val, qqueue := [], rng := [], fbbase := 0, fbhead := 0,
    fbtail := 0, fbdropped := false, fb := [], runs := [], queries := [], answers := [], tlb2 := [] }

/-- A command queue that no `qload` has configured (R309). -/
def CmdQueue.reset : CmdQueue :=
  { ring := 0, slots := 0, deviceFed := false, enabled := false, head := 0, tail := 0, state := 0, error := 0 }

/-- The module right after reset: nothing runs, memory lists nothing, the ROM is about to run (R395). -/
def State.reset : State :=
  { strands := [], cores := [], clusters := [], dies := [], places := [], hist := [], contexts := [], launches := [],
    mem := [], empties := [], tags := [], owners := [], poisoned := [], cxlDirty := [], grants := [],
    offers := [], posted := [], eventWaits := [], xlate := [], reissue := [], diemap := Vector.ofFn fun i => BitVec.ofNat 2 i.val, memsize := 0x18000000000,
    ewt := Vector.replicate 8 0, smpctl := 0, pulses := 0, pulseDue := 0, out := [], heirs := [], errors := 0, boot := .rom, nvme := none,
    firmware := none, reports := [], reads := [], debugReads := [], position := 0, jobs := [], windows := [],
    links := [], unreachable := [], cycle := 0, agenda := [], turn := 0, picks := [], cur := none, latch := [],
    fresh := 0 }

end Sys2Proof.Machine
end

