-- ==== Sys2Proof/Machine/Memory.lean ====
section
/-! DEFINITION. The bytes of memory in one canonical form (DESIGN CHOICE, log entry 11), and the state's tables read and written through
one pair of operations each. -/

namespace Sys2Proof.Machine

/-! ### Bytes -/

/-- What an unlisted address reads as: no rule gives memory a value before it is written (DESIGN CHOICE, log entry 11). -/
def Memory.unlisted : Byte := 0

/-- The byte at an address. -/
def Memory.read : List Host.Cell → Nat → Byte
  | [], _ => Memory.unlisted
  | (a, b) :: t, k => if a = k then b else if k < a then Memory.unlisted else Memory.read t k

/-- Memory with one byte written, in canonical form. -/
def Memory.write : List Host.Cell → Nat → Byte → List Host.Cell
  | [], k, v => if v = Memory.unlisted then [] else [(k, v)]
  | (a, b) :: t, k, v =>
    if a = k then (if v = Memory.unlisted then t else (k, v) :: t)
    else if k < a then (if v = Memory.unlisted then (a, b) :: t else (k, v) :: (a, b) :: t)
    else (a, b) :: Memory.write t k v

/-- Addresses rise strictly from `lo`, and no entry holds what an unlisted address reads as. -/
def Memory.wfFrom (lo : Nat) : List Host.Cell → Bool
  | [] => true
  | (a, b) :: t => decide (lo ≤ a) && !decide (b = Memory.unlisted) && Memory.wfFrom (a + 1) t

/-- The canonical form of memory. -/
def Memory.wf (m : List Host.Cell) : Bool := Memory.wfFrom 0 m

/-- The n bytes at an address as a little-endian number (R53). -/
def Memory.readN (m : List Host.Cell) (a : Nat) : Nat → Nat
  | 0 => 0
  | n + 1 => (Memory.read m a).toNat + 256 * Memory.readN m (a + 1) n

/-- Memory with the n bytes at an address written from a little-endian number (R53). -/
def Memory.writeN (m : List Host.Cell) (a : Nat) : Nat → Nat → List Host.Cell
  | 0, _ => m
  | n + 1, v => Memory.writeN (Memory.write m a (BitVec.ofNat 8 v)) (a + 1) n (v / 256)

/-- Memory with a byte string written at an address. -/
def Memory.writeBytes (m : List Host.Cell) (a : Nat) : List Byte → List Host.Cell
  | [] => m
  | b :: t => Memory.writeBytes (Memory.write m a b) (a + 1) t

/-- The n bytes at an address, lowest first. -/
def Memory.readBytes (m : List Host.Cell) (a : Nat) : Nat → List Byte
  | 0 => []
  | n + 1 => Memory.read m a :: Memory.readBytes m (a + 1) n

/-- Memory with every listed byte of a range removed, so that the range reads as zero (R191). -/
def Memory.clear (m : List Host.Cell) (lo hi : Nat) : List Host.Cell := m.filter fun c => !(decide (lo ≤ c.1) && decide (c.1 < hi))

/-! ### Tables of the state -/

/-- The live task of a handle. -/
def State.strand? (s : State) (h : Handle) : Option Strand := Table.find h s.strands

/-- The state with one task's record written. -/
def State.setStrand (s : State) (h : Handle) (st : Strand) : State := { s with strands := Table.put h st s.strands }

/-- The state with one live task's record changed. -/
def State.modStrand (s : State) (h : Handle) (f : Strand → Strand) : State :=
  match s.strand? h with
  | some st => s.setStrand h (f st)
  | none => s

/-- The state without a task. -/
def State.dropStrand (s : State) (h : Handle) : State := { s with strands := Table.remove h s.strands }

/-- A core. -/
def State.core (s : State) (c : CoreId) : Core := Table.get Core.reset c s.cores

/-- The state with one core written. -/
def State.setCore (s : State) (c : CoreId) (x : Core) : State := { s with cores := Table.put c x s.cores }

/-- The state with one core changed. -/
def State.modCore (s : State) (c : CoreId) (f : Core → Core) : State := s.setCore c (f (s.core c))

/-- The state with the vector side of one core changed. -/
def State.modVec (s : State) (c : CoreId) (f : VectorFile → VectorFile) : State :=
  s.modCore c fun x => { x with vec := f x.vec }

/-- A cluster. -/
def State.cluster (s : State) (c : ClusterId) : Cluster := Table.get Cluster.reset c s.clusters

/-- The state with one cluster changed. -/
def State.modCluster (s : State) (c : ClusterId) (f : Cluster → Cluster) : State :=
  { s with clusters := Table.put c (f (s.cluster c)) s.clusters }

/-- A die. -/
def State.die (s : State) (d : BitVec 2) : Die := Table.get Die.reset d s.dies

/-- The state with one die changed. -/
def State.modDie (s : State) (d : BitVec 2) (f : Die → Die) : State :=
  { s with dies := Table.put d (f (s.die d)) s.dies }

/-- What a place keeps for waiting requests. -/
def State.place (s : State) (p : Place) : PlaceState := Table.get PlaceState.reset p s.places

/-- The state with one place changed. -/
def State.modPlace (s : State) (p : Place) (f : PlaceState → PlaceState) : State :=
  { s with places := Table.put p (f (s.place p)) s.places }

/-- The history part of a slice. -/
def State.histSlice (s : State) (i : SliceId) : HistSlice := Table.get HistSlice.reset i s.hist

/-- The state with the history part of one slice changed. -/
def State.modHist (s : State) (i : SliceId) (f : HistSlice → HistSlice) : State :=
  { s with hist := Table.put i (f (s.histSlice i)) s.hist }

/-- A context. -/
def State.context? (s : State) (c : CtxId) : Option Context := Table.find c s.contexts

/-- The state with one context changed. -/
def State.modContext (s : State) (c : CtxId) (f : Context → Context) : State :=
  match s.context? c with
  | some x => { s with contexts := Table.put c (f x) s.contexts }
  | none => s

/-- A launch. -/
def State.launch? (s : State) (n : Nat) : Option Launch := Table.find n s.launches

/-- The state with one launch changed. -/
def State.modLaunch (s : State) (n : Nat) (f : Launch → Launch) : State :=
  match s.launch? n with
  | some x => { s with launches := Table.put n (f x) s.launches }
  | none => s

/-- The cluster of a core. -/
def clusterOf (c : CoreId) : ClusterId := ⟨c.die, c.cluster⟩

/-- A core of a cluster. -/
def coreOf (c : ClusterId) (k : BitVec 3) : CoreId := ⟨c.die, c.cluster, k⟩

/-- The cores of a cluster in increasing order. -/
def coresOf (c : ClusterId) : List CoreId := (List.range 8).map fun k => coreOf c (BitVec.ofNat 3 k)

/-- The quad of a core (R1). -/
def quadOf (c : CoreId) : QuadId := ⟨clusterOf c, decide (c.core.toNat ≥ 4)⟩

/-- The cores of a quad. -/
def coresOfQuad (q : QuadId) : List CoreId :=
  (List.range 4).map fun k => coreOf q.cluster (BitVec.ofNat 3 (k + if q.hi then 4 else 0))

/-- The array of a quad. -/
def State.quad (s : State) (q : QuadId) : Quad := if q.hi then (s.cluster q.cluster).quads[1] else (s.cluster q.cluster).quads[0]

/-- The state with the array of one quad changed. -/
def State.modQuad (s : State) (q : QuadId) (f : Quad → Quad) : State :=
  s.modCluster q.cluster fun c =>
    if q.hi then { c with quads := c.quads.set 1 (f c.quads[1]) } else { c with quads := c.quads.set 0 (f c.quads[0]) }

/-- The task stands in its slot: it is neither pre-empted nor in a packet (R97, R317). -/
def Strand.occupies (st : Strand) : Bool :=
  match st.status with
  | .preempted | .packet _ => false
  | _ => true

/-- The task's context has its core; a task whose context has left the core stands in no slot (R159). -/
def State.present (s : State) (st : Strand) : Bool := decide ((s.core st.core).ctx = some st.ctx)

/-- The saved state of a context waits to be restored to a core (R159). -/
def State.hasImage (s : State) (c : CoreId) (ctx : CtxId) : Bool := (s.context? ctx).any fun x => x.saved.any fun k => decide (k.core = c)

/-- A core admits tasks of a context: that context has it; or no context has it, and no state of the context waits to be restored there, which comes first
(R159). -/
def State.admitsCtx (s : State) (c : CoreId) (ctx : CtxId) : Bool :=
  match (s.core c).ctx with
  | some x => decide (x = ctx)
  | none => !s.hasImage c ctx

/-- A context has a core from its first task on; its level shows in `ccr` from each binding on (R159, R323; DEDUCED, log entry 65). -/
def State.takeCore (s : State) (c : CoreId) (ctx : CtxId) (level : BitVec 2) : State :=
  s.modCore c fun x => { x with ctx := some ctx, level := level }

/-- The task that stands in a slot of a core. -/
def State.inSlot (s : State) (c : CoreId) (slot : BitVec 4) : Option (Handle × Strand) :=
  s.strands.find? fun e => decide (e.2.core = c) && decide (e.2.slot = slot) && e.2.occupies && s.present e.2

/-- The slots 0-14 of a core that hold no strand, in increasing order (R147). -/
def State.freeSlots (s : State) (c : CoreId) : List (BitVec 4) :=
  ((List.range 15).map (BitVec.ofNat 4)).filter fun i => (s.inSlot c i).isNone

/-- The oldest that a read of a context's count of energy may be, in cycles (R398). -/
def energyAge : Nat := 65536

/-- Earlier counts of a context, as far back as a read at a cycle may find them (R398). -/
def recentPast (cycle : Nat) : List (Nat × Nat) → List (Nat × Nat)
  | [] => []
  | e :: t => if cycle < e.1 + energyAge then e :: recentPast cycle t else [e]

/-- The counts of a context, the newest first, with a new count at a cycle; what is too old to be read goes every 65,536 cycles (R398). -/
def notePast (cycle count : Nat) : List (Nat × Nat) → List (Nat × Nat)
  | [] => [(cycle, count)]
  | e :: t =>
    if e.1 = cycle then (cycle, count) :: t
    else (cycle, count) :: if e.1 / energyAge = cycle / energyAge then e :: t else recentPast cycle (e :: t)

/-- What had been charged to a context by the end of a cycle (R398). -/
def Context.chargedBy (x : Context) (cycle : Nat) : Nat := ((x.past.find? fun e => decide (e.1 ≤ cycle)).map (·.2)).getD 0

/-- Femtojoules charged to a context at a cycle (R398). -/
def Context.charge (x : Context) (cycle fj : Nat) : Context :=
  { x with energy := x.energy + fj, past := if fj = 0 then x.past else notePast cycle (x.energy + fj) x.past }

/-- Charge `n` events of a class to a context (R398). -/
def State.charge (s : State) (ctx : CtxId) (cls : Fin 8) (n : Nat) : State :=
  s.modContext ctx fun x => x.charge s.cycle (n * s.ewt[cls].toNat)

/-- The system context, if one exists (R388). -/
def State.systemContext (s : State) : Option CtxId := (s.contexts.find? fun e => e.2.system).map (·.1)

/-- A new name for a command, an offer or a launch, and the argument of a free value (DESIGN CHOICE, log entries 4, 70). -/
def State.bump (s : State) : State := { s with fresh := s.fresh + 1 }

/-- The line of a physical address is poisoned (R389). -/
def State.isPoisoned (s : State) (pa : Nat) : Bool := (Table.find (pa / 64) s.poisoned).isSome

/-! ### Units in service (R210, R306, R393) -/

/-- A unit is out of service. -/
def State.isOut (s : State) (u : HwUnit) : Bool := decide (u ∈ s.out)

/-- A cluster is in service: its die is, and none of the units whose loss takes the cluster out has been lost (R210, R306, R365). -/
def State.clusterIn (s : State) (c : ClusterId) : Bool :=
  !s.isOut (.die c.die) && !s.isOut (.copyEngine c) && !s.isOut (.brush c) && !s.isOut (.router c) &&
  !s.isOut (.array ⟨c, false⟩) && !s.isOut (.array ⟨c, true⟩) && !((coresOf c).any fun k => s.isOut (.bank k))

/-- A core is in service. -/
def State.coreIn (s : State) (c : CoreId) : Bool := s.clusterIn (clusterOf c) && !s.isOut (.core c)

/-- A slice is in service. -/
def State.sliceIn (s : State) (i : SliceId) : Bool := !s.isOut (.die i.die) && !s.isOut (.slice i)

/-- The dies in service, from die 0 (R308). -/
def State.diesIn (s : State) : List (BitVec 2) :=
  ((List.range 4).map (BitVec.ofNat 2)).filter fun d => !s.isOut (.die d)

/-- The groups of lanes in service in a cluster (R200). -/
def State.groupsIn (s : State) (c : ClusterId) : Nat :=
  ((List.range 8).filter fun i => !s.isOut (.laneGroup c (BitVec.ofNat 3 i))).length

end Sys2Proof.Machine
end

