-- ==== Sys2Proof/Machine/Translate.lean ====
section
/-! DEFINITION. Address spaces (R90-R92, R287), physical memory and homes (R288, R375, R376), and translation (R379-R382). -/

namespace Sys2Proof.Machine

/-! ### Spaces -/

/-- What an effective address names (R90). -/
inductive Space where
  | global (va : Nat)
  | bank (c : CoreId) (off : Nat)
  | slice (i : SliceId) (off : Nat)
deriving DecidableEq, Repr

/-- The coordinate-form address of an offset of a core's bank (R90). -/
def coordAddr (c : CoreId) (off : Nat) : Word :=
  (0b1000#4 ++ c.die ++ c.cluster ++ c.core ++ 0#48 : BitVec 64) + BitVec.ofNat 64 off

/-- The slice-space address of an offset of a slice (R287). -/
def sliceAddr (i : SliceId) (off : Nat) : Word :=
  (0b1010#4 ++ i.die ++ i.slice ++ 0#53 : BitVec 64) + BitVec.ofNat 64 off

/-- One coordinate of a coordinate-relative address: its own value plus a signed difference, within 0 to 2^n - 1 (R90, R91). -/
def relCoord (n own delta : Nat) : Option Nat :=
  let x : Int := (own : Int) + (if delta ≥ 2 ^ (n - 1) then (delta : Int) - 2 ^ n else delta)
  if 0 ≤ x && x < 2 ^ n then some x.toNat else none

/-- The core that a coordinate-relative address names from another (R91). -/
def relCore (own : CoreId) (ea : Word) : Option CoreId :=
  match relCoord 3 (own.cluster.toNat / 16) (ea.extractLsb' 55 3).toNat,
        relCoord 4 (own.cluster.toNat % 16) (ea.extractLsb' 51 4).toNat,
        relCoord 3 own.core.toNat (ea.extractLsb' 48 3).toNat with
  | some row, some col, some k => some ⟨own.die, BitVec.ofNat 7 (16 * row + col), BitVec.ofNat 3 k⟩
  | _, _, _ => none

/-- The window of a slice that an offset lies in (R287). -/
def windowOf (off : Nat) : BitVec 4 := BitVec.ofNat 4 (off / 65536)

/-- Decode of an effective address from a core, with the checks of R90 and R287; a failure gives its reason (R400). -/
def State.space (s : State) (own : CoreId) (ctx : CtxId) (ea : Word) : Except Nat Space :=
  let top := (ea.extractLsb' 60 4).toNat
  if top < 8 then
    let hi := ea.extractLsb' 47 16
    if hi = 0 ∨ hi = BitVec.allOnes 16 then .ok (.global (ea.extractLsb' 0 48).toNat) else .error 1
  else if top = 8 then
    if ea.extractLsb' 17 31 ≠ 0 then .error 1
    else
      let c : CoreId := ⟨ea.extractLsb' 58 2, ea.extractLsb' 51 7, ea.extractLsb' 48 3⟩
      if s.clusterIn (clusterOf c) then .ok (.bank c (ea.extractLsb' 0 17).toNat) else .error 2
  else if top = 9 then
    if ea.extractLsb' 17 31 ≠ 0 ∨ ea.extractLsb' 58 2 ≠ 0 then .error 1
    else
      match relCore own ea with
      | some c => if s.clusterIn (clusterOf c) then .ok (.bank c (ea.extractLsb' 0 17).toNat) else .error 2
      | none => .error 2
  else if top = 10 then
    if ea.extractLsb' 20 33 ≠ 0 then .error 1
    else
      let i : SliceId := ⟨ea.extractLsb' 58 2, ea.extractLsb' 53 5⟩
      let off := (ea.extractLsb' 0 20).toNat
      if s.sliceIn i && s.grants.contains (ctx, i, windowOf off) then .ok (.slice i off) else .error 4
  else .error 1

/-- The coordinate form of what an address names, where it names a word of a bank and resolves to a core, in service or not (R90, R91). -/
def coordForm (own : CoreId) (ea : Word) : Word :=
  if ea.extractLsb' 60 4 = 9 then
    match relCore own ea with
    | some c => coordAddr c (ea.extractLsb' 0 17).toNat
    | none => ea
  else ea

/-! ### Physical memory and homes -/

/-- The kinds of physical memory (R375). -/
inductive PaKind where
  | lpddr | cxl | host
deriving DecidableEq, Repr

/-- What a physical address names; none where the map lists nothing or the installed size ends (R375). How much CXL memory is installed is the
machine's own (DESIGN CHOICE, log entry 71). -/
def State.paKind (s : State) (pa : Nat) : Option PaKind :=
  if pa < s.memsize.toNat && pa < 2 ^ 44 then some .lpddr
  else if 2 ^ 44 ≤ pa && pa < 2 ^ 44 + min Config.cxlInstalled (2 ^ 43) then some .cxl
  else if 2 ^ 48 ≤ pa && pa < 2 ^ 52 then some .host
  else none

/-- The hash of R288 and R328 over an address. -/
def homeHash (a : Nat) : BitVec 5 :=
  let f := fun i => BitVec.ofNat 5 (a / 2 ^ i)
  f 6 ^^^ f 11 ^^^ f 16 ^^^ f 21

/-- The home slice of a line of LPDDR6 or CXL memory (R288, R376). -/
def State.homeOf (s : State) (pa : Nat) : SliceId :=
  let d := s.diemap[(BitVec.ofNat 2 (pa / 2 ^ 11) ^^^ BitVec.ofNat 2 (pa / 2 ^ 27)).toFin]
  ⟨d, (s.die d).slicemap[(homeHash pa).toFin]⟩

/-! ### Bytes of memory by place -/

/-- Where an access is performed: its place, the number under which memory keeps its first byte, and what R88, R378
and R391 ask about it. -/
structure Loc where
  place : Place
  key : Nat
  ea : Word
  cxl : Bool := false
  recorded : Bool := true
deriving DecidableEq, Repr

/-- The home module of a slice window of a context, where the firmware has bound one (R406). -/
def State.windowHome (s : State) (ctx : CtxId) (i : SliceId) (off : Nat) : Option (BitVec 12) :=
  (s.windows.find? fun w =>
    decide (w.bind.ctx = ctx) && decide (w.bind.slice = i) && decide (w.bind.window = windowOf off)).map (·.bind.home)

/-- The location of a bank word. -/
def bankLoc (ea : Word) (c : CoreId) (off : Nat) : Loc := { place := .bank c, key := (coordAddr c off).toNat, ea := ea }

/-- The location of a slice-space word, on this module or on the home module of its window (R406). -/
def State.sliceLoc (s : State) (ctx : CtxId) (ea : Word) (i : SliceId) (off : Nat) : Loc :=
  match s.windowHome ctx i off with
  | some m =>
    if m = s.position then { place := .slice i, key := (sliceAddr i off).toNat, ea := ea }
    else { place := .module m i, key := (sliceAddr i off).toNat + (m.toNat + 1) * 2 ^ 64, ea := ea }
  | none => { place := .slice i, key := (sliceAddr i off).toNat, ea := ea }

/-- The location of a physical address (R376, R394). -/
def State.paLoc (s : State) (ea : Word) (pa : Nat) (shwr : Bool) : Option Loc :=
  match s.paKind pa with
  | some .host => some { place := .host, key := pa, ea := ea, recorded := shwr }
  | some k => some { place := .slice (s.homeOf pa), key := pa, ea := ea, cxl := k == .cxl, recorded := shwr }
  | none => none

/-! ### Page tables -/

/-- The outcome of a walk (R379, R381, R389): a leaf with the first address and size of its page, an entry that is not
present with its level, a malformed entry, or an entry in a poisoned line, with its address. -/
inductive Walk where
  | leaf (pte : Word) (size : Nat)
  | absent (level : Nat)
  | malformed (pte : Word)
  | poisoned (pa : Nat)
deriving DecidableEq, Repr

/-- The PTE fields of R379 (DEDUCED, log entry 60). -/
def pteValid (p : Word) : Bool := p.getLsbD 0
def pteLeaf (p : Word) : Bool := p.getLsbD 1
def pteW (p : Word) : Bool := p.getLsbD 2
def pteX (p : Word) : Bool := p.getLsbD 3
def pteShwr (p : Word) : Bool := p.getLsbD 5
def pteOpen (p : Word) : Bool := p.getLsbD 6
def pteAddr (p : Word) : Nat := (p.extractLsb' 8 44).toNat * 256
def pteReserved (p : Word) : Bool := p.extractLsb' 52 12 ≠ 0 || p.getLsbD 7 || p.getLsbD 4

/-- The size of the page of a leaf at a level (R379). -/
def leafSize : Nat → Nat
  | 1 => 2 ^ 30
  | 2 => 2 ^ 21
  | _ => 2 ^ 16

/-- The index into the table of a level (R379). -/
def walkIndex (va level : Nat) : Nat :=
  match level with
  | 0 => va / 2 ^ 39 % 512
  | 1 => va / 2 ^ 30 % 512
  | 2 => va / 2 ^ 21 % 512
  | _ => va / 2 ^ 16 % 32

/-- A PTE breaks a rule of the tables of R379 at a level. -/
def pteMalformed (p : Word) (level : Nat) : Bool :=
  pteReserved p ||
  (if pteLeaf p then level == 0 || pteAddr p % leafSize level != 0
   else level == 3 || (level != 2 && pteAddr p % 4096 != 0))

/-- The entry of a page table at an index (R379). -/
def State.tableEntry (s : State) (table i : Nat) : Word := BitVec.ofNat 64 (Memory.readN s.mem (table + 8 * i) 8)

/-- A walk from a table at a level; `n` is the number of levels left (R379, R381, R389). -/
def State.walkFrom (s : State) (va table level : Nat) : Nat → Walk
  | 0 => .absent 3
  | n + 1 =>
    let p := s.tableEntry table (walkIndex va level)
    if s.isPoisoned (table + 8 * walkIndex va level) then .poisoned (table + 8 * walkIndex va level)
    else if !pteValid p then .absent level
    else if pteMalformed p level then .malformed p
    else if pteLeaf p then .leaf p (leafSize level)
    else s.walkFrom va (pteAddr p) (level + 1) n

/-- The first address of a context's level-0 table (R379, R383). -/
def Context.root (x : Context) : Nat := (x.ptroot.extractLsb' 12 40).toNat * 4096

/-- A walk of a context's table (R379, R383). -/
def State.walk (s : State) (ctx : CtxId) (va : Nat) : Walk :=
  match s.context? ctx with
  | some x => s.walkFrom va x.root 0 4
  | none => .absent 0

/-- Some leaf below a table marks the page of a physical address open (R379); `n` is the number of levels left. -/
def State.tableOpens (s : State) (pa table level : Nat) : Nat → Bool
  | 0 => false
  | n + 1 => (List.range (if level = 3 then 32 else 512)).any fun i =>
    let p := s.tableEntry table i
    pteValid p && !pteMalformed p level &&
    (if pteLeaf p then pteOpen p && decide (pteAddr p ≤ pa) && decide (pa < pteAddr p + leafSize level)
     else s.tableOpens pa (pteAddr p) (level + 1) n)

/-- The page of a physical address is open: a context's page table marks it so (R378, R379; DEDUCED, log entry 79). -/
def State.pageOpen (s : State) (pa : Nat) : Bool := s.contexts.any fun e => s.tableOpens pa e.2.root 0 4

/-- The outcome of a translation of one access (R381, R389). -/
inductive Xlate where
  | ok (pa : Nat) (pte : Word)
  | absent (level : Nat)
  | fault (reason : Nat) (pte : Word)
  | poisoned (pa : Nat)
deriving DecidableEq, Repr

/-- Whether a leaf admits an access kind (R381). -/
def permits (pte : Word) (kind : AccessKind) : Bool :=
  match kind with
  | .read => true
  | .write => pteW pte
  | .fetch => pteX pte

/-- The physical address that a leaf gives a virtual address, if it admits the access (R379, R381). -/
def leafAccess (va : Nat) (kind : AccessKind) (pte : Word) (size : Nat) : Xlate :=
  if permits pte kind then .ok (pteAddr pte + va % size) pte else .fault 2 pte

/-- The TLB's entry for a virtual address of a context (R380). -/
def tlbFind (tlb : List TlbEntry) (ctx : CtxId) (va : Nat) : Option TlbEntry :=
  tlb.find? fun e => decide (e.ctx = ctx) && decide (e.base ≤ va) && decide (va < e.base + e.size)

/-- A TLB of `cap` entries with one added; the oldest leaves a full one (DESIGN CHOICE, log entry 14). -/
def tlbAdd (cap : Nat) (tlb : List TlbEntry) (e : TlbEntry) : List TlbEntry :=
  if tlb.contains e then tlb else (if tlb.length < cap then tlb else tlb.drop (tlb.length + 1 - cap)) ++ [e]

/-- The leaf that translates a virtual address for a cluster: from its TLB, from its die's second-level TLB, or by a walk (R380). -/
def State.leafFor (s : State) (cl : ClusterId) (ctx : CtxId) (va : Nat) : Walk :=
  match tlbFind (s.cluster cl).tlb ctx va with
  | some e => .leaf e.pte e.size
  | none =>
    match tlbFind (s.die cl.die).tlb2 ctx va with
    | some e => .leaf e.pte e.size
    | none => s.walk ctx va

/-- The translation of one access from a cluster (R380, R381). -/
def State.translate (s : State) (cl : ClusterId) (ctx : CtxId) (va : Nat) (kind : AccessKind) : Xlate :=
  match s.leafFor cl ctx va with
  | .leaf pte size => leafAccess va kind pte size
  | .absent l => .absent l
  | .malformed p => .fault 3 p
  | .poisoned pa => .poisoned pa

/-- A slice performs an access for a context, with the memory lines that it moves for it, and the flits that carry it where it goes over the ring or the fabric;
how many lines and flits those are no program can tell (R398; DESIGN CHOICE, log entry 86). -/
def State.sliceEvents (s : State) (ctx : CtxId) (key : Nat) (away : Bool) : State :=
  let s1 := s.charge ctx 4 1
  let s2 := if key < 2 ^ 48 then s1.charge ctx 5 (Config.lineEvents s.cycle key) else s1
  if away then s2.charge ctx 6 (Config.flitEvents s.cycle key) else s2

/-- The addresses of the entries that a walk reads from a table on, as `walkFrom` does (R379, R380). -/
def State.walkReads (s : State) (va table level : Nat) : Nat → List Nat
  | 0 => []
  | n + 1 =>
    let a := table + 8 * walkIndex va level
    let p := s.tableEntry table (walkIndex va level)
    a :: (if s.isPoisoned a || !pteValid p || pteMalformed p level || pteLeaf p then [] else s.walkReads va (pteAddr p) (level + 1) n)

/-- The PTE reads of a translation that neither TLB holds: global loads at their home slices for the context (R380, R398). -/
def State.countWalk (s : State) (cl : ClusterId) (ctx : CtxId) (va : Nat) : State :=
  if (tlbFind (s.cluster cl).tlb ctx va).isSome ∨ (tlbFind (s.die cl.die).tlb2 ctx va).isSome then s
  else
    match s.context? ctx with
    | some x => (s.walkReads va x.root 0 4).foldl (fun s a => s.sliceEvents ctx a ((s.homeOf a).die != cl.die)) s
    | none => s

/-- The TLBs after a translation that met a leaf, with the PTE reads of its walk (R380, R398). -/
def State.keepLeaf (s : State) (cl : ClusterId) (ctx : CtxId) (va : Nat) : State :=
  match s.leafFor cl ctx va with
  | .leaf pte size =>
    let e : TlbEntry := ⟨ctx, va / size * size, size, pte⟩
    let s1 := (s.countWalk cl ctx va).modCluster cl fun x => { x with tlb := tlbAdd 128 x.tlb e }
    s1.modDie cl.die fun x => { x with tlb2 := tlbAdd 8192 x.tlb2 e }
  | _ => s

/-! ### Accesses of the device itself -/

/-- Where an access of the device to an address of a context is performed, with no lease and no TLB entry: tables of
system software, fault records, packets and event words (R101, R103, R309-R311). A poisoned line answers nothing (R389; DESIGN CHOICE, log entry 4). -/
def State.deviceLoc (s : State) (own : CoreId) (ctx : CtxId) (ea : Word) (kind : AccessKind) : Option Loc :=
  match s.space own ctx ea with
  | .ok (.global va) =>
    match s.walk ctx va with
    | .leaf pte size =>
      match leafAccess va kind pte size with
      | .ok pa p => if s.isPoisoned pa then none else s.paLoc ea pa (pteShwr p)
      | _ => none
    | _ => none
  | .ok (.bank c off) => some (bankLoc ea c off)
  | .ok (.slice i off) => some (s.sliceLoc ctx ea i off)
  | .error _ => none

/-- The n bytes that the device reads at an address of a context, as a number; a free value where no memory answers
(DESIGN CHOICE, log entry 4). -/
def State.deviceRead (s : State) (own : CoreId) (ctx : CtxId) (ea : Word) (n : Nat) : Option Nat :=
  (s.deviceLoc own ctx ea .read).map fun l => Memory.readN s.mem l.key n

end Sys2Proof.Machine
end

