-- ==== Sys2Proof/Machine/Places.lean ====
section
/-! DEFINITION. What a place does with its words: full/empty bits and barrier tags (R128, R195), wait stations (R196), watch
tables (R139), sequence tables (R198, R199), arrival registers (R206), and the effects of a data write. -/

namespace Sys2Proof.Machine

/-- The 8-byte word of a byte. -/
def wordOf (key : Nat) : Nat := key / 8 * 8

/-- The word of a byte is full (R129, R195). -/
def State.isFull (s : State) (key : Nat) : Bool := !s.empties.contains (wordOf key)

/-- The word of a byte set full or empty. -/
def State.setFull (s : State) (key : Nat) (full : Bool) : State :=
  if full then { s with empties := dropAll (wordOf key) s.empties } else { s with empties := addOnce (wordOf key) s.empties }

/-- The word of a byte carries a barrier tag (R180). -/
def State.isTagged (s : State) (key : Nat) : Bool := s.tags.contains (wordOf key)

/-- The number of the n bytes of memory at a location. -/
def State.readN (s : State) (key n : Nat) : Nat := Memory.readN s.mem key n

/-- A 64-bit word of memory. -/
def State.readWord (s : State) (key : Nat) : Word := BitVec.ofNat 64 (s.readN key 8)

/-- A reply, or a fault, that a place sends to a strand; the strand commits it later (R124). -/
def State.deliver (s : State) (h : Handle) (r : Reply ⊕ FaultInfo) : State :=
  s.modStrand h fun st =>
    match st.pending with
    | some p => { st with pending := some { p with reply := some r }, status := .parked .reply }
    | none => st

/-- A reply with a value and no flag. -/
def State.answer (s : State) (h : Handle) (v : Word) : State := s.deliver h (.inl ⟨v, 0⟩)

/-- Generation, expected and arrived counts of a barrier word (R180). -/
def barGen (w : Word) : BitVec 16 := w.extractLsb' 48 16
def barExpect (w : Word) : BitVec 16 := w.extractLsb' 32 16
def barArrived (w : Word) : BitVec 16 := w.extractLsb' 16 16
def barWord (gen expect arrived : BitVec 16) : Word := gen ++ expect ++ arrived ++ 0#16

/-- The word after one arrival (R181). -/
def barArrive (w : Word) : Word :=
  if barArrived w + 1 = barExpect w then barWord (barGen w + 1) (barExpect w) 0
  else barWord (barGen w) (barExpect w) (barArrived w + 1)

/-! ### Tensors in a bank (R349, R357, R363) -/

/-- Elements of a tensor (R348). -/
def Tensor.count (t : Tensor) : Nat := t.e0 * t.e1 * t.e2

/-- Chunks of a tensor, of one of its slabs, and the first chunk of its slab (R349, R357). -/
def Tensor.chunks (t : Tensor) : Nat := (t.count + 63) / 64
def Tensor.perSlab (t : Tensor) : Nat := (t.chunks + t.slabs.length - 1) / t.slabs.length
def Tensor.firstChunk (t : Tensor) : Nat := t.slab * t.perSlab
def Tensor.slabChunks (t : Tensor) : Nat := min ((t.slab + 1) * t.perSlab) t.chunks - min t.firstChunk t.chunks

/-- The banks of a tensor in increasing core order (R349). -/
def Tensor.bankList (t : Tensor) : List (BitVec 3) := ((List.range 8).filter fun k => t.banks.getLsbD k).map (BitVec.ofNat 3)

/-- The chunks that the n-th bank of a tensor's mask holds (R349). -/
def Tensor.chunksIn (t : Tensor) (n : Nat) : Nat :=
  let nb := t.bankList.length
  (t.slabChunks + nb - 1 - n) / nb

/-- The storage or the skip map of a tensor covers some byte of off .. off + n - 1 of a bank (R349, R363). -/
def Tensor.covers (t : Tensor) (k : BitVec 3) (off n : Nat) : Bool :=
  let i := t.bankList.idxOf k
  if i < t.bankList.length then
    let c := t.chunksIn i
    (decide (off < t.soff + 512 * c) && decide (t.soff < off + n)) || (decide (off < t.koff + 8 * c) && decide (t.koff < off + n))
  else false

/-- A tensor handle (R358). -/
def tensorHandle (t : Tensor) (slot : Nat) : Word :=
  t.gen ++ 0#32 ++ BitVec.ofBool t.die ++ t.cluster0.cluster ++ 0#6 ++ BitVec.ofNat 2 slot

/-- The handle of a tensor whose running sweep command covers a byte range of a bank (R363). -/
def State.sweeping (s : State) (c : CoreId) (off n : Nat) : Option Word :=
  let b := (s.cluster (clusterOf c)).brush
  (b.queue.find? fun m => m.started && m.prog.isNone && (match b.slots[m.slot.toFin] with
    | some t => t.covers c.core off n
    | none => false)).bind fun m => (b.slots[m.slot.toFin]).map fun t => tensorHandle t m.slot.toNat

/-! ### Comparators of the debug module (R208, R209) -/

/-- The bank-word comparator `i` of a cluster matches the bytes key .. key + n - 1 of a bank (R208, R209). -/
def wordMatch (x : Debug) (i : Fin 2) (key n : Nat) : Bool :=
  x.wpen.getLsbD i.val && decide (key < x.wa[i].toNat + 8) && decide (x.wa[i].toNat < key + n)

/-- A place performs an access to the bytes key .. key + n - 1: the bank-word comparators of a bank's cluster take note (R209; DEDUCED, log entry 53). -/
def State.noteAccess (s : State) (p : Place) (key n : Nat) : State :=
  match p with
  | .bank c =>
    let hits := (([0, 1] : List (Fin 2)).filter fun i => wordMatch (s.cluster (clusterOf c)).dbg i key n).map fun i =>
      HaltCause.word (BitVec.ofNat 1 i.val)
    if hits.isEmpty ∨ s.isOut (.debug (clusterOf c)) then s
    else s.modCluster (clusterOf c) fun x => { x with dbg := { x.dbg with matched := x.dbg.matched ++ hits } }
  | _ => s

/-! ### Watch tables (R139) -/

/-- An entry's word overlaps the bytes a .. a + n - 1. -/
def Watch.hit (e : Watch) (a n : Nat) : Bool := decide (e.key < a + n) && decide (a < e.key + e.bytes)

/-- The home slice of an event word reports a write to it to the front ends that wait for it (R311). -/
def State.reportEvents (s : State) (a n : Nat) : State :=
  if s.eventWaits.isEmpty then s else
  { s with eventWaits := s.eventWaits.map fun e =>
    if a < e.key + 8 ∧ e.key < a + n then { e with reports := e.reports ++ [s.readWord e.key] } else e }

/-- The place performs a watching request: its reply carries the word as it then is (R138, R139, R209). -/
def State.answerWatch (s : State) (p : Place) (e : Watch) : State :=
  (s.noteAccess p e.key e.bytes).answer e.h (BitVec.ofNat 64 (s.readN e.key e.bytes))

/-- Every entry that a write of the bytes a .. a + n - 1 wakes is answered, oldest first, and removed (R139); a waiting front end has the write
reported (R311). -/
def State.wakeWatch (s0 : State) (p : Place) (a n : Nat) : State :=
  let s := s0.reportEvents a n
  let hits := (s.place p).watch.filter fun e => e.hit a n
  if hits.isEmpty then s else
  let s1 := hits.foldl (fun t e => t.answerWatch p e) s
  s1.modPlace p fun x => { x with watch := x.watch.filter fun e => !e.hit a n }

/-- A new entry; a full table first answers and removes its oldest entry (R139). -/
def State.addWatch (s : State) (p : Place) (e : Watch) : State :=
  let s1 :=
    match (s.place p).watch with
    | old :: rest =>
      if rest.length + 1 ≥ 16 then
        (s.answerWatch p old).modPlace p fun x => { x with watch := rest }
      else s
    | [] => s
  s1.modPlace p fun x => { x with watch := x.watch ++ [e] }

/-! ### Wait stations (R196) -/

/-- The state of its word admits a waiting request (R128, R170, R181). -/
def State.admits (s : State) (w : Waiter) : Bool :=
  match w.kind.toNat with
  | 0 | 1 | 3 => s.isFull w.key
  | 2 => !s.isFull w.key
  | _ => !s.isTagged w.key || barGen (s.readWord w.key) ≠ w.value.setWidth 16

/-- The fault of a `barwait` whose word is not tagged (R181, R184). -/
def barrierLost (addr word : Word) (from_ : Nat) : FaultInfo := ⟨0x42, addr, [word, BitVec.ofNat 64 from_]⟩

/-- A valid or stale arrival at a word whose tag is cleared becomes lost (R206). -/
def State.loseArrivals (s : State) (p : Place) (key : Nat) : State :=
  if (s.place p).arrivals.any fun e => e.key == key then
    s.modPlace p fun x => { x with arrivals := x.arrivals.map fun e => if e.key == key then { e with state := 2 } else e }
  else s

/-- The barrier tag of a word is cleared (R180, R206). -/
def State.clearTag (s : State) (p : Place) (key : Nat) : State :=
  if s.isTagged key then { s with tags := dropAll (wordOf key) s.tags }.loseArrivals p (wordOf key) else s

/-- A write other than a sequenced addition frees the sequence entries of its word that hold no addition (R198). -/
def State.freeSeq (s : State) (p : Place) (key : Nat) : State :=
  if (s.place p).seq.any fun e => wordOf e.key == wordOf key && e.held.isEmpty then
    s.modPlace p fun x => { x with seq := x.seq.filter fun e => !(wordOf e.key == wordOf key && e.held.isEmpty) }
  else s

/-- The bytes of one word written, with what a data write does at its place besides waking the station: the tag is
cleared (R180), a sequence entry freed unless the write is a sequenced addition (R198), and the watch table woken (R139). -/
def State.put (s : State) (p : Place) (key n v : Nat) (seq : Bool := false) : State :=
  let s1 := { s with mem := Memory.writeN s.mem key n v }
  let s2 := s1.clearTag p key
  let s3 := if seq then s2 else s2.freeSeq p key
  s3.wakeWatch p key n

/-- A word written by a barrier step, which keeps the tag (R181). -/
def State.putTagged (s : State) (p : Place) (key : Nat) (v : Word) : State :=
  let s1 := { s with mem := Memory.writeN s.mem key 8 v.toNat }
  (s1.freeSeq p key).wakeWatch p key 8

/-- A line of CXL memory that a write for a context leaves dirty in its home slice (R375, R394). -/
def State.dirty (s : State) (key : Nat) (ctx : CtxId) : State :=
  if 2 ^ 44 ≤ key && key < 2 ^ 44 + 2 ^ 43 then { s with cxlDirty := addOnce (key / 64, ctx) s.cxlDirty } else s

/-- TENSOR_BUSY for a write to a bank word that a running sweep covers (R363). -/
def State.busyFault (s : State) (p : Place) (key n : Nat) (ea : Word) : Option FaultInfo :=
  match p with
  | .bank c => (s.sweeping c (key % 2 ^ 17) n).map fun t => ⟨0x53, ea, [coordAddr c (key % 2 ^ 17), t]⟩
  | _ => none

/-- What a waiting request does where its place performs it (R128, R170, R181). The BARRIER_LOST of a `barwait` whose word lost its tag reports the word as
it stands then, after the write that cleared the tag (R184; DESIGN CHOICE, log entry 78). -/
def State.applyWaiter (s : State) (p : Place) (w : Waiter) : State :=
  let v := s.readWord w.key
  match w.kind.toNat with
  | 0 => (s.setFull w.key false).answer w.h v
  | 1 | 3 => s.answer w.h v
  | 2 =>
    let s1 := (s.setFull w.key true).put p w.key 8 w.value.toNat
    (match s1.strand? w.h with
     | some st => s1.dirty w.key st.ctx
     | none => s1).answer w.h 0
  | _ => if s.isTagged w.key then s.answer w.h 0 else s.deliver w.h (.inr (barrierLost w.addr v 2))

/-- One waiting request performed; `ldf` without `.keep` and `stf` count as writes to a word that a running sweep covers (R128, R209, R363). -/
def State.performWaiter (s : State) (p : Place) (w : Waiter) : State :=
  match (if w.kind = 0 ∨ w.kind = 2 then s.busyFault p w.key 8 w.addr else none) with
  | some f => s.deliver w.h (.inr f)
  | none => (s.noteAccess p w.key 8).applyWaiter p w

/-- Two bytes lie in one line of memory, which a slice can pin (R129). -/
def sameLine (a b : Nat) : Bool := a / 64 == b / 64

/-- A line of memory is not pinned at its slice: no word of it is empty, and no request waits in the station for one (R129). Additions that a sequence entry
holds do not pin it (R198, R290; DEDUCED, log entry 92). -/
def PlaceState.loose (x : PlaceState) (empties : List Nat) (key : Nat) : Bool :=
  decide (key < 2 ^ 48) && !(empties.any (sameLine key)) && !(x.station.any fun w => sameLine key w.key)

/-- LEASE_GONE with reason 1 of an addition that is withdrawn with the entry of its word; a word of memory has no bank (R213, R290; DEDUCED, log entry 92). -/
def pinGone (d : Held) : FaultInfo := ⟨0x46, d.addr, [0, 1]⟩

/-- Where a line of memory is pinned no more, its place frees the sequence entries of its words; the additions that they hold are withdrawn, and their strands fault
LEASE_GONE (R198, R290). -/
def State.unpin (s : State) (p : Place) (key : Nat) : State :=
  let x := s.place p
  let gone := x.seq.filter fun e => sameLine key e.key
  if gone.isEmpty || !x.loose s.empties key then s
  else (gone.flatMap SeqEntry.held).foldl (fun s d => s.deliver d.h (.inr (pinGone d)))
    (s.modPlace p fun x => { x with seq := x.seq.filter fun e => !sameLine key e.key })

/-- The station performs the oldest waiting request for a word that its state admits, and repeats (R196). -/
def State.serveLoop (s : State) (p : Place) (word : Nat) : Nat → State
  | 0 => s
  | n + 1 =>
    match (s.place p).station.find? fun w => wordOf w.key == word && s.admits w with
    | some w =>
      let s1 := s.modPlace p fun x => { x with station := x.station.erase w }
      State.serveLoop ((s1.performWaiter p w).unpin p w.key) p word n
    | none => s

/-- Requests that wait at a place for the word of a byte. -/
def waitingAt (s : State) (p : Place) (k : Nat) : List Waiter := (s.place p).station.filter fun w => wordOf w.key == wordOf k

/-- The station serves one word after a change of its state (R196). -/
def State.serve (s : State) (p : Place) (key : Nat) : State :=
  if (s.place p).station.isEmpty then s else s.serveLoop p (wordOf key) (s.place p).station.length

/-- A data write at a place: the bytes, the word's full bit where the write sets it, and everything that follows at the
place (R139, R180, R196, R198). -/
def State.store (s : State) (p : Place) (key n v : Nat) (setsFull : Bool) (seq : Bool := false) : State :=
  let s1 := if setsFull && !s.isFull key then (s.setFull key true).unpin p key else s
  (s1.put p key n v seq).serve p key

/-- Places in a list of `cap` that a requester may take: an entry is left for every requester listed before it (R151, R196). -/
def roomFor {α : Type} [DecidableEq α] (cap len : Nat) (listed : List α) (x : α) : Bool :=
  decide (listed.idxOf x < cap - len)

/-- Entries of a place's wait station (R196, R290); the host endpoint has what a slice has (DESIGN CHOICE, log entry 95). -/
def stationCap : Place → Nat
  | .bank _ => 32
  | _ => 64

/-- Entries of a place's sequence table (R198, R290; DESIGN CHOICE, log entry 95). -/
def seqCap : Place → Nat
  | .bank _ => 16
  | _ => 64

/-- A request enters the wait station, or is refused with a retry reply and listed while the list of 8 has room (R196). -/
def State.enterStation (s : State) (p : Place) (w : Waiter) : State × Bool :=
  let x := s.place p
  if roomFor (stationCap p) x.station.length x.refused w.h then
    (s.modPlace p fun y => { y with station := y.station ++ [w], refused := dropAll w.h y.refused }, true)
  else
    (s.modPlace p fun y => { y with refused := if y.refused.length < 8 then addOnce w.h y.refused else y.refused }, false)

/-- A refused requester whose request its place performs at once is no longer listed there (R196). -/
def State.unlist (s : State) (p : Place) (h : Handle) : State :=
  if h ∈ (s.place p).refused then s.modPlace p fun x => { x with refused := dropAll h x.refused } else s

/-- The reducers of a packet without those of a strand (R130, R293). -/
def Reducers.without (h : Handle) : Reducers → Option Reducers
  | .one h' v => if h' = h then none else some (.one h' v)
  | .two a b =>
    match a.without h, b.without h with
    | some x, some y => some (.two x y)
    | some x, none => some x
    | none, r => r

/-- A place without what a strand has there (R130). -/
def PlaceState.withdraw (x : PlaceState) (h : Handle) : PlaceState :=
  { x with
    station := x.station.filter fun w => !decide (w.h = h)
    refused := dropAll h x.refused
    watch := x.watch.filter fun w => !decide (w.h = h)
    seq := x.seq.map fun q => { q with held := q.held.filter fun d => !decide (d.h = h) } }

/-- The words for which a strand has a request in a station, with their places. -/
def State.stationsOf (s : State) (h : Handle) : List (Place × Nat) :=
  s.places.flatMap fun e => (e.2.station.filter fun w => decide (w.h = h)).map fun w => (e.1, w.key)

/-- Everything that a strand has at the places of the module is withdrawn and leaves no trace; a line on which no request waits any more is pinned no longer
(R129, R130, R290). -/
def State.withdraw (s : State) (h : Handle) : State :=
  (s.stationsOf h).foldl (fun s e => s.unpin e.1 e.2)
  { s with
    places := s.places.map fun e => (e.1, e.2.withdraw h)
    hist := s.hist.map fun e => (e.1, { e.2 with
      waits := e.2.waits.filter fun w => !decide (w.h = h)
      refused := dropAll h e.2.refused })
    clusters := s.clusters.map fun e => (e.1, { e.2 with
      outbox := e.2.outbox.filterMap fun p => (p.parts.without h).map fun r => { p with parts := r } })
    xlate := dropAll (.strand h) s.xlate
    reissue := dropAll (.strand h) s.reissue }

/-! ### Sequence tables (R198, R199) -/

/-- The format of a sequenced addition. -/
def seqFmt (f64 : Bool) : FFmt := if f64 then .f64 else .f32

/-- One addition applied at its word (R83, R199). -/
def State.applyAdd (s : State) (p : Place) (key : Nat) (f64 : Bool) (v : Word) : State × Reply :=
  let n := if f64 then 8 else 4
  let old := s.readN key n
  let (r, fl) := (seqFmt f64).add .rne old (v.toNat % 2 ^ (8 * n))
  (s.store p key n r false true, ⟨BitVec.ofNat 64 old, fl.bits⟩)

/-- Every held addition whose number is the next is applied and answered, until none matches (R199). -/
def State.applyHeld (s : State) (p : Place) (key : Nat) (f64 : Bool) : Nat → State
  | 0 => s
  | n + 1 =>
    match (s.place p).seq.find? fun e => e.key == key && e.f64 == f64 with
    | some e =>
      match e.held.find? fun d => d.number == e.next with
      | some d =>
        let (s1, r) := (s.noteAccess p key (if f64 then 8 else 4)).applyAdd p key f64 d.value
        let s2 := s1.modPlace p fun x => { x with seq := x.seq.map fun q =>
          if q.key == key && q.f64 == f64 then { q with next := q.next + 1, held := q.held.erase d } else q }
        State.applyHeld (s2.deliver d.h (.inl r)) p key f64 n
      | none => s
    | none => s

end Sys2Proof.Machine
end

