-- ==== Sys2Proof/Machine/Ops.lean ====
section
/-! DEFINITION. The shared operations of a strand: reading and committing (R49, R50, R85, R107, R144, R145), taking a trap and
returning from it (R101, R102), freezing on a fault (R103, R388), ending a task (R385), and the frame in which every
instruction of a strand is executed. -/

namespace Sys2Proof.Machine

/-- The outcome of a step. -/
abbrev Out := Host.Outcome State Fault Refusal

/-- Why an instruction does not commit (R52): a trap, a fault, a wait, or a state already written (the strand parked at a
place, migrated, ended). -/
inductive Exc where
  | trap (t : TrapInfo)
  | fault (f : FaultInfo)
  | park (w : Wait)
  | act (s : State)

/-- The result of executing an instruction. -/
abbrev Res (α : Type) := Except Exc α

/-! ### Details -/

/-- The word count of the issuing instruction. -/
def State.words (s : State) : Nat := s.latch.length

/-- The instruction word of an index, zero beyond the count (R48). -/
def wordAt (ws : List Half) (i : Nat) : Half := ws.getD i 0

/-- Words 0 to 3 of an instruction as one 64-bit number (R48, R236). -/
def wordsLow (ws : List Half) : Word := wordAt ws 3 ++ wordAt ws 2 ++ wordAt ws 1 ++ wordAt ws 0

/-- The trap record of ILLEGAL (R48, R101). -/
def illegalInfo (ws : List Half) (d : IllegalDetail) : TrapInfo :=
  { number := 0
    t2 := wordsLow ws
    t3 := (wordAt ws 4).setWidth 64 ||| (BitVec.ofNat 64 (ws.length % 8) <<< 16) ||| (d.cause.setWidth 64 <<< 20) |||
      (d.at_.setWidth 64 <<< 24) ||| (d.eword.setWidth 64 <<< 29) }

/-- ILLEGAL raised by an operand's value, at the base word (DEDUCED, log entry 20). -/
def illegal (s : State) (cause : BitVec 4) : Exc :=
  .trap (illegalInfo s.latch ⟨cause, BitVec.ofNat 5 (s.latch.length - 1), 0⟩)

/-- BAD_SPACE with its reason (R400). -/
def badSpace (ea : Word) (reason : Nat) : Exc := .fault ⟨0x1, ea, [BitVec.ofNat 64 reason]⟩

/-- BAD_ALIGN with the access width (R400). -/
def badAlign (ea : Word) (n : Nat) : Exc := .fault ⟨0x2, ea, [BitVec.ofNat 64 n]⟩

/-- Page in [11:8] and major in [5:0] of an instruction (R237, R326). -/
def pageMajor (ws : List Half) : Word :=
  let page : Nat := ((ws.dropLast.find? fun w => w.extractLsb' 11 5 == 0b11110#5).map fun w => (w.extractLsb' 7 4).toNat).getD 0
  BitVec.ofNat 64 (page * 256 + ((ws.getLastD 0).extractLsb' 10 6).toNat)

/-! ### Reading sources -/

/-- The strand may take its turn at a queue: no other strand parked there earlier (R145). -/
def queueTurn (c : Core) (q : Fin 4) (read : Bool) (h : Handle) : Bool :=
  match c.qwait.find? fun w => decide (w.1 = q) && w.2.1 == read with
  | some w => decide (w.2.2 = h)
  | none => true

/-- The values that a read of a shared register may return at a cycle, the newest first (R144). -/
def SReg.allowed (r : SReg) (cycle : Nat) : List Word := r.val :: (r.old.filter fun o => decide (cycle < o.2 + 8)).map (·.1)

/-- The value that a read of a shared register returns: the `k`-th pick of this turn decides among the allowed values
(R144; DESIGN CHOICE, log entry 2). -/
def State.readShared (s : State) (c : CoreId) (i : Fin 4) (k : Nat) : Word :=
  let r := (s.core c).s[i]
  (r.allowed s.cycle).getD (s.picks.getD k 0) r.val

/-- The general registers that a strand's instruction reads: those of its issue where it has been on its way to its place since (R49, R124). -/
def Strand.sources (st : Strand) : Vector Word 24 :=
  match st.status with
  | .parked (.transit _ gpr _ _ _) => gpr
  | _ => st.r.gpr

/-- The value of a source register, or what the strand waits for (R85, R107, R145). The source `k` of an access in transit has read its shared register at
issue (R144), and its general registers (R49). -/
def src (s : State) (h : Handle) (st : Strand) (k : Nat) (r : Reg) : Res Word :=
  match r with
  | .g i => if st.r.full.getLsbD i.val then .ok st.sources[i] else .error (.park (.reg i))
  | .q i =>
    match (s.core st.core).q[i] with
    | v :: _ => if queueTurn (s.core st.core) i true h then .ok v else .error (.park (.queueRead i))
    | [] => .error (.park (.queueRead i))
  | .s i => .ok (match st.status with
    | .parked (.transit l _ _ _ _) => l.getD (4 * k + i.val) 0
    | _ => s.readShared st.core i k)

/-- The value of a general register that an entry reads as a source (R85). -/
def gsrc (st : Strand) (i : Fin 24) : Res Word :=
  if st.r.full.getLsbD i.val then .ok st.sources[i] else .error (.park (.reg i))

/-- The general register `k` after `i`; the decoder has checked the range (R51). -/
def gplus (i : Fin 24) (k : Nat) : Fin 24 := Fin.ofNat 24 (i.val + k)

/-- The values of `n` consecutive general registers (R51). -/
def grange (st : Strand) (i : Fin 24) : Nat → Res (List Word)
  | 0 => .ok []
  | n + 1 => do
    let v ← gsrc st i
    let t ← grange st (gplus i 1) n
    .ok (v :: t)

/-! ### Writing -/

/-- The strand with a general register written and set full (R85). -/
def Strand.setG (st : Strand) (i : Fin 24) (v : Word) : Strand :=
  { st with r := { st.r with gpr := st.r.gpr.set i v, full := st.r.full ||| BitVec.twoPow 24 i.val } }

/-- The strand with a general register marked empty (R85). -/
def Strand.emptyG (st : Strand) (i : Fin 24) : Strand :=
  { st with r := { st.r with full := st.r.full &&& ~~~(BitVec.twoPow 24 i.val) } }

/-- The strand with a predicate written (R86). -/
def Strand.setP (st : Strand) (p : BitVec 4) (v : Bool) : Strand :=
  let bit := BitVec.twoPow 16 p.toNat
  { st with r := { st.r with preds := if v then st.r.preds ||| bit else st.r.preds &&& ~~~bit } }

/-- The strand with sticky flags set (R87). -/
def Strand.orFlags (st : Strand) (f : BitVec 6) : Strand := { st with r := { st.r with sflags := st.r.sflags ||| f } }

/-- The strand with tmask bits set (R88). -/
def Strand.orTmask (st : Strand) (m : BitVec 48) : Strand := { st with r := { st.r with tmask := st.r.tmask ||| m } }

/-- A shared register written at a cycle (R144). -/
def SReg.write (r : SReg) (cycle : Nat) (v : Word) : SReg :=
  { val := v, old := (r.val, cycle) :: r.old.filter fun o => decide (cycle < o.2 + 8) }

/-- How many of the sources name a queue (R50). -/
def popsOf (q : Fin 4) (srcs : List Reg) : Nat := (srcs.filter fun r => decide (r = .q q)).length

/-- The core with the queues named in sources popped (R50). -/
def popAll (c : Core) (srcs : List Reg) : Core :=
  srcs.foldl (fun c r => match r with
    | .q i => { c with q := c.q.set i (c.q[i].drop 1) }
    | _ => c) c

/-- The strand no longer waits at any queue of the core (R145). -/
def leaveQueues (c : Core) (h : Handle) : Core := { c with qwait := c.qwait.filter fun w => !decide (w.2.2 = h) }

/-- A destination queue has room for one entry after the pops, and it is the strand's turn (R145). -/
def hasRoom (c : Core) (h : Handle) (srcs : List Reg) (dst : Option (Reg × Word)) : Option (Fin 4) :=
  match dst with
  | some (.q i, _) => if c.q[i].length - popsOf i srcs < 16 && queueTurn c i false h then none else some i
  | _ => none

/-- The core's side of a commit: pops, one push, a shared register (R50, R144). A shared register counts its 8 cycles from the commit, and of two writes the
later commit holds it, also where an instruction parked between its issue and its commit (DESIGN CHOICE, log entry 74). -/
def commitCore (c : Core) (h : Handle) (cycle : Nat) (srcs : List Reg) (dst : Option (Reg × Word)) : Core :=
  let c1 := leaveQueues (popAll c srcs) h
  match dst with
  | some (.q i, v) => { c1 with q := c1.q.set i (c1.q[i] ++ [v]) }
  | some (.s i, v) => { c1 with s := c1.s.set i (c1.s[i].write cycle v) }
  | _ => c1

/-- The recorded vector instruction that a strand is to issue again (R236): the trap handler of a trap that came in between runs first (DEDUCED, log entry 34). -/
def Strand.reissue (st : Strand) : Option VCmd := st.redo.find? fun m => m.trap == st.r.inTrap

/-- The strand once it has issued its recorded instruction, if it had one to issue. -/
def Strand.reissued (st : Strand) : Strand := { st with redo := st.redo.eraseP fun m => m.trap == st.r.inTrap }

/-- The strand's side of a commit: the destination, the PC, and the end of every wait. -/
def commitStrand (st : Strand) (dst : Option (Reg × Word)) (pc : Word) : Strand :=
  let st1 := match dst with
    | some (.g i, v) => st.setG i v
    | _ => st
  { st1 with r := { st1.r with pc := pc }, status := .ready, pending := none, sending := none, kept := none, counted := false
             redo := st.reissued.redo }

/-- The entries of 32 bytes that a record takes: words of a message beyond the first two follow in entries of their own (R391). -/
def Record.entries (r : Record) : Nat := if r.kind = 5 then 1 + r.values.length / 2 else 1

/-- The entries that a task's records take: its source, then its operations (R391). -/
def Strand.entries (st : Strand) : Nat := if st.unreplayable then 0 else 2 + st.records.foldl (fun n r => n + r.entries) 0

/-- Entries that the replay region of a cluster holds: 8 KiB of each bank (R24, R390). -/
def regionEntries : Nat := 2048

/-- Entries that the spill area of a context holds (R390). -/
def spillEntries (s : State) (ctx : CtxId) : Nat := ((s.context? ctx).map fun x => (x.rrspill.setWidth 12 : BitVec 12).toNat * 128).getD 0

/-- The entries of a task that lie in its context's spill area (R390). -/
def Strand.spilledEntries (st : Strand) : Nat := (st.entryAt.filter fun p => decide (regionEntries ≤ p)).length

/-- The entries of a task that have not been written. -/
def Strand.unwritten (st : Strand) : Nat := st.entries - st.entryAt.length

/-- A sum over the tasks that satisfy a test. -/
def State.sumTasks (s : State) (p : Strand → Bool) (f : Strand → Nat) : Nat := s.strands.foldl (fun n e => if p e.2 then n + f e.2 else n) 0

/-- The part of a cluster's replay region that the tasks of a context need: what lies there, and what its spill area cannot take (R390). -/
def regionNeed (s : State) (k : ClusterId) (ctx : CtxId) : Nat :=
  let here := fun (x : Strand) => decide (x.ctx = ctx) && decide (clusterOf x.core = k)
  s.sumTasks here (fun x => x.entryAt.length - x.spilledEntries) +
  (s.sumTasks here Strand.unwritten - (spillEntries s ctx - s.sumTasks (fun x => decide (x.ctx = ctx)) Strand.spilledEntries))

/-- The entries that the tasks of a context on a cluster can have: in what other contexts leave of the region, and in the context's own spill area as far as its
tasks elsewhere have not used it (R24, R390). -/
def recordRoom (s : State) (k : ClusterId) (ctx : CtxId) : Nat :=
  (regionEntries - (s.contexts.filter fun e => e.1 != ctx).foldl (fun n e => n + regionNeed s k e.1) 0) +
  (spillEntries s ctx - s.sumTasks (fun x => decide (x.ctx = ctx) && decide (clusterOf x.core ≠ k)) Strand.spilledEntries)

/-- The entries of the other tasks of a task's context on its cluster. -/
def otherEntries (s : State) (h : Handle) (st : Strand) : Nat :=
  s.strands.foldl (fun n e => if e.1 ≠ h ∧ e.2.ctx = st.ctx ∧ clusterOf e.2.core = clusterOf st.core then n + e.2.entries else n) 0

/-- A task whose records no longer fit in its cluster's region and its context's spill area becomes unreplayable (R390). -/
def keepRecords (s : State) (h : Handle) (st : Strand) : Strand :=
  if st.records.isEmpty || decide (otherEntries s h st + st.entries ≤ recordRoom s (clusterOf st.core) st.ctx) then st
  else { st with records := [], entryAt := [], unreplayable := true }

/-- `commit_shadow` (R49, R52): every result at one instant, and the PC. -/
def commitAt (s : State) (h : Handle) (st : Strand) (srcs : List Reg) (dst : Option (Reg × Word)) (pc : Word) : State :=
  (s.modCore st.core fun c => commitCore c h s.cycle srcs dst).setStrand h (commitStrand (keepRecords s h st) dst pc)

/-- A commit that waits until a destination queue has room (R145). -/
def retireAt (s : State) (h : Handle) (st : Strand) (srcs : List Reg) (dst : Option (Reg × Word)) (pc : Word) : Res State :=
  match hasRoom (s.core st.core) h srcs dst with
  | some q => .error (.park (.queueWrite q (popsOf q srcs)))
  | none => .ok (commitAt s h st srcs dst pc)

/-- The address after the issuing instruction (R30); after a recorded vector instruction issued again, the strand stands where it stood (R236). -/
def nextPc (s : State) (st : Strand) : Word := if st.reissue.isSome then st.r.pc else st.r.pc + BitVec.ofNat 64 (2 * s.words)

/-- The PC of the instruction that a strand issues: its own, or that of a recorded vector instruction that `retry` issues again (R236). -/
def Strand.issuePc (st : Strand) : Word := (st.reissue.map VCmd.pc).getD st.r.pc

/-- A commit that advances the PC by the instruction's words (R30). -/
def retire (s : State) (h : Handle) (st : Strand) (srcs : List Reg) (dst : Option (Reg × Word)) : Res State :=
  retireAt s h st srcs dst (nextPc s st)

/-! ### Parking -/

/-- The strand parks until a condition holds; a wait at a queue takes its place in the queue's order (R52, R145). -/
def park (s : State) (h : Handle) (st : Strand) (w : Wait) : State :=
  let s1 := s.setStrand h { st with status := .parked w }
  match w with
  | .queueRead q => s1.modCore st.core fun c => { c with qwait := addOnce (q, true, h) c.qwait }
  | .queueWrite q _ => s1.modCore st.core fun c => { c with qwait := addOnce (q, false, h) c.qwait }
  | _ => s1

/-! ### Device writes -/

/-- The device writes one word at an address of a context; nothing where no memory answers (DESIGN CHOICE, log entry 4). -/
def State.deviceWrite (s : State) (own : CoreId) (ctx : CtxId) (ea : Word) (n v : Nat) : State :=
  match s.deviceLoc own ctx ea .write with
  | some l => s.store l.place l.key n v false
  | none => s

/-- The device writes a list of 64-bit words at an address of a context. -/
def State.deviceWriteWords (s : State) (own : CoreId) (ctx : CtxId) (ea : Word) : List Word → State
  | [] => s
  | w :: t => State.deviceWriteWords (s.deviceWrite own ctx ea 8 w.toNat) own ctx (ea + 8) t

/-! ### Ending a task -/

/-- The commands of a core that have issued and not yet committed, whatever strand issued them (R215). -/
def VectorFile.inFlight (v : VectorFile) : List VCmd := v.running ++ v.trapQueue ++ v.queue

/-- The destinations of a vector or directional command: general, v and d registers (R215, R245). -/
def vdest : Instr → Option (Fin 24) × Option (BitVec 4) × Option (BitVec 3)
  | .vrenStat _ a | .vredAdd _ _ a _ | .vredMin _ _ a _ | .vredMax _ _ a _ | .vdot _ _ a _ _ | .dcos _ a _ _
  | .ddot _ _ a _ _ | .dtest _ a _ => (some a, none, none)
  | .vld _ _ a _ | .vgth _ _ a _ _ | .vadd _ _ _ a _ _ | .vsub _ _ _ a _ _ | .vmul _ _ _ a _ _ | .vfma _ _ _ a _ _
  | .vmin _ _ a _ _ | .vmax _ _ a _ _ | .vabs _ _ a _ | .vneg _ _ a _ | .vand _ _ a _ _ | .vor _ _ a _ _
  | .vxor _ _ a _ _ | .vshl _ _ a _ _ | .vshr _ _ a _ _ | .vcmp _ _ _ a _ _ | .vsel _ _ a _ _ | .vcvt _ _ _ _ _ a _
  | .vperm _ _ a _ _ | .vbcst _ _ a _ | .vexp2 _ _ a _ | .vlog2 _ _ a _ | .vrsq _ _ a _ | .vrcp _ _ _ a _
  | .vsqrt _ _ _ a _ | .vdiv _ _ _ a _ _ | .viota _ _ a | .vscanAdd _ _ a _ | .vscanMin _ _ a _ | .vscanMax _ _ a _
  | .dto _ _ _ _ a _ => (none, some a, none)
  | .dfrom _ _ _ a _ | .dld _ a _ | .dldRn _ a _ | .dscl _ a _ | .dadd _ a _ _ | .dlerp _ a _ _ | .dneg _ a _
  | .dproj _ a _ _ | .dnorm _ a _ | .dsetn _ a _ | .dmov _ a _ => (none, none, some a)
  | _ => (none, none, none)

/-- A command put in its place among commands in the order of their issue (R215). -/
def insertCmd (m : VCmd) : List VCmd → List VCmd
  | [] => [m]
  | x :: t => if m.id ≤ x.id then m :: x :: t else x :: insertCmd m t

/-- Commands in the order of their issue (R215). -/
def issueOrder (l : List VCmd) : List VCmd := l.foldr insertCmd []

/-- A change of every command in flight on a core. -/
def mapInFlight (s : State) (c : CoreId) (f : VCmd → VCmd) : State :=
  s.modVec c fun v => { v with running := v.running.map f, trapQueue := v.trapQueue.map f, queue := v.queue.map f }

/-- A general register has been given a value while later commands of its strand name it: if they are abandoned, they give it back as it then stands (R49). -/
def laterPrior (s : State) (c : CoreId) (m : VCmd) (a : Fin 24) (p : Word × Bool) : State :=
  mapInFlight s c fun x =>
    if decide (x.h = m.h) && decide (m.id < x.id) && (vdest x.op).1 == some a then { x with prior := some p } else x

/-- A general register of a strand takes back a value and a full/empty bit (R49). -/
def Strand.giveBack (st : Strand) (a : Fin 24) (p : Word × Bool) : Strand := if p.2 then st.setG a p.1 else (st.setG a p.1).emptyG a

/-- A command that has left a core uncommitted gives its destinations back as they stood before it issued: a general register takes back its value and its
bit; a v or d register, whose value no command in flight has changed, is full again unless an earlier command still in flight names it (R49, R235;
DEDUCED, log entry 21). -/
def restoreDest (s : State) (c : CoreId) (m : VCmd) : State :=
  let earlier := (s.core c).vec.inFlight.filter fun x => decide (x.id < m.id)
  let (g, v, d) := vdest m.op
  let s1 := match v with
    | some a => if earlier.any fun x => (vdest x.op).2.1 == some a then s
      else s.modVec c fun f => { f with vfull := f.vfull ||| BitVec.twoPow 16 a.toNat }
    | none => s
  let s2 := match d with
    | some a => if earlier.any fun x => (vdest x.op).2.2 == some a then s1
      else s1.modVec c fun f => { f with dfull := f.dfull ||| BitVec.twoPow 8 a.toNat }
    | none => s1
  match g, m.prior with
  | some a, some p => laterPrior (s2.modStrand m.h fun st => st.giveBack a p) c m a p
  | _, _ => s2

/-- Commands that have left a core uncommitted give their destinations back, the last issued first (R49). -/
def restoreDests (s : State) (c : CoreId) (gone : List VCmd) : State := (issueOrder gone).reverse.foldl (fun s m => restoreDest s c m) s

/-! ### Element writes (R222, R223) -/

/-- A place performs an access of a context: a bank's event and what the comparators of its cluster see, or a slice's events (R209, R398). -/
def State.account (s : State) (ctx : CtxId) (p : Place) (key n : Nat) (away : Bool) : State :=
  match p with
  | .bank _ => (s.charge ctx 3 1).noteAccess p key n
  | _ => s.sliceEvents ctx key away

/-- An element write of a task's command is performed at its place, and sets the task's tmask bits for it (R88, R222, R223). -/
def ElementWrite.perform (s : State) (h : Handle) (ctx : CtxId) (e : ElementWrite) : State :=
  (((s.account ctx e.place e.key e.width (e.mask.extractLsb' 40 5 != 0)).store e.place e.key e.width e.value false).dirty e.key ctx).modStrand h
    fun x => x.orTmask e.mask

/-- Element writes of a task's command performed in order. -/
def performWrites (s : State) (h : Handle) (ctx : CtxId) (l : List ElementWrite) : State := l.foldl (fun s e => e.perform s h ctx) s

/-- The command leaves the pool. -/
def leavePool (s : State) (c : CoreId) (m : VCmd) : State := s.modVec c fun f => { f with running := f.running.filter fun x => x.id != m.id }

/-- A command of page 3, which covers all 128 elements whatever vn (R245). -/
def isDirectional : Instr → Bool
  | .dfrom .. | .dto .. | .dld .. | .dldRn .. | .dst .. | .dcos .. | .ddot .. | .dscl .. | .dadd .. | .dlerp .. | .dneg .. | .dproj .. | .dnorm ..
  | .dsetn .. | .dmov .. | .dtest .. => true
  | _ => false

/-- The 32-lane operations of a command: one for every 32 elements that it covers (R238, R245, R398; DEDUCED, log entry 35). -/
def laneOps (f : VectorFile) (op : Instr) : Nat := if isDirectional op then 4 else (f.vn + 31) / 32

/-- A command with element writes that are still to be performed performs them and commits. -/
def commitStore (s : State) (c : CoreId) (m : VCmd) : State :=
  match s.strand? m.h with
  | some st => (leavePool (performWrites s m.h st.ctx m.owed) c m).charge st.ctx 1 (laneOps (s.core c).vec m.op)
  | none => leavePool s c m

/-- Commands of a core that have performed some of their element writes perform the rest and commit before commands of the core are abandoned, so that an
abandoned command has left no trace (R49; DEDUCED, log entry 89). -/
def finishStores (s : State) (c : CoreId) (sel : VCmd → Bool) : State :=
  ((s.core c).vec.running.filter fun m => sel m && !m.owed.isEmpty).foldl (fun s m => commitStore s c m) s

/-- The vector and directional commands of a task leave their core uncommitted; its exception in flight goes with them,
and a queue that it holds resumes (R235, R236, R385). -/
def abandonVector (s : State) (c : CoreId) (h : Handle) : State :=
  let v := (s.core c).vec
  let gone := v.inFlight.filter fun m => decide (m.h = h)
  let keep := fun (l : List VCmd) => l.filter fun m => !decide (m.h = h)
  let s1 := s.modVec c fun f => { f with
    running := keep f.running, trapQueue := keep f.trapQueue, queue := keep f.queue
    held := f.held.filter fun e => !decide (e.1 = h)
    waiting := f.waiting.filter fun i => !(f.running.any fun m => decide (m.h = h) && m.id == i) }
  (restoreDests s1 c gone).modStrand h fun st => { st with flight := none }

/-- The matrix commands of a task leave its quad uncommitted (R277). -/
def abandonMatrix (s : State) (c : CoreId) (h : Handle) : State :=
  let s1 := s.modCore c fun x => { x with mqueue := x.mqueue.filter fun m => !decide (m.h = h) }
  s1.modQuad (quadOf c) fun q => match q.running with
    | some (m, t) => if m.h = h then { q with running := none } else { q with running := some (m, t) }
    | none => q

/-- The keys of a task close: reads parked on them fault HIST_AHEAD with reason 2 (R337, R345). -/
def closeKeys (s : State) (h : Handle) : State :=
  s.hist.foldl (fun s e =>
    let mine := e.2.keys.filter fun k => decide (k.owner = h)
    if mine.isEmpty then s else
    let hit := e.2.waits.filter fun w => mine.any fun k => k.slot == w.slot
    let s1 := s.modHist e.1 fun x => { x with
      keys := x.keys.map fun k => if k.owner = h then { k with closed := true } else k
      waits := x.waits.filter fun w => !(mine.any fun k => k.slot == w.slot) }
    hit.foldl (fun s w =>
      let tn := ((mine.find? fun k => k.slot == w.slot).bind fun k => k.states.getLast?.map (·.1)).getD 0
      let key := ((s.strand? w.h).bind (·.pending)).map (·.addr)
      s.deliver w.h (.inr ⟨0x4C, key.getD 0, [BitVec.ofNat 64 w.t, BitVec.ofNat 64 tn, 2]⟩)) s1) s

/-- The offers of a sender leave the relay buffers (R130, R152). -/
def dropOffers (s : State) (x : Sender) : State :=
  let mine := (s.offers.filter fun o => decide (o.sender = x)).map Offer.id
  if mine.isEmpty then s else
  { s with
    offers := s.offers.filter fun o => !decide (o.sender = x)
    places := s.places.map fun e => (e.1, { e.2 with relay := e.2.relay.filter fun i => !mine.contains i }) }

/-- The core without a sender in its reservation lists, and without the deque entry reserved for a strand (R151, R168). -/
def Core.dropSender (c : Core) (x : Sender) : Core :=
  { c with
    mb := c.mb.map fun m => { m with reserved := dropAll x m.reserved }
    dequeRes := match x with
      | .strand h => dropAll h c.dequeRes
      | .engine _ => c.dequeRes }

/-- A sender stands in a reservation list of a core. -/
def Core.lists (c : Core) (x : Sender) : Bool := c.mb.toList.any fun m => m.reserved.contains x

/-- A context whose saved cores list a sender no more (R152, R159). -/
def Context.dropSender (k : Context) (x : Sender) : Context :=
  { k with saved := k.saved.map fun y => { y with image := y.image.dropSender x } }

/-- A sender leaves every reservation list, those of saved cores too (R151, R152, R159). -/
def dropReserved (s : State) (x : Sender) : State :=
  let s1 := { s with cores := s.cores.map fun e => (e.1, e.2.dropSender x) }
  if s.contexts.any fun e => e.2.saved.any fun y => y.image.lists x then
    { s1 with contexts := s1.contexts.map fun e => (e.1, e.2.dropSender x) }
  else s1

/-- Everything a task waits for at its core and cluster is forgotten: queues, mailboxes, claims, offers (R130, R145, R149,
R152, R200). -/
def leaveWaits (s : State) (h : Handle) (st : Strand) : State :=
  let s1 := s.modCore st.core fun c => { leaveQueues c h with mbwait := c.mbwait.filter fun w => !decide (w.1 = h) }
  let s2 := s1.modCluster (clusterOf st.core) fun c => { c with claims := c.claims.filter fun m => !decide (m.h = h) }
  (dropReserved (dropOffers s2 (.strand h)) (.strand h)).withdraw h

/-- The task ends: its waits, its work in flight, its claim, its keys, its slot (R171, R385). -/
def endTask (s : State) (h : Handle) : State :=
  match s.strand? h with
  | some st =>
    let s1 := leaveWaits s h st
    let s2 := abandonMatrix (abandonVector (finishStores s1 st.core fun m => decide (m.h = h)) st.core h) st.core h
    let s3 := closeKeys s2 h
    let s4 := s3.modCore st.core fun c => { c with inbox := c.inbox.filter fun p => !decide (p.h = h), away := dropAll h c.away }
    let s5 := s4.modContext st.ctx fun x => { x with waitingRecord := dropAll (.task h) x.waitingRecord }
    s5.dropStrand h
  | none => s

/-! ### Faults (R103, R388) -/

/-- The words of a fault record (R103). -/
def recordWords (h : Handle) (pc : Word) (f : FaultInfo) (killed : Bool) : List Word :=
  let code := BitVec.ofNat 32 f.code ||| (if killed then 0x8000#32 else 0#32)
  let d := fun i => f.detail.getD i 0
  [code ++ h, pc, f.addr, d 0, d 1, d 2, d 3, d 4]

/-- The address of a record slot of a context (R388). -/
def recordAddr (x : Context) (slot : Nat) : Word := (x.fltrec &&& ~~~(0xFFF#64)) + BitVec.ofNat 64 (64 * slot)

/-- The number of record slots of a context (R388). -/
def recordCount (x : Context) : Nat := (x.fltrec &&& 0xFFF#64).toNat + 1

/-- The lowest record slot of a context that no fault uses (DESIGN CHOICE, log entry 22). -/
def freeRecord (x : Context) : Option Nat := (List.range (recordCount x)).find? fun i => !x.records.contains i

/-- A handler task for a frozen task (R103). -/
def handlerTask (frozen : Handle) (st : Strand) (entry record : Word) : HandlerTask :=
  { frozen := frozen
    record := record
    core := st.core.core
    source := { entry := entry, args := Vector.ofFn fun i => if i.val = 0 then frozen.setWidth 64 else if i.val = 1 then record else 0
                fmta := st.r.fmta, fmtb := st.r.fmtb, scla := st.r.scla, sclb := st.r.sclb, role := 0
                launch := st.launch, ctx := st.ctx, level := st.level, index := none } }

/-- The record of a frozen task is written and its handler asked for; with a fault-table entry of 0 the task is killed
at once (R103, R388). -/
def reportFault (s : State) (h : Handle) (st : Strand) (z : Frozen) : State :=
  match s.context? st.ctx with
  | none => s.setStrand h { st with frozen := some z, status := .frozen }
  | some x =>
    match freeRecord x with
    | none =>
      (s.setStrand h { st with frozen := some z, status := .frozen }).modContext st.ctx fun x =>
        { x with waitingRecord := addOnce (.task h) x.waitingRecord }
    | some i =>
      let entry := ((s.deviceRead st.core st.ctx (x.flttab + BitVec.ofNat 64 (8 * z.info.code)) 8).map (BitVec.ofNat 64)).getD
        (Config.freeWord s.fresh)
      let s1 := s.bump.modContext st.ctx fun x => { x with waitingRecord := dropAll (.task h) x.waitingRecord }
      if entry = 0 then
        endTask ((s1.deviceWriteWords st.core st.ctx (recordAddr x i) (recordWords h z.pc z.info true)).setStrand h st) h
      else
        let s2 := s1.deviceWriteWords st.core st.ctx (recordAddr x i) (recordWords h z.pc z.info false)
        let s3 := s2.modContext st.ctx fun x => { x with records := x.records ++ [i] }
        (s3.setStrand h { st with frozen := some { z with slot := some i, handled := true }, status := .frozen }).modCluster
          (clusterOf st.core) fun c => { c with handlers := c.handlers ++ [handlerTask h st entry (recordAddr x i)] }

/-- A line whose error a fault reports counts as poisoned earlier from then on (R400). -/
def notePoison (s : State) (f : FaultInfo) : State :=
  if f.code = 6 then { s with poisoned := Table.put ((f.detail.getD 0 0).toNat / 64) 3 s.poisoned } else s

/-- The PTE reads of the translation that a fault of a task reports (R380, R398). -/
def countFault (s : State) (st : Strand) (f : FaultInfo) : State :=
  match (if f.code = 4 ∨ f.code = 6 then s.space st.core st.ctx f.addr else .error 0) with
  | .ok (.global va) => s.countWalk (clusterOf st.core) st.ctx va
  | _ => s

/-- A task freezes on a fault (R103). `pc` is the PC the record carries, `skip` what `resume` adds to the task's PC, and
`again` the vector instruction that `retry` issues again (R236). -/
def freezeAt (s : State) (h : Handle) (st : Strand) (f : FaultInfo) (pc : Word) (skip : Nat) (again : Option VCmd) : State :=
  let s1 := leaveWaits (notePoison (countFault s st f) f) h st
  reportFault s1 h { st with pending := none, sending := none, kept := none, tile := none, counted := false }
    { info := f, pc := pc, skip := skip, again := again, slot := none, handled := false }

/-- A fault of the issuing instruction (R103). A recorded vector instruction issued again stays recorded (R236). -/
def freeze (s : State) (h : Handle) (st : Strand) (f : FaultInfo) : State :=
  freezeAt s h st.reissued f st.issuePc (if st.reissue.isSome then 0 else 2 * s.words) st.reissue

/-- The fault of a task that has exited: its record is written and a handler task asked for with g0 = 0, once a record slot is free;
with a fault-table entry of 0 only the record is left (R194, R388; DEDUCED, log entry 24). -/
def reportLate (s : State) (ctx : CtxId) (f : LateFault) : State :=
  match s.context? ctx with
  | none => s
  | some x =>
    match freeRecord x with
    | none => s.modContext ctx fun x => { x with waitingRecord := addOnce (.exited f) x.waitingRecord }
    | some i =>
      let entry := ((s.deviceRead f.core ctx (x.flttab + BitVec.ofNat 64 (8 * f.info.code)) 8).map (BitVec.ofNat 64)).getD
        (Config.freeWord s.fresh)
      let s1 := s.bump.deviceWriteWords f.core ctx (recordAddr x i) (recordWords f.h 0 f.info (entry == 0))
      if entry = 0 then s1
      else
        (s1.modContext ctx fun x => { x with records := x.records ++ [i] }).modCluster (clusterOf f.core) fun c =>
          { c with handlers := c.handlers ++ [{ frozen := 0, record := recordAddr x i, core := f.core.core, source :=
            { entry := entry, args := Vector.ofFn fun k => if k.val = 1 then recordAddr x i else 0, fmta := 0, fmtb := 0, scla := 0
              sclb := 0, role := 0, launch := f.launch, ctx := ctx, level := f.level, index := none } }] }

/-- A waiter for a record slot leaves the list of its context (R388). -/
def dropRecordWait (s : State) (ctx : CtxId) (w : RecordWait) : State :=
  s.modContext ctx fun x => { x with waitingRecord := dropAll w x.waitingRecord }

/-- The oldest waiter for a record slot takes a free one (R388). -/
def reportWaiter (s : State) (ctx : CtxId) : RecordWait → State
  | .task h =>
    match (s.strand? h).bind fun st => st.frozen.map fun z => (st, z) with
    | some (st, z) => if z.slot.isNone then reportFault s h st z else dropRecordWait s ctx (.task h)
    | none => dropRecordWait s ctx (.task h)
  | .exited f => reportLate (dropRecordWait s ctx (.exited f)) ctx f

/-- While a record slot of a context is free, the oldest fault that waits for one takes it (R388). -/
def serveRecords (s : State) (ctx : CtxId) : Nat → State
  | 0 => s
  | n + 1 =>
    match (s.context? ctx).bind fun x => if (freeRecord x).isSome then x.waitingRecord.head? else none with
    | some w => serveRecords (reportWaiter s ctx w) ctx n
    | none => s

/-- Waiters for a record slot of a context (R388). -/
def recordWaiters (s : State) (ctx : CtxId) : Nat := ((s.context? ctx).map fun x => x.waitingRecord.length).getD 0

/-- A record slot is free again, and the faults that wait for one take what is free (R388). -/
def freeRecordSlot (s : State) (ctx : CtxId) (slot : Option Nat) : State :=
  match slot with
  | none => s
  | some i => serveRecords (s.modContext ctx fun x => { x with records := x.records.erase i }) ctx (recordWaiters s ctx)

/-! ### Traps (R101, R102) -/

/-- The handler address of a trap: entry n of the context's trap table (R101). -/
def trapHandler (s : State) (st : Strand) (n : Nat) : Word :=
  match s.context? st.ctx with
  | some x =>
    ((s.deviceRead st.core st.ctx (x.traptab + BitVec.ofNat 64 (8 * n)) 8).map (BitVec.ofNat 64)).getD (Config.freeWord s.fresh)
  | none => Config.freeWord s.fresh

/-- The trap records of a trap (R101). -/
def trapRecords (pc : Word) (count : Nat) (t : TrapInfo) : Vector Word 8 :=
  #v[pc, t.number.setWidth 64 ||| (BitVec.ofNat 64 (count % 8) <<< 8), t.t2, t.t3, t.t4, t.t5, t.t6, t.t7]

/-- DOUBLE_TRAP with the second trap's number and detail (R102, R400). -/
def doubleTrap (t : TrapInfo) : FaultInfo := ⟨0x3, 0, [t.number.setWidth 64, t.t2, t.t3]⟩

/-- The entry of a trap at the strand's PC (R101): the PC saved in trappc, the records filled with the word count of the
instruction there, the in-trap bit set, the PC at the handler. -/
def trapAt (s : State) (h : Handle) (st : Strand) (count : Nat) (t : TrapInfo) : State :=
  let s1 := leaveWaits s h st
  s1.bump.setStrand h { st with
    r := { st.r with trappc := st.r.pc, trec := trapRecords st.r.pc count t, inTrap := true, pc := trapHandler s st t.number.toNat }
    status := .ready, pending := none, sending := none, kept := none, counted := false }

/-- Taking a trap of the issuing instruction (R101). A trap raised while the in-trap bit is set faults DOUBLE_TRAP instead (R102). -/
def enterTrap (s : State) (h : Handle) (st : Strand) (t : TrapInfo) : State :=
  if st.r.inTrap then freeze s h st (doubleTrap t) else trapAt s h { st.reissued with tile := none } (if st.reissue.isSome then 0 else s.words) t

/-- Returning from a trap (R102): the in-trap bit cleared, the PC at trappc; a queue held for the strand resumes (R236). -/
def leaveTrap (s : State) (h : Handle) (st : Strand) : State :=
  let s1 := s.modVec st.core fun v => { v with held := dropAll (h, true) v.held }
  s1.setStrand h { st with r := { st.r with inTrap := false, pc := st.r.trappc }, status := .ready, counted := false }

/-! ### The frame of an instruction -/

/-- The task that issues. -/
def State.issuing (s : State) : Option (Handle × Strand) :=
  match s.cur with
  | some h => (s.strand? h).map fun st => (h, st)
  | none => none

/-- A guard holds (R12, R36). -/
def guardHolds (g : Option Guard) (st : Strand) : Bool :=
  match g with
  | some g => st.r.preds.getLsbD g.p.toNat != g.neg
  | none => true

/-- The guard of an instruction that may carry one (R35, R36); none for `jmp` and for the events of the device. -/
def guardOf : Instr → Option Guard
  | .add g .. | .sub g .. | .mul g .. | .mulh g .. | .div g .. | .rem g .. | .and g .. | .or g .. | .xor g .. | .andn g .. | .shl g ..
  | .shr g .. | .sar g .. | .rol g .. | .clz g .. | .popc g .. | .min g .. | .max g .. | .sel g .. | .mov g .. | .li g .. | .addi g ..
  | .lea g .. | .cmp g .. | .cmpi g .. | .psetAnd g .. | .psetOr g .. | .psetXor g .. | .psetConst g .. | .bfx g .. | .bfi g ..
  | .jr g .. | .call g .. | .ret g | .loop g .. | .trap g .. | .nop g
  | .fadd g .. | .fsub g .. | .fmul g .. | .ffma g .. | .fmin g .. | .fmax g .. | .fcmp g .. | .fcvt g ..
  | .ld g .. | .st g .. | .ldf g .. | .stf g .. | .amoSwap g .. | .amoAdd g .. | .amoAnd g .. | .amoOr g .. | .amoXor g .. | .amoMin g ..
  | .amoMax g .. | .amoFadd g .. | .amoFaddSeq g .. | .cas g .. | .fence g .. | .waita g .. | .pref g ..
  | .send g .. | .sendNb g .. | .recv g .. | .recvn g .. | .mbstat g .. | .fork g .. | .join g .. | .spawn g .. | .exit g .. | .yield g
  | .migrate g .. | .getidHandle g .. | .getidLogicalIndex g .. | .getidBank g .. | .getidSlot g .. | .getidModulePosition g ..
  | .getidCycleCounter g .. | .cpy g .. | .cwait g .. | .barinit g .. | .bararv g .. | .barinv g .. | .barwait g .. | .fill g ..
  | .qctlSetRoles g .. | .qctlReadRoles g .. | .qctlQueueCounts g .. | .qctlDiscard g .. | .wdq g .. | .launch g ..
  | .vclaim g .. | .vren g .. | .vrenSetn g .. | .vrenStat g .. | .vrel g | .vld g .. | .vst g .. | .vgth g .. | .vsct g ..
  | .vadd g .. | .vsub g .. | .vmul g .. | .vfma g .. | .vmin g .. | .vmax g .. | .vabs g .. | .vneg g .. | .vand g .. | .vor g ..
  | .vxor g .. | .vshl g .. | .vshr g .. | .vcmp g .. | .vsel g .. | .vcvt g .. | .vredAdd g .. | .vredMin g .. | .vredMax g ..
  | .vdot g .. | .vperm g .. | .vbcst g .. | .vexp2 g .. | .vlog2 g .. | .vrsq g .. | .vrcp g .. | .vsqrt g .. | .vdiv g .. | .viota g ..
  | .vscanAdd g .. | .vscanMin g .. | .vscanMax g .. | .vfence g
  | .dfrom g .. | .dto g .. | .dld g .. | .dldRn g .. | .dst g .. | .dcos g .. | .ddot g .. | .dscl g .. | .dadd g .. | .dlerp g ..
  | .dneg g .. | .dproj g .. | .dnorm g .. | .dsetn g .. | .dmov g .. | .dtest g ..
  | .mmul g .. | .mmula g .. | .mzero g .. | .mld g .. | .mst g .. | .mscl g .. | .mwait g | .mgovRead g .. | .mgovReadClear g ..
  | .qcmd g .. | .qwait g | .rngres g .. | .rngrel g .. | .rnd g ..
  | .hdecl g .. | .hput g .. | .hget g .. | .hgetn g .. | .hfront g .. | .hdrop g ..
  | .tdecl g .. | .eprog g .. | .sweep g .. | .swwait g .. | .skset g .. | .wake g ..
  | .tret g | .sysr g .. | .sysw g .. | .resume g .. | .kill g .. | .retry g .. | .replay g | .tlbinv g .. | .syswQload g ..
  | .syswEwt g .. | .syswSmpctl g .. => g
  | .br g _ => some g
  | _ => none

/-- What becomes of a strand whose instruction does not commit (R52). -/
def raise (s : State) (h : Handle) (st : Strand) : Exc → State
  | .trap t => enterTrap s h st t
  | .fault f => freeze s h st f
  | .park w => park s h st w
  | .act s' => s'

/-- A guarded-off instruction only advances the PC (R36). -/
def skip (s : State) (h : Handle) (st : Strand) : State := commitAt s h st [] none (nextPc s st)

/-- The frame of every instruction of a strand: the guard, then the body; what the body raises is taken from the state
before the instruction (R36, R49). -/
def issue (g : Option Guard) (s : State) (body : Handle → Strand → Res State) : Out :=
  match s.issuing with
  | none => .fault .noStrand
  | some (h, st) =>
    if guardHolds g st || st.reissue.isSome then
      match body h st with
      | .ok s' => .next s'
      | .error e => .next (raise s h st e)
    else .next (skip s h st)

/-! ### Replay records (R391, R392) -/

/-- What a recorded operation finds while a task is replayed: nothing to replay, or the record to take its results from;
a record of another kind or address faults REPLAY_DIVERGED. -/
def replayed (st : Strand) (kind : Nat) (addr : Word) : Res (Option Record) :=
  match st.replay with
  | none => .ok none
  | some k =>
    match st.records[k]? with
    | none => .ok none
    | some r =>
      if r.kind = kind ∧ r.addr = addr then .ok (some r)
      else .error (.fault ⟨0x5, 0, [BitVec.ofNat 64 k, r.addr, addr, BitVec.ofNat 64 (r.kind % 256 + 256 * (kind % 256))]⟩)

/-- The strand after a replayed operation: the next record, or the end of the replay (R392). -/
def Strand.replayNext (st : Strand) : Strand :=
  match st.replay with
  | some k => { st with replay := if k + 1 < st.records.length then some (k + 1) else none }
  | none => st

/-- The strand with an operation recorded (R391). -/
def Strand.record (st : Strand) (kind sel : Nat) (addr : Word) (values : List Word) : Strand :=
  if st.unreplayable then st else { st with records := st.records ++ [⟨kind, sel, addr, values⟩] }

end Sys2Proof.Machine
end

