-- ==== Sys2Proof/Machine/Access.lean ====
section
/-! DEFINITION. An access of a strand (R124): its checks in order, its place, migration (R95-R98), leases (R193), translation
faults (R381, R382), fences (R136, R137), and what each access does at its place. -/

namespace Sys2Proof.Machine

/-! ### The port of a core (R188) -/

/-- An access that a strand of a core has issued before some cycle is still on its way to one of some banks, which the core's port gives its accesses in their
order (R188). -/
def heldAt (s : State) (c : CoreId) (banks : List CoreId) (before : Nat) : Bool :=
  s.strands.any fun e => decide (e.2.core = c) && decide (Table.get 0 e.2.slot (s.core c).issued < before) && (match e.2.status with
    | .parked (.transit _ _ _ _ bs) => bs.any banks.contains
    | _ => false)

/-- The spill area of a core takes part in no access while an earlier one of the core is on its way to the bank (R188). -/
def bankFree (s : State) (c : CoreId) : Bool := !heldAt s c [c] (s.cycle + 1)

/-! ### Leases (R190-R194) -/

/-- A live lease of a launch on a bank covers off .. off + n - 1 (R190, R192). -/
def Launch.covers (l : Launch) (c : CoreId) (off n : Nat) : Bool :=
  l.leases.contains c && decide (l.origin ≤ off) && decide (off + n ≤ l.origin + l.length)

/-- Some live lease of a context covers a byte range of a bank (R194, R213). -/
def State.leasedBy (s : State) (ctx : CtxId) (c : CoreId) (off n : Nat) : Bool :=
  s.launches.any fun e => decide (e.2.ctx = ctx) && e.2.covers c off n

/-- The sequence entries of a granule go with it to another context (R94, R198). -/
def State.dropSeq (s : State) (p : Place) (key : Nat) : State :=
  if (s.place p).seq.isEmpty then s else s.modPlace p fun x => { x with seq := x.seq.filter fun e => !(e.key / 64 == key / 64) }

/-- The context that a granule of a bank records (R191). -/
def State.owner (s : State) (key : Nat) : Option CtxId := Table.find (key / 64) s.owners

/-- LEASE_GONE for an access of a launch that its leases do not cover: reason 1 where the context last held the granule
and no live lease of it covers the access, else 2 (R193, R213). -/
def leaseGone (s : State) (ctx : CtxId) (ea : Word) (c : CoreId) (off n : Nat) : FaultInfo :=
  let reason := if s.owner (coordAddr c off).toNat = some ctx ∧ !s.leasedBy ctx c off n then 1 else 2
  ⟨0x46, ea, [BitVec.ofNat 64 (c.core.toNat * 2 ^ 17 + off), BitVec.ofNat 64 reason]⟩

/-! ### Accesses of a bank (R209, R398) -/

/-- A bank performs an access of a context: its energy, and the bank-word comparators of its cluster (R209, R398). -/
def bankAccess (s : State) (ctx : CtxId) (c : CoreId) (off n : Nat) : State :=
  s.account ctx (.bank c) (coordAddr c off).toNat n false

/-- The state `after` an arrival at a location of an access that is to wait there: it has not been performed, so no comparator has seen it (R209). -/
def State.notYet (before after : State) (l : Loc) : State :=
  match l.place with
  | .bank _ => { after with clusters := before.clusters }
  | _ => after

/-! ### Translation faults (R381, R382) -/

/-- The code of an access kind (R382). -/
def kindCode : AccessKind → Nat
  | .read => 0 | .write => 1 | .fetch => 2

/-- The unread entries of a fault buffer (R382). -/
def Die.unread (d : Die) : List FbEntry :=
  let u := (d.fbtail.toNat + 65536 - d.fbhead.toNat % 65536) % 65536
  d.fb.filter fun e => decide (1 ≤ (d.fbtail.toNat + 65536 - e.index) % 65536) && decide ((d.fbtail.toNat + 65536 - e.index) % 65536 ≤ u)

/-- A fault on a page that is not present enters the die's fault buffer, or adds to an unread entry of its page and
context, or sets DROPPED (R382). -/
def State.faultEntry (s0 : State) (own : CoreId) (ctx : CtxId) (h : Handle) (va : Word) (kind : AccessKind) (level : Nat) : State :=
  let s := s0.countWalk (clusterOf own) ctx (va.setWidth 48 : BitVec 48).toNat
  let d := s.die own.die
  let page := (va.extractLsb' 16 32).toNat
  let sys := s.systemContext.getD 0
  match d.unread.find? fun e => decide (e.ctx = ctx) && e.page == page with
  | some e =>
    let n := min (e.count + 1) 0xFFFFFFFF
    let s1 := s.modDie own.die fun d => { d with fb := d.fb.map fun x => if x.index == e.index then { x with count := n } else x }
    s1.deviceWrite own sys (d.fbbase + BitVec.ofNat 64 (32 * (e.index % 64) + 0x14)) 4 n
  | none =>
    if d.unread.length ≥ 64 then s.modDie own.die fun d => { d with fbdropped := true }
    else
      let i := d.fbtail.toNat
      let s1 := s.modDie own.die fun d => { d with fbtail := d.fbtail + 1, fb := d.unread ++ [⟨i, ctx, page, 1⟩] }
      s1.deviceWriteWords own sys (d.fbbase + BitVec.ofNat 64 (32 * (i % 64)))
        [va, h ++ ctx.setWidth 32, 1#32 ++ BitVec.ofNat 32 (kindCode kind + 256 * level), 0]

/-- XLATE (R381, R400). -/
def xlateInfo (ea : Word) (reason : Nat) (kind : AccessKind) (pte : Word) : FaultInfo :=
  ⟨0x4, ea, [BitVec.ofNat 64 reason, BitVec.ofNat 64 (kindCode kind), pte]⟩

/-- Something waits on a page until a `replay` issues it again, after what faulted before it (R386). -/
def State.parkOn (s : State) (w : XlateWait) : State := { s with xlate := addOnce w s.xlate }

/-- Something that waits on a page, and that no `replay` has issued again (R386). -/
def State.onPage (s : State) (w : XlateWait) : Bool := s.xlate.contains w || s.reissue.contains w

/-- A strand parks on a page that is not present (R381, R386). -/
def parkXlate (s : State) (h : Handle) (st : Strand) (va : Word) (kind : AccessKind) (level : Nat) : State :=
  ((s.faultEntry st.core st.ctx h va kind level).parkOn (.strand h)).setStrand h { st with status := .parked .translation }

/-- MEM_ERROR with the line's PA and its reason (R389, R400). -/
def memError (s : State) (ea : Word) (pa : Nat) : FaultInfo :=
  ⟨0x6, ea, [BitVec.ofNat 64 (pa / 64 * 64), BitVec.ofNat 64 (Table.get 3 (pa / 64) s.poisoned)]⟩

/-! ### The way to another module (R401, R403, R404) -/

/-- A link that has not come up. -/
def Link.reset : Link := { up := false, failed := false, flits := 0, sent := 0, retrying := false, keys := 0 }

/-- A lane of a die. -/
abbrev Lane := BitVec 2 × FabricDir × BitVec 2

/-- A link of the module. -/
def State.link (s : State) (k : Lane) : Link := Table.get Link.reset k s.links

/-- One link changed. -/
def State.modLink (s : State) (k : Lane) (f : Link → Link) : State := { s with links := Table.put k (f (s.link k)) s.links }

/-- The coordinate of a position in a dimension, which R174 packs x lowest (R401, R405). -/
def coordOf (p : BitVec 12) (dim : Nat) : BitVec 4 := p.extractLsb' (4 * dim) 4

/-- The extent of the fabric domain in a dimension (R401). -/
def extentOf (dim : Nat) : Nat :=
  1 + (match dim with
    | 0 => Config.extents.1
    | 1 => Config.extents.2.1
    | _ => Config.extents.2.2).toNat

/-- The two directions of a dimension, the positive one first (R401). -/
def dirsOf : Nat → FabricDir × FabricDir
  | 0 => (.xp, .xm)
  | 1 => (.yp, .ym)
  | _ => (.zp, .zm)

/-- The lanes of the module in a direction: three of each die (R401). -/
def lanesIn (x : FabricDir) : List Lane :=
  (List.range 4).flatMap fun d => (List.range 3).map fun l => (BitVec.ofNat 2 d, x, BitVec.ofNat 2 l)

/-- A lane is left: it has not failed lastingly, and its die is in service (R403). -/
def State.laneLeft (s : State) (k : Lane) : Bool := !(s.link k).failed && !s.isOut (.die k.1)

/-- Some lane of a direction is left (R403). -/
def State.dirLeft (s : State) (x : FabricDir) : Bool := (lanesIn x).any s.laneLeft

/-- The dimensions in which a position differs from this module's (R401). -/
def State.wayTo (s : State) (m : BitVec 12) : List Nat := [0, 1, 2].filter fun dim => coordOf m dim != coordOf s.position dim

/-- The direction in which a packet to another module leaves: in the first dimension that differs, the shorter way round, in the positive direction at equal
distance, and the other way round where no lane of that direction is left (R401, R403). -/
def State.leaves (s : State) (m : BitVec 12) : Option FabricDir :=
  (s.wayTo m).head?.map fun dim =>
    let n := extentOf dim
    let up := ((coordOf m dim).toNat + n - (coordOf s.position dim).toNat) % n
    let (p, q) := if up ≤ n - up then dirsOf dim else ((dirsOf dim).2, (dirsOf dim).1)
    if s.dirLeft p then p else q

/-- No path from this module reaches another: failures elsewhere have cut it off, or the first dimension in which it differs, in which packets to it leave, has
no lane left here (R401, R403; DEDUCED, log entry 80). -/
def State.lost (s : State) (m : BitVec 12) : Bool :=
  s.unreachable.contains m || (s.wayTo m).head?.any fun dim => !s.dirLeft (dirsOf dim).1 && !s.dirLeft (dirsOf dim).2

/-- A link to another module has come up in the direction in which packets to it leave (R404; DEDUCED, log entry 80). -/
def State.linked (s : State) (m : BitVec 12) : Bool :=
  (s.leaves m).any fun x => (lanesIn x).any fun k => (s.link k).up && s.laneLeft k

/-- Some link of the module has come up, by which other modules reach it (R404). -/
def State.anyLink (s : State) : Bool := s.links.any fun e => e.2.up && s.laneLeft e.1

/-- FABRIC_LOST (R403, R400). -/
def fabricLost (m : BitVec 12) (ea : Word) : FaultInfo := ⟨0x54, ea, [m.setWidth 64, ea]⟩

/-! ### tmask (R88) -/

/-- The tmask bits of a place for a strand on a core (R88). -/
def tmaskBits (own : CoreId) (l : Loc) : BitVec 48 :=
  let cxl : BitVec 48 := if l.cxl then BitVec.twoPow 48 45 else 0
  match l.place with
  | .bank c => BitVec.twoPow 48 c.core.toNat
  | .slice i => (if i.die = own.die then BitVec.twoPow 48 (8 + i.slice.toNat) else BitVec.twoPow 48 (40 + i.die.toNat)) ||| cxl
  | .host => BitVec.twoPow 48 46
  | .module _ _ => BitVec.twoPow 48 44

/-- The scope of a tmask bit of a strand on a core (R137), as a scope code. -/
def bitScope (own : CoreId) (bit : Nat) : Nat :=
  if bit = own.core.toNat then 1
  else if bit < 8 then 2
  else if bit < 40 then 3
  else if bit < 44 ∨ bit = 45 then 4
  else if bit = 44 then 5
  else 6

/-- The tmask bits that a fence of a scope probes (R137). -/
def scopeMask (own : CoreId) (scope : Scope) : BitVec 48 :=
  (List.range 47).foldl (fun m b => if bitScope own b ≤ scope.code.toNat then m ||| BitVec.twoPow 48 b else m) 0

/-- A dirty CXL line of the strand's context must be written back before a probe of the cxl bit is answered (R394). -/
def needsWriteBack (s : State) (st : Strand) (scope : Scope) : Bool :=
  (st.r.tmask &&& scopeMask st.core scope).getLsbD 45 && s.cxlDirty.any fun l => decide (l.2 = st.ctx)

/-- The fence of a scope (R136, R137): every access of the strand has been performed, so every probe is answered, and
the probed bits are cleared; a probe of the cxl bit parks while lines must be written back (R394). -/
def fence (s : State) (st : Strand) (scope : Scope) : Res Strand :=
  if needsWriteBack s st scope then .error (.park .fence)
  else .ok { st with r := { st.r with tmask := st.r.tmask &&& ~~~(scopeMask st.core scope) } }

/-- The fence that a release ordering performs before its access (R127; DESIGN CHOICE, log entry 104). -/
def releaseFence (s : State) (st : Strand) (q : MemQ) : Res Strand :=
  match q.ord with
  | .rel | .ar => fence s st q.scope
  | _ => .ok st

/-- An access goes over the ring or the fabric: its place is on another die or another module (R88, R374, R401). -/
def offDie (own : CoreId) (l : Loc) : Bool := (tmaskBits own l).extractLsb' 40 5 != 0

/-- A slice performs an access of a context from a core (R398). -/
def sliceAccess (s : State) (own : CoreId) (ctx : CtxId) (l : Loc) : State := s.account ctx l.place l.key 0 (offDie own l)

/-! ### Migration (R95-R98) -/

/-- The strand has vector or directional work not committed (R98). -/
def vectorBusy (s : State) (h : Handle) (c : CoreId) : Bool := (s.core c).vec.inFlight.any fun m => decide (m.h = h)

/-- The strand has matrix work not completed (R98, R271). -/
def matrixBusy (s : State) (h : Handle) (c : CoreId) : Bool :=
  ((s.core c).mqueue.any fun m => decide (m.h = h)) ||
  (match (s.quad (quadOf c)).running with
   | some (m, _) => decide (m.h = h)
   | none => false)

/-- The strand holds something that keeps it from migrating (R98). -/
def cannotMigrate (s : State) (h : Handle) (st : Strand) : Bool := st.vl != 0 || vectorBusy s h st.core || matrixBusy s h st.core

/-- A task placed in a slot of a core (R97, R99). -/
def placeIn (s : State) (h : Handle) (st : Strand) (c : CoreId) (slot : BitVec 4) : State :=
  (s.takeCore c st.ctx st.level).setStrand h { st with core := c, slot := slot, status := .ready }

/-- A core would take the packet of a strand now: into a free slot when its inbox is empty, or into the inbox. A core that is out of service, or that another
context has or its own is leaving, does not (R97, R159; DESIGN CHOICE, log entry 27). -/
def inboxOpen (s : State) (st : Strand) (c : CoreId) : Bool :=
  s.coreIn c && s.admitsCtx c st.ctx && !(s.core c).leaving && (((s.core c).inbox.isEmpty && !(s.freeSlots c).isEmpty) || decide ((s.core c).inbox.length < 8))

/-- The movement slot sends a strand to a core (R96, R97, R143): into its lowest free slot when the inbox is empty, else into the inbox, else the strand
stays parked. The trap records do not travel. A core that is out of service, or that another context has, refuses it (DESIGN CHOICE, log entry 27). -/
def sendPacket (s : State) (h : Handle) (st : Strand) (c : CoreId) : State :=
  let st1 := { st with r := { st.r with trec := Vector.replicate 8 0 } }
  let s1 := leaveWaits s h st
  let open_ := s.coreIn c && s.admitsCtx c st.ctx && !(s.core c).leaving
  if (s.core c).inbox.isEmpty ∧ !(s.freeSlots c).isEmpty ∧ open_ then placeIn s1 h st1 c ((s.freeSlots c).headD 0)
  else if (s.core c).inbox.length < 8 ∧ open_ then
    ((s1.takeCore c st.ctx st.level).setStrand h { st1 with core := c, status := .packet c }).modCore c fun x =>
      { x with inbox := x.inbox ++ [⟨h⟩] }
  else s1.setStrand h { st with status := .parked (.inbox c) }

/-- The MIG_STATE rule, and the strand handed to its movement slot, for an access or a `migrate` that names another core (R95, R98, R143). -/
def migrateTo (s : State) (h : Handle) (st : Strand) (c : CoreId) (ea : Word) : Exc :=
  if cannotMigrate s h st then .trap { number := 4, t4 := ea }
  else .park (.inbox c)

/-! ### The checks of an access (R124) -/

/-- The determinism level that the strand's core runs at (R323, R383). -/
def levelOf (s : State) (st : Strand) : Nat := (s.core st.core).level.toNat

/-- DET_GLOBAL with the page and major of the instruction (R325, R326). -/
def detGlobal (ws : List Half) (ea : Word) : FaultInfo := ⟨0x4B, ea, [pageMajor ws]⟩

/-- The space of an access of a strand by an instruction: R90-R92, then the global-space rule of level 2 (R124, R325, R407). -/
def spaceOf (s : State) (st : Strand) (ws : List Half) (ea : Word) : Except FaultInfo Space :=
  match s.space st.core st.ctx ea with
  | .error r => .error ⟨0x1, ea, [BitVec.ofNat 64 r]⟩
  | .ok (.bank c off) =>
    if clusterOf c ≠ clusterOf st.core then .error ⟨0x1, ea, [2]⟩
    else if off ≥ 0x1E000 then .error ⟨0x1, ea, [3]⟩
    else .ok (.bank c off)
  | .ok (.global va) => if levelOf s st = 2 then .error (detGlobal ws ea) else .ok (.global va)
  | .ok (.slice i off) =>
    if levelOf s st = 2 ∧ ((s.windowHome st.ctx i off).any fun m => m != s.position) then .error (detGlobal ws ea)
    else .ok (.slice i off)

/-- The space of the issuing instruction's access. -/
def strandSpace (s : State) (st : Strand) (ea : Word) : Res Space :=
  match spaceOf s st s.latch ea with
  | .ok sp => .ok sp
  | .error f => .error (.fault f)

/-- Why a place does not let pass an access: a fault, a page that is not present, with its level (R381), or a module to which no link has come up yet
(R404). -/
inductive Blocked where
  | fault (f : FaultInfo)
  | absent (level : Nat)
  | link (m : BitVec 12)

/-- The checks that a place makes when an access of a task arrives: the lease of a bank word (R193), the translation of a global
address (R381), a poisoned line (R389), a lost module or one that no link has come up to (R403, R404), and a running sweep for a write (R363). -/
def arrivalCheck (s : State) (st : Strand) (ea : Word) (n : Nat) (kind : AccessKind) (sp : Space) : Except Blocked (State × Loc) :=
  match sp with
  | .bank c off =>
    if (s.launch? st.launch).any fun l => l.covers c off n then
      match (if kind == .write then s.sweeping c off n else none) with
      | some t => .error (.fault ⟨0x53, ea, [coordAddr c off, t]⟩)
      | none => .ok (bankAccess s st.ctx c off n, bankLoc ea c off)
    else .error (.fault (leaseGone s st.ctx ea c off n))
  | .slice i off =>
    let l := s.sliceLoc st.ctx ea i off
    match l.place with
    | .module m _ =>
      if s.lost m then .error (.fault (fabricLost m ea))
      else if s.linked m then .ok (sliceAccess s st.core st.ctx l, l)
      else .error (.link m)
    | _ => .ok (sliceAccess s st.core st.ctx l, l)
  | .global va =>
    match s.translate (clusterOf st.core) st.ctx va kind with
    | .absent level => .error (.absent level)
    | .fault r pte => .error (.fault (xlateInfo ea r kind pte))
    | .poisoned pa => .error (.fault (memError s ea pa))
    | .ok pa pte =>
      match s.paLoc ea pa (pteShwr pte) with
      | none => .error (.fault (xlateInfo ea 4 kind pte))
      | some l =>
        if s.isPoisoned pa then .error (.fault (memError s ea pa))
        else .ok (sliceAccess (s.keepLeaf (clusterOf st.core) st.ctx va) st.core st.ctx l, l)

/-- The arrival of a strand's own access: the strand faults, or parks on the page (R381). -/
def arrive (s : State) (h : Handle) (st : Strand) (ea : Word) (n : Nat) (kind : AccessKind) (sp : Space) : Res (State × Loc) :=
  match arrivalCheck s st ea n kind sp with
  | .ok r => .ok r
  | .error (.fault f) => .error (.fault f)
  | .error (.absent level) => .error (.act (parkXlate s h st ea kind level))
  | .error (.link m) => .error (.park (.link m))

/-- The checks of a scalar access in the order of R124, up to its place (DEDUCED, log entry 5). -/
def locate (s : State) (h : Handle) (st : Strand) (ea : Word) (n : Nat) (kind : AccessKind) (mig : Bool) : Res (State × Loc) := do
  let sp ← strandSpace s st ea
  if ea.toNat % n ≠ 0 then .error (badAlign ea n)
  else
    match sp with
    | .bank c _ =>
      if mig && c != st.core && !st.r.inTrap then .error (migrateTo s h st c ea) else arrive s h st ea n kind sp
    | _ => arrive s h st ea n kind sp

/-- The space code of an address (R90). -/
def spaceCode (ea : Word) : Nat := (ea.extractLsb' 60 4).toNat

/-- The checks of an access whose word must lie in the issuing cluster's scratchpad: join words, barrier objects, answer
words and record buffers (R169, R180, R182, R339, R416). -/
def locateBank (s : State) (h : Handle) (st : Strand) (ea : Word) (kind : AccessKind) (mig : Bool) : Res (State × Loc) :=
  if spaceCode ea = 10 then .error (badSpace ea 1)
  else
    match s.space st.core st.ctx ea with
    | .ok (.global _) => .error (badSpace ea 1)
    | _ => locate s h st ea 8 kind mig

/-! ### Performed accesses -/

/-- A data write of a strand performed at its place (R88, R125). -/
def State.write (s : State) (st : Strand) (l : Loc) (n v : Nat) (setsFull : Bool) : State :=
  (s.store l.place l.key n v setsFull).dirty l.key st.ctx

/-- A strand whose instruction has issued keeps its turn at the queues that it is to pop (R145). -/
def keepTurns (c : Core) (h : Handle) (pops : List Reg) : Core :=
  { c with qwait := pops.foldl (fun l r => match r with
    | .q i => addOnce (i, true, h) l
    | _ => l) c.qwait }

/-- The strand parks at a place with its access held there; the access commits at its reply (R124, R130). -/
def parkPending (s : State) (h : Handle) (st : Strand) (w : Wait) (p : Pending) : State :=
  (s.setStrand h { st with status := .parked w, pending := some p }).modCore st.core fun c => keepTurns c h p.pops

/-- A pending instruction that only waits. -/
def waitPending (s : State) : Pending :=
  { dst := none, pdst := none, sz := .s64, pops := [], len := s.words, kind := 0, sel := 0, addr := 0, tmask := 0, reply := none }

end Sys2Proof.Machine
end

