-- ==== Sys2Proof/Machine/Operands.lean ====
section
/-! DEFINITION. The operand forms: sizes and extension (R39, R53, R106), format-M addresses (R43), fields of the issued words
(R121), and results formed from several general registers (R51). -/

namespace Sys2Proof.Machine

/-- The width of a size suffix in bits (R39). -/
def sizeBits : Size → Nat
  | .s64 | .n64 => 64
  | .s32 | .n32 => 32
  | .s16 | .n16 => 16
  | .s8 | .n8 => 8

/-- A size suffix is signed (R39, R53). -/
def sizeSigned : Size → Bool
  | .s64 | .s32 | .s16 | .s8 => true
  | _ => false

/-- The width of a size suffix in bytes (R53). -/
def sizeBytes (z : Size) : Nat := sizeBits z / 8

/-- The low N bits of an operand, as a number (R106). -/
def lowBits (z : Size) (x : Word) : Nat := x.toNat % 2 ^ sizeBits z

/-- The operand's value at a size: signed for `.sN`, unsigned for `.nN` (R106). -/
def sizedInt (z : Size) (x : Word) : Int := intOfBits (sizeSigned z) (sizeBits z) x.toNat

/-- An N-bit result extended to 64 bits (R53, R106). -/
def extend (z : Size) (x : Nat) : Word := BitVec.ofInt 64 (intOfBits (sizeSigned z) (sizeBits z) x)

/-- An integer result wrapped to N bits and extended (R53, R106). -/
def extendInt (z : Size) (x : Int) : Word := extend z (bitsOfInt (sizeBits z) x)

/-- The effective address of a format-M operand (R43); its registers must be full (R85). -/
def effAddr (st : Strand) (m : Mem) : Res Word := do
  let b ← gsrc st m.base
  match m.off with
  | .disp d => .ok (b + d)
  | .index i => do
    let x ← gsrc st i
    .ok (b + x)

/-- The QUAL payload of the issued words, zero when absent (R38, R121). -/
def qualPayload (ws : List Half) : BitVec 11 :=
  ((ws.dropLast.find? fun w => w.extractLsb' 11 5 == 0b11111#5).map fun w => w.extractLsb' 0 11).getD 0

/-- Field A of the issued words (R32, R121). -/
def fieldA (ws : List Half) : BitVec 5 := (ws.getLastD 0).extractLsb' 5 5

/-- The strand with consecutive general registers written and set full (R51, R85). -/
def Strand.setRange (st : Strand) (i : Fin 24) : List Word → Strand
  | [] => st
  | v :: t => Strand.setRange (st.setG i v) (gplus i 1) t

/-- An instruction that reads two sources and writes one result (RRR). -/
def alu3 (g : Option Guard) (a b c : Reg) (f : Word → Word → Word) (s : State) : Out :=
  issue g s fun h st => do
    let x ← src s h st 0 b
    let y ← src s h st 1 c
    retire s h st [b, c] (some (a, f x y))

/-- An instruction that reads one source and writes one result (RR, RRI). -/
def alu2 (g : Option Guard) (a b : Reg) (f : Word → Word) (s : State) : Out :=
  issue g s fun h st => do
    let x ← src s h st 0 b
    retire s h st [b] (some (a, f x))

/-- An instruction that writes one result without a source (RI). -/
def alu1 (g : Option Guard) (a : Reg) (v : Word) (s : State) : Out :=
  issue g s fun h st => retire s h st [] (some (a, v))

/-- An instruction that writes a predicate from its sources (R86). -/
def setPred (s : State) (h : Handle) (st : Strand) (srcs : List Reg) (p : BitVec 4) (v : Bool) : Res State :=
  retire s h (st.setP p v) srcs none

end Sys2Proof.Machine
end

