-- ==== Sys2Proof/Machine/Flags.lean ====
section
/-! DEFINITION. The sticky flags of a strand (R55, R56, R87, R121) and the conditions of integer compares (R38, R114). -/

namespace Sys2Proof.Machine

/-- The strand with the results of a floating-point operation in sflags (R55, R87). -/
def Strand.orFp (st : Strand) (f : Flags) : Strand := st.orFlags f.bits

/-- sflags bit 3, zerodir (R87). -/
def zerodirBit : BitVec 6 := 0b001000#6

/-- sflags bit 4, extrapolated (R87). -/
def extrapolatedBit : BitVec 6 := 0b010000#6

/-- sflags bit 5, replayed (R87). -/
def replayedBit : BitVec 6 := 0b100000#6

/-- The truth of an integer condition (R114). -/
def intCond (c : Cond) (x y : Int) : Bool := condOfOrder c (some (compare x y))

/-- The low bits of a scalar floating-point operand (R119). -/
def fpBits (f : FFmt) (x : Word) : Nat := x.toNat % 2 ^ (f.signPos + 1)

/-- The mask of subnormal sources, bit 0 first (R121). -/
def subnormalMask (f : FFmt) : List Nat → Nat
  | [] => 0
  | x :: t => (if f.subnormal x then 1 else 0) + 2 * subnormalMask f t

/-- The sources of a scalar instruction under R56: as they are, flushed when DAZ is 1, or the SUBNORMAL trap with the
record of R121. The sources are B, C and A in that order. -/
def fpSources (s : State) (st : Strand) (f : FFmt) (xs : List Nat) : Res (List Nat) :=
  if subnormalMask f xs = 0 then .ok xs
  else if (s.core st.core).daz then .ok (xs.map f.flush)
  else .error (.trap
    { number := 1
      t2 := BitVec.ofNat 64 (subnormalMask f xs)
      t4 := BitVec.ofNat 64 (xs.getD 0 0)
      t5 := BitVec.ofNat 64 (xs.getD 1 0)
      t6 := BitVec.ofNat 64 (xs.getD 2 0)
      t7 := (0#48 ++ fieldA s.latch ++ qualPayload s.latch : BitVec 64) })

/-- The format of a scalar suffix and the value of a code as a register holds it (R119). -/
def fpWord (r : FRes) : Word := BitVec.ofNat 64 r.1

/-- A scalar operation on two sources that writes a rounded result and its flags (R120). -/
def fp3 (g : Option Guard) (f : FSize) (a b c : Reg) (op : Nat → Nat → FRes) (s : State) : Out :=
  issue g s fun h st => do
    let x ← src s h st 0 b
    let y ← src s h st 1 c
    let xs ← fpSources s st (fsizeFmt f) [fpBits (fsizeFmt f) x, fpBits (fsizeFmt f) y]
    let r := op (xs.getD 0 0) (xs.getD 1 0)
    retire s h (st.orFp r.2) [b, c] (some (a, fpWord r))

end Sys2Proof.Machine
end

