-- ==== Sys2Proof/Machine/Messages.lean ====
section
/-! DEFINITION. Messages: mailboxes, reservation lists, relay slices and engine completions (R148-R152, R291, R374). -/

namespace Sys2Proof.Machine

/-- The mailbox of a message on a core. -/
def mailboxOf (s : State) (c : CoreId) (mb : BitVec 4) : Mailbox := (s.core c).mb[mb.toFin]

/-- One mailbox of a core changed. -/
def modMailbox (s : State) (c : CoreId) (mb : BitVec 4) (f : Mailbox → Mailbox) : State :=
  s.modCore c fun x => { x with mb := x.mb.set mb.toFin (f x.mb[mb.toFin]) }

/-- A mailbox accepts a message from a sender: a place is free that is not kept for an earlier reserved sender (R151). -/
def accepts (s : State) (c : CoreId) (mb : BitVec 4) (x : Sender) : Bool :=
  let m := mailboxOf s c mb
  roomFor 8 m.msgs.length m.reserved x

/-- A message at the tail of its mailbox; its sender leaves the reservation list (R149, R151). -/
def accept (s : State) (c : CoreId) (x : Sender) (msg : Message) : State :=
  modMailbox s c msg.mbox fun m => { msgs := m.msgs ++ [msg], reserved := dropAll x m.reserved }

/-- A sender that is not in a mailbox's reservation list could join it (R151). -/
def canJoin (s : State) (c : CoreId) (mb : BitVec 4) (x : Sender) : Bool :=
  decide ((mailboxOf s c mb).reserved.length < 8) && !(mailboxOf s c mb).reserved.contains x

/-- A refused sender joins the reservation list while it has room (R151). -/
def refuse (s : State) (c : CoreId) (mb : BitVec 4) (x : Sender) : State :=
  modMailbox s c mb fun m => { m with reserved := if m.reserved.length < 8 then addOnce x m.reserved else m.reserved }

/-- The core that a handle names (R99). -/
def handleCore (h : Handle) : CoreId := ⟨h.extractLsb' 30 2, h.extractLsb' 23 7, h.extractLsb' 20 3⟩

/-- The core to which a message for a handle goes: the task's while it lives, else the one that the handle names, in service or not (R163, R164; DESIGN CHOICE, log
entry 99). -/
def targetCore (s : State) (h : Handle) : CoreId :=
  match s.strand? h with
  | some st => st.core
  | none => handleCore h

/-- The relay slice of a die for a target cluster (R291), through `slicemap` where it is out of service (R393). -/
def relaySlice (s : State) (d : BitVec 2) (target : BitVec 7) : SliceId :=
  let j := target.toNat % 16 + (if target.toNat / 16 ≥ 4 then 16 else 0)
  let i : SliceId := ⟨d, BitVec.ofNat 5 j⟩
  if s.sliceIn i then i else ⟨d, (s.die d).slicemap[(BitVec.ofNat 5 j).toFin]⟩

/-- The relay slices of a message from one core to another (R291, R374). -/
def relayPath (s : State) (src dst : CoreId) : List SliceId :=
  if clusterOf src = clusterOf dst then []
  else if src.die = dst.die then [relaySlice s src.die dst.cluster]
  else [relaySlice s src.die dst.cluster, relaySlice s dst.die dst.cluster]

/-- The relay buffer of a slice holds 64 offers (R291). -/
def relayRoom (s : State) (i : SliceId) : Bool := decide ((s.place (.slice i)).relay.length < 64)

/-- An offer enters a relay buffer. -/
def enterRelay (s : State) (i : SliceId) (id : Nat) : State :=
  s.modPlace (.slice i) fun x => { x with relay := x.relay ++ [id] }

/-- An offer leaves a relay buffer. -/
def leaveRelay (s : State) (i : SliceId) (id : Nat) : State :=
  s.modPlace (.slice i) fun x => { x with relay := dropAll id x.relay }

/-- A message of an engine for a strand's command (R148): sequence 0, the engine-completion flag. -/
def engineMessage (h : Handle) (xr : Bool) (mb : BitVec 4) (firmware : Bool) (words : List Word) : Message :=
  { sender := h, seq := 0, xr := xr, len := BitVec.ofNat 3 words.length, mbox := mb, firmware := firmware
    engine := true, dest := h, words := words }

/-- An engine offers a message to a mailbox of the issuing core; it holds the message until it is accepted (R151). -/
def postMessage (s : State) (h : Handle) (xr : Bool) (c : CoreId) (mb : BitVec 4) (firmware : Bool) (words : List Word) : State :=
  { s.bump with offers := s.offers ++
    [{ id := s.fresh, sender := .engine s.fresh, blocking := true, core := c, msg := engineMessage h xr mb firmware words, path := [] }] }

/-- The message that a receive would take: a mailbox, an index in its order, and the message (R149). -/
def chosen (c : Core) (w : Want) : Option (BitVec 4 × Nat × Message) :=
  match w with
  | .mask m =>
    ((List.range 16).findSome? fun i =>
      if m.getLsbD i then ((c.mb[(BitVec.ofNat 4 i).toFin]).msgs.head?).map fun x => (BitVec.ofNat 4 i, 0, x) else none)
  | .exact mb sender seq =>
    let l := (c.mb[mb.toFin]).msgs
    ((List.range l.length).zip l).findSome? fun e =>
      if e.2.sender = sender ∧ e.2.seq = seq then some (mb, e.1, e.2) else none

/-- The receives parked on the core before this strand (R149). -/
def earlierWaits (c : Core) (h : Handle) : List (Handle × Want) := c.mbwait.takeWhile fun w => !decide (w.1 = h)

/-- The message that a strand's receive takes now: none while no message matches, or while a strand parked earlier would
take the same one (R149). -/
def receivable (c : Core) (h : Handle) (w : Want) : Option (BitVec 4 × Nat × Message) :=
  match chosen c w with
  | some (mb, i, msg) =>
    if (earlierWaits c h).any fun e => match chosen c e.2 with
      | some (mb', i', _) => decide (mb' = mb) && i' == i
      | none => false
    then none else some (mb, i, msg)
  | none => none

/-- The header word of a message (R148, R165). -/
def Message.header (m : Message) : Word :=
  let flags : BitVec 8 := (0#6 ++ BitVec.ofBool m.engine ++ BitVec.ofBool m.firmware : BitVec 8)
  let box : BitVec 8 := (m.mbox ++ m.len ++ BitVec.ofBool m.xr : BitVec 8)
  (flags ++ box ++ m.seq ++ m.sender : BitVec 64)

/-- A message removed from its mailbox (R149, R151). -/
def removeMessage (s : State) (c : CoreId) (mb : BitVec 4) (i : Nat) : State :=
  modMailbox s c mb fun m => { m with msgs := m.msgs.eraseIdx i }

/-- A strand parks on a receive, keeping its place in the order (R149). -/
def parkReceive (s : State) (h : Handle) (st : Strand) (w : Want) : State :=
  (park s h st .mailbox).modCore st.core fun c =>
    if c.mbwait.any fun e => decide (e.1 = h) then c else { c with mbwait := c.mbwait ++ [(h, w)] }

end Sys2Proof.Machine
end

