-- ==== Sys2Proof/Machine/CoreInstr.lean ====
section
/-! DEFINITION. Page 1: messages, tasks, fill, queues, copies, counters, barriers, the work distributor and launch
(R162-R183). -/

namespace Sys2Proof.Machine

/-- The record fields of an operation that the strand performs itself (R391): the operation is recorded, or its results are taken from the record. -/
def recorded (st : Strand) (kind : Nat) (addr : Word) (again : Record → Res State) (perform : Res State) : Res State :=
  match replayed st kind addr with
  | .error e => .error e
  | .ok (some r) => again r
  | .ok none => perform

/-! ### Messages (R164-R167) -/

/-- The XR bit that the message of a strand's instruction carries: the core's at the issue, which lies back where the message has been on its way (R58, R148). -/
def issueXr (s : State) (st : Strand) : Bool :=
  match st.status with
  | .parked (.transit _ _ xr _ _) => xr
  | _ => (s.core st.core).xr

/-- The message that a `send` forms (R148, R164). -/
def sendMessage (s : State) (h : Handle) (st : Strand) (w : Word) (mbox : BitVec 4) (len : BitVec 3) (words : List Word) : Message :=
  { sender := h, seq := w.extractLsb' 32 16, xr := issueXr s st, len := len, mbox := mbox, firmware := false
    engine := false, dest := w.setWidth 32, words := words }

/-- The blocking send that a strand makes: the one that it has issued and that is to be sent again, with the operands, the target and the message of its
issue, else a new one (R58, R152, R164). -/
def sendNow (s : State) (h : Handle) (st : Strand) (a : Reg) (b : Fin 24) (mbox : BitVec 4) (len : BitVec 3) : Res SendWait :=
  match st.sending with
  | some x => .ok x
  | none => do
    let w ← src s h st 0 a
    let words ← grange st b len.toNat
    .ok { since := none, word := w, core := targetCore s (w.setWidth 32), msg := sendMessage s h st w mbox len words, len := s.words }

/-- A blocking send refused at a cycle; its limit counts from its first refusal (R152). -/
def SendWait.refused (x : SendWait) (cycle : Nat) : SendWait := { x with since := some (x.since.getD cycle) }

/-- SEND_TIMEOUT (R152). -/
def sendTimeoutInfo (w : SendWait) : TrapInfo := { number := 3, t4 := w.word, t5 := w.msg.mbox.setWidth 64 }

/-- The cycles that a blocking send of a context may wait after its first refusal (R153). -/
def sendLimit (s : State) (ctx : CtxId) : Nat := ((s.context? ctx).map fun x => (x.sndto.setWidth 32 : BitVec 32).toNat).getD 0x00100000

/-- A blocking send has waited longer than its limit; a limit of 0 is over at the first refusal (R152, R153; DEDUCED, log entry 55). -/
def sendExpired (s : State) (ctx : CtxId) (w : SendWait) : Bool := w.since.any fun c => decide (c + sendLimit s ctx ≤ s.cycle)

/-- A blocking send whose limit is over is not sent again (R152). -/
def sendOver (s : State) (st : Strand) : Option SendWait := st.sending.filter fun x => sendExpired s st.ctx x

/-- A refused blocking send parks and keeps its turn at a queue that A names, or times out where its limit is over (R145, R152). -/
def refusedSend (s : State) (h : Handle) (st : Strand) (a : Reg) (x : SendWait) (at_ : Wait) : Exc :=
  let y := x.refused s.cycle
  if sendExpired s st.ctx y then .trap (sendTimeoutInfo y)
  else .act ((park s h { st with sending := some y } at_).modCore st.core fun c => keepTurns c h [a])

/-- An offer that waits in a relay buffer, with its strand parked until the target's answer (R291). -/
def sendThroughRelay (s : State) (h : Handle) (st : Strand) (blocking : Bool) (target : CoreId) (path : List SliceId) (msg : Message)
    (p : Pending) : State :=
  match path with
  | i :: _ =>
    let s1 := { (enterRelay s i s.fresh).bump with offers := s.offers ++ [⟨s.fresh, .strand h, blocking, target, msg, path⟩] }
    parkPending s1 h st (.relay s.fresh) p
  | [] => s

/-- The pending part of a send that waits for its answer. -/
def sendPending (s : State) (a : Reg) (pdst : Option (BitVec 4)) (w : Word) : Pending :=
  { dst := none, pdst := pdst, sz := .s64, pops := [a], len := s.words, kind := 4, sel := 0, addr := w.setWidth 32 |>.setWidth 64
    tmask := 0, reply := none }

/-- R164: parks until the target accepts the message. -/
def execSend (g : Option Guard) (a : Reg) (b : Fin 24) (mbox : BitVec 4) (len : BitVec 3) (s : State) : Out :=
  issue g s fun h st => do
    let x ← sendNow s h st a b mbox len
    let key := (x.word.setWidth 32 : BitVec 32).setWidth 64
    recorded st 4 key (fun _ => retire s h st.replayNext [a] none) do
      match sendOver s st, relayPath s st.core x.core with
      | some y, _ => .error (.trap (sendTimeoutInfo y))
      | none, [] =>
        if accepts s x.core mbox (.strand h) then retire (accept s x.core (.strand h) x.msg) h (st.record 4 0 key []) [a] none
        else .error (refusedSend (refuse s x.core mbox (.strand h)) h st a x (.mailboxRoom x.core mbox))
      | none, i :: t =>
        if relayRoom s i then
          .error (.act (sendThroughRelay s h { st with sending := some x } true x.core (i :: t) x.msg (sendPending s a none x.word)))
        else .error (refusedSend s h st a x (.relayRoom i))

/-- R164: never waits for room; the predicate says whether the message was accepted. -/
def execSendNb (g : Option Guard) (p : BitVec 4) (a : Reg) (b : Fin 24) (mbox : BitVec 4) (len : BitVec 3) (s : State) : Out :=
  issue g s fun h st => do
    let w ← src s h st 0 a
    let words ← grange st b len.toNat
    let key := (w.setWidth 32 : BitVec 32).setWidth 64
    recorded st 4 key (fun r => setPred s h st.replayNext [a] p (r.sel == 1)) do
      let target := targetCore s (w.setWidth 32)
      let msg := sendMessage s h st w mbox len words
      match relayPath s st.core target with
      | [] =>
        if accepts s target mbox (.strand h) then setPred (accept s target (.strand h) msg) h (st.record 4 1 key []) [a] p true
        else setPred s h (st.record 4 0 key []) [a] p false
      | i :: t =>
        if relayRoom s i then .error (.act (sendThroughRelay s h st false target (i :: t) msg (sendPending s a (some p) w)))
        else setPred s h (st.record 4 0 key []) [a] p false

/-- The words that a receive writes: the header and the message's words (R165). -/
def receivedWords (m : Message) : List Word := m.header :: m.words.take m.len.toNat

/-- The common part of the receives (R149, R150, R165, R166; DEDUCED, log entry 61). -/
def receive (s : State) (h : Handle) (st : Strand) (a : Fin 24) (srcs : List Reg) (want : Want) (key : Word) : Res State :=
  recorded st 5 key (fun r => retire s h (st.replayNext.setRange a r.values) srcs none)
    (match receivable (s.core st.core) h want with
     | none => .error (.act ((parkReceive s h { st with kept := some (.want want key) } want).modCore st.core fun c => keepTurns c h srcs))
     | some (mb, i, msg) =>
       if msg.xr != (s.core st.core).xr then
         .error (.trap { number := 2, t2 := mb.setWidth 64, t4 := 0#16 ++ msg.seq ++ msg.sender, t5 := mb.setWidth 64 })
       else
         let s1 := removeMessage s st.core mb i
         let s2 := s1.modCore st.core fun c => { c with mbwait := c.mbwait.filter fun e => !decide (e.1 = h) }
         retire s2 h ((st.setRange a (receivedWords msg)).record 5 0 key (receivedWords msg)) srcs none)

/-- R165. -/
def execRecv (g : Option Guard) (a : Fin 24) (mask : BitVec 16) (s : State) : Out :=
  issue g s fun h st => receive s h st a [] (.mask mask) (mask.setWidth 64)

/-- The message that a `recvn` wants, with the word that names it: what it has wanted since its issue, else what B names (R49, R166). -/
def wanted (s : State) (h : Handle) (st : Strand) (b : Reg) (mbox : BitVec 4) : Res (Want × Word) :=
  match st.kept with
  | some (.want k w) => .ok (k, w)
  | _ => do
    let w ← src s h st 0 b
    .ok (.exact mbox (w.setWidth 32) (w.extractLsb' 32 16), w)

/-- R166. -/
def execRecvn (g : Option Guard) (a : Fin 24) (b : Reg) (mbox : BitVec 4) (s : State) : Out :=
  issue g s fun h st => do
    let x ← wanted s h st b mbox
    receive s h st a [b] x.1 x.2

/-- A parked receive waits on a mailbox (R167). -/
def Want.names (w : Want) (mb : BitVec 4) : Bool :=
  match w with
  | .mask m => m.getLsbD mb.toNat
  | .exact b _ _ => decide (b = mb)

/-- R167: held messages, reserved senders and parked strands of a mailbox. A strand whose message has come counts until it issues again (DESIGN CHOICE, log entry
98). -/
def execMbstat (g : Option Guard) (a : Reg) (mbox : BitVec 4) (s : State) : Out :=
  issue g s fun h st =>
    let m := mailboxOf s st.core mbox
    let parked := ((s.core st.core).mbwait.filter fun e => e.2.names mbox).length
    retire s h st [] (some (a, BitVec.ofNat 64 (m.msgs.length + 16 * m.reserved.length + 256 * parked)))

/-! ### Tasks (R155, R156, R168-R173) -/

/-- Entries that the spill area of a core may hold (R156). -/
def spillCap (c : Core) : Nat := (c.dqspill.extractLsb' 20 12).toNat

/-- The 64 bytes of a deque entry (R155), as words. -/
def dequeWords (t : TaskSource) : List Word :=
  let tail : Word := (0#40 ++ (0#6 ++ t.role) ++ (0#3 ++ t.fmtb) ++ (0#3 ++ t.fmta) : BitVec 64)
  [t.entry, t.args[0], t.args[1], t.args[2], t.args[3], t.scla, t.sclb, tail]

/-- The bank offset of a place of the spill area (R156; DESIGN CHOICE, log entry 23). After a rewrite of `dqspill`, later spills take the new area and its
capacity, and entries spilled before stay where they lie (DESIGN CHOICE, log entry 75). An area that reaches the replay region or passes the end of the bank is
not checked (DESIGN CHOICE, log entry 97). -/
def spillOffset (c : Core) (i : Nat) : Nat := (c.dqspill.extractLsb' 6 11).toNat * 64 + 64 * i

/-- The places of the spill area that hold no entry, lowest first (R156). -/
def spillPlaces (c : Core) : List Nat := ((List.range (spillCap c)).map (spillOffset c)).filter fun o => !(c.spilled.any fun e => e.1 == o)

/-- Words written from an address on, in one bank (R209). -/
def storeWords (s : State) (p : Place) (key : Nat) : List Word → State
  | [] => s
  | w :: t => storeWords ((s.noteAccess p key 8).store p key 8 w.toNat false) p (key + 8) t

/-- The movement slot moves up to 32 entries nearest the tail to the spill area (R156), which is not held against any lease (R190; DESIGN CHOICE, log entry 97). -/
def spillDeque (s : State) (c : CoreId) : State :=
  let x := s.core c
  let n := min 32 (min x.deque.length (spillCap x - x.spilled.length))
  let moved := ((spillPlaces x).take n).zip (x.deque.drop (x.deque.length - n)).reverse
  let s1 := s.modCore c fun y => { y with deque := y.deque.take (y.deque.length - n), spilled := y.spilled ++ moved }
  moved.foldl (fun s e => storeWords s (.bank c) (coordAddr c e.1).toNat (dequeWords e.2)) s1

/-- A spilled entry as the movement slot reads it from its place in the bank (R155, R156). -/
def spilledEntry (s : State) (c : CoreId) (e : Nat × TaskSource) : TaskSource :=
  let w := fun i => s.readWord ((coordAddr c e.1).toNat + 8 * i)
  { e.2 with
    entry := w 0, args := Vector.ofFn fun i => w (1 + i.val), scla := w 5, sclb := w 6
    fmta := (w 7).extractLsb' 0 5, fmtb := (w 7).extractLsb' 8 5, role := (w 7).extractLsb' 16 2 }

/-- The spilled entries of a core as they stand in its bank, the newest first (R156). -/
def spilledEntries (s : State) (c : CoreId) : List TaskSource := ((s.core c).spilled.map (spilledEntry s c)).reverse

/-- The movement slot reads spilled entries in the bank of a core (R209). -/
def readsSpilled (s : State) (c : CoreId) (l : List (Nat × TaskSource)) : State :=
  l.foldl (fun s e => s.noteAccess (.bank c) (coordAddr c e.1).toNat 64) s

/-- The movement slot brings back the 32 newest spilled entries, or all of them, as they stand in the bank (R156). -/
def refillDeque (s : State) (c : CoreId) : State :=
  let n := min 32 (s.core c).spilled.length
  let back := (spilledEntries s c).take n
  (readsSpilled s c ((s.core c).spilled.drop ((s.core c).spilled.length - n))).modCore c fun y =>
    { y with deque := y.deque ++ back, spilled := y.spilled.take (y.spilled.length - n) }

/-- An entry at the head of a deque, in the place reserved for its strand (R155, R168). -/
def pushDeque (s : State) (c : CoreId) (h : Handle) (t : TaskSource) : State :=
  s.modCore c fun y => { y with deque := t :: y.deque, dequeRes := dropAll h y.dequeRes }

/-- The deque, spill area included, has no entry left for a strand beside those reserved for others before it (R156, R168). -/
def dequeFull (c : Core) (h : Handle) : Bool :=
  !roomFor ((64 - c.deque.length) + (spillCap c - c.spilled.length)) 0 c.dequeRes h

/-- An on-chip entry of the deque is free for a strand (R156, R168). -/
def dequeRoom (c : Core) (h : Handle) : Bool := roomFor 64 c.deque.length c.dequeRes h

/-- An entry of a deque is reserved for a strand, which parks until the movement slot has made room; it keeps the task of its issue, and its turn at a queue that it
reads (R49, R145, R156, R168). -/
def reserveDeque (s : State) (h : Handle) (st : Strand) (c : CoreId) (t : TaskSource) (srcs : List Reg) : State :=
  ((park s h { st with kept := some (.entry c t) } (.dequeRoom c)).modCore st.core fun y => keepTurns y h srcs).modCore c fun y =>
    { y with dequeRes := addOnce h y.dequeRes }

/-- JOIN_RANGE (R169, R184). -/
def joinRange (ea word : Word) (dir : Nat) : Exc := .fault ⟨0x41, ea, [word, BitVec.ofNat 64 dir]⟩

/-- The join word after an increment or a decrement, as one step at its bank (R169). It clears a barrier tag as other stores do (R180; DEDUCED, log entry 107). -/
def joinStep (s : State) (h : Handle) (st : Strand) (ea : Word) (up : Bool) : Res (State × Loc) := do
  let (s1, l) ← locateBank s h st ea .write false
  let w := s1.readWord l.key
  let n := (w.setWidth 32 : BitVec 32)
  if w.extractLsb' 32 32 ≠ 0 ∨ (if up then n = BitVec.allOnes 32 else n = 0) then
    .error (joinRange ea w (if up then 1 else 2))
  else
    let n' := if up then n + 1 else n - 1
    let s2 := (s1.put l.place l.key 8 n'.toNat).setFull l.key (n' == 0)
    .ok (s2.serve l.place l.key, l)

/-- The task that a `fork` or `spawn` creates (R155, R168, R321). -/
def childTask (st : Strand) (entry : Word) (args : Vector Word 4) : TaskSource :=
  { entry := entry, args := args, fmta := st.r.fmta, fmtb := st.r.fmtb, scla := st.r.scla, sclb := st.r.sclb
    role := st.role, launch := st.launch, ctx := st.ctx, level := st.level, index := none }

/-- Four arguments from a list of register values. -/
def args4 (l : List Word) : Vector Word 4 := #v[l.getD 0 0, l.getD 1 0, l.getD 2 0, l.getD 3 0]

/-- The target core and the task of a `fork` or `spawn`: those of its issue, once an entry is reserved for it, else what its operands give (R49, R168). -/
def forkNow (st : Strand) (operands : Res (CoreId × TaskSource)) : Res (CoreId × TaskSource) :=
  match st.kept with
  | some (.entry c t) => .ok (c, t)
  | _ => operands

/-- The common part of `fork` and `spawn` (R168). A core that is out of service or that another context has still takes the entry (DESIGN CHOICE, log entry 27). -/
def forkTo (s : State) (h : Handle) (st : Strand) (join : Bool) (a : Reg) (target : CoreId) (t : TaskSource) : Res State :=
  recorded st 4 t.entry (fun _ => retire s h st.replayNext [a] none) do
    if dequeFull (s.core target) h then .error (.fault ⟨0x45, 0, [target.core.setWidth 64]⟩)
    else if !dequeRoom (s.core target) h then .error (.act (reserveDeque s h st target t [a]))
    else if join then
      let (s1, l) ← joinStep s h st t.args[3] true
      retire (pushDeque s1 target h t) h ((st.orTmask (tmaskBits st.core l)).record 4 0 t.entry []) [a] none
    else retire (pushDeque s target h t) h (st.record 4 0 t.entry []) [a] none

/-- R168. -/
def execFork (g : Option Guard) (join : Bool) (a : Reg) (b : Fin 24) (s : State) : Out :=
  issue g s fun h st => do
    let x ← forkNow st do
      let entry ← src s h st 0 a
      let args ← grange st b 4
      .ok (st.core, childTask st entry (args4 args))
    forkTo s h st join a x.1 x.2

/-- R168: A[2:0] names the target core of the issuing cluster. -/
def execSpawn (g : Option Guard) (join : Bool) (a : Reg) (b : Fin 24) (s : State) : Out :=
  issue g s fun h st => do
    let x ← forkNow st do
      let t ← src s h st 0 a
      let args ← grange st b 5
      .ok (coreOf (clusterOf st.core) (t.setWidth 3), childTask st (args.headD 0) (args4 (args.drop 1)))
    forkTo s h st join a x.1 x.2

/-- R170: waits at the bank until the join word is full and reads it. -/
def execJoin (g : Option Guard) (mig : Bool) (a : Reg) (m : Mem) (s : State) : Out :=
  issue g s fun h st => do
    let ea ← effAddr st m
    recorded st 3 ea (fun r => retire s h st.replayNext [] (some (a, r.values.headD 0))) do
      let (s1, l) ← locateBank s h st ea .read mig
      (if s1.isFull l.key then
         let v := s1.readWord l.key
         retire (s1.unlist l.place h) h ((st.orTmask (tmaskBits st.core l)).record 3 0 ea [v]) [] (some (a, v))
       else
         let p : Pending := { dst := some a, pdst := none, sz := .s64, pops := [], len := s.words, kind := 3, sel := 0, addr := ea
                              tmask := tmaskBits st.core l, reply := none }
         let (s2, taken) := (s.notYet s1 l).enterStation l.place ⟨h, l.key, 3, 0, ea⟩
         if taken then .error (.act (parkPending s2 h st (.atPlace l.place) p))
         else .error (.act (park s2 h st (.refused l.place))))

/-- R171: waits for the strand's dispatched work, decrements the join word in g3, and ends the task. -/
def execExit (g : Option Guard) (join : Bool) (s : State) : Out :=
  issue g s fun h st =>
    if vectorBusy s h st.core || matrixBusy s h st.core then .error (.park .allWork)
    else if join then do
      let st1 ← fence s st .die
      let ea ← gsrc st1 3
      let (s1, _) ← joinStep s h st1 ea false
      .ok (endTask s1 h)
    else .ok (endTask s h)

/-- R172: the slot sits out 15 cycles, or its next rotation position in strict mode. -/
def execYield (g : Option Guard) (s : State) : Out :=
  issue g s fun h st =>
    retire s h { st with yieldUntil := s.cycle + (if levelOf s st = 2 then 17 else 16) } [] none

/-- R173. -/
def execMigrate (g : Option Guard) (a : Reg) (s : State) : Out :=
  issue g s fun h st => do
    let x ← src s h st 0 a
    let target := coreOf (clusterOf st.core) (x.setWidth 3)
    if target = st.core ∨ st.r.inTrap then retire s h st [a] none
    else .error (migrateTo s h st target (coordAddr target 0))

/-! ### getid (R174) -/

/-- A selector of `getid`: the value is recorded, and taken from the record in a replay (R391; DEDUCED, log entry 62). -/
def getid (g : Option Guard) (a : Reg) (sel : Nat) (v : Handle → Strand → Word) (s : State) : Out :=
  issue g s fun h st =>
    recorded st 7 (BitVec.ofNat 64 sel) (fun r => retire s h st.replayNext [] (some (a, r.values.headD 0)))
      (retire s h (st.record 7 sel (BitVec.ofNat 64 sel) [v h st]) [] (some (a, v h st)))

def execGetidHandle (g : Option Guard) (a : Reg) (s : State) : Out := getid g a 0 (fun h _ => h.setWidth 64) s
def execGetidLogicalIndex (g : Option Guard) (a : Reg) (s : State) : Out :=
  getid g a 1 (fun _ st => match st.index with
    | some i => i.setWidth 64
    | none => BitVec.allOnes 64) s
def execGetidBank (g : Option Guard) (a : Reg) (s : State) : Out := getid g a 2 (fun _ st => coordAddr st.core 0) s
def execGetidSlot (g : Option Guard) (a : Reg) (s : State) : Out := getid g a 3 (fun _ st => st.slot.setWidth 64) s
def execGetidModulePosition (g : Option Guard) (a : Reg) (s : State) : Out := getid g a 4 (fun _ _ => s.position.setWidth 64) s
def execGetidCycleCounter (g : Option Guard) (a : Reg) (s : State) : Out := getid g a 5 (fun _ _ => BitVec.ofNat 64 s.cycle) s

/-! ### Fill and queues (R175, R176) -/

/-- A value written into a register of a task, between two of its commits; kept until it binds while it travels in a packet (R175). -/
def fillInto (t : Strand) (n : Fin 24) (v : Word) : Strand :=
  match t.status with
  | .packet _ => { t with fills := t.fills ++ [(n, v)] }
  | _ => (t.setG n v).record 6 n.val (BitVec.ofNat 64 n.val) [v]

/-- R175. -/
def execFill (g : Option Guard) (a b : Reg) (n : Fin 24) (s : State) : Out :=
  issue g s fun h st => do
    let w ← src s h st 0 a
    let v ← src s h st 1 b
    let t : Handle := w.setWidth 32
    recorded st 4 (t.setWidth 64) (fun _ => retire s h st.replayNext [a, b] none)
      (if t = h then retire s h (fillInto (st.record 4 0 (t.setWidth 64) []) n v) [a, b] none
       else
         match s.strand? t with
         | some x => retire (s.setStrand t (fillInto x n v)) h (st.record 4 0 (t.setWidth 64) []) [a, b] none
         | none => .error (.fault ⟨0x44, 0, [t.setWidth 64]⟩))

/-- The roles of the slots as `slotrole` holds them (R147). -/
def roleWord (c : Core) : Word :=
  BitVec.ofNat 64 ((List.range 15).foldl (fun n i => n + c.slotrole[Fin.ofNat 15 i].toNat * 4 ^ i) 0)

/-- R176, op 0. -/
def execQctlSetRoles (g : Option Guard) (a : Reg) (s : State) : Out :=
  issue g s fun h st => do
    let x ← src s h st 0 a
    if x.extractLsb' 30 34 ≠ 0 then .error (illegal s 7)
    else
      let s1 := s.modCore st.core fun c => { c with slotrole := Vector.ofFn fun i => x.extractLsb' (2 * i.val) 2 }
      retire s1 h st [a] none

/-- R176, op 1. -/
def execQctlReadRoles (g : Option Guard) (a : Reg) (s : State) : Out :=
  issue g s fun h st => retire s h st [] (some (a, roleWord (s.core st.core)))

/-- R176, op 2. -/
def execQctlQueueCounts (g : Option Guard) (a : Reg) (s : State) : Out :=
  issue g s fun h st =>
    let q := (s.core st.core).q
    retire s h st [] (some (a, BitVec.ofNat 64 (q[0].length + 32 * q[1].length + 1024 * q[2].length + 32768 * q[3].length)))

/-- R176, op 3. -/
def execQctlDiscard (g : Option Guard) (a : Reg) (s : State) : Out :=
  issue g s fun h st => do
    let x ← src s h st 0 a
    let i : Fin 4 := (x.setWidth 2 : BitVec 2).toFin
    let s1 := s.modCore st.core fun c => popAll c [a]
    let s2 := s1.modCore st.core fun c => { c with q := c.q.set i [] }
    retire s2 h st [] none

/-! ### Copies and counters (R177-R179) -/

/-- The fields of a copy command (R177). -/
def copyLcore (hi : Word) : BitVec 3 := hi.extractLsb' 61 3
def copyLoff (hi : Word) : Nat := (hi.extractLsb' 47 14).toNat * 8
def copyLen (hi : Word) : Nat := (hi.extractLsb' 31 16).toNat + 1
def copyOut (hi : Word) : Bool := hi.getLsbD 30
def copyKind (hi : Word) : Nat := (hi.extractLsb' 28 2).toNat
def copyIdx (hi : Word) : BitVec 4 := hi.extractLsb' 24 4
def copyObj (hi : Word) : BitVec 17 := hi.extractLsb' 7 17
def copyAcq (hi : Word) : Bool := hi.getLsbD 6
def copyRel (hi : Word) : Bool := hi.getLsbD 5
def copyScope (hi : Word) : Nat := (hi.extractLsb' 2 3).toNat
def copyReserved (hi : Word) : BitVec 2 := hi.extractLsb' 0 2

/-- A copy command breaks a rule of R178 step 1. -/
def copyIllegal (lo hi : Word) : Bool :=
  copyReserved hi ≠ 0 || copyScope hi == 7 || ((copyAcq hi || copyRel hi) && copyScope hi == 0) ||
  (copyKind hi ≥ 2 && copyIdx hi ≠ 0) || ((copyKind hi == 0 || copyKind hi == 3) && copyObj hi ≠ 0) ||
  (copyKind hi == 2 && copyOut hi && spaceCode lo != 8 && spaceCode lo != 9)

/-- A range of a bank that an engine side names: 3 where it begins in the replay region, 5 where it passes 0x1_DFFF (R178, R400). -/
def sideFault (off n : Nat) : Option Nat :=
  if off ≥ 0x1E000 then some 3 else if off + n > 0x1E000 then some 5 else none

/-- The address checks of R178 step 2, the remote side first (DEDUCED, log entry 100); the address of the record with its reason. -/
def copySides (s : State) (st : Strand) (lo hi : Word) : Option (Word × Nat) :=
  let n := 8 * copyLen hi
  match s.space st.core st.ctx lo with
  | .error r => some (lo, r)
  | .ok sp =>
    let remote : Option Nat := match sp with
      | .bank _ off => sideFault off n
      | .slice i off =>
        if off + n ≤ 2 ^ 20 && (List.range ((off + n - 1) / 65536 + 1 - off / 65536)).all fun k =>
          s.grants.contains (st.ctx, i, BitVec.ofNat 4 (off / 65536 + k)) then none else some 4
      | .global _ => none
    match remote with
    | some r => some (lo, r)
    | none => (sideFault (copyLoff hi) n).map fun r => (coordAddr (coreOf (clusterOf st.core) (copyLcore hi)) (copyLoff hi), r)

/-- A remote address in coordinate form, resolved against the issuing core (R91). -/
def fixAddr (s : State) (own : CoreId) (ctx : CtxId) (ea : Word) : Word :=
  match s.space own ctx ea with
  | .ok (.bank c off) => coordAddr c off
  | _ => ea

/-- A counter raised by one (R158). -/
def raiseCounter (s : State) (c : CoreId) (i : BitVec 4) : State :=
  s.modCore c fun x => { x with c := x.c.set i.toFin (x.c[i.toFin] + 1) }

/-- A counter lowered by one; it never falls below zero (R158). -/
def lowerCounter (s : State) (c : CoreId) (i : BitVec 4) : State :=
  s.modCore c fun x => { x with c := x.c.set i.toFin (if x.c[i.toFin] = 0 then 0 else x.c[i.toFin] - 1) }

/-- The copy command that a strand hands to its movement slot (R177, R178). -/
def copyCommand (s : State) (h : Handle) (st : Strand) (lo hi : Word) : Copy :=
  { id := s.fresh, h := h, ctx := st.ctx, launch := st.launch, core := st.core, lo := lo, hi := hi
    level := (s.core st.core).level, xr := (s.core st.core).xr, issued := s.cycle, home := clusterOf st.core, state := 0, done := 0, firmware := false
    epoch := 0, missed := false }

/-- The wait for the copy register and for the counter, and the command handed over (R178 steps 3 and 4). -/
def handCopy (s : State) (h : Handle) (st : Strand) (lo hi : Word) : Res State :=
  if (s.core st.core).copyReg.isSome then .error (.park .copyRegister)
  else if copyKind hi = 0 ∧ (s.core st.core).c[(copyIdx hi).toFin] = BitVec.allOnes 16 then
    .error (.park (.counter (copyIdx hi) 0xFFFE))
  else
    let s1 := s.bump.modCore st.core fun c => { c with copyReg := some (copyCommand s h st lo hi) }
    let s2 := if copyKind hi = 0 then raiseCounter s1 st.core (copyIdx hi) else s1
    retire s2 h (st.record 7 0 lo []) [] none

/-- The other modules on which the windows of a byte range of slice space are homed, each with the address of the range's first byte there (R406). -/
def homesAbroad (s : State) (own : CoreId) (ctx : CtxId) (ea : Word) (n : Nat) : List (BitVec 12 × Word) :=
  match s.space own ctx ea with
  | .ok (.slice i off) => (List.range ((off + n - 1) / 65536 + 1 - off / 65536)).filterMap fun k =>
    ((s.windowHome ctx i ((off / 65536 + k) * 65536)).filter (· != s.position)).map fun m =>
      (m, if k = 0 then ea else ea + BitVec.ofNat 64 (65536 * k - off % 65536))
  | _ => []

/-- The first module on which a range of a copy lies and that no path reaches, with the address of the first byte there (R403). -/
def lostModule (s : State) (st : Strand) (ea : Word) (n : Nat) : Option (BitVec 12 × Word) :=
  (homesAbroad s st.core st.ctx ea n).find? fun x => s.lost x.1

/-- The checks of R178 steps 1 to 3, and of R403. -/
def copyChecks (s : State) (st : Strand) (lo hi : Word) : Option Exc :=
  if copyIllegal lo hi then some (illegal s 7)
  else
    match copySides s st lo hi with
    | some (ea, r) => some (badSpace ea r)
    | none =>
      if lo.toNat % 8 ≠ 0 then some (badAlign lo 8)
      else (lostModule s st lo (8 * copyLen hi)).map fun x => .fault (fabricLost x.1 x.2)

/-- R178: the checks, the wait for the copy register and for the counter, and the command handed to the movement slot. -/
def execCpy (g : Option Guard) (a b : Fin 24) (s : State) : Out :=
  issue g s fun h st => do
    let lo ← gsrc st a
    let hi ← gsrc st b
    recorded st 7 lo (fun _ => retire s h st.replayNext [] none)
      (match copyChecks s st lo hi with
       | some e => .error e
       | none => handCopy s h st lo hi)

/-- R179. -/
def execCwait (g : Option Guard) (c : BitVec 4) (n : BitVec 16) (s : State) : Out :=
  issue g s fun h st =>
    if (s.core st.core).c[c.toFin] ≤ n then retire s h st [] none else .error (.park (.counter c n.toNat))

/-! ### Barrier objects (R180, R181) -/

/-- The `barwait`s parked on a word (R184); those that the full station has refused are not counted (DESIGN CHOICE, log entry 106). -/
def barWaiters (s : State) (l : Loc) : Nat := ((s.place l.place).station.filter fun w => w.kind == 4 && w.key == l.key).length

/-- A valid arrival at a re-initialised object becomes stale (R206). -/
def staleArrivals (s : State) (l : Loc) : State :=
  s.modPlace l.place fun x => { x with arrivals := x.arrivals.map fun e => if e.key == l.key && e.state == 0 then { e with state := 1 } else e }

/-- R181: the object is made or made again. A bad A traps before the address is checked and before any migration (DESIGN CHOICE, log entry 77). -/
def execBarinit (g : Option Guard) (mig : Bool) (a : Reg) (m : Mem) (s : State) : Out :=
  issue g s fun h st => do
    let ea ← effAddr st m
    let x ← src s h st 0 a
    if x.setWidth 16 = (0 : BitVec 16) ∨ x.extractLsb' 16 48 ≠ 0 then .error (illegal s 7)
    else
      recorded st 3 ea (fun _ => retire s h st.replayNext [a] none) do
        let (s1, l) ← locateBank s h st ea .write mig
        (let w := s1.readWord l.key
         let tagged := s1.isTagged l.key
         if tagged && (barArrived w ≠ 0 || barWaiters s1 l ≠ 0) then
           .error (.fault ⟨0x43, ea, [w, BitVec.ofNat 64 (barWaiters s1 l)]⟩)
         else
           let s2 := if tagged then staleArrivals s1 l else s1
           let s3 := { s2.setFull l.key true with tags := addOnce (wordOf l.key) s2.tags }
           let s4 := s3.putTagged l.place l.key (barWord (if tagged then barGen w + 1 else 0) (x.setWidth 16) 0)
           retire (s4.serve l.place l.key) h ((st.orTmask (tmaskBits st.core l)).record 3 0 ea [0]) [a] none)

/-- R181: one arrival, after a release at cluster scope. -/
def execBararv (g : Option Guard) (mig : Bool) (a : Reg) (m : Mem) (s : State) : Out :=
  issue g s fun h st => do
    let ea ← effAddr st m
    recorded st 3 ea (fun r => do let st1 ← fence s st .cluster; retire s h st1.replayNext [] (some (a, r.values.headD 0))) do
      let (s1, l) ← locateBank s h st ea .write mig
      let st1 ← fence s st .cluster
      (let w := s1.readWord l.key
       if !s1.isTagged l.key then .error (.fault (barrierLost ea w 1))
       else
         let s2 := (s1.putTagged l.place l.key (barArrive w)).serve l.place l.key
         retire s2 h ((st1.orTmask (tmaskBits st.core l)).record 3 0 ea [w]) [] (some (a, w)))

/-- R181: the object ends; waits on it fault BARRIER_LOST. -/
def execBarinv (g : Option Guard) (mig : Bool) (m : Mem) (s : State) : Out :=
  issue g s fun h st => do
    let ea ← effAddr st m
    recorded st 3 ea (fun _ => retire s h st.replayNext [] none) do
      let (s1, l) ← locateBank s h st ea .write mig
      (let s2 := s1.store l.place l.key 8 0 true
       retire s2 h ((st.orTmask (tmaskBits st.core l)).record 3 0 ea [0]) [] none)

/-- R181: waits at the bank while the generation is A[15:0]. -/
def execBarwait (g : Option Guard) (mig : Bool) (a : Reg) (m : Mem) (s : State) : Out :=
  issue g s fun h st => do
    let ea ← effAddr st m
    let x ← src s h st 0 a
    recorded st 3 ea (fun _ => retire s h st.replayNext [a] none) do
      let (s1, l) ← locateBank s h st ea .read mig
      (let w := s1.readWord l.key
       if !s1.isTagged l.key then .error (.fault (barrierLost ea w 2))
       else if barGen w ≠ x.setWidth 16 then retire (s1.unlist l.place h) h ((st.orTmask (tmaskBits st.core l)).record 3 0 ea [0]) [a] none
       else
         let p : Pending := { dst := none, pdst := none, sz := .s64, pops := [a], len := s.words, kind := 3, sel := 0, addr := ea
                              tmask := tmaskBits st.core l, reply := none }
         let (s2, taken) := (s.notYet s1 l).enterStation l.place ⟨h, l.key, 4, x, ea⟩
         if taken then .error (.act (parkPending s2 h st (.atPlace l.place) p))
         else .error (.act (park s2 h st (.refused l.place))))

/-! ### Work distributor and launch (R182, R183) -/

/-- The queries that a task has made of a list (R322). -/
def queryCount (st : Strand) (l : BitVec 16) : Nat := Table.get 0 l st.wdqCounts

/-- R182: the answer word is set empty and the query sent. After a wait for room the operands are read again (DESIGN CHOICE, log entry 108). -/
def execWdq (g : Option Guard) (a : Reg) (m : Mem) (s : State) : Out :=
  issue g s fun h st => do
    let ea ← effAddr st m
    let x ← src s h st 0 a
    recorded st 7 ea (fun _ => retire s h st.replayNext [a] none) do
      let (s1, l) ← locateBank s h st ea .read false
      (if (s.core st.core).wdqOpen ≥ 16 then .error (.park .wdqRoom)
       else
         let list : BitVec 16 := x.setWidth 16
         let q : WorkQuery := { h := h, core := st.core, ctx := st.ctx, launch := st.launch, level := st.level, index := st.index
                                list := list.toNat, i := queryCount st list, key := l.key }
         let s2 := ((s1.setFull l.key false).serve l.place l.key).modCore st.core fun c => { c with wdqOpen := c.wdqOpen + 1 }
         let s3 := s2.modDie st.core.die fun d => { d with queries := d.queries ++ [q] }
         let st1 := { st with wdqCounts := Table.put list (q.i + 1) st.wdqCounts }
         retire s3 h ((st1.orTmask (tmaskBits st.core l)).record 7 0 ea []) [a] none)

/-- `n` consecutive 8-byte loads of a strand from an address on (R124, R183, R301, R305, R340). -/
def loadWords (s : State) (h : Handle) (st : Strand) (ea : Word) : Nat → Res (State × List Word)
  | 0 => .ok (s, [])
  | n + 1 => do
    let (s1, l) ← locate s h st ea 8 .read false
    let (s2, t) ← loadWords s1 h st (ea + 8) n
    .ok (s2, s1.readWord l.key :: t)

/-- The strand has touched the places of `n` consecutive words (R88). -/
def touchWords (s : State) (h : Handle) (st : Strand) (ea : Word) : Nat → BitVec 48
  | 0 => 0
  | n + 1 =>
    (match locate s h st ea 8 .read false with
     | .ok (_, l) => tmaskBits st.core l
     | .error _ => 0) ||| touchWords s h st (ea + 8) n

/-- A command queue has room for one packet (R309). -/
def CmdQueue.hasRoom (q : CmdQueue) : Bool := decide ((q.tail - q.head).toNat < q.slots)

/-- R183: the packet image appended to a device-fed queue of the context, after a fence of package scope. The image is read before the fence, which clears what
bits of that read lie in its scope (R88; DESIGN CHOICE, log entry 90). A queue that is not configured gives reason 1 with the image's address (DESIGN CHOICE, log
entry 91). After a wait for room the operands and the image are read again (DESIGN CHOICE, log entry 108). -/
def execLaunch (g : Option Guard) (a : Reg) (m : Mem) (s : State) : Out :=
  issue g s fun h st => do
    let ea ← effAddr st m
    let x ← src s h st 0 a
    let q : BitVec 4 := x.setWidth 4
    if spaceCode ea ≥ 8 then .error (badSpace ea 1)
    else
      recorded st 4 ea (fun _ => do let st1 ← fence s st .pkg; retire s h st1.replayNext [a] none) do
        let (s1, words) ← loadWords s h st ea 8
        let st1 ← fence s (st.orTmask (touchWords s h st ea 8)) .pkg
        (match (s.context? st.ctx).bind fun c => Table.find q c.queues with
         | none => .error (badSpace ea 1)
         | some cq =>
           if !(cq.deviceFed && cq.enabled) then .error (badSpace ea 1)
           else if !cq.hasRoom then .error (.park (.queueRoom q))
           else
             let slot := cq.ring + BitVec.ofNat 64 (64 * (cq.tail.toNat % cq.slots))
             let s2 := s1.deviceWriteWords st.core st.ctx slot words
             let s3 := s2.modContext st.ctx fun c => { c with queues := Table.put q { cq with tail := cq.tail + 1 } c.queues }
             retire s3 h (st1.record 4 0 ea []) [a] none)

end Sys2Proof.Machine
end

