-- ==== Sys2Proof/Machine/Fetch.lean ====
section
/-! DEFINITION. Fetching the words of an instruction (R30, R31, R380, R381): translation with x, the instruction cache of
the cluster, and the decoder of R47. -/

namespace Sys2Proof.Machine

/-- The bytes of one instruction-cache line. -/
def lineBytes : Nat := 64

/-- The cached line of a context at a virtual address (R380). -/
def cachedLine (s : State) (cl : ClusterId) (ctx : CtxId) (va : Nat) : Option ILine :=
  (s.cluster cl).icache.find? fun l => decide (l.ctx = ctx) && l.va == va / lineBytes * lineBytes

/-- The line of a virtual address, filled from memory where the cache does not hold it; the fill is an access of the line's home slice for the context
(R380, R398). -/
def fetchLine (s : State) (cl : ClusterId) (ctx : CtxId) (va pa : Nat) : State × ILine :=
  match cachedLine s cl ctx va with
  | some l => (s, l)
  | none =>
    let l : ILine := ⟨ctx, va / lineBytes * lineBytes, Memory.readBytes s.mem (pa / lineBytes * lineBytes) lineBytes⟩
    ((s.sliceEvents ctx pa ((s.homeOf pa).die != cl.die)).modCluster cl fun c => { c with icache := c.icache ++ [l] }, l)

/-- The word of a line at a virtual address. -/
def lineWord (l : ILine) (va : Nat) : Half := l.bytes.getD (va - l.va + 1) 0 ++ l.bytes.getD (va - l.va) 0

/-- One word fetched at an address: a fetch outside the global space faults BAD_SPACE with reason 1 (R116), the page must
grant x (R381), and a poisoned line faults (R389). -/
def fetchWord (s : State) (h : Handle) (st : Strand) (pc : Word) : Res (State × Half) :=
  match s.space st.core st.ctx pc with
  | .ok (.global va) =>
    match s.translate (clusterOf st.core) st.ctx va .fetch with
    | .absent level => .error (.act (parkXlate s h st pc .fetch level))
    | .poisoned pa => .error (.fault (memError s pc pa))
    | .fault r pte => .error (.fault (xlateInfo pc r .fetch pte))
    | .ok pa pte =>
      if (s.paKind pa).isNone then .error (.fault (xlateInfo pc 4 .fetch pte))
      else if s.isPoisoned pa then .error (.fault (memError s pc pa))
      else
        let (s1, l) := fetchLine (s.keepLeaf (clusterOf st.core) st.ctx va) (clusterOf st.core) st.ctx va pa
        .ok (s1, lineWord l va)
  | _ => .error (badSpace pc 1)

/-- Words are fetched until the decoder has an instruction or an ILLEGAL (R31, R47). -/
def fetchLoop (s : State) (h : Handle) (st : Strand) (ws : List Half) : Nat → Res (State × List Half × Decoded)
  | 0 => .ok (s, ws, .short)
  | n + 1 =>
    match fetchWord s h st (st.r.pc + BitVec.ofNat 64 (2 * ws.length)) with
    | .error e => .error e
    | .ok (s1, w) =>
      match decode (ws ++ [w]) with
      | .short => fetchLoop s1 h st (ws ++ [w]) n
      | d => .ok (s1, ws ++ [w], d)

/-- The instruction at the strand's PC with its words; at an odd PC no word is fetched and ILLEGAL has cause 8 (R30, R168). -/
def fetch (s : State) (h : Handle) (st : Strand) : Res (State × List Half × Instr) :=
  if st.r.pc.getLsbD 0 then .ok (s, [], .unassignedEncoding ⟨8, 0, 0⟩)
  else
    match fetchLoop s h st [] 6 with
    | .error e => .error e
    | .ok (s1, ws, .instr i _) => .ok (s1, ws, i)
    | .ok (s1, ws, .illegal d _) => .ok (s1, ws, .unassignedEncoding d)
    | .ok (s1, ws, .short) => .ok (s1, ws, .unassignedEncoding ⟨1, 0, 0⟩)

/-- The number of words of the instruction at the strand's PC; 0 where none can be fetched (R101). -/
def wordCountAt (s : State) (h : Handle) (st : Strand) : Nat :=
  match fetch s h st with
  | .ok (_, ws, _) => ws.length
  | .error _ => 0

end Sys2Proof.Machine
end

