-- ==== Sys2Proof/Machine/MemInstr.lean ====
section
/-! DEFINITION. Page 0: loads, stores, synchronising accesses, atomics, fences, watches and prefetch (R124-R140). -/

namespace Sys2Proof.Machine

/-- What an access leaves in the strand when it is performed: its tmask bit and its replay record (R88, R391). -/
def Strand.touched (st : Strand) (l : Loc) (kind sel : Nat) (values : List Word) : Strand :=
  (st.orTmask (tmaskBits st.core l)).record kind sel l.ea values

/-- The value that a replay record gives (R392). -/
def Record.value (r : Record) : Word := r.values.headD 0

/-- A load is one that R391 records: of a bank or of slice space, or of a page with shwr, as far as its translation tells (R392; DEDUCED, log entry
115). -/
def loadRecorded (s : State) (st : Strand) (ea : Word) : Bool :=
  match s.space st.core st.ctx ea with
  | .ok (.global va) =>
    match s.translate (clusterOf st.core) st.ctx va .read with
    | .ok _ pte => pteShwr pte
    | _ => false
  | .ok _ => true
  | .error _ => decide (8 ≤ spaceCode ea)

/-- The record that a load is to take its value from in a replay (R391, R392). -/
def loadReplayed (s : State) (st : Strand) (ea : Word) : Res (Option Record) :=
  if st.replay.isSome && loadRecorded s st ea then replayed st 1 ea else .ok none

/-- R125, R126: a load; `.fe` also sets the word empty. -/
def execLd (g : Option Guard) (z : Size) (q : MemQ) (a : Reg) (m : Mem) (s : State) : Out :=
  issue g s fun h st => do
    let ea ← effAddr st m
    match ← loadReplayed s st ea with
    | some r => do
      let st1 ← releaseFence s st q
      retire s h st1.replayNext [] (some (a, extend z r.value.toNat))
    | none =>
      let (s1, l) ← locate s h st ea (sizeBytes z) .read q.mig
      let st1 ← releaseFence s st q
      let v := s1.readN l.key (sizeBytes z)
      let s2 := if q.fe then (s1.setFull l.key false).serve l.place l.key else s1
      let st2 := if l.recorded then st1.touched l 1 z.code.toNat [BitVec.ofNat 64 v] else st1.orTmask (tmaskBits st.core l)
      retire s2 h st2 [] (some (a, extend z v))

/-- R125, R126: a store; `.fe` also sets the word full. -/
def execSt (g : Option Guard) (z : Size) (q : MemQ) (a : Reg) (m : Mem) (s : State) : Out :=
  issue g s fun h st => do
    let ea ← effAddr st m
    let x ← src s h st 0 a
    match ← replayed st 2 ea with
    | some _ => do
      let st1 ← releaseFence s st q
      retire s h st1.replayNext [a] none
    | none =>
      let (s1, l) ← locate s h st ea (sizeBytes z) .write q.mig
      let st1 ← releaseFence s st q
      let s2 := s1.write st l (sizeBytes z) (lowBits z x) q.fe
      retire s2 h (st1.touched l 2 z.code.toNat []) [a] none

/-- A pending access of the issuing instruction. -/
def pendingFor (s : State) (st : Strand) (l : Loc) (dst : Option Reg) (z : Size) (pops : List Reg) (sel : Nat) : Pending :=
  { dst := dst, pdst := none, sz := z, pops := pops, len := s.words, kind := 3, sel := sel, addr := l.ea
    tmask := tmaskBits st.core l, reply := none }

/-- A request that its word does not let pass waits in the station of its place, or is refused (R196, R290); `s0` is the state before it arrived. -/
def waitAt (s0 s : State) (h : Handle) (st : Strand) (l : Loc) (kind : BitVec 3) (value : Word) (p : Pending) : Exc :=
  let (s1, taken) := (s0.notYet s l).enterStation l.place ⟨h, l.key, kind, value, l.ea⟩
  if taken then .act (parkPending s1 h st (.atPlace l.place) p) else .act (park s1 h st (.refused l.place))

/-- A write of a strand to a word that a running sweep covers faults TENSOR_BUSY; `ldf` without `.keep` counts as one (R363). -/
def busyCheck (s : State) (l : Loc) : Res Unit :=
  match s.busyFault l.place l.key 8 l.ea with
  | some f => .error (.fault f)
  | none => .ok ()

/-- R128: waits until the word is full, reads it, and empties it unless `.keep`. -/
def execLdf (g : Option Guard) (z : Size) (q : MemQ) (a : Reg) (m : Mem) (s : State) : Out :=
  issue g s fun h st => do
    let ea ← effAddr st m
    match ← replayed st 3 ea with
    | some r => retire s h st.replayNext [] (some (a, r.value))
    | none =>
      let (s1, l) ← locate s h st ea 8 .read q.mig
      (if q.keep then .ok () else busyCheck s1 l : Res Unit)
      if s1.isFull l.key then
        let v := s1.readWord l.key
        let s2 := s1.unlist l.place h
        let s3 := if q.keep then s2 else (s2.setFull l.key false).serve l.place l.key
        retire s3 h (st.touched l 3 z.code.toNat [v]) [] (some (a, v))
      else .error (waitAt s s1 h st l (if q.keep then 1 else 0) 0 (pendingFor s st l (some a) z [] z.code.toNat))

/-- The strand performs the release fence of `stf` at its scope (R128). -/
def stfFence (s : State) (st : Strand) (q : MemQ) : Res Strand := fence s st q.scope

/-- R128: the release fence, then waits until the word is empty, writes it and sets it full. The tmask bits that the fence has cleared stay cleared where the
access then waits and is withdrawn or faults (DESIGN CHOICE, log entry 104). -/
def execStf (g : Option Guard) (z : Size) (q : MemQ) (a : Reg) (m : Mem) (s : State) : Out :=
  issue g s fun h st => do
    let ea ← effAddr st m
    let x ← src s h st 0 a
    match ← replayed st 3 ea with
    | some _ => do
      let st1 ← stfFence s st q
      retire s h st1.replayNext [a] none
    | none =>
      let (s1, l) ← locate s h st ea 8 .write q.mig
      let st1 ← stfFence s st q
      if s1.isFull l.key then .error (waitAt s s1 h st1 l 2 x (pendingFor s st l none z [a] z.code.toNat))
      else
        let s2 := (s1.unlist l.place h).write st l 8 x.toNat true
        retire s2 h (st1.touched l 3 z.code.toNat [0]) [a] none

/-- An atomic applied as one step at its place (R132, R135, R197, R292): the old bytes give the new ones, or none where
nothing is written, and the flags. -/
def atomicStep (s : State) (st : Strand) (l : Loc) (n : Nat) (f : Nat → Option Nat × Flags) : State × Nat × Flags :=
  let old := s.readN l.key n
  match f old with
  | (some v, fl) => (s.write st l n v false, old, fl)
  | (none, fl) => (s, old, fl)

/-- An integer operation code of an atomic at a size (R132): 0 swap, 1 add, 2 and, 3 or, 4 xor, 5 min, 6 max. -/
def amoWord (op : BitVec 4) (z : Size) (old x : Word) : Word :=
  match op.toNat with
  | 0 => x
  | 1 => extend z (old.toNat + x.toNat)
  | 2 => old &&& x
  | 3 => old ||| x
  | 4 => old ^^^ x
  | 5 => extendInt z (min (sizedInt z old) (sizedInt z x))
  | _ => extendInt z (max (sizedInt z old) (sizedInt z x))

/-- The floating-point format of an atomic at a size. -/
def amoFmt (z : Size) : FFmt := if sizeBits z = 64 then .f64 else .f32

/-- An atomic's new bytes from the old ones and its operand, with its flags (R132, R133): code 7 is fadd, with one RNE rounding. -/
def amoValue (op : BitVec 4) (z : Size) (old : Nat) (x : Word) : Nat × Flags :=
  if op = 7 then (amoFmt z).add .rne old (lowBits z x) else (lowBits z (amoWord op z (BitVec.ofNat 64 old) x), {})

/-- The common part of the atomics (R132): `x` is the operand, `srcs` the sources popped, `ext` the extension of the previous value. The
schedule may leave a reduce packet `red` in the outbound queue of the cluster's router (R292, R293; DESIGN CHOICE, log entry 2; DEDUCED, log entry 54). -/
def amoBody (s : State) (h : Handle) (st : Strand) (q : MemQ) (a : Reg) (ea : Word) (n sel : Nat) (kind : AccessKind) (srcs : List Reg)
    (ext : Nat → Word) (red : Option (BitVec 4 × Size × Word)) (f : Nat → Option Nat × Flags) : Res State := do
  match ← replayed st 3 ea with
  | some r => do
    let st1 ← releaseFence s st q
    retire s h st1.replayNext srcs (some (a, ext r.value.toNat))
  | none =>
    let (s1, l) ← locate s h st ea n kind q.mig
    let st1 ← releaseFence s st q
    match l.place, red, s.picks.headD 0 with
    | .slice _, some (op, z, x), 1 =>
      let p : ReducePacket := { ctx := st.ctx, place := l.place, key := l.key, op := op, size := z
                                plain := decide (q.ord = .plain) && levelOf s st == 0, parts := .one h x }
      let s2 := s1.modCluster (clusterOf st.core) fun c => { c with outbox := c.outbox ++ [p] }
      .error (.act (parkPending s2 h st1 (.atPlace l.place) (pendingFor s st l (some a) z srcs sel)))
    | _, _, _ =>
      let (s2, old, fl) := atomicStep s1 st l n f
      retire s2 h ((st1.touched l 3 sel [BitVec.ofNat 64 old]).orFp fl) srcs (some (a, ext old))

/-- An integer `amo` (R132): the new value from the old value and the operand, both at the size. -/
def amoInt (g : Option Guard) (z : Size) (q : MemQ) (a : Reg) (b : Fin 24) (c : Reg) (op : BitVec 4) (s : State) : Out :=
  issue g s fun h st => do
    let ea ← gsrc st b
    let x ← src s h st 1 c
    amoBody s h st q a ea (sizeBytes z) z.code.toNat .write [c] (extend z) (if op = 0 then none else some (op, z, x)) fun old =>
      (some (amoValue op z old x).1, {})

def execAmoSwap (g : Option Guard) (z : Size) (q : MemQ) (a : Reg) (b : Fin 24) (c : Reg) (s : State) : Out := amoInt g z q a b c 0 s
def execAmoAdd (g : Option Guard) (z : Size) (q : MemQ) (a : Reg) (b : Fin 24) (c : Reg) (s : State) : Out := amoInt g z q a b c 1 s
def execAmoAnd (g : Option Guard) (z : Size) (q : MemQ) (a : Reg) (b : Fin 24) (c : Reg) (s : State) : Out := amoInt g z q a b c 2 s
def execAmoOr (g : Option Guard) (z : Size) (q : MemQ) (a : Reg) (b : Fin 24) (c : Reg) (s : State) : Out := amoInt g z q a b c 3 s
def execAmoXor (g : Option Guard) (z : Size) (q : MemQ) (a : Reg) (b : Fin 24) (c : Reg) (s : State) : Out := amoInt g z q a b c 4 s
def execAmoMin (g : Option Guard) (z : Size) (q : MemQ) (a : Reg) (b : Fin 24) (c : Reg) (s : State) : Out := amoInt g z q a b c 5 s
def execAmoMax (g : Option Guard) (z : Size) (q : MemQ) (a : Reg) (b : Fin 24) (c : Reg) (s : State) : Out := amoInt g z q a b c 6 s

/-- The bytes of a scalar floating-point format (R119). -/
def fsizeBytes : FSize → Nat
  | .f64 => 8
  | .f32 => 4

/-- The size under which a floating-point reply is kept: no sign extension (R119). -/
def fsizeSize : FSize → Size
  | .f64 => .n64
  | .f32 => .n32

/-- R132, R133: one RNE rounding, no SUBNORMAL trap; at levels 1 and 2 it traps ILLEGAL with cause 7. -/
def execAmoFadd (g : Option Guard) (f : FSize) (q : MemQ) (a : Reg) (b : Fin 24) (c : Reg) (s : State) : Out :=
  issue g s fun h st => do
    if levelOf s st ≠ 0 then .error (illegal s 7)
    else
      let ea ← gsrc st b
      let x ← src s h st 1 c
      let z := fsizeSize f
      amoBody s h st q a ea (fsizeBytes f) f.code.toNat .write [c] (BitVec.ofNat 64) (some (7, z, x)) fun old =>
        let r := amoValue 7 z old x
        (some r.1, r.2)

/-- SEQ_RANGE (R213). -/
def seqRange (ea : Word) (num next : BitVec 16) (reason : Nat) : Exc :=
  .fault ⟨0x47, ea, [BitVec.ofNat 64 (num.toNat + 65536 * next.toNat), BitVec.ofNat 64 reason]⟩

/-- The sequence table after an addition has found or taken its entry; a fault where it may not (R198). With a full table, which has no entry for the word, the
fault gives 0 for its next number (DEDUCED, log entry 101). -/
def seqEntry (s : State) (l : Loc) (f : FSize) (num : BitVec 16) : Res (State × SeqEntry) :=
  let x := s.place l.place
  match x.seq.find? fun e => wordOf e.key == wordOf l.key with
  | some e =>
    if e.key = l.key ∧ e.f64 = (f == .f64) then .ok (s, e) else .error (seqRange l.ea num e.next 2)
  | none =>
    if x.seq.length ≥ seqCap l.place then .error (seqRange l.ea num 0 3)
    else
      let e : SeqEntry := ⟨l.key, f == .f64, 0, []⟩
      .ok (s.modPlace l.place fun y => { y with seq := y.seq ++ [e] }, e)

/-- The entry of a sequence table changed (R199). -/
def modSeq (s : State) (l : Loc) (g : SeqEntry → SeqEntry) : State :=
  s.modPlace l.place fun x => { x with seq := x.seq.map fun e => if e.key == l.key then g e else e }

/-- R134, R199: the addition applied in sequence, held, refused, or a duplicate. -/
def execAmoFaddSeq (g : Option Guard) (f : FSize) (q : MemQ) (a : Reg) (b : Fin 24) (c : Reg) (s : State) : Out :=
  issue g s fun h st => do
    let ea ← gsrc st b
    let x ← src s h st 1 c
    let n ← src s h st 2 a
    let num := n.setWidth 16
    match ← replayed st 3 ea with
    | some r => do
      let st1 ← releaseFence s st q
      retire s h st1.replayNext [c, a] (some (a, r.value))
    | none =>
      let (s1, l) ← locate s h st ea (fsizeBytes f) .write q.mig
      let st1 ← releaseFence s st q
      let (s2, e) ← seqEntry s1 l f num
      let d := (num - e.next).toNat
      if d ≥ 32768 ∨ e.held.any (fun x => x.number == num) then .error (seqRange ea num e.next 1)
      else if d = 0 then
        let (s3, r) := s2.applyAdd l.place l.key (f == .f64) x
        let s4 := (modSeq s3 l fun e => { e with next := e.next + 1 }).applyHeld l.place l.key (f == .f64) 8
        retire (s4.dirty l.key st.ctx) h ((st1.touched l 3 f.code.toNat [r.value]).orFlags r.sflags) [c, a] (some (a, r.value))
      else if d ≤ 8 then
        let s3 := modSeq (s.notYet s2 l) l fun e => { e with held := e.held ++ [⟨h, num, x, ea⟩] }
        .error (.act (parkPending s3 h st1 (.atPlace l.place)
          (pendingFor s st l (some a) (fsizeSize f) [c, a] f.code.toNat)))
      else .error (.act (park (s.notYet s2 l) h st1 (.refused l.place)))

/-- What a `cas` is to the checks of its place: a write, but a read of a bank word that differs from A, as a failed `cas` is no write (R135, R363). -/
def casKind (s : State) (h : Handle) (st : Strand) (q : MemQ) (ea : Word) (n expected : Nat) : AccessKind :=
  match locate s h st ea n .read q.mig with
  | .ok (s1, l) => match l.place with
    | .bank _ => if s1.readN l.key n = expected then .write else .read
    | _ => .write
  | .error _ => .write

/-- R135: compares with A and writes C where they are equal. -/
def execCas (g : Option Guard) (z : Size) (q : MemQ) (a : Reg) (b : Fin 24) (c : Reg) (s : State) : Out :=
  issue g s fun h st => do
    let ea ← gsrc st b
    let x ← src s h st 1 c
    let y ← src s h st 2 a
    amoBody s h st q a ea (sizeBytes z) z.code.toNat (casKind s h st q ea (sizeBytes z) (lowBits z y)) [c, a] (extend z) none fun old =>
      (if old = lowBits z y then some (lowBits z x) else none, {})

/-- R136, R137. -/
def execFence (g : Option Guard) (scope : Scope) (s : State) : Out :=
  issue g s fun h st => do
    let st1 ← fence s st scope
    retire s h st1 [] none

/-- R138: answered at once where the word differs from A, else entered in the watch table of its place. -/
def execWaita (g : Option Guard) (z : Size) (q : MemQ) (a : Reg) (m : Mem) (s : State) : Out :=
  issue g s fun h st => do
    let ea ← effAddr st m
    let x ← src s h st 0 a
    match ← replayed st 3 ea with
    | some r => retire s h st.replayNext [a] (some (a, extend z r.value.toNat))
    | none =>
      let (s1, l) ← locate s h st ea (sizeBytes z) .read q.mig
      let v := s1.readN l.key (sizeBytes z)
      if v ≠ lowBits z x then retire s1 h (st.touched l 3 z.code.toNat [BitVec.ofNat 64 v]) [a] (some (a, extend z v))
      else
        let s2 := (s.notYet s1 l).addWatch l.place ⟨h, l.key, sizeBytes z, ea⟩
        .error (.act (parkPending s2 h st (.atPlace l.place) (pendingFor s st l (some a) z [a] z.code.toNat)))

/-- R140: acknowledged before the line is fetched; no fault, no tmask bit. It charges no slice access, line or flit (DESIGN CHOICE, log entry 96). -/
def execPref (g : Option Guard) (m : Mem) (s : State) : Out :=
  issue g s fun h st => do
    let _ ← effAddr st m
    retire s h st [] none

end Sys2Proof.Machine
end

