-- ==== Sys2Proof/Machine/Delivery.lean ====
section
/-! DEFINITION. What reaches a parked strand: replies (R124), reduce packets and waiting requests (R160, R196, R293), retries (R196,
R285), fence probes (R137, R394), send timeouts (R152), message offers (R151, R291, R374), migration packets (R97) and fills (R175). -/

namespace Sys2Proof.Machine

/-! ### Replies (R124, R130) -/

/-- The replay record of a served request (R391): a send records whether it was accepted. -/
def Strand.recordReply (st : Strand) (p : Pending) (v : Word) : Strand :=
  if p.kind = 0 then st
  else if p.kind = 4 then st.record 4 (if p.pdst.isSome && v != 0 then 1 else 0) p.addr []
  else st.record p.kind p.sel p.addr [v]

/-- The strand with what a reply gives it besides its general destination: the predicate, the flags, the tmask bits, the record. -/
def Strand.takeReply (st : Strand) (p : Pending) (y : Reply) : Strand :=
  let st1 := match p.pdst with
    | some q => st.setP q (y.value != 0)
    | none => st
  ((st1.orFlags y.sflags).orTmask p.tmask).recordReply p y.value

/-- The commit of an access at its reply, or its fault (R124); a destination queue that is full keeps it waiting (R145). It pops what stands at the head of
its source queues at the commit, also where `qctl` has discarded a queue since the access read it (DESIGN CHOICE, log entry 76). -/
def commitReply (s : State) (h : Handle) (st : Strand) (p : Pending) (r : Reply ⊕ FaultInfo) : State :=
  match r with
  | .inr f => freezeAt s h st f st.r.pc (2 * p.len) none
  | .inl y =>
    let dst := p.dst.map fun d => (d, extend p.sz y.value.toNat)
    match hasRoom (s.core st.core) h p.pops dst with
    | some q => park s h st (.queueWrite q (popsOf q p.pops))
    | none => commitAt s h (st.takeReply p y) p.pops dst (st.r.pc + BitVec.ofNat 64 (2 * p.len))

/-- The reply that a strand's access has and has not committed. -/
def Strand.reply? (st : Strand) : Option (Pending × (Reply ⊕ FaultInfo)) := st.pending.bind fun p => p.reply.map fun r => (p, r)

/-- ACCESS_REPLY (R124): the access of a parked strand commits. -/
def execAccessReply (h : Handle) (s : State) : Out :=
  match s.strand? h with
  | none => .next s
  | some st =>
    match st.reply? with
    | some (p, r) => .next (commitReply s h st p r)
    | none => .next s

/-- A strand that no longer waits is ready; one that does not wait keeps its status. -/
def Status.unparked : Status → Status
  | .parked _ => .ready
  | x => x

/-- An access of a strand that leaves rotation: performed, it commits; unperformed, it is withdrawn and will be issued again (R130). None
where its commit waits for a full queue (R145). -/
def settle (s : State) (h : Handle) (st : Strand) : Option State :=
  match st.reply? with
  | some (p, r) =>
    let s1 := commitReply s h st p r
    if (s1.strand? h).any fun x => x.reply?.isSome then none else some s1
  | none => some ((leaveWaits s h st).setStrand h { st with pending := none, sending := none, kept := none, status := st.status.unparked })

/-! ### Reduce packets and waiting requests (R160, R196, R292, R293) -/

/-- The operand of a reduce packet, with the flags of its roundings (R293). -/
def Reducers.operand (op : BitVec 4) (z : Size) : Reducers → Nat × Flags
  | .one _ v => (lowBits z v, {})
  | .two a b =>
    let (x, f) := a.operand op z
    let (y, g) := b.operand op z
    let (v, k) := amoValue op z x (BitVec.ofNat 64 y)
    (v, (f.or g).or k)

/-- The replies of a reduce packet whose word held `old`, with the flags of the roundings that split them (R293). -/
def Reducers.replies (op : BitVec 4) (z : Size) (old : Nat) : Reducers → List (Handle × Nat) × Flags
  | .one h _ => ([(h, old)], {})
  | .two a b =>
    let (l, f) := a.replies op z old
    let (v, g) := amoValue op z old (BitVec.ofNat 64 (a.operand op z).1)
    let (m, k) := b.replies op z v
    (l ++ m, (f.or g).or k)

/-- A strand stands among the reducers of a packet. -/
def Reducers.names (h : Handle) : Reducers → Bool
  | .one h' _ => h' == h
  | .two a b => a.names h || b.names h

/-- A reduce packet performed at its place: one step on the word, and every reply with the flags of every rounding (R292, R293). -/
def performPacket (s : State) (p : ReducePacket) : State :=
  let old := s.readN p.key (sizeBytes p.size)
  let (x, f) := p.parts.operand p.op p.size
  let (v, g) := amoValue p.op p.size old (BitVec.ofNat 64 x)
  let (l, k) := p.parts.replies p.op p.size old
  let fl := (f.or g).or k
  let s1 := (s.store p.place p.key (sizeBytes p.size) v false).dirty p.key p.ctx
  l.foldl (fun s e => s.deliver e.1 (.inl ⟨BitVec.ofNat 64 e.2, fl.bits⟩)) s1

/-- Two packets may be combined (R293). -/
def ReducePacket.matches (p q : ReducePacket) : Bool :=
  p.plain && q.plain && p.place == q.place && p.key == q.key && p.op == q.op && p.size == q.size

/-- A packet combined with the first later packet that matches it, whose position it takes (R293). -/
def combineIn (p : ReducePacket) : List ReducePacket → List ReducePacket
  | [] => []
  | q :: t => if p.matches q then { q with parts := .two p.parts q.parts } :: t else q :: combineIn p t

/-- The outbound queue of a cluster changed. -/
def setOutbox (s : State) (c : ClusterId) (l : List ReducePacket) : State := s.modCluster c fun x => { x with outbox := l }

/-- The reduce packet of a strand leaves the queue of its router: combined with a later one where the schedule says so and one matches, else
performed in the order of its place (R292, R293; DESIGN CHOICE, log entry 2). -/
def advancePacket (s : State) (c : ClusterId) (h : Handle) : State :=
  let l := (s.cluster c).outbox
  let before := l.takeWhile fun p => !p.parts.names h
  match l.drop before.length with
  | [] => s
  | p :: after =>
    if s.picks.headD 0 = 1 ∧ after.any p.matches then setOutbox s c (before ++ combineIn p after)
    else if before.any fun q => q.place == p.place then s
    else performPacket (setOutbox s c (before ++ after)) p

/-- ACCESS_PERFORM (R160): the place of a parked strand's access performs it, once its word admits it. -/
def execAccessPerform (h : Handle) (s : State) : Out :=
  match s.strand? h with
  | none => .next s
  | some st =>
    match st.status with
    | .parked (.atPlace p) =>
      match (s.place p).station.find? fun w => decide (w.h = h) with
      | some w => .next (s.serve p w.key)
      | none => .next (advancePacket s (clusterOf st.core) h)
    | _ => .next s

/-! ### Retries and probes (R151, R196, R285, R394) -/

/-- A wait that ends with a retry of a refused request (R151, R196, R291). -/
def Wait.retries : Wait → Bool
  | .refused _ | .mailboxRoom .. | .relayRoom _ => true
  | _ => false

/-- The strand goes back into rotation and issues its instruction again (R52). -/
def rejoin (s : State) (h : Handle) : State := s.modStrand h fun st => { st with status := .ready }

/-- REQUEST_RETRY (R196, R285): a refused request is sent again. -/
def execRequestRetry (h : Handle) (s : State) : Out :=
  match s.strand? h with
  | none => .next s
  | some st =>
    match st.status with
    | .parked w => if w.retries then .next (rejoin s h) else .next s
    | _ => .next s

/-- FENCE_PROBE (R394): every home slice writes back the dirty CXL lines of the strand's context, and the probe returns. -/
def execFenceProbe (h : Handle) (s : State) : Out :=
  match s.strand? h with
  | none => .next s
  | some st =>
    if st.status = .parked .fence then
      .next (rejoin { s with cxlDirty := s.cxlDirty.filter fun l => !decide (l.2 = st.ctx) } h)
    else .next s

/-! ### Messages (R151, R152, R291, R374) -/

/-- A trap at an instruction of `count` words at the strand's PC; with the in-trap bit set it faults DOUBLE_TRAP (R101, R102). -/
def trapOrFreeze (s : State) (h : Handle) (st : Strand) (count : Nat) (t : TrapInfo) : State :=
  if st.r.inTrap then freezeAt s h st (doubleTrap t) st.r.pc (2 * count) none else trapAt s h st count t

/-- SEND_TIMEOUT (R152): a blocking send that has waited longer than its limit since its first refusal traps uncommitted. -/
def execSendTimeout (h : Handle) (s : State) : Out :=
  match s.strand? h with
  | none => .next s
  | some st =>
    match st.status, st.sending with
    | .parked w, some x =>
      if (w.retries || st.pending.any fun p => p.kind == 4 && p.reply.isNone) && sendExpired s st.ctx x then
        .next (trapOrFreeze s h st x.len (sendTimeoutInfo x))
      else .next s
    | _, _ => .next s

/-- An offer leaves the module. -/
def dropOffer (s : State) (id : Nat) : State := { s with offers := s.offers.filter fun o => o.id != id }

/-- MESSAGE_OFFER (R151): an engine offers its message to the mailbox of its core, and holds it while it is refused. -/
def execMessageOffer (id : Nat) (s : State) : Out :=
  match s.offers.find? fun o => o.id == id && o.path.isEmpty with
  | none => .next s
  | some o =>
    if accepts s o.core o.msg.mbox o.sender then .next (accept (dropOffer s id) o.core o.sender o.msg)
    else .next (refuse s o.core o.msg.mbox o.sender)

/-- The answer to an offer that came through relay slices reaches its sender: a refused blocking send is sent again or waits (R152, R164). -/
def answerOffer (s : State) (o : Offer) (accepted : Bool) (at_ : Wait) : State :=
  match o.sender with
  | .engine _ => s
  | .strand h =>
    if accepted then s.answer h 1
    else if !o.blocking then s.answer h 0
    else s.modStrand h fun st =>
      { st with pending := none, status := .parked at_, sending := st.sending.map fun x => x.refused s.cycle }

/-- The sender of an offer still waits within its limit (R152). -/
def inTime (s : State) (o : Offer) : Bool :=
  match o.sender with
  | .engine _ => true
  | .strand h => (s.strand? h).all fun st => !o.blocking || (sendOver s st).isNone

/-- The flits that carry an offer over the ring, from the relay slice of one die to that of another, for the context of its sender (R374, R398). -/
def countHop (s : State) (o : Offer) (i j : SliceId) : State :=
  let own := match o.sender with
    | .strand h => (s.strand? h).map Strand.ctx
    | .engine _ => none
  match own with
  | some ctx => if i.die = j.die then s else s.charge ctx 6 (Config.flitEvents s.cycle (sliceAddr j 0).toNat)
  | none => s

/-- RELAY_OFFER (R291, R374): a relay slice forwards an offer to the next relay slice or to its target core, whose answer returns the same
way; a blocking send whose limit is over is not accepted (R152). -/
def execRelayOffer (id : Nat) (s : State) : Out :=
  match s.offers.find? fun o => o.id == id with
  | none => .next s
  | some o =>
    match o.path with
    | [] => .next s
    | [i] =>
      let s1 := dropOffer (leaveRelay s i id) id
      if accepts s o.core o.msg.mbox o.sender && inTime s o then .next (answerOffer (accept s1 o.core o.sender o.msg) o true .reply)
      else
        let s2 := if o.blocking then refuse s1 o.core o.msg.mbox o.sender else s1
        .next (answerOffer s2 o false (.mailboxRoom o.core o.msg.mbox))
    | i :: j :: t =>
      if relayRoom s j then
        let s1 := enterRelay (leaveRelay (countHop s o i j) i id) j id
        .next { s1 with offers := s1.offers.map fun x => if x.id == id then { x with path := j :: t } else x }
      else .next (answerOffer (dropOffer (leaveRelay s i id) id) o false (.relayRoom j))

/-! ### Migration packets and fills (R97, R175) -/

/-- MIGRATION_PACKET (R97, R143): the movement slot sends the packet of a strand that migrates, or sends a refused one again. -/
def execMigrationPacket (h : Handle) (s : State) : Out :=
  match s.strand? h with
  | none => .next s
  | some st =>
    match st.status with
    | .parked (.inbox c) => .next (sendPacket s h st c)
    | _ => .next s

/-- The next record of a task in replay is a fill that it received (R391). -/
def Strand.fillDue (st : Strand) : Option Record := (st.replay.bind fun k => st.records[k]?).filter fun r => r.kind == 6

/-- The fill at the present place of a replay takes effect again (R391, R392). -/
def Strand.refill (st : Strand) : Strand :=
  match st.fillDue with
  | some r => (st.setG (Fin.ofNat 24 r.sel) (r.values.headD 0)).replayNext
  | none => st

/-- FILL_APPLY (R175, R391): fills that waited for a task in a packet take effect, in their order; in a replay the fill recorded at its present
place takes effect again (DEDUCED, log entry 15). -/
def execFillApply (h : Handle) (s : State) : Out :=
  .next (s.modStrand h fun st =>
    match st.status with
    | .packet _ => st
    | _ => (st.fills.foldl (fun t e => fillInto t e.1 e.2) { st with fills := [] }).refill)

end Sys2Proof.Machine
end

