-- ==== Sys2Proof/Machine/Convert.lean ====
section
/-! DEFINITION. Draws of the stochastic mode (R72), conversions between element types at their limits (R76), and
microscaling blocks (R64-R66). -/

namespace Sys2Proof.Machine

/-- One round of the draw function (R72). -/
def drawRound (x k : Word) (i : Nat) : Word :=
  let y := (x ^^^ (k + BitVec.ofNat 64 (i + 1) * 0x9E3779B97F4A7C15#64)) * 0xD1B54A32D192ED03#64
  y ^^^ (y >>> 29)

/-- The rounds of the draw function from number `i` on (R72). -/
def drawLoop (x k : Word) (i : Nat) : Nat → Word
  | 0 => x
  | n + 1 => drawLoop (drawRound x k i) (k.rotateLeft 23) (i + 1) n

/-- The draw of seed S, stream T and counter C (R72). -/
def draw (seed : Word) (stream : BitVec 32) (counter : Word) : BitVec 32 :=
  let x := drawLoop counter (seed + stream.setWidth 64 * 0x9FB21C651E98DF25#64) 0 8
  x.extractLsb' 32 32 ^^^ x.extractLsb' 0 32

/-- A type is one of the six microscaling types (R64). -/
def isMx : EType → Bool
  | .mx4 | .mx6a | .mx6b | .mx8a | .mx8b | .mxi8 => true
  | _ => false

/-- The column emax of R64. -/
def mxEmax : EType → Int
  | .mx4 | .mx6a => 2
  | .mx6b => 4
  | .mx8a => 8
  | .mx8b => 15
  | _ => 0

/-- The value times a power of two. -/
def FVal.scale (v : FVal) (k : Int) : FVal :=
  match v with
  | .fin n m e => .fin n m (e + k)
  | x => x

/-- The value of a microscaling element without its scale (R64). -/
def mxElement (xr : Bool) (t : EType) (code : Nat) : FVal :=
  match etypeFmt xr t with
  | some f => f.value code
  | none => (FVal.ofInt (intOfBits true 8 code)).scale (-6)

/-- The value of a microscaling element under its scale byte (R65). -/
def mxValue (xr : Bool) (t : EType) (code scale : Nat) : FVal :=
  if scale % 256 = 255 then .nan false else (mxElement xr t code).scale ((scale % 256 : Nat) - 127)

/-- The value of an element of a type other than a microscaling one. -/
def elementValue (xr : Bool) (t : EType) (bits : Nat) : FVal :=
  match etypeFmt xr t with
  | some f => f.value (bits % 2 ^ (f.signPos + 1))
  | none =>
    match etypeInt t with
    | some (signed, n) => FVal.ofInt (intOfBits signed n bits)
    | none => .fin false 0 0

/-- An exact value delivered in an element type other than a microscaling one, as the code of that type (R76). -/
def elementOf (xr : Bool) (t : EType) (rm : Rm) (r : BitVec 32) (v : FVal) : FRes :=
  match etypeFmt xr t with
  | some f => f.ofVal rm r v
  | none =>
    match etypeInt t with
    | some (signed, n) => let x := intOfVal signed n rm r v; (bitsOfInt n x.1, x.2)
    | none => (0, {})

/-- The magnitude m · 2^e of a finite value is above another. -/
def magLt (m1 : Nat) (e1 : Int) (m2 : Nat) (e2 : Int) : Bool :=
  let q := min e1 e2
  decide (m1 * 2 ^ (e1 - q).toNat < m2 * 2 ^ (e2 - q).toNat)

/-- The largest magnitude of a list of values, as m and e; zero for an empty list (R66). -/
def amaxOf : List FVal → Nat × Int
  | [] => (0, 0)
  | .fin _ m e :: t => let (m', e') := amaxOf t; if magLt m' e' m e then (m, e) else (m', e')
  | _ :: t => amaxOf t

/-- A NaN or an infinity. -/
def FVal.special : FVal → Bool
  | .fin .. => false
  | _ => true

/-- The scale exponent E of a block of largest magnitude m · 2^e (R66). -/
def mxExponent (t : EType) (m : Nat) (e : Int) : Int :=
  max (-127) (min 127 ((Nat.log2 m : Int) + e - mxEmax t))

/-- One value in a microscaling element format (R66); an INT8 element that saturates sets overflow and inexact like the others (DEDUCED, log entry 38). -/
def mxRound (xr : Bool) (t : EType) (rm : Rm) (r : BitVec 32) (v : FVal) : FRes :=
  match etypeFmt xr t with
  | some f => f.ofVal rm r v
  | none =>
    let x := intOfVal true 8 rm r (v.scale 6)
    (bitsOfInt 8 x.1, if x.2.invalid then { overflow := true, inexact := true } else x.2)

/-- The conversion of values with their draws under a scale exponent. -/
def mxRoundAll (xr : Bool) (t : EType) (rm : Rm) (E : Int) : List (FVal × BitVec 32) → List Nat × Flags
  | [] => ([], {})
  | (v, r) :: l =>
    let x := mxRound xr t rm r (v.scale (-E))
    let y := mxRoundAll xr t rm E l
    (x.1 :: y.1, x.2.or y.2)

/-- A block of values with their draws as its scale byte and its elements (R66). -/
def mxBlock (xr : Bool) (t : EType) (rm : Rm) (vs : List (FVal × BitVec 32)) : Nat × List Nat × Flags :=
  if vs.any fun x => x.1.special then (0xFF, vs.map fun _ => 0, { invalid := true })
  else
    let (m, e) := amaxOf (vs.map (·.1))
    if m = 0 then (0, vs.map fun _ => 0, {})
    else
      let E := mxExponent t m e
      let y := mxRoundAll xr t rm E vs
      ((E + 127).toNat, y.1, y.2)

/-! ### px8 blocks (R59-R62) -/

/-- The codeword of an offset in a code table, first bit first; none where only the escape carries it (R60). -/
def px8Word (table off : Nat) : Option (List Bool) :=
  match table, off with
  | 0, 0 => some [false]
  | 0, 1 => some [true, false]
  | 0, 2 => some [true, true, false]
  | 0, 3 => some [true, true, true, false]
  | 1, 0 => some [true, true, false, false]
  | 1, 1 => some [true, false, false]
  | 1, 2 => some [false, false]
  | 1, 3 => some [false, true]
  | 1, 4 => some [true, false, true]
  | 1, 5 => some [true, true, false, true]
  | 1, 6 => some [true, true, true, false]
  | 2, n => if n < 7 then some [n.testBit 2, n.testBit 1, n.testBit 0] else none
  | 3, n => if n < 15 then some [n.testBit 3, n.testBit 2, n.testBit 1, n.testBit 0] else none
  | _, _ => none

/-- The escape codeword of a table (R60). -/
def px8Escape (table : Nat) : List Bool := if table = 2 then [true, true, true] else [true, true, true, true]

/-- The shortest token of an offset (R60, R62). -/
def px8Token (table off : Nat) : List Bool :=
  (px8Word table off).getD (px8Escape table ++ [off.testBit 3, off.testBit 2, off.testBit 1, off.testBit 0])

/-- The bits of a number, the lowest first. -/
def bitsLow (x : Nat) : Nat → List Bool
  | 0 => []
  | n + 1 => x.testBit 0 :: bitsLow (x / 2) n

/-- The number of a list of bits, the lowest first. -/
def ofBitsLow : List Bool → Nat
  | [] => 0
  | b :: t => (if b then 1 else 0) + 2 * ofBitsLow t

/-- The number of a list of bits, the highest first. -/
def ofBitsHigh (l : List Bool) : Nat := l.foldl (fun n b => 2 * n + if b then 1 else 0) 0

/-- The tokens of a block of E4M3 codes in a table. -/
def px8Tokens (table base : Nat) (codes : List Nat) : List Bool :=
  codes.flatMap fun c => px8Token table (c / 8 % 16 - base)

/-- The length of a block in halfwords: 134 bits and its tokens, rounded up (R59). -/
def px8Halfwords (table base : Nat) (codes : List Nat) : Nat := (134 + (px8Tokens table base codes).length + 15) / 16

/-- The table that gives the shortest block, the lowest-numbered among equals (R62). -/
def px8Table (base : Nat) (codes : List Nat) : Nat :=
  [1, 2, 3].foldl (fun best t => if px8Halfwords t base codes < px8Halfwords best base codes then t else best) 0

/-- The bit string of a block of 32 E4M3 codes, padded to whole halfwords (R59, R62). -/
def px8Encode (codes : List Nat) : List Bool :=
  let base := codes.foldl (fun b c => min b (c / 8 % 16)) 15
  let table := px8Table base codes
  let body := bitsLow table 2 ++ bitsLow base 4 ++ (codes.flatMap fun c => bitsLow (c % 8) 3 ++ [c.testBit 7]) ++ px8Tokens table base codes
  body ++ List.replicate ((16 - body.length % 16) % 16) false

/-- Bit string to bytes, the lowest bit first (R59). -/
def bytesOfBits : Nat → List Bool → List Byte
  | 0, _ => []
  | n + 1, l => BitVec.ofNat 8 (ofBitsLow (l.take 8)) :: bytesOfBits n (l.drop 8)

/-- The bytes of a bit string of whole bytes. -/
def bitBytes (l : List Bool) : List Byte := bytesOfBits (l.length / 8) l

/-- Bytes to their bit string (R59). -/
def bitsOfBytes (l : List Byte) : List Bool := l.flatMap fun b => bitsLow b.toNat 8

/-- The offset that the next token of a bit string carries, and the bits used (R60). -/
def px8Offset (table : Nat) (l : List Bool) : Nat × Nat :=
  let esc := px8Escape table
  if l.take esc.length = esc then (ofBitsHigh ((l.drop esc.length).take 4), esc.length + 4)
  else
    match (List.range 15).find? fun o => match px8Word table o with
      | some w => decide (l.take w.length = w)
      | none => false with
    | some o => (o, ((px8Word table o).getD []).length)
    | none => (0, 1)

/-- The offsets of `n` tokens, and the bits they use. -/
def px8Offsets (table : Nat) (l : List Bool) : Nat → List Nat × Nat
  | 0 => ([], 0)
  | n + 1 =>
    let (o, k) := px8Offset table l
    let (os, m) := px8Offsets table (l.drop k) n
    (o :: os, k + m)

/-- The 32 E4M3 codes of the block that a bit string begins with, and the halfwords that it takes (R59, R61). -/
def px8Decode (l : List Bool) : List Nat × Nat :=
  let table := ofBitsLow (l.take 2)
  let base := ofBitsLow ((l.drop 2).take 4)
  let (os, used) := px8Offsets table (l.drop 134) 32
  let codes := ((List.range 32).zip os).map fun x =>
    let nib := ofBitsLow ((l.drop (6 + 4 * x.1)).take 4)
    (if nib.testBit 3 then 128 else 0) + 8 * min (base + x.2) 15 + nib % 8
  (codes, (134 + used + 15) / 16)

end Sys2Proof.Machine
end

