-- ==== Sys2Proof/Machine/Engine.lean ====
section
/-! DEFINITION. What the engines share: byte ranges of banks (R178, R262), their leases (R193, R194), the acquire of an engine
command (R294), and the tmask bits that a command sets for its strand (R88). -/

namespace Sys2Proof.Machine

/-- A byte range of a bank that a command reads or writes. -/
structure Side where
  core : CoreId
  off : Nat
  len : Nat
deriving DecidableEq, Repr

/-- Reason 3 where a side begins in the replay region, 5 where it passes a bank's offset 0x1_DFFF (R178, R262, R400; DEDUCED, log entry 59). -/
def sideReason (off n : Nat) : Option Nat :=
  if off ≥ 0x1E000 then some 3 else if off + n > 0x1E000 then some 5 else none

/-- BAD_SPACE of a tile command at the coordinate-form address of its first failing byte (R262). -/
def Side.spaceFault (x : Side) : Option FaultInfo :=
  (sideReason x.off x.len).map fun r => ⟨0x1, coordAddr x.core (max x.off 0x1E000), [BitVec.ofNat 64 r]⟩

/-- A command performs its accesses of sides, which comparators see (R209). -/
def noteSides (s : State) (l : List Side) : State := l.foldl (fun s x => s.noteAccess (.bank x.core) (coordAddr x.core x.off).toNat x.len) s

/-- The first fault of a list of checks. -/
def firstFault : List (Option FaultInfo) → Option FaultInfo
  | [] => none
  | some f :: _ => some f
  | none :: t => firstFault t

/-- LEASE_GONE of a launch at a side (R193). -/
def Side.leaseFault (s : State) (launch : Nat) (ctx : CtxId) (x : Side) : Option FaultInfo :=
  if (s.launch? launch).any fun l => l.covers x.core x.off x.len then none
  else some (leaseGone s ctx (coordAddr x.core x.off) x.core x.off x.len)

/-- The number of the bytes of a side. -/
def Side.read (s : State) (x : Side) : Nat := s.readN (coordAddr x.core x.off).toNat x.len

/-- The bits of a side, lowest first (R65). -/
def Side.bits (s : State) (x : Side) : List Bool := bitsOfBytes (Memory.readBytes s.mem (coordAddr x.core x.off).toNat x.len)

/-- The tmask bits of a place for an engine command of a strand: as R88, and none for the scratchpad of another cluster of its die (DEDUCED, log entry 44). -/
def engineBits (own : CoreId) (l : Loc) : BitVec 48 :=
  match l.place with
  | .bank c => if clusterOf c = clusterOf own then tmaskBits own l else if c.die = own.die then 0 else BitVec.twoPow 48 (40 + c.die.toNat)
  | _ => tmaskBits own l

/-- An engine command touches a place for its strand (R88). -/
def engineTouch (s : State) (h : Handle) (l : Loc) : State := s.modStrand h fun st => st.orTmask (engineBits st.core l)

/-- The code of the scope of a place from a core's position (R137): the least of its tmask bits', and die for the scratchpad of another cluster of
the die, which has none (DEDUCED, log entry 44). -/
def locScope (own : CoreId) (l : Loc) : Nat :=
  let b := engineBits own l
  if b = 0 then 3 else ((List.range 47).filter fun i => b.getLsbD i).foldl (fun n i => min n (bitScope own i)) 6

/-- Words of a copy. -/
def Copy.len (m : Copy) : Nat := copyLen m.hi

/-- A copy has moved its last word, or has failed its checks. -/
def Copy.finished (m : Copy) : Bool := m.state == 3 || (m.state != 4 && m.done == m.len)

/-- Rows and columns of a parameter block (R300). -/
def qRows (p : Vector Word 8) : Nat := (p[3].setWidth 32 : BitVec 32).toNat
def qCols (p : Vector Word 8) : Nat := (p[3].extractLsb' 32 32).toNat

/-- Blocks of 32 elements in a row, and in a command. -/
def QCmd.perRow (m : QCmd) : Nat := qCols m.params / 32
def QCmd.total (m : QCmd) : Nat := qRows m.params * m.perRow

/-- A command has converted every block. -/
def QCmd.finished (m : QCmd) : Bool := m.block == m.total

/-- A write of an engine command handed over earlier by the same core may still have to be performed at a place of the scope or a lower one (R294):
the command has not moved its last word yet, or a write of it is posted there. Command names rise in the order in which commands are handed over (DEDUCED, log entry 7). -/
def earlierWork (s : State) (c : CoreId) (id scope : Nat) : Bool :=
  let x := s.core c
  (s.posted.any fun p => decide (p.core = c) && decide (p.cmd < id) && decide (p.scope ≤ scope)) ||
  (x.copies.any fun m => decide (m.id < id) && !m.finished) || (x.copyReg.any fun m => decide (m.id < id)) ||
  (x.mqueue.any fun m => decide (m.id < id)) ||
  (match (s.quad (quadOf c)).running with
   | some (m, _) => decide (m.core = c) && decide (m.id < id)
   | none => false) ||
  (s.dies.any fun e => e.2.qqueue.any fun m => decide (m.core = c) && decide (m.id < id) && !m.finished) ||
  ((s.cluster (clusterOf c)).brush.queue.any fun m => decide (m.core = c) && decide (m.id < id) && !m.ended)

/-! ### Accesses of an engine -/

/-- Why an engine cannot perform an access (R205, R302): its page is not present, so that the command waits for `replay`; its line is poisoned, so that it is
read once more before the task faults (R389); its place cannot take it yet, for a link that has not come up or a running sweep
(R363, R404); or it breaks a rule, which is a fault of the task. -/
inductive EngineBlock where
  | translation (ea : Word) (kind : AccessKind) (level : Nat)
  | poisoned (f : FaultInfo)
  | wait
  | fault (f : FaultInfo)

/-- A posted write cannot be performed while a running sweep covers its word: its engine holds it (R363). -/
def Posted.swept (s : State) (p : Posted) : Bool :=
  match p.place with
  | .bank c => (s.sweeping c (p.key % 2 ^ 17) p.n).isSome
  | _ => false

/-- A posted write to a bank is held for a running sweep, so that what its engine writes there later waits behind it (R285, R363). -/
def bankHeld (s : State) (c : CoreId) : Bool := s.posted.any fun p => decide (p.place = .bank c) && p.swept s

/-- An access of an engine for a context and a core: the space and the translation of a strand's access, with no lease (R90, R194,
R375, R381, R389, R403, R404). A write is performed, and seen by comparators, where it arrives (R209, R294), and waits where one before it is held (R363). -/
def engineLoc (s : State) (own : CoreId) (ctx : CtxId) (kind : AccessKind) (ea : Word) : Except EngineBlock (State × Loc) :=
  match s.space own ctx ea with
  | .error r => .error (.fault ⟨0x1, ea, [BitVec.ofNat 64 r]⟩)
  | .ok (.bank c off) =>
    if kind == .write && bankHeld s c then .error .wait
    else .ok (if kind == .write then s.charge ctx 3 1 else bankAccess s ctx c off 8, bankLoc ea c off)
  | .ok (.slice i off) =>
    let l := s.sliceLoc ctx ea i off
    match l.place with
    | .module m _ =>
      if s.lost m then .error (.fault (fabricLost m ea)) else if s.linked m then .ok (sliceAccess s own ctx l, l) else .error .wait
    | _ => .ok (sliceAccess s own ctx l, l)
  | .ok (.global va) =>
    match s.translate (clusterOf own) ctx va kind with
    | .absent level => .error (.translation ea kind level)
    | .fault r pte => .error (.fault (xlateInfo ea r kind pte))
    | .poisoned pa => .error (.poisoned (memError s ea pa))
    | .ok pa pte =>
      match s.paLoc ea pa (pteShwr pte) with
      | none => .error (.fault (xlateInfo ea 4 kind pte))
      | some l =>
        if s.isPoisoned pa then .error (.poisoned (memError s ea pa))
        else .ok (sliceAccess (s.keepLeaf (clusterOf own) ctx va) own ctx l, l)

/-- The accesses of an engine at a list of addresses; the first that fails stops it. -/
def engineLocs (s : State) (own : CoreId) (ctx : CtxId) (kind : AccessKind) : List Word → Except EngineBlock (State × List Loc)
  | [] => .ok (s, [])
  | ea :: t =>
    match engineLoc s own ctx kind ea with
    | .error e => .error e
    | .ok (s1, l) =>
      match engineLocs s1 own ctx kind t with
      | .error e => .error e
      | .ok (s2, ls) => .ok (s2, l :: ls)

/-! ### Writes of an engine (R294, R295) -/

/-- An engine that writes for a command, whether it posts what it may, and what the command releases (R294). -/
structure Writer where
  unit : HwUnit
  cmd : Nat
  core : CoreId
  h : Handle
  ctx : CtxId
  launch : Nat
  posts : Bool
  rel : Bool
  scope : Nat

/-- A write on its way. -/
def Writer.post (w : Writer) (l : Loc) (n v : Nat) : Posted :=
  ⟨w.unit, w.cmd, w.core, w.h, w.ctx, w.launch, l.place, l.key, n, v, locScope w.core l⟩

/-- The place is a bank of the cluster. -/
def inScratchpad (c : ClusterId) : Place → Bool
  | .bank b => decide (clusterOf b = c)
  | _ => false

/-- The command may complete before the write is performed (R294): it lies outside the issuing cluster's scratchpad, and no release covers it. -/
def Writer.mayPost (w : Writer) (p : Posted) : Bool := !inScratchpad (clusterOf w.core) p.place && !(w.rel && decide (p.scope ≤ w.scope))

/-- Two writes go from one engine to one place, where they are performed in their order (R285, R295). -/
def Posted.sameWay (p q : Posted) : Bool := decide (p.unit = q.unit) && decide (p.place = q.place)

/-- A write is performed at its place: the bytes, the words full (R195, R209, R375). -/
def State.arrive (s : State) (p : Posted) : State :=
  ((s.noteAccess p.place p.key p.n).store p.place p.key p.n p.v true).dirty p.key p.ctx

/-- The posted writes that some of them cannot be performed without, in order, and the others. -/
def splitPosted (f : Posted → Bool) : List Posted → List Posted × List Posted
  | [] => ([], [])
  | p :: t => let r := splitPosted f t; if f p || t.any fun q => f q && p.sameWay q then (p :: r.1, r.2) else (r.1, p :: r.2)

/-- Posted writes are performed, with those before them on their ways. -/
def State.performPosted (s : State) (f : Posted → Bool) : State :=
  let r := splitPosted f s.posted
  r.1.foldl State.arrive { s with posted := r.2 }

/-- One write of an engine command for its strand, with the strand's tmask bits (R88, R294): it is posted, or it is performed after those that its
engine posted to the place before. -/
def engineWrite (s : State) (w : Writer) (l : Loc) (n v : Nat) : State :=
  let p := w.post l n v
  engineTouch (if w.posts && w.mayPost p then { s with posted := s.posted ++ [p] } else (s.performPosted p.sameWay).arrive p) w.h l

/-- Writes of an engine command, in order (DEDUCED, log entry 6). -/
def engineWrites (s : State) (w : Writer) : List (Loc × Nat × Nat) → State
  | [] => s
  | (l, n, v) :: t => engineWrites (engineWrite s w l n v) w t

/-- An engine command has touched places that it read (R88). -/
def engineTouches (s : State) (h : Handle) (ls : List Loc) : State := ls.foldl (fun s l => engineTouch s h l) s

/-- A fault that an engine leaves to its issuing task: at the task's next issue, or through a handler task with g0 = 0 where the task has
exited (R194). -/
def oweFault (s : State) (h : Handle) (ctx : CtxId) (core : CoreId) (launch : Nat) (level : BitVec 2) (f : FaultInfo) : State :=
  match s.strand? h with
  | some st => s.setStrand h { st with due := st.due ++ [f] }
  | none => reportLate s ctx ⟨h, core, launch, level, f⟩

/-- Completion of an engine command by a counter, a message, or nothing (R178, R301). -/
def completeEngine (s : State) (h : Handle) (core : CoreId) (xr : Bool) (kind : Nat) (idx : BitVec 4) (firmware : Bool)
    (words : List Word) : State :=
  if kind = 0 then lowerCounter s core idx
  else if kind = 1 then postMessage s h xr core idx firmware words
  else s

/-- Cycles of an epoch (R325). -/
def epochCycles : Nat := 4096

/-- The last epoch of a level-2 command with a global side that was handed over in epoch e and moves W words (R325). -/
def lastEpoch (e w : Nat) : Nat := e + 1 + (w + 511) / 512

/-- An epoch has ended. -/
def epochOver (s : State) (e : Nat) : Bool := decide ((e + 1) * epochCycles ≤ s.cycle)

/-- A level-2 command that finishes after its epoch raises `cadmiss`, which saturates (R325). -/
def raiseMiss (s : State) (c : ClusterId) (missed : Bool) : State :=
  if missed then s.modCluster c fun x => { x with cadmiss := if x.cadmiss = BitVec.allOnes 32 then x.cadmiss else x.cadmiss + 1 } else s

/-- The address lies in the global space (R90, R325). -/
def globalSide (ea : Word) : Bool := decide (spaceCode ea < 8)

/-- The bank range of an engine side, where it is one. -/
def bankSide (s : State) (own : CoreId) (ctx : CtxId) (ea : Word) (n : Nat) : Option Side :=
  match s.space own ctx ea with
  | .ok (.bank c off) => some ⟨c, off, n⟩
  | _ => none

/-- Some live lease of a context covers a side of an engine command (R194). -/
def Side.leased (s : State) (ctx : CtxId) (x : Side) : Bool := s.leasedBy ctx x.core x.off x.len

/-- A running sweep covers some byte of a side (R363). -/
def Side.swept (s : State) (x : Side) : Bool := (s.sweeping x.core x.off x.len).isSome

/-- BAD_SPACE's reason for a range of `n` bytes that an engine side names (R178, R287, R400). -/
def rangeFault (s : State) (own : CoreId) (ctx : CtxId) (ea : Word) (n : Nat) : Option Nat :=
  match s.space own ctx ea with
  | .error r => some r
  | .ok (.global _) => none
  | .ok (.bank _ off) => sideReason off n
  | .ok (.slice i off) =>
    if off + n ≤ 2 ^ 20 && (List.range ((off + n - 1) / 65536 + 1 - off / 65536)).all fun k =>
      s.grants.contains (ctx, i, BitVec.ofNat 4 (off / 65536 + k)) then none else some 4

end Sys2Proof.Machine
end

