-- ==== Sys2Proof/Machine/Real.lean ====
section
/-! DEFINITION. Division, square roots, powers and logarithms of two, correctly rounded (R120, R224, R226). A result is
formed as the floor of its magnitude at enough bits and whether anything lies below them; both decide every rounding. -/

namespace Sys2Proof.Machine

/-- The integer square root from its bit `i - 1` down. -/
def isqrtFrom (n r : Nat) : Nat → Nat
  | 0 => r
  | i + 1 => isqrtFrom n (if (r + 2 ^ i) * (r + 2 ^ i) ≤ n then r + 2 ^ i else r) i

/-- The floor of the square root. -/
def isqrt (n : Nat) : Nat := isqrtFrom n 0 (Nat.log2 n / 2 + 1)

/-- The bits that a rounding into a format needs. -/
def FFmt.need (f : FFmt) : Nat := f.mbits + 4

/-- round((-1)^neg · m1·2^e1 / (m2·2^e2)), both magnitudes nonzero. -/
def FFmt.quotient (f : FFmt) (rm : Rm) (neg : Bool) (m1 : Nat) (e1 : Int) (m2 : Nat) (e2 : Int) : FRes :=
  let k := f.need + Nat.log2 m2 + 1
  let n := m1 * 2 ^ k
  f.roundMag rm neg (n / m2) (e1 - e2 - k) (n % m2 != 0)

/-- round(x / y) (R224). -/
def FFmt.div (f : FFmt) (rm : Rm) (x y : Nat) : FRes :=
  match f.value x, f.value y with
  | .nan a, .nan b => (f.nanCode, { invalid := a || b })
  | .nan a, _ => (f.nanCode, { invalid := a })
  | _, .nan b => (f.nanCode, { invalid := b })
  | .inf _, .inf _ => (f.nanCode, { invalid := true })
  | .inf a, .fin b _ _ => f.ofVal rm 0 (.inf (a != b))
  | .fin a _ _, .inf b => (f.withSign (a != b) 0, {})
  | .fin a m1 e1, .fin b m2 e2 =>
    if m2 == 0 then (if m1 == 0 then (f.nanCode, { invalid := true }) else f.ofVal rm 0 (.inf (a != b)))
    else if m1 == 0 then (f.withSign (a != b) 0, {})
    else f.quotient rm (a != b) m1 e1 m2 e2

/-- The code of 1. -/
def FFmt.one (f : FFmt) : Nat := f.bias * 2 ^ f.mbits

/-- round(1 / x) (R226). -/
def FFmt.rcp (f : FFmt) (rm : Rm) (x : Nat) : FRes := f.div rm f.one x

/-- A magnitude at an even scale. -/
def evenScale (m : Nat) (e : Int) : Nat × Int := if e % 2 == 0 then (m, e) else (2 * m, e - 1)

/-- round(√x) (R226). -/
def FFmt.sqrt (f : FFmt) (rm : Rm) (x : Nat) : FRes :=
  match f.value x with
  | .nan a => (f.nanCode, { invalid := a })
  | .inf neg => if neg then (f.nanCode, { invalid := true }) else f.ofVal rm 0 (.inf false)
  | .fin neg m e =>
    if m == 0 then (f.withSign neg 0, {})
    else if neg then (f.nanCode, { invalid := true })
    else
      let (m', e') := evenScale m e
      let n := m' * 4 ^ f.need
      let r := isqrt n
      f.roundMag rm false r (e' / 2 - f.need) (r * r != n)

/-- round(1 / √x) (R226). -/
def FFmt.rsqrt (f : FFmt) (rm : Rm) (x : Nat) : FRes :=
  match f.value x with
  | .nan a => (f.nanCode, { invalid := a })
  | .inf neg => if neg then (f.nanCode, { invalid := true }) else (0, {})
  | .fin neg m e =>
    if m == 0 then f.ofVal rm 0 (.inf neg)
    else if neg then (f.nanCode, { invalid := true })
    else
      let (m', e') := evenScale m e
      let k := f.need + Nat.log2 m' / 2 + 1
      let r := isqrt (4 ^ k / m')
      f.roundMag rm false r (-(e' / 2) - k) (r * r * m' != 4 ^ k)

/-! ### Powers of two -/

/-- Bounds, at `w` fraction bits, of the product over the set bits of `f` (a fraction of `w` bits) of 2^(2^-i). `lo`, `hi`
bound the product so far and `clo`, `chi` bound the next root. -/
def exp2Loop (w f : Nat) (lo hi clo chi : Nat) : Nat → Nat × Nat
  | 0 => (lo, (hi * chi) / 2 ^ w + 1)
  | i + 1 =>
    let clo' := isqrt (clo * 2 ^ w)
    let chi' := isqrt (chi * 2 ^ w) + 1
    if f.testBit i then exp2Loop w f (lo * clo' / 2 ^ w) (hi * chi' / 2 ^ w + 1) clo' chi' i
    else exp2Loop w f lo hi clo' chi' i

/-- The floor of 2^g at `p` fraction bits, for the fraction g = num / 2^den in [0, 1), if the bounds agree on it. -/
def exp2Frac (p num den : Nat) : Option Nat :=
  let w := p + 64
  let f := if den ≤ w then num * 2 ^ (w - den) else num / 2 ^ (den - w)
  let (lo, hi) := exp2Loop w f (2 ^ w) (2 ^ w) (2 ^ (w + 1)) (2 ^ (w + 1)) w
  if lo / 2 ^ 64 = hi / 2 ^ 64 then some (lo / 2 ^ 64) else none

/-- The least precision of a list at which a floor is certain, with the floor. -/
def firstCertain (g : Nat → Option Nat) : List Nat → Option (Nat × Nat)
  | [] => none
  | p :: t =>
    match g p with
    | some v => some (p, v)
    | none => firstCertain g t

/-- The precisions that the functions try. -/
def precisions : List Nat := [64, 192, 384]

/-- round(2^x) (R226). -/
def FFmt.exp2 (f : FFmt) (rm : Rm) (x : Nat) : FRes :=
  match f.value x with
  | .nan a => (f.nanCode, { invalid := a })
  | .inf neg => if neg then (0, {}) else f.ofVal rm 0 (.inf false)
  | .fin neg m e =>
    if m == 0 then (f.one, {})
    else if (Nat.log2 m : Int) + e > 12 then
      if neg then f.roundMag rm false 1 (-8192) true else f.roundMag rm false 1 8192 false
    else if 0 ≤ e then
      let n : Int := (m * 2 ^ e.toNat : Nat)
      f.roundMag rm false 1 (if neg then -n else n) false
    else
      let den := (-e).toNat
      let v : Int := if neg then -(m : Int) else m
      let whole := v / (2 ^ den : Int)
      let num := (v % (2 ^ den : Int)).toNat
      if num == 0 then f.roundMag rm false 1 whole false
      else
        match firstCertain (fun p => exp2Frac p num den) precisions with
        | some (p, r) => f.roundMag rm false r (whole - p) true
        | none => (Config.unresolved x % 2 ^ f.signPos, { inexact := true })

/-! ### Logarithms of two -/

/-- The first `n` fraction bits of log2 of a number in [1, 2) between lo / 2^w and hi / 2^w, if the bounds agree on them. -/
def log2Loop (w : Nat) (lo hi acc : Nat) : Nat → Option Nat
  | 0 => some acc
  | n + 1 =>
    let a := lo * lo / 2 ^ w
    let b := hi * hi / 2 ^ w + 1
    if 2 ^ (w + 1) ≤ a then log2Loop w (a / 2) (b / 2 + 1) (2 * acc + 1) n
    else if b < 2 ^ (w + 1) then log2Loop w a b (2 * acc) n
    else none

/-- The floor of log2 of m / 2^(log2 m) at `p` fraction bits. -/
def log2Frac (p m : Nat) : Option Nat :=
  let w := 2 * p + 64
  let x := m * 2 ^ w / 2 ^ Nat.log2 m
  log2Loop w x x 0 p

/-- round(log2 x) (R226). -/
def FFmt.log2 (f : FFmt) (rm : Rm) (x : Nat) : FRes :=
  match f.value x with
  | .nan a => (f.nanCode, { invalid := a })
  | .inf neg => if neg then (f.nanCode, { invalid := true }) else f.ofVal rm 0 (.inf false)
  | .fin neg m e =>
    if m == 0 then f.ofVal rm 0 (.inf true)
    else if neg then (f.nanCode, { invalid := true })
    else
      let top : Int := (Nat.log2 m : Int) + e
      if m == 2 ^ Nat.log2 m then f.ofVal rm 0 (FVal.ofInt top)
      else
        match firstCertain (fun p => log2Frac p m) precisions with
        | some (p, r) =>
          let v : Int := top * 2 ^ p + r
          if 0 ≤ v then f.roundMag rm false v.toNat (-p) true else f.roundMag rm true (-v - 1).toNat (-p) true
        | none => (Config.unresolved x % 2 ^ (f.signPos + 1), { inexact := true })

end Sys2Proof.Machine
end

