-- ==== Sys2Proof/Machine/Lanes.lean ====
section
/-! DEFINITION. Vector registers by view (R214), element-wise operations (R224-R229), conversions (R230-R232), reductions
and scans (R77-R79, R233), and element accesses at the pool (R222, R223). -/

namespace Sys2Proof.Machine

/-- A vector register. -/
abbrev VReg := Vector (BitVec 32) 256

/-- A vector register of a core (R214). -/
def VectorFile.reg (f : VectorFile) (r : BitVec 4) : VReg := Table.get (Vector.replicate 256 0) r f.v

/-- A type has the 64-bit view (R214). -/
def isWide : EType → Bool
  | .f64 | .s64 | .n64 => true
  | _ => false

/-- The positions of a view (R214). -/
def positions (wide : Bool) : Nat := if wide then 128 else 256

/-- The active count of a view (R214). -/
def active (wide : Bool) (vn : Nat) : Nat := if wide then (vn + 1) / 2 else vn

/-- The 32-bit element of an index below 256. -/
def VReg.elem (v : VReg) (i : Nat) : BitVec 32 := v[(Fin.ofNat 256 i)]

/-- The register with one element written. -/
def VReg.setElem (v : VReg) (i : Nat) (x : BitVec 32) : VReg := v.set (Fin.ofNat 256 i) x

/-- The value of a position (R214). -/
def VReg.pos (v : VReg) (wide : Bool) (i : Nat) : Nat :=
  if wide then (VReg.elem v (2 * i)).toNat + 2 ^ 32 * (VReg.elem v (2 * i + 1)).toNat else (VReg.elem v i).toNat

/-- The register with a position written (R214). -/
def VReg.setPos (v : VReg) (wide : Bool) (i x : Nat) : VReg :=
  if wide then VReg.setElem (VReg.setElem v (2 * i) (BitVec.ofNat 32 x)) (2 * i + 1) (BitVec.ofNat 32 (x / 2 ^ 32))
  else VReg.setElem v i (BitVec.ofNat 32 x)

/-- A code of a type as a position holds it: narrow integers are extended to 32 bits (R214). -/
def heldCode (t : EType) (x : Nat) : Nat :=
  match t with
  | .s16 => bitsOfInt 32 (intOfBits true 16 x)
  | .s8 => bitsOfInt 32 (intOfBits true 8 x)
  | .f64 | .s64 | .n64 => x % 2 ^ 64
  | .f32 | .s32 | .n32 => x % 2 ^ 32
  | .bf16 | .f16 | .n16 => x % 2 ^ 16
  | _ => x % 2 ^ 8

/-- The code of a type that a position holds (R214). -/
def codeHeld (t : EType) (x : Nat) : Nat := x % 2 ^ etypeBits t

/-- The register with positions `i`, i+1, … written from a list. -/
def VReg.fillFrom (v : VReg) (wide : Bool) (i : Nat) : List Nat → VReg
  | [] => v
  | x :: t => VReg.fillFrom (VReg.setPos v wide i x) wide (i + 1) t

/-- The first `n` positions of a register as codes of a type. -/
def VReg.codes (v : VReg) (t : EType) (n : Nat) : List Nat := (List.range n).map fun i => codeHeld t (VReg.pos v (isWide t) i)

/-! ### Subnormal sources (R225) -/

/-- Which sources of a position are subnormal: bit 0 B, bit 1 C, bit 2 A (R236). -/
def subBits (f : FFmt) : List Nat → Nat
  | [] => 0
  | x :: l => (if f.subnormal x then 1 else 0) + 2 * subBits f l

/-- The lowest position with a subnormal source, and its sources (R236). -/
def firstSub (f : FFmt) : Nat → List (List Nat) → Option (Nat × Nat)
  | _, [] => none
  | i, xs :: l => if subBits f xs = 0 then firstSub f (i + 1) l else some (i, subBits f xs)

/-- What a command meets at the pool besides its commit: a trap with its third record word, a fault, or a page that is not present (R235), a module to which
no link has come up (R404), or the end of the turn with element accesses still to be performed (R223). -/
inductive PoolExc where
  | trap (n : BitVec 8) (t3 : Word)
  | fault (f : FaultInfo)
  | page (s : State)
  | link
  | partway (s : State)

/-- The sources of every position under R56: as they are, flushed, or a trap (R225; DEDUCED, log entry 36). -/
def poolSources (f : Option FFmt) (daz : Bool) (xs : List (List Nat)) : Except PoolExc (List (List Nat)) :=
  match f with
  | none => .ok xs
  | some f =>
    match firstSub f 0 xs with
    | none => .ok xs
    | some (i, b) =>
      if daz then .ok (xs.map fun l => l.map f.flush)
      else .error (.trap 1 (BitVec.ofNat 64 (i % 256 + 256 * b)))

/-- The IEEE format of a type, whose subnormal sources trap (R56). -/
def trappingFmt (t : EType) : Option FFmt :=
  match t with
  | .f32 => some .f32
  | .f64 => some .f64
  | .f16 => some .f16
  | .bf16 => some .bf16
  | _ => none

/-- The positions of several registers, position by position, as codes of a type. -/
def gatherCodes (t : EType) (n : Nat) (vs : List VReg) : List (List Nat) :=
  (List.range n).map fun i => vs.map fun v => codeHeld t (VReg.pos v (isWide t) i)

/-- An operation on every position, with the union of its flags. -/
def mapFlags {α : Type} (f : α → FRes) : List α → List Nat × Flags
  | [] => ([], {})
  | x :: l =>
    let r := f x
    let t := mapFlags f l
    (r.1 :: t.1, r.2.or t.2)

/-! ### Element-wise operations (R224-R229) -/

/-- The signed or unsigned value of a position of an integer type (R53). -/
def vInt (t : EType) (x : Nat) : Int :=
  match etypeInt t with
  | some (signed, n) => intOfBits signed n x
  | none => 0

/-- An integer result at the width of a type (R224). -/
def vWrap (t : EType) (x : Int) : FRes := (bitsOfInt (etypeBits t) x, {})

/-- The width of the shift count of a view (R227). -/
def vShift (t : EType) (c : Nat) : Nat := c % etypeBits t

/-- A code with its sign changed; a NaN gives the canonical NaN (R55, R224; DEDUCED, log entry 37). -/
def FFmt.signChange (F : FFmt) (x : Nat) (g : Bool → Bool) : FRes :=
  let v := F.value x
  if v.isNan then (F.nanCode, { invalid := v.isSnan }) else (F.withSign (g (x.testBit F.signPos)) (x % 2 ^ F.signPos), {})

/-- The result of an element-wise instruction from the sources of one position, b first, then c, then a. -/
def vElement (xr : Bool) (op : Instr) (l : List Nat) : FRes :=
  let b := l.getD 0 0
  let c := l.getD 1 0
  let a := l.getD 2 0
  let fp := fun (t : EType) (f : FFmt → FRes) (i : FRes) => match etypeFmt xr t with
    | some F => f F
    | none => i
  match op with
  | .vadd _ t rm _ _ _ => fp t (fun F => F.add rm b c) (vWrap t (vInt t b + vInt t c))
  | .vsub _ t rm _ _ _ => fp t (fun F => F.sub rm b c) (vWrap t (vInt t b - vInt t c))
  | .vmul _ t rm _ _ _ => fp t (fun F => F.mul rm b c) (vWrap t (vInt t b * vInt t c))
  | .vfma _ t rm _ _ _ => fp t (fun F => F.fma rm b c a) (0, {})
  | .vdiv _ t rm _ _ _ => fp t (fun F => F.div rm b c) (0, {})
  | .vmin _ t _ _ _ => fp t (fun F => F.pick true b c) (vWrap t (min (vInt t b) (vInt t c)))
  | .vmax _ t _ _ _ => fp t (fun F => F.pick false b c) (vWrap t (max (vInt t b) (vInt t c)))
  | .vabs _ t _ _ => fp t (fun F => F.signChange b (fun _ => false)) (vWrap t (vInt t b).natAbs)
  | .vneg _ t _ _ => fp t (fun F => F.signChange b (fun s => !s)) (vWrap t (-(vInt t b)))
  | .vexp2 _ rm _ _ => FFmt.f32.exp2 rm b
  | .vlog2 _ rm _ _ => FFmt.f32.log2 rm b
  | .vrsq _ rm _ _ => FFmt.f32.rsqrt rm b
  | .vrcp _ t rm _ _ => fp t (fun F => F.rcp rm b) (0, {})
  | .vsqrt _ t rm _ _ => fp t (fun F => F.sqrt rm b) (0, {})
  | .vand _ _ _ _ _ => (b &&& c, {})
  | .vor _ _ _ _ _ => (b ||| c, {})
  | .vxor _ _ _ _ _ => (b ^^^ c, {})
  | .vshl _ t _ _ _ => (b * 2 ^ vShift t c % 2 ^ etypeBits t, {})
  | .vshr _ t _ _ _ => vWrap t (vInt t b / (2 ^ vShift t c : Int))
  | .vcmp _ t cc _ _ _ =>
    let r := fp t (fun F => let x := F.compare cc b c; (if x.1 then 1 else 0, x.2))
      (if condOfOrder cc (some (compare (vInt t b) (vInt t c))) then 1 else 0, {})
    (if r.1 = 1 then 2 ^ etypeBits t - 1 else 0, r.2)
  | .vsel _ _ _ _ _ => (if a ≠ 0 then b else c, {})
  | _ => (0, {})
/-! ### Trees (R77-R79) -/

/-- One level of the tree. -/
def treeLevel {α : Type} (op : α → α → α) : List α → List α
  | a :: b :: t => op a b :: treeLevel op t
  | l => l

/-- `n` levels of the tree. -/
def treeLevels {α : Type} (op : α → α → α) : Nat → List α → List α
  | 0, l => l
  | n + 1, l => treeLevels op n (treeLevel op l)

/-- The operations of reductions (R233). -/
inductive RedOp where
  | add | min | max
deriving DecidableEq, Repr

/-- The identity of a reduction in a type (R77). -/
def redIdentity (xr : Bool) (t : EType) (op : RedOp) : Nat :=
  match etypeFmt xr t with
  | some F =>
    match op with
    | .add => F.withSign true 0
    | .min => (2 ^ F.ebits - 1) * 2 ^ F.mbits
    | .max => F.withSign true ((2 ^ F.ebits - 1) * 2 ^ F.mbits)
  | none =>
    match etypeInt t with
    | some (true, n) => (match op with
      | .add => 0
      | .min => 2 ^ (n - 1) - 1
      | .max => 2 ^ (n - 1))
    | some (false, n) => (match op with
      | .min => 2 ^ n - 1
      | _ => 0)
    | none => 0

/-- One node of the tree, with the flags so far (R77). -/
def redNode (xr : Bool) (t : EType) (op : RedOp) (x y : FRes) : FRes :=
  let r : FRes := match etypeFmt xr t with
    | some F =>
      (match op with
       | .add => F.add .rne x.1 y.1
       | .min => F.pick true x.1 y.1
       | .max => F.pick false x.1 y.1)
    | none =>
      (match op with
       | .add => vWrap t (vInt t x.1 + vInt t y.1)
       | .min => vWrap t (min (vInt t x.1) (vInt t y.1))
       | .max => vWrap t (max (vInt t x.1) (vInt t y.1)))
  (r.1, (x.2.or y.2).or r.2)

/-- A list filled with an identity to the positions of a view. -/
def padTo (n : Nat) (d : Nat) (l : List Nat) : List FRes := (l ++ List.replicate (n - l.length) d).map fun x => (x, {})

/-- The tree of R77 over the codes of the active positions. -/
def reduce (xr : Bool) (t : EType) (op : RedOp) (l : List Nat) : FRes :=
  ((treeLevels (redNode xr t op) (if isWide t then 7 else 8) (padTo (positions (isWide t)) (redIdentity xr t op) l)).head?).getD (0, {})

/-- The scan of R79: at position j, the tree over the first j + 1 codes. -/
def scan (xr : Bool) (t : EType) (op : RedOp) (l : List Nat) : List Nat × Flags :=
  mapFlags (fun j => reduce xr t op (l.take (j + 1))) (List.range l.length)

/-- The tree of R78 over the codes of the active positions of two registers. -/
def dotTree (xr : Bool) (t : EType) (F : FFmt) (l : List (List Nat)) : FRes :=
  let prods := l.map fun x => (F.value (x.getD 0 0)).mul (F.value (x.getD 1 0))
  let all := prods ++ List.replicate (positions (isWide t) - prods.length) (FVal.fin true 0 0, false)
  ((treeLevels (redNode xr t .add) (if isWide t then 6 else 7) (firsts F all)).head?).getD (0, {})
where
  /-- The first level: one rounding of the exact sum of two products (R78). -/
  firsts (F : FFmt) : List (FVal × Bool) → List FRes
    | x :: y :: t =>
      let s := x.1.add .rne y.1
      F.deliver .rne (s.1, s.2 || x.2 || y.2) :: firsts F t
    | _ => []

/-! ### Conversions (R230-R232) -/

/-- The value that a position holds in a type, microscaling types under their scale (R214, R231). -/
def heldValue (xr : Bool) (t : EType) (x : Nat) : FVal :=
  if isMx t then mxValue xr t (codeHeld t x) (x / 256) else elementValue xr t x

/-- The blocks of a list, 32 values each (R231). -/
def blocksOf {α : Type} : Nat → List α → List (List α)
  | 0, _ => []
  | n + 1, l => if l.isEmpty then [] else l.take 32 :: blocksOf n (l.drop 32)

/-- The positions of one block: element code and scale under R214; the values beyond the active ones count as +0 (R231). -/
def mxHeld (xr : Bool) (t : EType) (rm : Rm) (vs : List (FVal × BitVec 32)) : List Nat × Flags :=
  let r := mxBlock xr t rm (vs ++ List.replicate (32 - vs.length) (.fin false 0 0, 0))
  ((r.2.1.take vs.length).map fun c => c + 256 * r.1, r.2.2)

/-- The lists of several blocks one after another, with the union of their flags. -/
def joinBlocks : List (List Nat × Flags) → List Nat × Flags
  | [] => ([], {})
  | x :: t => let y := joinBlocks t; (x.1 ++ y.1, x.2.or y.2)

/-- The values that a conversion delivers, position by position, from the exact values with their draws (R230-R232). -/
def convertAll (xr : Bool) (dst : EType) (rm : Rm) (vs : List (FVal × BitVec 32)) : List Nat × Flags :=
  if isMx dst then joinBlocks ((blocksOf 8 vs).map (mxHeld xr dst rm))
  else
    let r := mapFlags (fun x => elementOf xr dst rm x.2 x.1) vs
    (r.1.map (heldCode dst), r.2)

/-! ### Element accesses at the pool (R222, R223) -/

/-- The checks of one element access of a command: its space, its alignment, and what its place checks. -/
def poolLocate (s : State) (m : VCmd) (st : Strand) (ea : Word) (n : Nat) (kind : AccessKind) : Except PoolExc (State × Loc) :=
  match spaceOf s st m.words ea with
  | .error f => .error (.fault f)
  | .ok sp =>
    if ea.toNat % n ≠ 0 then .error (.fault ⟨0x2, ea, [BitVec.ofNat 64 n]⟩)
    else
      match arrivalCheck s st ea n kind sp with
      | .ok r => .ok r
      | .error (.fault f) => .error (.fault f)
      | .error (.absent level) => .error (.page (s.faultEntry st.core st.ctx m.h ea kind level))
      | .error (.link _) => .error .link

/-- The checks of element accesses of a command, given by their positions, in order. -/
def poolLocateAll (s : State) (m : VCmd) (st : Strand) (n : Nat) (kind : AccessKind) :
    List (Nat × Word) → Except PoolExc (State × List (Nat × Loc))
  | [] => .ok (s, [])
  | (i, ea) :: t =>
    match poolLocate s m st ea n kind with
    | .error e => .error e
    | .ok (s1, l) =>
      match poolLocateAll s1 m st n kind t with
      | .error e => .error e
      | .ok (s2, ls) => .ok (s2, (i, l) :: ls)

/-- The element accesses of a command that are still to be performed. -/
def VCmd.left (m : VCmd) (addrs : List Word) : List (Nat × Word) :=
  ((List.range addrs.length).zip addrs).filter fun e => !(m.got.any fun x => x.1 == e.1)

/-- Which of the remaining positions the turn performs: all of them in order, or those that the schedule picks, each once; where `after` says that a
position comes after another, it is not picked before it (R223; DESIGN CHOICE, log entry 2). -/
def pickPositions (after : Nat → Nat → Bool) (left picks : List Nat) : List Nat :=
  if picks.isEmpty then left
  else picks.foldl (fun t i =>
    if left.contains i && !t.contains i && left.all (fun j => !after i j || t.contains j) then t ++ [i] else t) []

/-- The accesses at a list of positions. -/
def atPositions {α : Type} (l : List (Nat × α)) (ps : List Nat) : List (Nat × α) := ps.filterMap fun i => l.find? fun e => e.1 == i

/-- The element reads of a command that the turn performs, with their locations; `inOrder` where they are performed in ascending order (R223, R250). -/
def poolReads (s : State) (m : VCmd) (st : Strand) (n : Nat) (inOrder : Bool) (addrs : List Word) : Except PoolExc (State × List (Nat × Loc)) :=
  let left := m.left addrs
  poolLocateAll s m st n .read (atPositions left (pickPositions (fun i j => inOrder && decide (j < i)) (left.map (·.1)) s.picks))

/-- The TLBs after the translations of a command's element addresses (R380). -/
def keepLeaves (s : State) (st : Strand) (addrs : List Word) : State :=
  addrs.foldl (fun s ea => match s.space st.core st.ctx ea with
    | .ok (.global va) => s.keepLeaf (clusterOf st.core) st.ctx va
    | _ => s) s

/-- The element writes of a command, in the order of its positions, once every address has passed its checks (R222). A sweep that begins between two of them
does not stop the rest (DEDUCED, log entry 89). -/
def planWrites (s : State) (m : VCmd) (st : Strand) (n : Nat) (addrs : List Word) (vals : List Nat) : Except PoolExc (State × List ElementWrite) :=
  match poolLocateAll s m st n .write ((List.range addrs.length).zip addrs) with
  | .error e => .error e
  | .ok (_, ls) => .ok (keepLeaves s st addrs, ls.map fun e =>
      { pos := e.1, place := e.2.place, key := e.2.key, width := n, value := vals.getD e.1 0, mask := tmaskBits st.core e.2 })

/-- Two element writes share a byte of one place. -/
def ElementWrite.meets (a b : ElementWrite) : Bool := decide (a.place = b.place) && decide (a.key < b.key + b.width) && decide (b.key < a.key + a.width)

/-- The element writes that the turn performs; of two that share a byte the higher position comes after the lower (R222, R223, R250; DESIGN CHOICE, log
entry 2). -/
def pickWrites (inOrder : Bool) (owed : List ElementWrite) (picks : List Nat) : List ElementWrite :=
  let at_ := fun (i : Nat) => owed.find? fun e => e.pos == i
  let clash := fun (i j : Nat) => decide (j < i) && (inOrder || (at_ i).any fun a => (at_ j).any a.meets)
  (pickPositions clash (owed.map (·.pos)) picks).filterMap at_

/-- The tmask bits of the places of a command (R223). -/
def locMask (own : CoreId) (ls : List Loc) : BitVec 48 := ls.foldl (fun m l => m ||| tmaskBits own l) 0

/-- Element accesses of a running command have been performed (R223). -/
def noteAccesses (s : State) (c : CoreId) (m : VCmd) (got : List (Nat × Nat)) : State :=
  mapInFlight s c fun x => if x.id = m.id then { x with got := got } else x

/-- Element writes of a running command have been performed, and it owes the rest (R223). -/
def noteOwed (s : State) (c : CoreId) (m : VCmd) (owed : List ElementWrite) : State :=
  mapInFlight s c fun x => if x.id = m.id then { x with owed := owed } else x

/-- The memory width of a type in bytes (R221). -/
def memWidth (t : EType) : Nat := etypeBits t / 8

/-- The element addresses of `vld` and `vst` (R221). -/
def linearAddrs (ea : Word) (w n : Nat) : List Word := (List.range n).map fun i => ea + BitVec.ofNat 64 (w * i)

/-- The element addresses of `vgth` and `vsct` (R221). -/
def indexedAddrs (base : Word) (c : VReg) (wide : Bool) (n : Nat) : List Word :=
  (List.range n).map fun i => base + (VReg.elem c (if wide then 2 * i else i)).signExtend 64

end Sys2Proof.Machine
end

