-- ==== Sys2Proof/Machine/Quant.lean ====
section
/-! DEFINITION. The quantisation engine and the random-number instructions of page 4 (R62, R63, R66, R72-R75, R298-R307). -/

namespace Sys2Proof.Machine

/-! ### The control word and the parameter block (R299, R300) -/

def qDtype (c : Word) : BitVec 5 := c.extractLsb' 59 5
def qStype (c : Word) : BitVec 5 := c.extractLsb' 54 5
def qMode (c : Word) : BitVec 3 := c.extractLsb' 51 3
def qKind (c : Word) : Nat := (c.extractLsb' 49 2).toNat
def qIdx (c : Word) : BitVec 4 := c.extractLsb' 45 4
def qAcq (c : Word) : Bool := c.getLsbD 44
def qRel (c : Word) : Bool := c.getLsbD 43
def qScope (c : Word) : Nat := (c.extractLsb' 40 3).toNat
def qTag (c : Word) : BitVec 16 := c.extractLsb' 24 16
def qReserved (c : Word) : BitVec 24 := c.extractLsb' 0 24

/-- Destination types that a control word may name (R299). -/
def qDests : List EType := [.bf16, .f16, .e4m3, .e5m2, .px8, .mx4, .mx6a, .mx6b, .mx8a, .mx8b, .mxi8]

/-- The destination and source types of a control word (R299). -/
def qDst (c : Word) : EType := (EType.ofCode (qDtype c)).getD .px8
def qSrc (c : Word) : EType := (EType.ofCode (qStype c)).getD .f32

/-- A control word breaks a row of the table of R299. -/
def qIllegal (c : Word) : Bool :=
  !((EType.ofCode (qDtype c)).any qDests.contains) || !(qStype c == 0 || qStype c == 2) || qDtype c == qStype c ||
  decide (4 < (qMode c).toNat) || qKind c == 2 || (qKind c == 3 && qIdx c != 0) || (qKind c != 1 && qTag c != 0) ||
  ((qAcq c || qRel c) != (qScope c != 0)) || qScope c == 7 || qReserved c != 0

/-- Bytes of a source element. -/
def qSrcBytes (c : Word) : Nat := etypeBits (qSrc c) / 8

/-- The strides of a parameter block (R300). -/
def qSstride (p : Vector Word 8) : Nat := (p[4].setWidth 32 : BitVec 32).toNat
def qDstride (p : Vector Word 8) : Nat := (p[4].extractLsb' 32 32).toNat

/-- Bytes of a row at the destination, of a type other than px8 (R300). -/
def qRowBytes (c : Word) (p : Vector Word 8) : Nat := qCols p * etypeBits (qDst c) / 8

/-- The alignment of the destination (R300). -/
def qDstAlign (t : EType) : Nat :=
  match t with
  | .bf16 | .f16 | .px8 => 2
  | _ => 1

/-- The first bad field of a parameter block, with its value (R300, R301, R307). -/
def qBadField (c : Word) (p : Vector Word 8) : Option (Nat × Nat) :=
  let t := qDst c
  if p[0].toNat % qSrcBytes c ≠ 0 then some (0x00, p[0].toNat)
  else if p[1].toNat % qDstAlign t ≠ 0 then some (0x08, p[1].toNat)
  else if (if isMx t then false else if t = .px8 then p[2].toNat % 4 != 0 else p[2] != 0) then some (0x10, p[2].toNat)
  else if ¬(1 ≤ qRows p ∧ qRows p ≤ 65536) then some (0x18, qRows p)
  else if ¬(32 ≤ qCols p ∧ qCols p ≤ 65536 ∧ qCols p % 32 = 0) then some (0x1C, qCols p)
  else if qSstride p < qCols p * qSrcBytes c then some (0x20, qSstride p)
  else if (if t = .px8 then qDstride p != 0 else decide (qDstride p < qRowBytes c p)) then some (0x24, qDstride p)
  else if p[7].toNat % 4 ≠ 0 then some (0x38, p[7].toNat)
  else none

/-- Bytes from the first to the last that a side of `rows` rows spans. -/
def qSpan (rows stride row : Nat) : Nat := (rows - 1) * stride + row

/-- The sides of a command with their lengths: source, destination, scales or table, amax word. The length of px8 data is not known
before it is formed: its first block is named (DEDUCED, log entry 25). -/
def qSides (c : Word) (p : Vector Word 8) : List (Word × Nat) :=
  let t := qDst c
  [(p[0], qSpan (qRows p) (qSstride p) (qCols p * qSrcBytes c)),
   (p[1], if t = .px8 then 2 else qSpan (qRows p) (qDstride p) (qRowBytes c p))] ++
  (if isMx t then [(p[2], qRows p * qCols p / 32)] else if t = .px8 then [(p[2], 4 * (qRows p + 1))] else []) ++
  (if p[7] = 0 then [] else [(p[7], 4)])

/-- The sides that a command writes. -/
def qWritten (c : Word) (p : Vector Word 8) : List (Word × Nat) := (qSides c p).drop 1

/-- BAD_SPACE of the first side that fails R90 or R287 (R300). -/
def qSpaceFault (s : State) (st : Strand) : List (Word × Nat) → Option (Word × Nat)
  | [] => none
  | (ea, n) :: t =>
    match rangeFault s st.core st.ctx ea n with
    | some r => some (ea, r)
    | none => qSpaceFault s st t

/-- The die whose engine serves a die's commands: its own, or the next one on the ring (R306). -/
def qEngine (s : State) (d : BitVec 2) : Option (BitVec 2) :=
  ((List.range 4).map fun i => d + BitVec.ofNat 2 i).find? fun x => !s.isOut (.die x) && !s.isOut (.qengine x)

/-- A list of 8 words as a parameter block. -/
def params8 (l : List Word) : Vector Word 8 := Vector.ofFn fun i => l.getD i.val 0

/-! ### qcmd and qwait (R301-R303) -/

/-- The wait for the counter and for room, and the command handed over (R301 steps 4 and 5). -/
def handQcmd (s : State) (h : Handle) (st : Strand) (block c : Word) (p : Vector Word 8) (touched : BitVec 48) : Res State :=
  if qKind c = 0 ∧ (s.core st.core).c[(qIdx c).toFin] = BitVec.allOnes 16 then .error (.park (.counter (qIdx c) 0xFFFE))
  else
    match qEngine s st.core.die with
    | none => .error (.park .engineRoom)
    | some d =>
      if (s.die d).qqueue.length ≥ 256 then .error (.park .engineRoom)
      else
        let m : QCmd := { id := s.fresh, h := h, ctx := st.ctx, launch := st.launch, core := st.core, ctrl := c, blockAt := block
                          params := p, xr := issueXr s st, level := (s.core st.core).level, epoch := s.cycle / epochCycles
                          block := 0, pos := 0, rowPos := 0, tail := [], aside := false, reread := false, missed := false, flags := {}
                          amax := none }
        let s1 := s.bump.modDie d fun x => { x with qqueue := x.qqueue ++ [m] }
        let s2 := if qKind c = 0 then raiseCounter s1 st.core (qIdx c) else s1
        retire s2 h ((st.orTmask touched).record 7 0 block []) [] none

/-- R301. -/
def execQcmd (g : Option Guard) (a b : Fin 24) (s : State) : Out :=
  issue g s fun h st => do
    let block ← gsrc st a
    let c ← gsrc st b
    if qIllegal c then .error (illegal s 7)
    else
      recorded st 7 block (fun _ => retire s h st.replayNext [] none) do
        let (s1, ws) ← loadWords s h st block 8
        let p := params8 ws
        match qBadField c p with
        | some (off, v) => .error (.fault ⟨0x4A, 0, [BitVec.ofNat 64 off, BitVec.ofNat 64 v]⟩)
        | none =>
          match qSpaceFault s1 st (qSides c p) with
          | some (ea, r) => .error (badSpace ea r)
          | none => handQcmd s1 h st block c p (touchWords s h st block 8)

/-- The quantisation commands of a strand that have not completed (R303). -/
def qcmdsOf (s : State) (h : Handle) : List Nat :=
  s.dies.flatMap fun e => (e.2.qqueue.filter fun m => decide (m.h = h)).map QCmd.id

/-- R303. -/
def execQwait (g : Option Guard) (s : State) : Out :=
  issue g s fun h st =>
    if (qcmdsOf s h).isEmpty then retire s h { st.orFp st.qflags with qflags := {} } [] none
    else .error (.park (.qcmds (qcmdsOf s h)))

/-! ### The engine (R295, R301, R302) -/

/-- The command has a global side (R325). -/
def QCmd.global (m : QCmd) : Bool := (qSides m.ctrl m.params).any fun x => globalSide x.1

/-- The epoch in which a level-2 command with a global side completes at the earliest (R325). -/
def QCmd.due (m : QCmd) : Nat := lastEpoch m.epoch ((qRows m.params * qCols m.params * qSrcBytes m.ctrl + 7) / 8)

/-- The command completes on the epoch rule (R325). -/
def QCmd.scheduled (m : QCmd) : Bool := m.level == 2 && m.global

/-- An element of `n` bytes at an address as accesses that do not cross a word: whole where it is aligned, else byte by byte. -/
def pieces (ea : Word) (n v : Nat) : List (Word × Nat × Nat) :=
  if ea.toNat % n = 0 then [(ea, n, v)] else (List.range n).map fun i => (ea + BitVec.ofNat 64 i, 1, v / 256 ^ i % 256)

/-- Consecutive elements of `n` bytes from an address on. -/
def elementPieces (ea : Word) (n : Nat) : List Nat → List (Word × Nat × Nat)
  | [] => []
  | v :: t => pieces ea n v ++ elementPieces (ea + BitVec.ofNat 64 n) n t

/-- The number that pieces of an element read back to. -/
def readPieces (s : State) (own : CoreId) (ctx : CtxId) (ea : Word) (n : Nat) : Except EngineBlock (State × List Loc × Nat) :=
  let ps := pieces ea n 0
  match engineLocs s own ctx .read (ps.map (·.1)) with
  | .error e => .error e
  | .ok (s1, ls) => .ok (s1, ls, ((ls.zip ps).map fun x => s1.readN x.1.key x.2.2.1).foldr (fun b k => b + 256 * k) 0)

/-- The source elements of a block. -/
def readElements (s : State) (own : CoreId) (ctx : CtxId) (ea : Word) (n : Nat) : Nat → Except EngineBlock (State × List Loc × List Nat)
  | 0 => .ok (s, [], [])
  | k + 1 =>
    match readPieces s own ctx ea n with
    | .error e => .error e
    | .ok (s1, ls, v) =>
      match readElements s1 own ctx (ea + BitVec.ofNat 64 n) n k with
      | .error e => .error e
      | .ok (s2, ms, vs) => .ok (s2, ls ++ ms, v :: vs)

/-- The quantisation engine as the writer of a command. It posts writes where the schedule picks it, and none of a level-2 command with a global
side (R294, R325; DEDUCED, log entry 6). -/
def qWriter (s : State) (m : QCmd) : Writer :=
  { unit := .qengine ((qEngine s m.core.die).getD m.core.die), cmd := m.id, core := m.core, h := m.h, ctx := m.ctx, launch := m.launch
    posts := s.picks.getD 1 0 == 1 && !m.scheduled, rel := qRel m.ctrl, scope := qScope m.ctrl }

/-- Writes of a command at addresses, all located before the first is performed. -/
def writePieces (s : State) (m : QCmd) (ps : List (Word × Nat × Nat)) : Except EngineBlock State :=
  match engineLocs s m.core m.ctx .write (ps.map (·.1)) with
  | .error e => .error e
  | .ok (s1, ls) => .ok (engineWrites s1 (qWriter s1 m) ((ls.zip ps).map fun x => (x.1, x.2.2.1, x.2.2.2)))

/-- The block's sources with the draws of R73. -/
def QCmd.drawn (m : QCmd) (vs : List FVal) : List (FVal × BitVec 32) :=
  ((List.range vs.length).zip vs).map fun x =>
    (x.2, draw m.params[5] (BitVec.ofNat 32 (32 * m.block + x.1)) (m.params[6] + BitVec.ofNat 64 m.block))

/-- What a block becomes: its elements as pieces to write, its scale or none, the bytes of px8 data it takes, its flags (R62, R66, R76). -/
structure QBlock where
  writes : List (Word × Nat × Nat)
  scale : Option Nat
  used : Nat
  fl : Flags

/-- The conversion of a block (R301). -/
def QCmd.convert (m : QCmd) (vs : List FVal) : QBlock :=
  let c := m.ctrl
  let t := qDst c
  let rm := Rm.ofCode (qMode c)
  let bits := etypeBits t
  let at_ := m.params[1] + BitVec.ofNat 64 (m.block / m.perRow * qDstride m.params + m.block % m.perRow * (4 * bits))
  if isMx t then
    let r := mxBlock m.xr t rm (m.drawn vs)
    { writes := elementPieces at_ 1 ((bitBytes (r.2.1.flatMap fun x => bitsLow x bits)).map BitVec.toNat)
      scale := some r.1, used := 0, fl := r.2.2 }
  else if t = .px8 then
    let r := mapFlags (fun x => elementOf m.xr .e4m3 rm x.2 x.1) (m.drawn vs)
    let bytes := (bitBytes (px8Encode r.1)).map BitVec.toNat
    { writes := elementPieces (m.params[1] + BitVec.ofNat 64 m.pos) 1 bytes, scale := none, used := bytes.length, fl := r.2 }
  else
    let r := mapFlags (fun x => elementOf m.xr t rm x.2 x.1) (m.drawn vs)
    { writes := elementPieces at_ (bits / 8) r.1, scale := none, used := 0, fl := r.2 }

/-- The largest magnitude so far as a binary32 code; any NaN code is above every number (R301). -/
def magnitudeMax (src : EType) (codes : List Nat) (old : Nat) : Nat :=
  codes.foldl (fun k x => max k ((if src = .bf16 then x * 65536 else x) % 2 ^ 31)) old

/-- The amax word (R301). -/
def amaxWord (x : Nat) : Nat := if x > 0x7F800000 then FFmt.f32.nanCode else x

/-- What follows a row's elements, and the last row's, in the order of R295: scales, table entries, the amax word. -/
def QCmd.rowEnd (m : QCmd) (tail : List Nat) (pos mag : Nat) : List (Word × Nat × Nat) :=
  let t := qDst m.ctrl
  let r := m.block / m.perRow
  let last := m.block + 1 == m.total
  if m.block % m.perRow + 1 < m.perRow then []
  else
    (if isMx t then elementPieces (m.params[2] + BitVec.ofNat 64 (r * m.perRow)) 1 tail
     else if t = .px8 then
       pieces (m.params[2] + BitVec.ofNat 64 (4 * r)) 4 m.rowPos ++
       (if last then pieces (m.params[2] + BitVec.ofNat 64 (4 * r + 4)) 4 pos else [])
     else []) ++
    (if last && m.params[7] != 0 then pieces m.params[7] 4 (amaxWord mag) else [])

/-- LEASE_GONE of an engine command at a side (R194, R213, R302). -/
def qLeaseGone (m : QCmd) (ea : Word) (x : Side) : FaultInfo :=
  ⟨0x46, ea, [BitVec.ofNat 64 (x.core.core.toNat * 2 ^ 17 + x.off), 3, m.ctrl, m.blockAt]⟩

/-- The first scratchpad side of a list that no live lease of the context covers. -/
def qUnleased (s : State) (m : QCmd) : List (Word × Nat) → Option FaultInfo
  | [] => none
  | (ea, n) :: t =>
    match bankSide s m.core m.ctx ea n with
    | some x => if x.leased s m.ctx then qUnleased s m t else some (qLeaseGone m ea x)
    | none => qUnleased s m t

/-- A running sweep covers some byte of the scratchpad sides of a list (R363). -/
def sweptSides (s : State) (m : QCmd) (l : List (Word × Nat)) : Bool :=
  l.any fun x => (bankSide s m.core m.ctx x.1 x.2).any (Side.swept s)

/-- The next block of a command (R301). The length of px8 data is known only here, where its lease and a running sweep are looked at (R302, R363). -/
def quantBlock (s : State) (m : QCmd) : Except EngineBlock (State × QCmd) :=
  let src := m.params[0] + BitVec.ofNat 64 (m.block / m.perRow * qSstride m.params + m.block % m.perRow * (32 * qSrcBytes m.ctrl))
  match readElements s m.core m.ctx src (qSrcBytes m.ctrl) 32 with
  | .error e => .error e
  | .ok (s1, ls, codes) =>
    let b := m.convert (codes.map (elementValue m.xr (qSrc m.ctrl)))
    let there := if qDst m.ctrl = .px8 then [(m.params[1] + BitVec.ofNat 64 m.pos, b.used)] else []
    match qUnleased s1 m there, sweptSides s1 m there with
    | some f, _ => .error (.fault f)
    | none, true => .error .wait
    | none, false =>
      let tail := m.tail ++ b.scale.toList
      let pos := m.pos + b.used
      let mag := magnitudeMax (qSrc m.ctrl) codes (m.amax.getD 0)
      match writePieces s1 m (b.writes ++ m.rowEnd tail pos mag) with
      | .error e => .error e
      | .ok s2 =>
        let done := m.block % m.perRow + 1 = m.perRow
        .ok ((engineTouches s2 m.h ls).charge m.ctx 7 (32 * qSrcBytes m.ctrl / 8),
          { m with reread := false, block := m.block + 1, pos := pos, rowPos := if done then pos else m.rowPos, tail := if done then [] else tail
                   flags := m.flags.or b.fl, amax := some mag })

/-- A command replaced in its engine's queue. -/
def putQcmd (s : State) (d : BitVec 2) (m : QCmd) : State :=
  s.modDie d fun x => { x with qqueue := x.qqueue.map fun y => if y.id = m.id then m else y }

/-- A command completes as its kind selects (R301). -/
def completeQcmd (s : State) (d : BitVec 2) (m : QCmd) : State :=
  let s1 := s.modDie d fun x => { x with qqueue := x.qqueue.filter fun y => y.id != m.id }
  let s2 := s1.modStrand m.h fun st => { st with qflags := st.qflags.or m.flags }
  completeEngine s2 m.h m.core m.xr (qKind m.ctrl) (qIdx m.ctrl) false [(qTag m.ctrl).setWidth 64, m.flags.toWord]

/-- A command that has converted its last block: it completes, or waits for the end of its epoch (R301, R325). -/
def finishQcmd (s : State) (d : BitVec 2) (m : QCmd) : State :=
  if m.scheduled then
    let missed := epochOver s m.due
    putQcmd s d { m with epoch := if missed then s.cycle / epochCycles else m.due, missed := missed }
  else completeQcmd s d m

/-- A command ends with a fault of its task, and completes as its kind selects, on the epoch rule where that holds for it (R194, R302, R325). -/
def failQcmd (s : State) (d : BitVec 2) (m : QCmd) (f : FaultInfo) : State :=
  oweFault (finishQcmd s d { m with block := m.total, aside := false }) m.h m.ctx m.core m.launch m.level f

/-- A command is set aside at the block that met a translation fault or a memory error (R302, R382). -/
def asideQcmd (s : State) (d : BitVec 2) (m : QCmd) (e : Option (Word × AccessKind × Nat)) : State :=
  let s1 := match e with
    | some (va, kind, level) => s.faultEntry m.core m.ctx 0 va kind level
    | none => s
  (putQcmd s1 d { m with aside := true }).parkOn (.qcmd m.id)

/-- The command that an engine works on: the oldest that is neither set aside nor finished. -/
def activeQcmd (s : State) (d : BitVec 2) : Option QCmd := (s.die d).qqueue.find? fun m => !m.aside && !m.finished

/-- A command may go on: its acquire is done, and no running sweep covers what it writes (R294, R363). -/
def qReady (s : State) (m : QCmd) : Bool :=
  !(m.block == 0 && qAcq m.ctrl && earlierWork s m.core m.id (qScope m.ctrl)) &&
  !sweptSides s m (qWritten m.ctrl m.params)

/-- A command converts up to `n` blocks, and what stops it before. -/
def quantRun (s : State) (m : QCmd) : Nat → State × QCmd × Option EngineBlock
  | 0 => (s, m, none)
  | n + 1 =>
    match quantBlock s m with
    | .error e => (s, m, some e)
    | .ok (s1, m1) => if m1.finished then (s1, m1, none) else quantRun s1 m1 n

/-- The blocks that one step converts: all that remain, unless the schedule picks a number (DESIGN CHOICE, log entry 2). -/
def blocksNow (s : State) (m : QCmd) : Nat := if s.picks.headD 0 = 0 then m.total - m.block else s.picks.headD 0

/-- A command after the engine has worked on it. A poisoned line sets it aside once, and is its task's fault at the block's second attempt (R302, R389). -/
def afterRun (s : State) (d : BitVec 2) (m : QCmd) (e : Option EngineBlock) : State :=
  match e with
  | none => if m.finished then finishQcmd s d m else putQcmd s d m
  | some (.translation ea kind level) => asideQcmd s d m (some (ea, kind, level))
  | some (.poisoned f) => if m.reread then failQcmd s d m f else asideQcmd s d { m with reread := true } none
  | some .wait => putQcmd s d m
  | some (.fault f) => failQcmd s d m f

/-- QCMD_COMPLETE (R301): the engine converts the blocks of its oldest command, after the lease check of its sides at the first
block, and the command completes. -/
def execQcmdComplete (d : BitVec 2) (s : State) : Out :=
  match activeQcmd s d with
  | none => .next s
  | some m =>
    if !qReady s m then .next s
    else
      match (if m.block = 0 then qUnleased s m (qSides m.ctrl m.params) else none) with
      | some f => .next (failQcmd s d m f)
      | none =>
        let r := quantRun s m (blocksNow s m)
        .next (afterRun r.1 d r.2.1 r.2.2)

/-- QCMD_RESUME (R302): a command set aside goes on at its block once `replay` has issued it again. -/
def execQcmdResume (d : BitVec 2) (s : State) : Out :=
  match (s.die d).qqueue.find? fun m => m.aside && !s.onPage (.qcmd m.id) with
  | some m => .next (putQcmd s d { m with aside := false })
  | none => .next s

/-! ### Random numbers (R72-R75, R304, R305) -/

/-- R304. -/
def execRnd (g : Option Guard) (a b : Reg) (c : Fin 24) (s : State) : Out :=
  issue g s fun h st => do
    let seed ← src s h st 0 b
    let t ← gsrc st c
    let n ← gsrc st (gplus c 1)
    retire s h st [b] (some (a, (draw seed (t.setWidth 32) n).setWidth 64))

/-- The reservation of an image (R305). -/
def imageReservation (ws : List Word) : Reservation :=
  { seed := ws.getD 0 0, tlo := (ws.getD 1 0).setWidth 32, thi := (ws.getD 1 0).extractLsb' 32 32, clo := ws.getD 2 0, chi := ws.getD 3 0 }

/-- A reservation declares ranges in order (R74). -/
def Reservation.ok (r : Reservation) : Bool := decide (r.tlo.toNat ≤ r.thi.toNat) && decide (r.clo.toNat ≤ r.chi.toNat)

/-- Two reservations overlap (R74). -/
def Reservation.overlaps (a b : Reservation) : Bool :=
  a.seed == b.seed && decide (a.tlo.toNat ≤ b.thi.toNat) && decide (b.tlo.toNat ≤ a.thi.toNat) &&
  decide (a.clo.toNat ≤ b.chi.toNat) && decide (b.clo.toNat ≤ a.chi.toNat)

/-- The reservations of a context on a die. -/
def reservations (s : State) (d : BitVec 2) (ctx : CtxId) : List Reservation := Table.get [] ctx (s.die d).rng

/-- Why a die refuses a reservation: 1 with the entry it overlaps, or 2 for a full table (R74, R307). -/
def refusesReservation (s : State) (d : BitVec 2) (ctx : CtxId) (r : Reservation) : Option (Nat × Nat) :=
  let l := reservations s d ctx
  match (List.range l.length).find? fun i => (l[i]?).any (Reservation.overlaps r) with
  | some i => some (1, i)
  | none => if l.length ≥ 32 then some (2, 0) else none

/-- Every named die applies the reservation on its own (R74, R305). -/
def reserveAll (s : State) (ctx : CtxId) (r : Reservation) (ds : List (BitVec 2)) : State :=
  ds.foldl (fun s d =>
    match refusesReservation s d ctx r with
    | some _ => s
    | none => s.modDie d fun x => { x with rng := Table.put ctx (Table.get [] ctx x.rng ++ [r]) x.rng }) s

/-- The dies that a mask names; none named is the issuing die (R305). A die out of service is not named (DESIGN CHOICE, log entry 111). -/
def maskDies (s : State) (own : BitVec 2) (mask : BitVec 4) : List (BitVec 2) :=
  if mask = 0 then [own] else (s.diesIn).filter fun d => mask.getLsbD d.toNat

/-- RNG_OVERLAP (R307). -/
def rngOverlap (s : State) (ctx : CtxId) (r : Reservation) (ds : List (BitVec 2)) : Option FaultInfo :=
  match ds.filter fun d => (refusesReservation s d ctx r).isSome with
  | [] => none
  | d :: t =>
    let (why, i) := (refusesReservation s d ctx r).getD (0, 0)
    some ⟨0x49, 0, [BitVec.ofNat 64 ((d :: t).foldl (fun n x => n + 2 ^ x.toNat) 0), BitVec.ofNat 64 why, r.seed, BitVec.ofNat 64 i]⟩

/-- R305. -/
def execRngres (g : Option Guard) (a b : Fin 24) (s : State) : Out :=
  issue g s fun h st => do
    let ea ← gsrc st a
    let mask ← gsrc st b
    if mask.extractLsb' 4 60 ≠ 0 then .error (illegal s 7)
    else
      let (s1, ws) ← loadWords s h st ea 4
      let r := imageReservation ws
      if !r.ok then .error (illegal s 7)
      else
        let ds := maskDies s1 st.core.die (mask.setWidth 4)
        let s2 := reserveAll s1 st.ctx r ds
        match rngOverlap s1 st.ctx r ds with
        | some f => .error (.act (freeze s2 h st f))
        | none => retire s2 h (st.orTmask (touchWords s h st ea 4)) [] none

/-- R305: every entry of the context equal to the image leaves every die's table. -/
def execRngrel (g : Option Guard) (a : Fin 24) (s : State) : Out :=
  issue g s fun h st => do
    let ea ← gsrc st a
    let (s1, ws) ← loadWords s h st ea 4
    let r := imageReservation ws
    let s2 := { s1 with dies := s1.dies.map fun e =>
      (e.1, { e.2 with rng := e.2.rng.map fun x => if x.1 = st.ctx then (x.1, x.2.filter fun y => !decide (y = r)) else x }) }
    retire s2 h (st.orTmask (touchWords s h st ea 4)) [] none

end Sys2Proof.Machine
end

