-- ==== Sys2Proof/Machine/Copies.lean ====
section
/-! DEFINITION. Copies after their issue: the movement slot and the copy engine (R178, R204), the lease check (R194), the
firmware (R205), arrivals on a barrier (R206, R207), contributions to collective windows (R408-R410), and the level-2 epoch rule
(R325). -/

namespace Sys2Proof.Machine

/-! ### The sides of a copy (R177) -/

/-- The address of the local side of a copy at a word. -/
def Copy.localAt (m : Copy) (k : Nat) : Word :=
  coordAddr (coreOf m.home (copyLcore m.hi)) (copyLoff m.hi + 8 * k)

/-- The address of the remote side of a copy at a word. -/
def Copy.remoteAt (m : Copy) (k : Nat) : Word := m.lo + BitVec.ofNat 64 (8 * k)

/-- The addresses that a copy reads and writes at a word. -/
def Copy.srcAt (m : Copy) (k : Nat) : Word := if copyOut m.hi then m.localAt k else m.remoteAt k
def Copy.dstAt (m : Copy) (k : Nat) : Word := if copyOut m.hi then m.remoteAt k else m.localAt k

/-- The scratchpad sides of a copy with their addresses: the local side, and the remote side where it is a bank. -/
def Copy.sides (m : Copy) (s : State) : List (Word × Side) :=
  (m.localAt 0, ⟨coreOf m.home (copyLcore m.hi), copyLoff m.hi, 8 * m.len⟩) ::
  ((bankSide s m.core m.ctx m.lo (8 * m.len)).map fun x => (m.lo, x)).toList

/-- Some of the remote side lies in a window homed on another module (R407). -/
def Copy.abroad (m : Copy) (s : State) : Bool := !(homesAbroad s m.core m.ctx m.lo (8 * m.len)).isEmpty

/-- The copy completes on the epoch rule (R325, R407). -/
def Copy.scheduled (m : Copy) (s : State) : Bool := m.level == 2 && (globalSide m.lo || m.abroad s)

/-- A copy replaced in its core's list. -/
def putCopy (s : State) (m : Copy) : State :=
  s.modCore m.core fun x => { x with copies := x.copies.map fun y => if y.id = m.id then m else y }

/-- A copy that finishes on the epoch rule takes the epoch at whose end it completes (R325). -/
def stampCopy (s : State) (m : Copy) : Copy :=
  let due := lastEpoch (m.issued / epochCycles) m.len
  if m.scheduled s then
    if epochOver s due then { m with epoch := s.cycle / epochCycles, missed := true } else { m with epoch := due }
  else m

/-- A copy with its progress kept in its core's list. -/
def keepCopy (s : State) (m : Copy) : State := putCopy s (if m.finished then stampCopy s m else m)

/-! ### COPY_ISSUE (R143, R178) -/

/-- COPY_ISSUE (R178): the movement slot takes the command of the copy register while fewer than 128 copies are in flight. -/
def execCopyIssue (c : CoreId) (s : State) : Out :=
  match (s.core c).copyReg with
  | none => .next s
  | some m =>
    if (s.core c).copies.length ≥ 128 then .next s
    else .next (s.modCore c fun x => { x with copyReg := none, copies := x.copies ++ [{ m with issued := s.cycle }] })

/-! ### Arrival registers (R206, R207) -/

/-- The core and the offset of the barrier object of a kind-2 copy, in the receiving cluster (R177). -/
def Copy.object (m : Copy) (s : State) : CoreId × Nat :=
  let cl := if copyOut m.hi then (match s.space m.core m.ctx m.lo with
    | .ok (.bank c _) => clusterOf c
    | _ => m.home) else m.home
  let obj := copyObj m.hi
  (coreOf cl (obj.extractLsb' 14 3), (obj.extractLsb' 0 14).toNat * 8)

/-- The coordinate-form address of the object of a copy. -/
def Copy.objectAddr (m : Copy) (s : State) : Word := coordAddr (m.object s).1 (m.object s).2

/-- The arrival register of the object's bank has room (R206). -/
def arrivalRoom (s : State) (m : Copy) : Bool := decide ((s.place (.bank (m.object s).1)).arrivals.length < 32)

/-- A step of a copy at its barrier object is an access of the object's bank for the issuing strand (R88, R207, R209). -/
def touchObject (s : State) (m : Copy) : State :=
  let l := bankLoc (m.objectAddr s) (m.object s).1 (m.object s).2
  (engineTouch s m.h l).noteAccess l.place l.key 8

/-- A kind-2 copy records its entry (R206). -/
def recordArrival (s0 : State) (m : Copy) : State :=
  let s := touchObject s0 m
  let key := (m.objectAddr s).toNat
  let e : Arrival := { copy := m.id, key := key, gen := barGen (s.readWord key), state := if s.isTagged key then 0 else 2 }
  s.modPlace (.bank (m.object s).1) fun x => { x with arrivals := x.arrivals ++ [e] }

/-- A report to mailbox 15 of the issuing core (R207). -/
def reportArrival (s : State) (m : Copy) (code : Nat) (gen : BitVec 16) : State :=
  postMessage s m.h m.xr m.core 15 false [m.objectAddr s, gen ++ 0#46 ++ BitVec.ofNat 2 code]

/-- The arrival step of a copy would write a barrier object that a running sweep covers: its engine holds it (R207, R363). -/
def arrivalHeld (s : State) (m : Copy) : Bool :=
  copyKind m.hi == 2 && m.state != 3 && (Side.swept s ⟨(m.object s).1, (m.object s).2, 8⟩) &&
  ((s.place (.bank (m.object s).1)).arrivals.find? fun e => e.copy == m.id).any fun e =>
    e.state == 0 && barGen (s.readWord (m.objectAddr s).toNat) == e.gen

/-- The arrival step of a kind-2 copy (R88, R207). -/
def arriveCopy (s : State) (m : Copy) : State :=
  let p : Place := .bank (m.object s).1
  let key := (m.objectAddr s).toNat
  match (s.place p).arrivals.find? fun e => e.copy == m.id with
  | none => s
  | some e =>
    let s1 := (touchObject s m).modPlace p fun x => { x with arrivals := x.arrivals.filter fun y => y.copy != m.id }
    let w := s1.readWord key
    if e.state = 0 ∧ barGen w = e.gen then (s1.putTagged p key (barArrive w)).serve p key
    else if e.state = 2 then reportArrival s1 m 2 e.gen
    else reportArrival s1 m 1 e.gen

/-! ### Beginning a copy (R178, R194, R206, R410) -/

/-- LEASE_GONE of a copy at the first side that no live lease of its context covers (R194, R213). -/
def copyUnleased (s : State) (m : Copy) : Option FaultInfo :=
  ((m.sides s).find? fun x => !x.2.leased s m.ctx).map fun x =>
    ⟨0x46, x.1, [BitVec.ofNat 64 (x.2.core.core.toNat * 2 ^ 17 + x.2.off), 3, m.lo, m.hi]⟩

/-- The collective window that a copy contributes to, with its place in the list (R408, R409). -/
def Copy.window (m : Copy) (s : State) : Option (Nat × Window) :=
  if !copyOut m.hi then none
  else
    match s.space m.core m.ctx m.lo with
    | .ok (.slice i off) =>
      ((List.range s.windows.length).zip s.windows).find? fun x =>
        decide (x.2.bind.ctx = m.ctx) && decide (x.2.bind.slice = i) && decide (x.2.bind.window = windowOf off) && x.2.bind.collective.isSome
    | _ => none

/-- The offset of the remote side in its slice. -/
def Copy.offset (m : Copy) (s : State) : Nat :=
  match s.space m.core m.ctx m.lo with
  | .ok (.slice _ off) => off
  | _ => 0

/-- The member index of this module in a window's job, where it is a member (R405, R408). -/
def memberIndex (s : State) (w : Window) : Option Nat :=
  let l := Table.get [] w.bind.ctx s.jobs
  match w.bind.collective with
  | some (g, _, _, _) => if l.idxOf s.position < l.length ∧ l.idxOf s.position < g then some (l.idxOf s.position) else none
  | none => none

/-- The next generation of a member (R409). -/
def nextGeneration (w : Window) (k : Nat) : Nat := Table.get 0 k w.counts

/-- A range differs from the first contribution of its generation (R410). -/
def rangeDiffers (w : Window) (gen off len : Nat) : Bool :=
  ((w.pending.find? fun x => x.gen == gen).map fun x => x.off != off || x.words.length != len).getD false

/-- Why a contribution fails (R410). -/
def contributionFault (s : State) (m : Copy) (w : Window) : Option Nat :=
  match memberIndex s w with
  | none => some 2
  | some k =>
    if rangeDiffers w (nextGeneration w k) (m.offset s) m.len then some 1
    else if (w.bind.collective.any fun x => !x.2.2.2) && m.level != 0 then some 3
    else none

/-- What a copy fails at its begin: a lease, or a rule of its collective window (R194, R410). -/
def copyFault (s : State) (m : Copy) : Option FaultInfo :=
  match copyUnleased s m with
  | some f => some f
  | none =>
    match m.window s with
    | some (_, w) =>
      if w.bind.home ≠ s.position ∧ s.lost w.bind.home then some (fabricLost w.bind.home m.lo)
      else (contributionFault s m w).map fun r => ⟨0x55, m.lo, [BitVec.ofNat 64 r, m.lo, m.hi]⟩
    | none => none

/-- A copy fails: it moves nothing, completes as its kind selects, and its task faults (R194). -/
def failCopy (s : State) (m : Copy) (f : FaultInfo) : State :=
  oweFault (keepCopy s { m with state := 3 }) m.h m.ctx m.core m.launch m.level f

/-- The next contribution of a member to a window has its generation, though it contributes nothing (R409, R410; DEDUCED, log entry 81). -/
def passGeneration (s : State) (i : Nat) (w : Window) (member : Nat) : State :=
  { s with windows := s.windows.set i { w with counts := Table.put member (nextGeneration w member + 1) w.counts } }

/-- A copy fails its check at its begin; a contribution that fails has its generation all the same (R194, R410). -/
def failBegin (s : State) (m : Copy) (f : FaultInfo) : State :=
  match m.window s with
  | some (i, w) => match memberIndex s w with
    | some k => failCopy (passGeneration s i w k) m f
    | none => failCopy s m f
  | none => failCopy s m f

/-- A copy may begin or go on: its acquire is done, the arrival register has room, and no running sweep covers its destination
(R178, R206, R294, R363). -/
def copyReady (s : State) (m : Copy) : Bool :=
  !(m.state == 0 && ((copyAcq m.hi && earlierWork s m.core m.id (copyScope m.hi)) || (copyKind m.hi == 2 && !arrivalRoom s m))) &&
  !((bankSide s m.core m.ctx (m.dstAt 0) (8 * m.len)).any (Side.swept s))

/-! ### Collective windows (R408, R409) -/

/-- The element type of a collective window. -/
def collType : CollType → EType
  | .f32 => .f32
  | .f64 => .f64
  | .s64 => .s64

/-- The reduction of a collective window. -/
def collRed : CollOp → RedOp
  | .add => .add
  | .min => .min
  | .max => .max

/-- The value of a window's element in a word: the low or the high half of an `.f32` word, else the word (R408). -/
def collPart (t : CollType) (hi : Bool) (w : Word) : Nat :=
  match t with
  | .f32 => if hi then (w.extractLsb' 32 32).toNat else (w.setWidth 32 : BitVec 32).toNat
  | _ => w.toNat

/-- The result of one element over the contributions of a generation: the tree of R77 over P positions, or the arrival order (R409). -/
def collReduce (t : EType) (op : RedOp) (ordered : Bool) (g : Nat) (byMember : List Nat) (byArrival : List Nat) : Nat :=
  if ordered then
    let n := Nat.log2 (2 * g - 1)
    ((treeLevels (redNode false t op) n (padTo (2 ^ n) (redIdentity false t op) byMember)).headD (0, {})).1
  else
    match byArrival with
    | [] => 0
    | x :: l => (l.foldl (fun a c => redNode false t op a (c, {})) (x, {})).1

/-- The result word of a generation at a word index. -/
def collWord (g : Nat) (t : CollType) (op : CollOp) (ordered : Bool) (cs : List Contribution) (w : Nat) : Word :=
  let members := (List.range g).map fun k => ((cs.find? fun c => c.member == k).map fun c => c.words.getD w 0).getD 0
  let arrived := cs.map fun c => c.words.getD w 0
  let one := fun hi => collReduce (collType t) (collRed op) ordered g (members.map (collPart t hi)) (arrived.map (collPart t hi))
  match t with
  | .f32 => BitVec.ofNat 32 (one true) ++ BitVec.ofNat 32 (one false)
  | _ => BitVec.ofNat 64 (one false)

/-- The result of a generation written at the home slice. -/
def writeResult (s : State) (b : WindowBinding) (off : Nat) : List Word → State
  | [] => s
  | w :: t =>
    let l := s.sliceLoc b.ctx (sliceAddr b.slice off) b.slice off
    writeResult (s.store l.place l.key 8 w.toNat true) b (off + 8) t

/-- A copy of this module whose contribution's result has been written completes like one that has moved its last word (R409). -/
def releaseContribution (s : State) (id : Nat) : State :=
  let own := (s.cores.findSome? fun e => e.2.copies.find? fun m => m.id == id && m.state == 4)
  match own with
  | some m =>
    let l := s.sliceLoc m.ctx m.lo (match s.space m.core m.ctx m.lo with
      | .ok (.slice i _) => i
      | _ => ⟨0, 0⟩) (m.offset s)
    keepCopy (engineTouch s m.h l) { m with state := 1, done := m.len }
  | none => s

/-- A window replaced in the list. -/
def putWindow (s : State) (i : Nat) (w : Window) : State := { s with windows := s.windows.set i w }

/-- A contribution is held, and the last one of its generation gives the result (R409). -/
def contribute (s : State) (i : Nat) (w : Window) (member off : Nat) (words : List Word) (copy : Option Nat) : State :=
  let gen := nextGeneration w member
  let c : Contribution := ⟨member, gen, off, words, copy⟩
  let w1 := { w with counts := Table.put member (gen + 1) w.counts, pending := w.pending ++ [c] }
  match w.bind.collective with
  | none => s
  | some (g, t, op, ordered) =>
    let cs := w1.pending.filter fun x => x.gen == gen
    if cs.length < g then putWindow s i w1
    else
      let s1 := putWindow s i { w1 with pending := w1.pending.filter fun x => x.gen != gen }
      let s2 := writeResult s1 w.bind off ((List.range words.length).map (collWord g t op ordered cs))
      (cs.filterMap (·.copy)).foldl releaseContribution s2

/-- A range of words lies in a window (R287, R406). -/
def windowHolds (b : WindowBinding) (off len : Nat) : Bool :=
  off % 8 == 0 && windowOf off == b.window && decide (off < 2 ^ 20) && decide (off % 65536 + 8 * len ≤ 65536)

/-- Another member of a window can make a contribution there: some link has come up, where the window's home is here (R404, R408). -/
def memberReaches (s : State) (w : Window) (member : Nat) : Bool :=
  (w.bind.collective.any fun x => decide (member < x.1)) && memberIndex s w != some member && (decide (w.bind.home ≠ s.position) || s.anyLink)

/-- COLL_CONTRIBUTION (R409, R410): a contribution of another member arrives at a collective window. One whose range differs from the first of its
generation, or that has failed on its own module, for its level or for a lease, contributes nothing, though the generation is its own (DEDUCED, log entry 81;
DESIGN CHOICE, log entry 2). -/
def execCollContribution (window member off : Nat) (words : List Word) (s : State) : Out :=
  match s.windows[window]? with
  | some w =>
    if memberReaches s w member && !words.isEmpty && windowHolds w.bind off words.length then
      if rangeDiffers w (nextGeneration w member) off words.length || s.picks.headD 0 != 0 then .next (passGeneration s window w member)
      else .next (contribute s window w member off words none)
    else .next s
  | none => .next s

/-- A contribution of this module that its window holds, or a copy that goes on, is a contribution to a module that is lost (R403, R409). -/
def heldLost (s : State) (m : Copy) : Bool :=
  m.state == 4 && (m.window s).any fun w => decide (w.2.bind.home ≠ s.position) && s.lost w.2.bind.home

/-- A held contribution to a lost module faults FABRIC_LOST, and its window holds it no more (R403). -/
def failHeld (s : State) (m : Copy) : State :=
  match m.window s with
  | some (i, w) =>
    failCopy (putWindow s i { w with pending := w.pending.filter fun x => x.copy != some m.id }) m (fabricLost w.bind.home m.lo)
  | none => s

/-- Every contribution that this module has at a lost module faults (R403). -/
def failLostCopies (s : State) : State :=
  (s.cores.flatMap fun e => e.2.copies.filter (heldLost s)).foldl failHeld s

/-- A copy of this module into a collective window: its source words are read and held as a contribution, once a link to the window's home has come up (R404,
R409). -/
def beginContribution (s : State) (m : Copy) (i : Nat) (w : Window) : State :=
  if w.bind.home ≠ s.position ∧ !s.linked w.bind.home then s
  else
  match engineLocs s m.core m.ctx .read ((List.range m.len).map m.localAt) with
  | .ok (s1, ls) =>
    let s2 := engineTouches (keepCopy s1 { m with state := 4 }) m.h ls
    contribute (s2.charge m.ctx 7 m.len) i w ((memberIndex s w).getD 0) (m.offset s) (ls.map fun l => s1.readWord l.key) (some m.id)
  | .error (.fault f) | .error (.poisoned f) => failBegin s m f
  | .error (.translation ..) | .error .wait => s

/-! ### Moving words (R178, R204, R205) -/

/-- The copy engine as the writer of a copy. It posts writes where the schedule picks it; the arrival of a kind-2 copy is preceded by a release
(R206), and a level-2 copy with a global side has moved its words when its epoch ends (R325; DEDUCED, log entry 6). -/
def copyWriter (s : State) (m : Copy) : Writer :=
  { unit := .copyEngine (clusterOf m.core), cmd := m.id, core := m.core, h := m.h, ctx := m.ctx, launch := m.launch
    posts := s.picks.headD 0 == 1 && copyKind m.hi != 2 && !m.scheduled s, rel := copyRel m.hi, scope := copyScope m.hi }

/-- One word of a copy: read, then written and set full (R178). -/
def moveWord (s : State) (m : Copy) : Except EngineBlock State :=
  match engineLoc s m.core m.ctx .read (m.srcAt m.done) with
  | .error e => .error e
  | .ok (s1, l) =>
    match engineLoc s1 m.core m.ctx .write (m.dstAt m.done) with
    | .error e => .error e
    | .ok (s2, k) =>
      let s3 := engineTouch s2 m.h l
      .ok ((engineWrite s3 (copyWriter s3 m) k 8 (s3.readWord l.key).toNat).charge m.ctx 7 1)

/-- Up to `n` further words of a copy, and what stops it before. -/
def moveWords (s : State) (m : Copy) : Nat → State × Copy × Option EngineBlock
  | 0 => (s, m, none)
  | n + 1 =>
    if m.done = m.len then (s, m, none)
    else
      match moveWord s m with
      | .error e => (s, m, some e)
      | .ok s1 => moveWords s1 { m with done := m.done + 1 } n

/-- A copy is handed to the firmware with its progress: on a translation fault it waits for `replay`, at a memory error the firmware reads once more
(R205, R382, R389). -/
def handFirmware (s : State) (m : Copy) (e : Option (Word × AccessKind × Nat)) : State :=
  let s1 := putCopy s { m with state := 2, firmware := true }
  match e with
  | some (va, kind, level) =>
    (s1.faultEntry m.core m.ctx 0 va kind level).parkOn (.copy m.id)
  | none => s1

/-- A copy after some of its words have moved, and what stopped it; a second error of a line that the firmware has read once more is the task's fault
(R205, R389). Such a copy, and one that a fault of permission stops midway, completes as its kind selects, a kind-2 copy as lost (DESIGN CHOICE, log entry 102). -/
def afterMove (s : State) (m : Copy) (e : Option EngineBlock) : State :=
  match e with
  | none => keepCopy s m
  | some (.translation ea kind level) => handFirmware s m (some (ea, kind, level))
  | some (.poisoned f) => if m.firmware then failCopy s m f else handFirmware s m none
  | some .wait => keepCopy s m
  | some (.fault f) => failCopy s m f

/-- The copy of a core that the engine works on: the oldest that it has not finished with (R204). -/
def activeCopy (s : State) (c : CoreId) : Option Copy := (s.core c).copies.find? fun m => !m.finished && (m.state == 0 || m.state == 1)

/-- The copy engine of a cluster can take a burst of a core. -/
def burstReady (s : State) (c : CoreId) : Bool := (activeCopy s c).any (copyReady s)

/-- The core whose burst the engine takes next, round-robin (R204). -/
def burstTurn (s : State) (c : ClusterId) : Option CoreId :=
  ((List.range 8).map fun k => coreOf c (BitVec.ofNat 3 ((s.cluster c).nextCopy + k))).find? (burstReady s)

/-- A copy begins: its checks, its arrival entry, its contribution (R178, R194, R206, R410), and up to `n` words. -/
def beginCopy (s : State) (m : Copy) (n : Nat) : State × Copy × Option EngineBlock :=
  let s1 := if copyKind m.hi = 2 then recordArrival s m else s
  moveWords s1 { m with state := 1 } n

/-- The first burst of a copy, or the fault that its checks find, or the contribution that it is (R178, R194, R206, R410). -/
def firstBurst (s : State) (m : Copy) : State :=
  match copyFault s m, m.window s with
  | some f, _ => failBegin s m f
  | none, some (i, w) => beginContribution s m i w
  | none, none => let r := beginCopy s m 8; afterMove r.1 r.2.1 r.2.2

/-- A copy that the engine works on stops before its next word, with no fault, and is handed to the firmware (R205). -/
def handOver (s : State) (m : Copy) : State :=
  if m.state = 0 then let r := beginCopy s m 0; handFirmware r.1 r.2.1 none else handFirmware s m none

/-- COPY_BURST (R204): up to 8 words of a copy, the checks of a copy at its first burst. A halted cluster starts no burst (R209). -/
def execCopyBurst (c : CoreId) (s : State) : Out :=
  match activeCopy s c with
  | none => .next s
  | some m =>
    if (s.cluster (clusterOf c)).dbg.halted ∨ burstTurn s (clusterOf c) ≠ some c then .next s
    else
      let s1 := s.modCluster (clusterOf c) fun x => { x with nextCopy := (c.core.toNat + 1) % 8 }
      if m.state = 0 then .next (firstBurst s1 m)
      else
        let r := moveWords s1 m 8
        .next (afterMove r.1 r.2.1 r.2.2)

/-! ### Completion (R178, R205, R207, R325) -/

/-- A copy completes as its kind selects (R178, R194, R207; DESIGN CHOICE, log entry 58). -/
def completeCopy (s : State) (m : Copy) : State :=
  let s1 := s.modCore m.core fun x => { x with copies := x.copies.filter fun y => y.id != m.id }
  if copyKind m.hi = 2 then
    if m.state = 3 ∧ !((s.place (.bank (m.object s).1)).arrivals.any fun e => e.copy == m.id) then
      (reportArrival s1 m 2 ((Config.freeWord s1.fresh).setWidth 16)).bump
    else if m.state = 3 then
      arriveCopy (s1.modPlace (.bank (m.object s).1) fun x => { x with arrivals := x.arrivals.map fun e =>
        if e.copy = m.id then { e with state := 2 } else e }) m
    else arriveCopy s1 m
  else completeEngine s1 m.h m.core m.xr (copyKind m.hi) (copyIdx m.hi) m.firmware [(copyObj m.hi).setWidth 64, 0]

/-- COPY_COMPLETE (R178): the oldest finished copy of a core completes, unless it waits for its epoch, or its arrival for a sweep (R325, R363). -/
def execCopyComplete (c : CoreId) (s : State) : Out :=
  match (s.core c).copies.find? fun m => m.finished && !m.scheduled s && !arrivalHeld s m with
  | some m => .next (completeCopy s m)
  | none => .next s

/-- The firmware has a copy to finish, which no running sweep of its destination holds (R205, R363). -/
def firmwareReady (s : State) (m : Copy) : Bool := m.state == 2 && !m.finished && copyReady s m

/-- The firmware writes the remaining words of a copy in ascending order and completes it as the engine would; a further fault sets it aside again (R205). -/
def finishCopy (s : State) (m : Copy) : State :=
  let r := moveWords s m m.len
  match r.2.2 with
  | none => let m1 := stampCopy r.1 r.2.1; if m1.scheduled r.1 || arrivalHeld r.1 m1 then putCopy r.1 m1 else completeCopy (putCopy r.1 m1) m1
  | some e => afterMove r.1 r.2.1 (some e)

/-- COPY_FIRMWARE_FINISH (R205): the firmware finishes a copy of a core that waits on no page. -/
def execCopyFirmwareFinish (c : CoreId) (s : State) : Out :=
  match (s.core c).copies.find? fun m => firmwareReady s m && !s.onPage (.copy m.id) with
  | some m => .next (finishCopy s m)
  | none => .next s

/-- A quantisation command of a core that has finished and whose epoch has ended, with its engine. -/
def overdueQcmd (s : State) (c : CoreId) : Option (BitVec 2 × QCmd) :=
  s.dies.findSome? fun e => (e.2.qqueue.find? fun m => decide (m.core = c) && m.finished && m.scheduled && epochOver s m.epoch).map fun m => (e.1, m)

/-- EPOCH_COMPLETION (R325): a finished level-2 command with a global side completes at the end of its epoch. -/
def execEpochCompletion (c : CoreId) (s : State) : Out :=
  match (s.core c).copies.find? fun m => m.finished && m.scheduled s && epochOver s m.epoch && !arrivalHeld s m with
  | some m => .next (raiseMiss (completeCopy s m) (clusterOf c) m.missed)
  | none =>
    match overdueQcmd s c with
    | some (d, m) => .next (raiseMiss (completeQcmd s d m) (clusterOf c) m.missed)
    | none => .next s

end Sys2Proof.Machine
end

