-- ==== Sys2Proof/Machine/Element.lean ====
section
/-! DEFINITION. Page 6: element-context tensors, element programs and sweeps (R348-R368). -/

namespace Sys2Proof.Machine

/-! ### Elements in the scratchpad (R348-R352) -/

/-- The slab of a tensor holds an element (R357). -/
def Tensor.owns (t : Tensor) (i : Nat) : Bool := decide (t.firstChunk ≤ i / 64) && decide (i / 64 < t.firstChunk + t.slabChunks)

/-- The bank, the bank offset and the skip-word offset of an element (R349). -/
def elementAt (cl : ClusterId) (t : Tensor) (i : Nat) : CoreId × Nat × Nat :=
  let lc := i / 64 - t.firstChunk
  let nb := t.bankList.length
  (coreOf cl (t.bankList.getD (lc % nb) 0), t.soff + lc / nb * 512 + 8 * (i % 64), t.koff + lc / nb * 8)

/-- The value of an element as a working register holds it: a bf16 value is widened (R349, R353). -/
def elementVal (s : State) (cl : ClusterId) (t : Tensor) (i : Nat) : BitVec 32 :=
  let (c, off, _) := elementAt cl t i
  let w := s.readN (coordAddr c off).toNat 4
  if t.ty = 1 then BitVec.ofNat 32 (w % 65536 * 65536) else BitVec.ofNat 32 w

/-- The context word of an element (R349, R350). -/
def contextOf (s : State) (cl : ClusterId) (t : Tensor) (i : Nat) : BitVec 32 :=
  let (c, off, _) := elementAt cl t i
  BitVec.ofNat 32 (s.readN (coordAddr c (off + 4)).toNat 4)

/-- The skip word of an element's chunk (R349). -/
def skipWord (s : State) (cl : ClusterId) (t : Tensor) (i : Nat) : Word :=
  let (c, _, koff) := elementAt cl t i
  s.readWord (coordAddr c koff).toNat

/-- The skip bit of an element (R349). -/
def skipBit (s : State) (cl : ClusterId) (t : Tensor) (i : Nat) : Bool := (skipWord s cl t i).getLsbD (i % 64)

/-- A read of the brush at a bank: the comparators of its cluster take note (R209). -/
def brushRead (s : State) (c : CoreId) (off n : Nat) : State := s.noteAccess (.bank c) (coordAddr c off).toNat n

/-- The brush reads the value, the context word, or the skip word of an element (R349). -/
def readsValue (s : State) (cl : ClusterId) (t : Tensor) (i : Nat) : State := let (c, off, _) := elementAt cl t i; brushRead s c off 4
def readsContext (s : State) (cl : ClusterId) (t : Tensor) (i : Nat) : State := let (c, off, _) := elementAt cl t i; brushRead s c (off + 4) 4
def readsSkip (s : State) (cl : ClusterId) (t : Tensor) (i : Nat) : State := let (c, _, koff) := elementAt cl t i; brushRead s c koff 8

/-- A write of the brush: full/empty bits stay as they are (R195, R209). -/
def brushWrite (s : State) (c : CoreId) (off n v : Nat) : State :=
  (s.noteAccess (.bank c) (coordAddr c off).toNat n).store (.bank c) (coordAddr c off).toNat n v false

/-- An element's context word written with its skip bit (R351). -/
def setContext (s : State) (cl : ClusterId) (t : Tensor) (i : Nat) (w : BitVec 32) (skip : Bool) : State :=
  let (c, off, koff) := elementAt cl t i
  let s1 := readsSkip (brushWrite s c (off + 4) 4 w.toNat) cl t i
  let old := skipWord s1 cl t i
  let bit := BitVec.twoPow 64 (i % 64)
  let new := if skip then old ||| bit else old &&& ~~~bit
  if new = old then s1 else brushWrite s1 c koff 8 new.toNat

/-- The fields of a context word (R350). -/
def ctxEpc (w : BitVec 32) : Nat := (w.extractLsb' 26 6).toNat
def ctxWait (w : BitVec 32) : Nat := (w.extractLsb' 22 4).toNat
def ctxWop (w : BitVec 32) : BitVec 6 := w.extractLsb' 16 6
def ctxLoc (w : BitVec 32) : BitVec 16 := w.setWidth 16
def ctxWord (epc : Nat) (wait : BitVec 4) (wop : BitVec 6) (loc : BitVec 16) : BitVec 32 := BitVec.ofNat 6 epc ++ wait ++ wop ++ loc

/-- The skip bit of a wait code (R351). -/
def skipOf (code : Nat) : Bool := decide (2 ≤ code)

/-- The neighbour of an element in a direction, within the extents (R352). -/
def neighbour (t : Tensor) (i : Nat) (d : Nat) : Option Nat :=
  let (stride, e) := match d / 2 with
    | 0 => (1, t.e0)
    | 1 => (t.e0, t.e1)
    | _ => (t.e0 * t.e1, t.e2)
  let c := i / stride % e
  if d % 2 = 1 then (if c + 1 < e then some (i + stride) else none)
  else (if 0 < c then some (i - stride) else none)

/-- The boundary value (R352). -/
def boundary (t : Tensor) : BitVec 32 := if t.bmax then (if t.ty = 2 then 0x7FFFFFFF else 0x7F800000) else 0

/-- What `enbr` reads (R352, R359, R361). -/
def neighbourVal (s : State) (cl : ClusterId) (t : Tensor) (i d : Nat) : BitVec 32 :=
  match neighbour t i d with
  | none => boundary t
  | some j => if t.owns j then elementVal s cl t j else Table.get 0 j t.halo

/-- The live elements of a slab, in storage order. -/
def Tensor.elements (t : Tensor) : List Nat :=
  (List.range (64 * t.slabChunks)).map (· + 64 * t.firstChunk) |>.filter fun i => decide (i < t.count)

/-- The live elements of a slab with skip bit 0 (R364). -/
def awakeCount (s : State) (cl : ClusterId) (t : Tensor) : Nat :=
  (List.range t.slabChunks).foldl (fun n k =>
    let i := 64 * (t.firstChunk + k)
    let w := skipWord s cl t i
    n + ((List.range (min 64 (t.count - i))).filter fun b => !w.getLsbD b).length) 0

/-! ### Element programs (R353, R354) -/

/-- Fields of an element op (R46). -/
def eop (w : Half) : Nat := (w.extractLsb' 12 4).toNat
def eopX (w : Half) : Nat := (w.extractLsb' 6 6).toNat
def eopY (w : Half) : Nat := (w.extractLsb' 0 6).toNat

/-- An op breaks the table of R354 in a program of `n` ops. -/
def badOp (n : Nat) (w : Half) : Bool :=
  let x := eopX w
  let y := eopY w
  match eop w with
  | 0 | 9 => decide (3 < x) || y != 0
  | 1 => decide (3 < x) || decide (5 < y)
  | 2 => false
  | 3 | 4 | 5 | 6 => decide (3 < x) || decide (3 < y)
  | 7 => decide (15 < x) || decide (3 < y)
  | 8 => decide (n ≤ x) || decide (2 < y)
  | 10 => decide (3 < x) || decide (1 < y)
  | 11 =>
    (match x with
     | 0 | 3 => y != 0
     | 1 => y == 0
     | 2 => false
     | _ => true)
  | 12 => decide (5 < x) || y != 0
  | 13 => x != 0 || y != 0
  | _ => true

/-- What a wake does to an element in its own slab: `d` is the direction of the woken element from an `eput`, none for an `ewake`
(R354, R359). -/
def wakeElement (s0 : State) (cl : ClusterId) (t : Tensor) (j : Nat) (d : Option (BitVec 3)) : State :=
  let s := readsContext s0 cl t j
  let w := contextOf s cl t j
  let hit := match d with
    | some d => ctxWait w == 2 && (ctxWop w == 0 || (ctxWop w).getLsbD (d.toNat ^^^ 1))
    | none => ctxWait w == 1 || ctxWait w == 2 || ctxWait w == 3
  if hit then setContext s cl t j (ctxWord (ctxEpc w) 0 0 (ctxLoc w)) false else s

/-- A running element (R353). -/
structure Visit where
  s : State
  w : Vector (BitVec 32) 4
  f : Bool
  loc : BitVec 16
  fl : Flags
  cross : List (Nat × Option (BitVec 3))

/-- A working register. -/
def Visit.reg (v : Visit) (i : Nat) : BitVec 32 := v.w[(Fin.ofNat 4 i)]

/-- A working register written. -/
def Visit.set (v : Visit) (i : Nat) (x : BitVec 32) : Visit := { v with w := v.w.set (Fin.ofNat 4 i) x }

/-- A wake of the neighbour in a direction; across a slab boundary it is kept for the exchange (R354, R359, R361). -/
def Visit.wake (v : Visit) (cl : ClusterId) (t : Tensor) (i d : Nat) (kind : Option (BitVec 3)) : Visit :=
  match neighbour t i d with
  | none => v
  | some j => if t.owns j then { v with s := wakeElement v.s cl t j kind } else { v with cross := v.cross ++ [(j, kind)] }

/-- The arithmetic of `eadd`, `emul`, `emin` and `emax` (R354). -/
def elementAlu (t : Tensor) (op : Nat) (a b : BitVec 32) : BitVec 32 × Flags :=
  if t.ty = 2 then
    match op with
    | 3 => (a + b, {})
    | 4 => (a * b, {})
    | 5 => (if a.toInt ≤ b.toInt then a else b, {})
    | _ => (if a.toInt ≤ b.toInt then b else a, {})
  else
    let r := match op with
      | 3 => FFmt.f32.add .rne a.toNat b.toNat
      | 4 => FFmt.f32.mul .rne a.toNat b.toNat
      | 5 => FFmt.f32.pick true a.toNat b.toNat
      | _ => FFmt.f32.pick false a.toNat b.toNat
    (BitVec.ofNat 32 r.1, r.2)

/-- The condition of `ecmp` (R354). -/
def elementCond (t : Tensor) (cond : Nat) (a b : BitVec 32) : Bool × Flags :=
  let cc := match cond with
    | 0 => Cond.eq
    | 1 => Cond.ne
    | 2 => Cond.lt
    | _ => Cond.le
  if t.ty = 2 then (condOfOrder cc (some (compare a.toInt b.toInt)), {}) else FFmt.f32.compare cc a.toNat b.toNat

/-- `eput`: the own value, rounded to bf16 for `bf16`, then the wakes of all neighbours in NBR (R354, R359). -/
def Visit.put (v : Visit) (cl : ClusterId) (t : Tensor) (i : Nat) (x : BitVec 32) : Visit :=
  let (c, off, _) := elementAt cl t i
  let r := if t.ty = 1 then FFmt.bf16.ofVal .rne 0 (FFmt.f32.value x.toNat) else (x.toNat, {})
  let v1 := { v with s := brushWrite v.s c off 4 r.1, fl := v.fl.or r.2 }
  (List.range 6).foldl (fun v d => v.wake cl t i d (some (BitVec.ofNat 3 d))) v1

/-- The immediate of `eimm` (R354). -/
def elementImm (t : Tensor) (w : Half) : BitVec 32 :=
  let k : Int := (w.extractLsb' 0 12).toInt
  if t.ty = 2 then BitVec.ofInt 32 k else BitVec.ofNat 32 (FFmt.f32.ofVal .rne 0 (FVal.ofInt k)).1

/-- A running element has read the value of an element of its slab. -/
def Visit.reads (v : Visit) (cl : ClusterId) (t : Tensor) (i : Nat) : Visit := { v with s := readsValue v.s cl t i }

/-- A running element has read the value of a neighbour, at the bank where its own slab holds it (R352, R361). -/
def Visit.readsNeighbour (v : Visit) (cl : ClusterId) (t : Tensor) (i d : Nat) : Visit :=
  match neighbour t i d with
  | some j => if t.owns j then v.reads cl t j else v
  | none => v

/-- What follows an op: the next op, or the end of the visit with the context word and the skip bit. -/
inductive OpEnd where
  | next (v : Visit) (pc : Nat)
  | stop (v : Visit) (w : BitVec 32) (skip : Bool)

/-- The end of a visit in DONE (R354). -/
def Visit.halt (v : Visit) : OpEnd := .stop v (ctxWord 0 4 0 v.loc) true

/-- One element op at an index of the program (R354). -/
def elementOp (cl : ClusterId) (t : Tensor) (i : Nat) (v : Visit) (pc : Nat) (w : Half) : OpEnd :=
  let x := eopX w
  let y := eopY w
  match eop w with
  | 0 => .next ((v.reads cl t i).set x (elementVal v.s cl t i)) (pc + 1)
  | 1 => .next ((v.readsNeighbour cl t i y).set x (neighbourVal v.s cl t i y)) (pc + 1)
  | 2 => .next (v.set 0 (elementImm t w)) (pc + 1)
  | 3 | 4 | 5 | 6 =>
    let r := elementAlu t (eop w) (v.reg x) (v.reg y)
    .next { v.set x r.1 with fl := v.fl.or r.2 } (pc + 1)
  | 7 =>
    let r := elementCond t (x / 4 % 4) (v.reg (x % 4)) (v.reg y)
    .next { v with f := r.1, fl := v.fl.or r.2 } (pc + 1)
  | 8 => .next v (if y = 0 ∨ (y = 1 ∧ v.f = true) ∨ (y = 2 ∧ v.f = false) then x else pc + 1)
  | 9 => .next (v.put cl t i (v.reg x)) (pc + 1)
  | 10 => .next (if y = 0 then v.set x (v.loc.signExtend 32) else { v with loc := (v.reg x).setWidth 16 }) (pc + 1)
  | 11 => .stop v (ctxWord (pc + 1) (BitVec.ofNat 4 x) (BitVec.ofNat 6 y) v.loc) (skipOf x)
  | 12 => .next (v.wake cl t i x none) (pc + 1)
  | _ => v.halt

/-- Ops of a visit from an index on, at most `n` of them (R360). -/
def runOps (cl : ClusterId) (t : Tensor) (i : Nat) : Nat → Visit → Nat → Visit × BitVec 32 × Bool
  | 0, v, pc => if pc < t.prog.length then (v, ctxWord pc 0 0 v.loc, false) else (v, ctxWord 0 4 0 v.loc, true)
  | n + 1, v, pc =>
    match t.prog[pc]? with
    | none => (v, ctxWord 0 4 0 v.loc, true)
    | some w =>
      match elementOp cl t i v pc w with
      | .next v1 pc1 => runOps cl t i n v1 pc1
      | .stop v1 c skip => (v1, c, skip)

/-- A pass so far: the state, the counts, the flags and the wakes across slabs. -/
structure Pass where
  s : State
  visits : Nat
  bad : Nat
  fl : Flags
  cross : List (Nat × Option (BitVec 3))

/-- One visit (R360). -/
def visitElement (cl : ClusterId) (t : Tensor) (p : Pass) (i : Nat) : Pass :=
  let w := contextOf p.s cl t i
  let s := readsContext p.s cl t i
  let p1 := { p with visits := p.visits + 1 }
  let code := ctxWait w
  if 5 ≤ code ∨ t.prog.length ≤ ctxEpc w then
    { p1 with s := setContext s cl t i (ctxWord 0 4 63 (ctxLoc w)) true, bad := p.bad + 1 }
  else if code = 1 ∧ 1 < (ctxWop w).toNat then
    { p1 with s := setContext s cl t i (ctxWord (ctxEpc w) 1 (ctxWop w - 1) (ctxLoc w)) false }
  else if 2 ≤ code then { p1 with s := setContext s cl t i w true }
  else
    let r := runOps cl t i 16 ⟨s, Vector.replicate 4 0, false, ctxLoc w, {}, []⟩ (ctxEpc w)
    { p1 with s := setContext r.1.s cl t i r.2.1 r.2.2, fl := p.fl.or r.1.fl, cross := p.cross ++ r.1.cross }

/-- The visits of one chunk: its live elements whose skip bit is 0 at the moment the brush reaches them (R359). -/
def visitChunk (cl : ClusterId) (t : Tensor) (p0 : Pass) (k : Nat) : Pass :=
  let i := 64 * (t.firstChunk + k)
  let p := { p0 with s := readsSkip p0.s cl t i }
  if skipWord p.s cl t i = BitVec.allOnes 64 then p
  else (List.range (min 64 (t.count - i))).foldl (fun p b => if skipBit p.s cl t (i + b) then p else visitElement cl t p (i + b)) p

/-- A sweep of a slab (R359). -/
def sweepSlab (s : State) (cl : ClusterId) (t : Tensor) : Pass := (List.range t.slabChunks).foldl (visitChunk cl t) ⟨s, 0, 0, {}, []⟩

/-! ### The brush (R358, R361, R362, R364) -/

/-- The ranges of a tensor in the banks of its slab's cluster: storage and skip map (R349). -/
def Tensor.ranges (t : Tensor) (cl : ClusterId) : List (Side × Side) :=
  ((List.range t.bankList.length).zip t.bankList).filterMap fun x =>
    let n := t.chunksIn x.1
    if n = 0 then none else some (⟨coreOf cl x.2, t.soff, 512 * n⟩, ⟨coreOf cl x.2, t.koff, 8 * n⟩)

/-- The brush of a cluster changed. -/
def modBrush (s : State) (c : ClusterId) (f : Brush → Brush) : State := s.modCluster c fun x => { x with brush := f x.brush }

/-- The tensor in a slot of a cluster's brush. -/
def tensorIn (s : State) (c : ClusterId) (slot : BitVec 2) : Option Tensor := (s.cluster c).brush.slots[slot.toFin]

/-- The tensor in a slot changed. -/
def modTensor (s : State) (c : ClusterId) (slot : BitVec 2) (f : Tensor → Tensor) : State :=
  modBrush s c fun b => { b with slots := b.slots.set slot.toFin ((b.slots[slot.toFin]).map f) }

/-- The command at the head of a brush's queue. -/
def headCmd (s : State) (c : ClusterId) : Option BrushCmd := (s.cluster c).brush.queue.head?

/-- One command of a brush changed. -/
def modCmd (s : State) (c : ClusterId) (id : Nat) (f : BrushCmd → BrushCmd) : State :=
  modBrush s c fun b => { b with queue := b.queue.map fun m => if m.id = id then f m else m }

/-- A command stands at the head of every slab's brush. -/
def atEveryHead (s : State) (t : Tensor) (id : Nat) : Bool := t.slabs.all fun c => (headCmd s c).any fun m => m.id == id

/-- The tmask bits of the banks that hold a chunk of the slab of a tensor on a cluster: the banks that a declaration writes and that a pass reads (R88). -/
def slabBits (c : ClusterId) (t : Tensor) : BitVec 48 := (t.ranges c).foldl (fun b x => b ||| BitVec.twoPow 48 x.1.core.core.toNat) 0

/-- A command touches banks of a cluster for its strand, where they lie in the strand's own (R88). -/
def touchBanks (s : State) (h : Handle) (c : ClusterId) (bits : BitVec 48) : State :=
  s.modStrand h fun st => if clusterOf st.core = c then st.orTmask bits else st

/-- A sweep touches the banks of elements for its strand (R88). -/
def touchElements (s : State) (h : Handle) (l : List (ClusterId × Tensor × Nat)) : State :=
  l.foldl (fun s e => touchBanks s h e.1 (BitVec.twoPow 48 (elementAt e.1 e.2.1 e.2.2).1.core.toNat)) s

/-- The tmask bits of the banks of a slab where a request writes, for the strand that made it (R88). -/
def requestBits (c : ClusterId) (t : Tensor) (r : TensorRequest) : BitVec 48 :=
  ((List.range r.count).filter fun k => t.owns (r.first + k)).foldl (fun b k => b ||| BitVec.twoPow 48 (elementAt c t (r.first + k)).1.core.toNat) 0

/-- A request touches the banks that it writes, where they lie in its strand's cluster (R88). -/
def touchRequest (s : State) (c : ClusterId) (t : Tensor) (r : TensorRequest) : State :=
  touchBanks s r.h c (requestBits c t r)

/-- A request applied: `skset` or `wake` (R88, R362, R366). -/
def applyRequest (s0 : State) (c : ClusterId) (t : Tensor) (r : TensorRequest) : State :=
  let s := touchRequest s0 c t r
  match r.word with
  | some w =>
    (List.range r.count).foldl (fun s k =>
      if t.owns (r.first + k) then setContext s c t (r.first + k) w (skipOf (ctxWait w)) else s) s
  | none =>
    if t.owns r.first then
      let w := contextOf s c t r.first
      setContext (readsContext s c t r.first) c t r.first (ctxWord ((r.epc.map (·.toNat)).getD (ctxEpc w)) 0 0 (ctxLoc w)) false
    else s

/-- The pending list of a brush applied in arrival order (R362). -/
def applyPending (s : State) (c : ClusterId) : State :=
  let rs := (s.cluster c).brush.pending
  let s1 := modBrush s c fun b => { b with pending := [] }
  rs.foldl (fun s r => match tensorIn s c r.slot with
    | some t => applyRequest s c t r
    | none => s) s1

/-- The elements of other slabs that an element of a slab reads (R361). -/
def Tensor.haloIndices (t : Tensor) : List Nat :=
  (t.elements.flatMap fun i => (List.range 6).filterMap fun d => (neighbour t i d).filter fun j => !t.owns j)

/-- The slab cluster that holds an element, with its record. -/
def slabHolding (s : State) (t : Tensor) (slot : BitVec 2) (j : Nat) : Option (ClusterId × Tensor) :=
  t.slabs.findSome? fun c => (tensorIn s c slot).bind fun x => if x.owns j then some (c, x) else none

/-- Every slab takes the values that its neighbours hold now, for the command of a strand (R88, R361). -/
def refreshHalos (s : State) (h : Handle) (t : Tensor) (slot : BitVec 2) : State :=
  t.slabs.foldl (fun s c =>
    match tensorIn s c slot with
    | some x =>
      let from_ := x.haloIndices.filterMap fun j => (slabHolding s x slot j).map fun y => (j, y)
      let s1 := touchElements s h (from_.map fun e => (e.2.1, e.2.2, e.1))
      modTensor (from_.foldl (fun s e => readsValue s e.2.1 e.2.2 e.1) s1) c slot fun x =>
        { x with halo := from_.map fun e => (e.1, elementVal s e.2.1 e.2.2 e.1) }
    | none => s) s

/-- The wakes across slab boundaries take effect, for the command of a strand (R88, R361). -/
def deliverCross (s : State) (h : Handle) (t : Tensor) (slot : BitVec 2) : State :=
  t.slabs.foldl (fun s c =>
    match tensorIn s c slot with
    | some x =>
      let s1 := modTensor s c slot fun y => { y with cross := [] }
      x.cross.foldl (fun s e => match slabHolding s x slot e.1 with
        | some (d, y) => wakeElement (touchElements s h [(d, y, e.1)]) d y e.1 e.2
        | none => s) s1
    | none => s) s

/-- The live elements of every slab with skip bit 0. -/
def awakeAll (s : State) (t : Tensor) (slot : BitVec 2) : Nat :=
  t.slabs.foldl (fun n c => match tensorIn s c slot with
    | some x => n + awakeCount s c x
    | none => n) 0

/-- Fields of a sweep control word (R366). -/
def swCount (c : Word) : Nat := (c.extractLsb' 0 8).toNat + 1
def swMbox (c : Word) : BitVec 4 := c.extractLsb' 8 4
def swQuiet (c : Word) : Bool := c.getLsbD 15
def swScope (c : Word) : Nat := (c.extractLsb' 16 3).toNat
def swAcq (c : Word) : Bool := c.getLsbD 19
def swRel (c : Word) : Bool := c.getLsbD 20

/-- A control word breaks its rows (R366). -/
def swIllegal (c : Word) : Bool :=
  c.extractLsb' 21 43 != 0 || c.extractLsb' 12 3 != 0 || swScope c == 7 || ((swAcq c || swRel c) != (swScope c != 0))

/-- The end of a sweep on every slab: the exchange, the quiet stop, the pending requests of a command that goes on (R361, R362, R366). -/
def endSweep (s : State) (t : Tensor) (m : BrushCmd) : State :=
  let s1 := if t.slabs.length ≤ 1 then s else refreshHalos (deliverCross s m.h t m.slot) m.h t m.slot
  let still := t.slabs.all fun c => (s1.cluster c).brush.pending.isEmpty
  let stop := decide (swCount m.ctrl ≤ m.sweeps) || (swQuiet m.ctrl && awakeAll s1 t m.slot == 0 && still)
  t.slabs.foldl (fun s c =>
    if stop then modCmd s c m.id fun x => { x with ended := true }
    else modCmd (applyPending s c) c m.id fun x => { x with passed := false }) s1

/-- A sweep command starts on every slab (R361, R365). -/
def startSweep (s : State) (t : Tensor) (m : BrushCmd) : State :=
  let s1 := t.slabs.foldl (fun s c => modCmd s c m.id fun x => { x with started := true }) s
  if t.slabs.length ≤ 1 then s1 else refreshHalos s1 m.h t m.slot

/-- The pass of a slab for a command: it reads the skip word of every chunk, and so touches every bank that holds one (R88, R359, R364). -/
def passSlab (s : State) (c : ClusterId) (t : Tensor) (m : BrushCmd) : State :=
  let p := sweepSlab (touchBanks s m.h c (slabBits c t)) c t
  let s1 := modTensor p.s c m.slot fun x => { x with cross := p.cross }
  (modCmd s1 c m.id fun x => { x with
    passed := true, sweeps := x.sweeps + 1, visits := x.visits + p.visits, bad := x.bad + p.bad, flags := x.flags.or p.fl }).charge t.ctx 3
    (2 * p.visits)

/-- SWEEP_PASS (R359): the brush of a cluster makes one sweep of its slab, once the command stands at the head of every slab's queue and
its acquire is done. -/
def execSweepPass (c : ClusterId) (s : State) : Out :=
  match headCmd s c with
  | none => .next s
  | some m =>
    match tensorIn s c m.slot with
    | none => .next s
    | some t =>
      if m.prog.isSome ∨ m.passed ∨ m.ended ∨ !atEveryHead s t m.id ∨ (!m.started && swAcq m.ctrl && earlierWork s m.core m.id (swScope m.ctrl)) then .next s
      else
        let s1 := if m.started then s else startSweep s t m
        match tensorIn s1 c m.slot with
        | none => .next s
        | some t1 =>
          let s2 := passSlab s1 c t1 m
          if t.slabs.length ≤ 1 then .next (endSweep s2 t { m with sweeps := m.sweeps + 1 }) else .next s2

/-- SLAB_EXCHANGE (R361): when every slab of a die tensor has finished the sweep, the boundary layers are exchanged and the wakes across
them take effect. -/
def execSlabExchange (c : ClusterId) (s : State) : Out :=
  match headCmd s c with
  | none => .next s
  | some m =>
    match tensorIn s c m.slot with
    | none => .next s
    | some t =>
      if t.slabs.length > 1 ∧ !m.ended ∧ t.slabs.all (fun k => (headCmd s k).any fun x => x.id == m.id && x.passed) then .next (endSweep s t m)
      else .next s

/-- A command leaves the queues of every slab. -/
def removeCmd (s : State) (t : Tensor) (id : Nat) : State :=
  t.slabs.foldl (fun s c => modBrush s c fun b => { b with queue := b.queue.filter fun m => m.id != id }) s

/-- The copies of a command on every slab. -/
def cmdCopies (s : State) (t : Tensor) (id : Nat) : List BrushCmd :=
  t.slabs.filterMap fun c => (s.cluster c).brush.queue.find? fun m => m.id == id

/-- The completion message of a sweep (R364; DEDUCED, log entry 56). -/
def sweepWords (s : State) (t : Tensor) (m : BrushCmd) : List Word :=
  let ms := cmdCopies s t m.id
  let fl : Flags := ms.foldl (fun (f : Flags) x => f.or x.flags) {}
  [BitVec.ofNat 64 m.sweeps, BitVec.ofNat 64 (ms.foldl (fun n x => n + x.visits) 0), BitVec.ofNat 64 (awakeAll s t m.slot),
   BitVec.ofNat 64 (ms.foldl (fun n x => n + x.bad) 0 % 2 ^ 32) ||| (fl.toWord <<< 32)]

/-- A tensor's program replaced on every slab (R366). -/
def loadProgram (s : State) (t : Tensor) (slot : BitVec 2) (prog : List Half) : State :=
  t.slabs.foldl (fun s c => modTensor s c slot fun x => { x with prog := prog }) s

/-- SWEEP_COMPLETE (R364): an ended sweep posts its message, and the pending requests are applied; a program command at the head of every
slab's queue replaces the program (R366). -/
def execSweepComplete (c : ClusterId) (s : State) : Out :=
  match headCmd s c with
  | none => .next s
  | some m =>
    match tensorIn s c m.slot with
    | none => .next s
    | some t =>
      match m.prog with
      | some p => if atEveryHead s t m.id then .next (removeCmd (loadProgram s t m.slot p) t m.id) else .next s
      | none =>
        if !m.ended then .next s
        else
          let s1 := t.slabs.foldl applyPending (removeCmd s t m.id)
          .next (postMessage s1 m.h m.xr m.core (swMbox m.ctrl) false (sweepWords s t m))

/-! ### Instructions (R366) -/

/-- TENSOR_KEY (R367). -/
def tensorKey (w : Word) (reason idx : Nat) : Exc := .fault ⟨0x52, 0, [w, BitVec.ofNat 64 reason, BitVec.ofNat 64 idx]⟩

/-- The tensor that a handle names, as the issuing cluster holds it (R358, R366). -/
def namedTensor (s : State) (st : Strand) (w : Word) : Res (BitVec 2 × Tensor) :=
  let slot : BitVec 2 := w.setWidth 2
  let c0 : ClusterId := ⟨st.core.die, w.extractLsb' 8 7⟩
  if w.extractLsb' 16 32 ≠ 0 ∨ w.extractLsb' 2 6 ≠ 0 then .error (tensorKey w 1 0)
  else
    match tensorIn s c0 slot with
    | some t =>
      if t.ctx ≠ st.ctx ∨ t.cluster0 ≠ c0 ∨ tensorHandle t slot.toNat ≠ w then .error (tensorKey w 1 0)
      else
        match (if t.slabs.contains (clusterOf st.core) then tensorIn s (clusterOf st.core) slot else none) with
        | some x => .ok (slot, x)
        | none => .error (tensorKey w 2 0)
    | none => .error (tensorKey w 1 0)

/-- `n` consecutive halfwords loaded by a strand (R355). -/
def loadHalves (s : State) (h : Handle) (st : Strand) (ea : Word) : Nat → Res (State × List Half × BitVec 48)
  | 0 => .ok (s, [], 0)
  | n + 1 => do
    let (s1, l) ← locate s h st ea 2 .read false
    let (s2, t, b) ← loadHalves s1 h st (ea + 2) n
    .ok (s2, BitVec.ofNat 16 (s1.readN l.key 2) :: t, b ||| tmaskBits st.core l)

/-- A program image, read and checked (R355, R366). -/
def loadImage (s : State) (h : Handle) (st : Strand) (ea : Word) : Res (State × List Half × BitVec 48) := do
  let (s1, c, b) ← loadHalves s h st ea 1
  let n := (c.headD 0).toNat
  if n = 0 ∨ 64 < n then .error (illegal s 7)
  else
    let (s2, ws, b2) ← loadHalves s1 h st (ea + 2) n
    match (List.range n).find? fun i => badOp n (ws.getD i 0) with
    | some i => .error (.trap (illegalInfo s.latch ⟨9, BitVec.ofNat 5 (s.latch.length - 1), BitVec.ofNat 6 i⟩))
    | none => .ok (s2, ws, b ||| b2)

/-- The fields of the placement word (R356). -/
def pwIllegal (a : Word) : Bool :=
  a.extractLsb' 48 8 == 0 || a.extractLsb' 40 7 != 0 || a.extractLsb' 30 2 != 0 || a.extractLsb' 0 16 != 0 ||
  (!a.getLsbD 63 && a.extractLsb' 56 7 != 0)

/-- TENSOR_DECL (R367). -/
def tensorDecl (ea : Word) (reason value : Nat) : FaultInfo := ⟨0x51, ea, [BitVec.ofNat 64 reason, BitVec.ofNat 64 value]⟩

/-- The value at fault of a descriptor that breaks R348 or R357 (reason 1 of R367). -/
def descTensorBad (ws : List Word) : Option Nat :=
  let e := fun i => (ws.getD (i / 2) 0).toNat / 2 ^ (32 * (i % 2)) % 2 ^ 32
  let nd := (ws.getD 1 0).toNat / 2 ^ 32 % 256
  let ty := (ws.getD 1 0).toNat / 2 ^ 40 % 256
  let z := (ws.getD 1 0).toNat / 2 ^ 48
  if nd < 1 ∨ 3 < nd then some nd
  else
    match (List.range 3).find? fun i => e i < 1 || 65536 < e i || (nd ≤ i && e i != 1) with
    | some i => some (e i)
    | none =>
      if 2 ^ 26 < e 0 * e 1 * e 2 then some (e 0 * e 1 * e 2)
      else if 2 < ty then some ty
      else if z ≠ 0 then some z
      else if ws.getD 3 0 ≠ 0 then some (ws.getD 3 0).toNat
      else none

/-- The clusters of a launch's logical clusters on a die, in order (R318, R357). -/
def logicalClusters (l : Launch) (d : BitVec 2) : List ClusterId :=
  ((List.range (l.logical.length / max l.cores 1)).filterMap fun i => (l.logical[i * l.cores]?).map clusterOf).filter fun c => c.die == d

/-- Two ranges of banks have a byte in common. -/
def Side.meets (a b : Side) : Bool := decide (a.core = b.core) && decide (a.off < b.off + b.len) && decide (b.off < a.off + a.len)

/-- A range outside the launch's leases or past 0x1_DFFF (reason 2 of R367). -/
def outsideLease (s : State) (launch : Nat) (x : Side) : Bool :=
  (sideReason x.off x.len).isSome || !((s.launch? launch).any fun l => l.covers x.core x.off x.len)

/-- Ranges of the tensors that a cluster's brush holds already. -/
def takenRanges (s : State) (cl : ClusterId) : List Side :=
  ((s.cluster cl).brush.slots.toList.filterMap id).flatMap fun t => (t.ranges cl).flatMap fun x => [x.1, x.2]

/-- The fault of a tensor's ranges on one slab cluster (reasons 2 and 3 of R367). -/
def rangesFault (s : State) (ea : Word) (t : Tensor) (cl : ClusterId) : Option FaultInfo :=
  let rs := t.ranges cl
  let all := rs.flatMap fun x => [x.1, x.2]
  match all.find? (outsideLease s t.launch) with
  | some x => some (tensorDecl ea 2 x.off)
  | none =>
    match (rs.find? fun x => x.1.meets x.2).map (·.2), all.find? (fun x => (takenRanges s cl).any x.meets) with
    | some x, _ | none, some x => some (tensorDecl ea 3 x.off)
    | none, none => none

/-- The lowest slot free on every slab cluster (R366). -/
def commonSlot (s : State) (cs : List ClusterId) : Option (BitVec 2) :=
  ((List.range 4).map (BitVec.ofNat 2)).find? fun i => cs.all fun c => (tensorIn s c i).isNone

/-- A new tensor's contexts and skip words on its slab: every live element in NEXT, every dead one asleep (R366). -/
def initSlab (s : State) (cl : ClusterId) (t : Tensor) : State :=
  (List.range t.slabChunks).foldl (fun s k =>
    let i := 64 * (t.firstChunk + k)
    let live := min 64 (t.count - i)
    let (c, off, koff) := elementAt cl t i
    let s1 := (List.range live).foldl (fun s b => brushWrite s c (off + 8 * b + 4) 4 0) s
    brushWrite s1 c koff 8 (2 ^ 64 - 2 ^ live)) s

/-- The tensor of a placement word and a descriptor, before it has a slot (R356, R357). -/
def newTensor (st : Strand) (a : Word) (ws : List Word) (prog : List Half) (slabs : List ClusterId) : Tensor :=
  let e := fun i => (ws.getD (i / 2) 0).toNat / 2 ^ (32 * (i % 2)) % 2 ^ 32
  { gen := 0, ctx := st.ctx, launch := st.launch, die := a.getLsbD 63, cluster0 := slabs.headD (clusterOf st.core), slabs := slabs, slab := 0
    e0 := e 0, e1 := e 1, e2 := e 2, ty := BitVec.ofNat 2 ((ws.getD 1 0).toNat / 2 ^ 40), bmax := a.getLsbD 47
    banks := a.extractLsb' 48 8, soff := (a.extractLsb' 32 8).toNat * 512, koff := (a.extractLsb' 16 14).toNat * 8, prog := prog
    halo := [], cross := [] }

/-- The tensor declared in a slot of every slab cluster (R358, R366). -/
def declareTensor (s : State) (t : Tensor) (slot : BitVec 2) : State :=
  let s1 := t.slabs.foldl (fun s c => modBrush s c fun b => { b with gens := b.gens.set slot.toFin (b.gens[slot.toFin] + 1) }) s
  let gen := (s1.cluster t.cluster0).brush.gens[slot.toFin]
  ((List.range t.slabs.length).zip t.slabs).foldl (fun s x =>
    let y := { t with gen := gen, slab := x.1 }
    initSlab (modBrush s x.2 fun b => { b with slots := b.slots.set slot.toFin (some y) }) x.2 y) s1

/-- The slab clusters of a placement word, or the fault of reason 5 (R356, R357, R367). -/
def slabClusters (s : State) (st : Strand) (a ea : Word) : Except FaultInfo (List ClusterId) :=
  if !a.getLsbD 63 then .ok [clusterOf st.core]
  else
    let p := (a.extractLsb' 56 7).toNat + 1
    let l := ((s.launch? st.launch).map fun l => logicalClusters l st.core.die).getD []
    if l.length < p then .error (tensorDecl ea 5 p) else .ok (l.take p)

/-- The checks of a declaration, in the order 1, 5, 6, 2, 3, 4 of R367's reasons, and the slot. -/
def checkTensor (s : State) (st : Strand) (a ea : Word) (ws : List Word) (prog : List Half) : Except FaultInfo (Tensor × BitVec 2) :=
  match slabClusters s st a ea with
  | .error f => .error f
  | .ok cs =>
    let t := newTensor st a ws prog cs
    if t.die ∧ (ws.getD 1 0).toNat / 2 ^ 32 % 256 = 3 ∧ 65536 < t.e0 * t.e1 then .error (tensorDecl ea 6 (t.e0 * t.e1))
    else
      match firstFault (((List.range cs.length).zip cs).map fun x => rangesFault s ea { t with slab := x.1 } x.2) with
      | some f => .error f
      | none =>
        match commonSlot s cs with
        | none => .error (tensorDecl ea 4 0)
        | some slot => .ok (t, slot)

/-- The tmask bits of a declaration: the banks of its slab on the issuing cluster, if it has one there (R88). -/
def declaredBits (s : State) (own : CoreId) (slot : BitVec 2) : BitVec 48 := ((tensorIn s (clusterOf own) slot).map (slabBits (clusterOf own))).getD 0

/-- R366, `tdecl`. -/
def execTdecl (g : Option Guard) (a : Fin 24) (b : Reg) (s : State) : Out :=
  issue g s fun h st => do
    let pw ← gsrc st a
    let ea ← src s h st 1 b
    if pwIllegal pw then .error (illegal s 7)
    else
      recorded st 7 ea (fun r => retire s h st.replayNext [b] (some (.g a, r.values.headD 0))) do
        let (s1, ws) ← loadWords s h st ea 4
        match descTensorBad ws with
        | some v => .error (.fault (tensorDecl ea 1 v))
        | none =>
          let (s2, prog, bits) ← loadImage s1 h st (ws.getD 2 0)
          match checkTensor s2 st pw ea ws prog with
          | .error f => .error (.fault f)
          | .ok (t, slot) =>
            let s3 := declareTensor s2 t slot
            let w := (tensorIn s3 t.cluster0 slot).map fun x => tensorHandle x slot.toNat
            let st1 := (st.orTmask (bits ||| touchWords s h st ea 4 ||| declaredBits s3 st.core slot)).record 7 0 ea [w.getD 0]
            retire s3 h st1 [b] (some (.g a, w.getD 0))

/-- A slab cluster whose brush queue is full (R366). -/
def fullBrush (s : State) (t : Tensor) : Option ClusterId := t.slabs.find? fun c => decide (8 ≤ (s.cluster c).brush.queue.length)

/-- A command enters the queue of every slab's brush in one order (R366). -/
def enqueueBrush (s : State) (t : Tensor) (m : BrushCmd) : State :=
  t.slabs.foldl (fun s c => modBrush s c fun b => { b with queue := b.queue ++ [m] }) s.bump

/-- A new command of a strand. -/
def brushCommand (s : State) (h : Handle) (st : Strand) (slot : BitVec 2) (ctrl : Word) (prog : Option (List Half)) : BrushCmd :=
  { id := s.fresh, h := h, launch := st.launch, core := st.core, xr := (s.core st.core).xr, slot := slot, ctrl := ctrl, prog := prog, started := false
    sweeps := 0, passed := false, ended := false, visits := 0, bad := 0, flags := {} }

/-- R366, `eprog`: the program is replaced when every earlier command has ended; the strand parks until then. -/
def execEprog (g : Option Guard) (a b : Reg) (s : State) : Out :=
  issue g s fun h st => do
    let w ← src s h st 0 a
    let ea ← src s h st 1 b
    recorded st 7 w (fun _ => retire s h st.replayNext [a, b] none) do
      let (slot, t) ← namedTensor s st w
      let (s1, prog, bits) ← loadImage s h st ea
      (if t.slabs.all fun c => (s1.cluster c).brush.queue.isEmpty then
         retire (loadProgram s1 t slot prog) h ((st.orTmask bits).record 7 1 w []) [a, b] none
       else
         match fullBrush s1 t with
         | some c => .error (.park (.brushRoom c))
         | none =>
           let m := brushCommand s1 h st slot 0 (some prog)
           let p : Pending := { dst := none, pdst := none, sz := .s64, pops := [a, b], len := s.words, kind := 7, sel := 1, addr := w
                                tmask := bits, reply := none }
           .error (.act (parkPending (enqueueBrush s1 t m) h st (.brushCommand [m.id]) p)))

/-- R366, `sweep`. -/
def execSweep (g : Option Guard) (a b : Reg) (s : State) : Out :=
  issue g s fun h st => do
    let w ← src s h st 0 a
    let c ← src s h st 1 b
    if swIllegal c then .error (illegal s 7)
    else
      recorded st 7 w (fun _ => retire s h st.replayNext [a, b] none) do
        let (slot, t) ← namedTensor s st w
        (match fullBrush s t with
         | some c => .error (.park (.brushRoom c))
         | none => retire (enqueueBrush s t (brushCommand s h st slot c none)) h (st.record 7 2 w []) [a, b] none)

/-- The sweeps of a strand on a tensor that have not completed (R366). -/
def sweepsOf (s : State) (h : Handle) (st : Strand) (slot : BitVec 2) : List Nat :=
  ((s.cluster (clusterOf st.core)).brush.queue.filter fun m => decide (m.h = h) && decide (m.slot = slot) && m.prog.isNone).map (·.id)

/-- R366, `swwait`. -/
def execSwwait (g : Option Guard) (a : Reg) (s : State) : Out :=
  issue g s fun h st => do
    let w ← src s h st 0 a
    recorded st 7 w (fun _ => retire s h st.replayNext [a] none) do
      let (slot, _) ← namedTensor s st w
      (match sweepsOf s h st slot with
       | [] => retire s h (st.record 7 3 w []) [a] none
       | ids => .error (.park (.brushCommand ids)))

/-- A sweep command of a tensor runs on a slab cluster (R362, R363). -/
def sweepRuns (s : State) (c : ClusterId) (slot : BitVec 2) : Bool := (headCmd s c).any fun m => m.started && m.prog.isNone && m.slot == slot

/-- The slab clusters that hold some element of a range. -/
def slabsOf (s : State) (t : Tensor) (slot : BitVec 2) (first n : Nat) : List (ClusterId × Tensor) :=
  t.slabs.filterMap fun c => (tensorIn s c slot).bind fun x =>
    if decide (first < 64 * (x.firstChunk + x.slabChunks)) && decide (64 * x.firstChunk < first + n) then some (c, x) else none

/-- The tmask bits of a request that is applied at once (R88, R362). -/
def nowBits (s : State) (st : Strand) (r : TensorRequest) (cs : List (ClusterId × Tensor)) : BitVec 48 :=
  (cs.filter fun x => !sweepRuns s x.1 r.slot && decide (x.1 = clusterOf st.core)).foldl (fun b x => b ||| requestBits x.1 x.2 r) 0

/-- The common part of `skset` and `wake` (R362): pending while a sweep of the tensor runs, else at once. -/
def tensorRequest (s : State) (h : Handle) (st : Strand) (t : Tensor) (w : Word) (sel : Nat) (srcs : List Reg) (r : TensorRequest) : Res State :=
  let cs := slabsOf s t r.slot r.first r.count
  match cs.find? fun x => sweepRuns s x.1 r.slot && decide (64 ≤ (s.cluster x.1).brush.pending.length) with
  | some x => .error (.park (.pendingRoom x.1))
  | none =>
    let s1 := cs.foldl (fun s x =>
      if sweepRuns s x.1 r.slot then modBrush s x.1 fun b => { b with pending := b.pending ++ [r] } else applyRequest s x.1 x.2 r) s
    retire s1 h ((st.orTmask (nowBits s st r cs)).record 7 sel w []) srcs none

/-- R366, `skset`. -/
def execSkset (g : Option Guard) (a b c : Reg) (s : State) : Out :=
  issue g s fun h st => do
    let w ← src s h st 0 a
    let i ← src s h st 1 b
    let x ← src s h st 2 c
    if 5 ≤ ctxWait (x.setWidth 32) ∨ x.extractLsb' 48 16 ≠ 0 then .error (illegal s 7)
    else
      recorded st 7 w (fun _ => retire s h st.replayNext [a, b, c] none) do
        let (slot, t) ← namedTensor s st w
        let n := (x.extractLsb' 32 16).toNat + 1
        if t.count < i.toNat + n then .error (tensorKey w 3 i.toNat)
        else tensorRequest s h st t w 4 [a, b, c] ⟨h, slot, i.toNat, n, some (x.setWidth 32), none⟩

/-- R366, `wake`. -/
def execWake (g : Option Guard) (a b c : Reg) (s : State) : Out :=
  issue g s fun h st => do
    let w ← src s h st 0 a
    let i ← src s h st 1 b
    let x ← src s h st 2 c
    if x.extractLsb' 7 57 ≠ 0 then .error (illegal s 7)
    else
      recorded st 7 w (fun _ => retire s h st.replayNext [a, b, c] none) do
        let (slot, t) ← namedTensor s st w
        if t.count ≤ i.toNat then .error (tensorKey w 3 i.toNat)
        else tensorRequest s h st t w 5 [a, b, c] ⟨h, slot, i.toNat, 1, none, if x.getLsbD 6 then some (x.setWidth 6) else none⟩

end Sys2Proof.Machine
end

