-- ==== Sys2Proof/Machine/Vector.lean ====
section
/-! DEFINITION. Page 2 at issue (R215-R234): the lane claims, and the entry of vector commands into the dispatch queue. What a
command does at its pool commit is in Machine/Pool.lean. -/

namespace Sys2Proof.Machine

/-! ### The dispatch queue (R202, R215, R236) -/

/-- Commands that a dispatch queue holds (R202). -/
def queueDepth : Nat := 8

/-- NO_LANES with the page and major of the instruction (R217, R237). -/
def noLanes (s : State) : Exc := .fault ⟨0x48, 0, [pageMajor s.latch]⟩

/-- The core with a command at the tail of its queue and the destinations of the command empty (R215, R236). -/
def enqueue (f : VectorFile) (m : VCmd) : VectorFile :=
  let (_, v, d) := vdest m.op
  let f1 := if m.trap then { f with trapQueue := f.trapQueue ++ [m] } else { f with queue := f.queue ++ [m] }
  { f1 with
    vfull := match v with
      | some a => f1.vfull &&& ~~~(BitVec.twoPow 16 a.toNat)
      | none => f1.vfull
    dfull := match d with
      | some a => f1.dfull &&& ~~~(BitVec.twoPow 8 a.toNat)
      | none => f1.dfull }

/-- The strand with the general-register destination of a command empty (R215). -/
def emptyDest (st : Strand) (op : Instr) : Strand :=
  match (vdest op).1 with
  | some a => st.emptyG a
  | none => st

/-- The dispatch queue of a core is held: by a strand's exception, or by a command that waits on a page (R235). -/
def VectorFile.isHeld (f : VectorFile) : Bool := !f.held.isEmpty || !f.waiting.isEmpty

/-- A strand has an exception in flight that has not been delivered: no later command of it starts, one of its trap handler included (R235). -/
def VectorFile.undelivered (f : VectorFile) (h : Handle) : Bool := f.held.contains (h, false)

/-- What the general-register destination of a command holds, and its full bit (R49). -/
def priorOf (st : Strand) (op : Instr) : Option (Word × Bool) := (vdest op).1.map fun a => (st.r.gpr[a], st.r.full.getLsbD a.val)

/-- A command enters its core's dispatch queue at the issue commit, with the in-trap bit set the trap dispatch queue, or the strand parks until a place frees
(R202, R215, R236). -/
def dispatch (s : State) (h : Handle) (st : Strand) (op : Instr) (args : List Word) (pops : List Reg) : Res State :=
  let f := (s.core st.core).vec
  let trap := st.r.inTrap
  if (if trap then f.trapQueue.length else f.queue.length) ≥ queueDepth then .error (.park (.dispatchRoom st.core trap))
  else
    let m : VCmd := { id := s.fresh, op := op, h := h, pc := st.issuePc, words := s.latch, args := args
                      daz := (s.core st.core).daz, xr := (s.core st.core).xr, trap := trap
                      ahead := trap && f.isHeld, prior := priorOf st op, got := [], owed := [] }
    retire (s.bump.modVec st.core fun f => enqueue f m) h (emptyDest st op) pops none

/-- The issue of a command that needs a lane grant (R215, R217); `args` gives what it captures, with the sources it pops. -/
def vIssue (g : Option Guard) (op : Instr) (args : State → Handle → Strand → Res (List Word × List Reg)) (s : State) : Out :=
  issue g s fun h st => do
    if st.vl = 0 then .error (noLanes s)
    else
      let a ← args s h st
      dispatch s h st op a.1 a.2

/-- A command that captures nothing. -/
def vPlain (g : Option Guard) (op : Instr) (s : State) : Out := vIssue g op (fun _ _ _ => .ok ([], [])) s

/-! ### Claims (R200, R201, R217-R220) -/

/-- The lanes of a coded count (R218). -/
def claimGroups (c : BitVec 2) : Nat := 2 ^ c.toNat

/-- The strand presents a claim and parks until the pool answers it (R201, R218). -/
def presentClaim (s : State) (h : Handle) (st : Strand) (a : Fin 24) (lo hi : BitVec 2) : State :=
  let p : Pending := { dst := some (.g a), pdst := none, sz := .s64, pops := [], len := s.words, kind := 0, sel := 0, addr := 0
                       tmask := 0, reply := none }
  (parkPending s h { st with vl := 0, claim := none } .claim p).modCluster (clusterOf st.core) fun c =>
    { c with claims := c.claims ++ [⟨h, lo, hi, false⟩] }

/-- R218: a strand that already holds a grant traps ILLEGAL with cause 7. -/
def execVclaim (g : Option Guard) (a : Fin 24) (lo hi : BitVec 2) (s : State) : Out :=
  issue g s fun h st =>
    if st.vl ≠ 0 then .error (illegal s 7) else .error (.act (presentClaim s h st a lo hi))

/-- R219 variant 0: waits for the strand's vector commands, returns its groups and presents a new claim. -/
def execVren (g : Option Guard) (a : Fin 24) (lo hi : BitVec 2) (s : State) : Out :=
  issue g s fun h st =>
    if vectorBusy s h st.core then .error (.park .vectorWork) else .error (.act (presentClaim s h st a lo hi))

/-- R219 variant 1: a command that sets vn at its pool commit. -/
def execVrenSetn (g : Option Guard) (a : Reg) (s : State) : Out :=
  issue g s fun h st => do
    let x ← src s h st 0 a
    dispatch s h st (.vrenSetn g a) [x] [a]

/-- R219 variant 2: a command that reads vn and vl at its pool commit. -/
def execVrenStat (g : Option Guard) (a : Fin 24) (s : State) : Out :=
  issue g s fun h st => dispatch s h st (.vrenStat g a) [] []

/-- R220: waits for the strand's vector commands, and returns the grant. -/
def execVrel (g : Option Guard) (s : State) : Out :=
  issue g s fun h st =>
    if vectorBusy s h st.core then .error (.park .vectorWork) else retire s h { st with vl := 0, claim := none } [] none

/-- R234: waits until every vector command of the strand has committed. -/
def execVfence (g : Option Guard) (s : State) : Out :=
  issue g s fun h st => if vectorBusy s h st.core then .error (.park .vectorWork) else retire s h st [] none

/-! ### Memory (R221, R222) -/

/-- The address that a memory command captures, checked at issue for its space and alignment (R222, R250). -/
def vAddress (s : State) (st : Strand) (m : Mem) (n : Nat) : Res Word := do
  let ea ← effAddr st m
  let _ ← strandSpace s st ea
  if ea.toNat % n ≠ 0 then .error (badAlign ea n) else .ok ea

/-- The memory width of a type in bytes (R221). -/
def vWidth (t : EType) : Nat := etypeBits t / 8

/-- R221. -/
def execVld (g : Option Guard) (t : EType) (a : BitVec 4) (m : Mem) (s : State) : Out :=
  vIssue g (.vld g t a m) (fun s _ st => do let ea ← vAddress s st m (vWidth t); .ok ([ea], [])) s

/-- R221. -/
def execVst (g : Option Guard) (t : EType) (a : BitVec 4) (m : Mem) (s : State) : Out :=
  vIssue g (.vst g t a m) (fun s _ st => do let ea ← vAddress s st m (vWidth t); .ok ([ea], [])) s

/-- R221: the base is read at issue, the element addresses are formed at the pool. -/
def execVgth (g : Option Guard) (t : EType) (a : BitVec 4) (b : Fin 24) (c : BitVec 4) (s : State) : Out :=
  vIssue g (.vgth g t a b c) (fun _ _ st => do let x ← gsrc st b; .ok ([x], [])) s

/-- R221. -/
def execVsct (g : Option Guard) (t : EType) (a : BitVec 4) (b : Fin 24) (c : BitVec 4) (s : State) : Out :=
  vIssue g (.vsct g t a b c) (fun _ _ st => do let x ← gsrc st b; .ok ([x], [])) s

/-! ### Arithmetic, functions, logic (R224-R229) -/

def execVadd (g : Option Guard) (t : EType) (rm : Rm) (a b c : BitVec 4) (s : State) : Out := vPlain g (.vadd g t rm a b c) s
def execVsub (g : Option Guard) (t : EType) (rm : Rm) (a b c : BitVec 4) (s : State) : Out := vPlain g (.vsub g t rm a b c) s
def execVmul (g : Option Guard) (t : EType) (rm : Rm) (a b c : BitVec 4) (s : State) : Out := vPlain g (.vmul g t rm a b c) s
def execVfma (g : Option Guard) (t : EType) (rm : Rm) (a b c : BitVec 4) (s : State) : Out := vPlain g (.vfma g t rm a b c) s
def execVmin (g : Option Guard) (t : EType) (a b c : BitVec 4) (s : State) : Out := vPlain g (.vmin g t a b c) s
def execVmax (g : Option Guard) (t : EType) (a b c : BitVec 4) (s : State) : Out := vPlain g (.vmax g t a b c) s
def execVabs (g : Option Guard) (t : EType) (a b : BitVec 4) (s : State) : Out := vPlain g (.vabs g t a b) s
def execVneg (g : Option Guard) (t : EType) (a b : BitVec 4) (s : State) : Out := vPlain g (.vneg g t a b) s
def execVand (g : Option Guard) (t : EType) (a b c : BitVec 4) (s : State) : Out := vPlain g (.vand g t a b c) s
def execVor (g : Option Guard) (t : EType) (a b c : BitVec 4) (s : State) : Out := vPlain g (.vor g t a b c) s
def execVxor (g : Option Guard) (t : EType) (a b c : BitVec 4) (s : State) : Out := vPlain g (.vxor g t a b c) s
def execVshl (g : Option Guard) (t : EType) (a b c : BitVec 4) (s : State) : Out := vPlain g (.vshl g t a b c) s
def execVshr (g : Option Guard) (t : EType) (a b c : BitVec 4) (s : State) : Out := vPlain g (.vshr g t a b c) s
def execVcmp (g : Option Guard) (t : EType) (cc : Cond) (a b c : BitVec 4) (s : State) : Out := vPlain g (.vcmp g t cc a b c) s
def execVsel (g : Option Guard) (t : EType) (a b c : BitVec 4) (s : State) : Out := vPlain g (.vsel g t a b c) s
def execVperm (g : Option Guard) (t : EType) (a b c : BitVec 4) (s : State) : Out := vPlain g (.vperm g t a b c) s
def execVexp2 (g : Option Guard) (rm : Rm) (a b : BitVec 4) (s : State) : Out := vPlain g (.vexp2 g rm a b) s
def execVlog2 (g : Option Guard) (rm : Rm) (a b : BitVec 4) (s : State) : Out := vPlain g (.vlog2 g rm a b) s
def execVrsq (g : Option Guard) (rm : Rm) (a b : BitVec 4) (s : State) : Out := vPlain g (.vrsq g rm a b) s
def execVrcp (g : Option Guard) (t : EType) (rm : Rm) (a b : BitVec 4) (s : State) : Out := vPlain g (.vrcp g t rm a b) s
def execVsqrt (g : Option Guard) (t : EType) (rm : Rm) (a b : BitVec 4) (s : State) : Out := vPlain g (.vsqrt g t rm a b) s
def execVdiv (g : Option Guard) (t : EType) (rm : Rm) (a b c : BitVec 4) (s : State) : Out := vPlain g (.vdiv g t rm a b c) s
def execViota (g : Option Guard) (t : EType) (a : BitVec 4) (s : State) : Out := vPlain g (.viota g t a) s

/-- R229: B is read, and a queue popped, at issue. -/
def execVbcst (g : Option Guard) (t : EType) (a : BitVec 4) (b : Reg) (s : State) : Out :=
  vIssue g (.vbcst g t a b) (fun s h st => do let x ← src s h st 0 b; .ok ([x], [b])) s

/-- R230-R232: a conversion reads s0 and s1 at issue for its draws. -/
def execVcvt (g : Option Guard) (dst source : EType) (hi : Bool) (rm : Rm) (a b : BitVec 4) (s : State) : Out :=
  vIssue g (.vcvt g dst source hi rm a b) (fun s _ st =>
    .ok (if rm = .rst then [s.readShared st.core 0 0, s.readShared st.core 1 1] else [], [])) s

/-! ### Reductions and scans (R233) -/

def execVredAdd (g : Option Guard) (t : EType) (a : Fin 24) (b : BitVec 4) (s : State) : Out := vPlain g (.vredAdd g t a b) s
def execVredMin (g : Option Guard) (t : EType) (a : Fin 24) (b : BitVec 4) (s : State) : Out := vPlain g (.vredMin g t a b) s
def execVredMax (g : Option Guard) (t : EType) (a : Fin 24) (b : BitVec 4) (s : State) : Out := vPlain g (.vredMax g t a b) s
def execVdot (g : Option Guard) (t : EType) (a : Fin 24) (b c : BitVec 4) (s : State) : Out := vPlain g (.vdot g t a b c) s
def execVscanAdd (g : Option Guard) (t : EType) (a b : BitVec 4) (s : State) : Out := vPlain g (.vscanAdd g t a b) s
def execVscanMin (g : Option Guard) (t : EType) (a b : BitVec 4) (s : State) : Out := vPlain g (.vscanMin g t a b) s
def execVscanMax (g : Option Guard) (t : EType) (a b : BitVec 4) (s : State) : Out := vPlain g (.vscanMax g t a b) s

end Sys2Proof.Machine
end

