-- ==== Sys2Proof/Machine/System.lean ====
section
/-! DEFINITION. Page 7 (R383-R388): returning from a trap, the system registers, frozen tasks, `replay` and `tlbinv`; and the halt of a
cluster (R208, R209). -/

namespace Sys2Proof.Machine

/-- R102, R384: with the in-trap bit clear, ILLEGAL with cause 7 (DEDUCED, log entry 9). -/
def execTret (g : Option Guard) (s : State) : Out :=
  issue g s fun h st => if st.r.inTrap then .ok (leaveTrap s h st) else .error (illegal s 7)

/-! ### The halt of a cluster (R208, R209) -/

/-- The other clusters of a die that accept a network trigger (R208). -/
def trigger (s : State) (c : ClusterId) : State :=
  { s with clusters := s.clusters.map fun e =>
    if e.1.die = c.die ∧ e.1 ≠ c ∧ e.2.dbg.xin then (e.1, { e.2 with dbg := { e.2.dbg with matched := addOnce .network e.2.dbg.matched } })
    else e }

/-- A cluster halts: issue stops on its cores, and a trigger goes to the network where xout is set (R208, R209). A cluster whose debug module is
out of service cannot be halted (R210). -/
def haltCluster (s : State) (c : ClusterId) : State :=
  if s.isOut (.debug c) then s
  else
    let s1 := s.modCluster c fun x => { x with dbg := { x.dbg with halted := true, matched := [] } }
    if (s.cluster c).dbg.xout then trigger s1 c else s1

/-- A halted cluster resumes (R209). -/
def goCluster (s : State) (c : ClusterId) : State :=
  s.modCluster c fun x => { x with dbg := { x.dbg with halted := false, matched := [] } }

/-- DBGCTL_CRASH (R209): a write of crash halts the cluster. -/
def execDbgctlCrash (c : ClusterId) (s : State) : Out := .next (haltCluster s c)

/-- DBGCTL_GO (R209): a write of go while halted restarts issue. -/
def execDbgctlGo (c : ClusterId) (s : State) : Out := if (s.cluster c).dbg.halted then .next (goCluster s c) else .next s

/-- CRASH_HALT (R209): an enabled comparator that has matched, or a network trigger, halts the cluster. -/
def execCrashHalt (c : ClusterId) (cause : HaltCause) (s : State) : Out :=
  if (s.cluster c).dbg.matched.contains cause && !(s.cluster c).dbg.halted then .next (haltCluster s c) else .next s

/-- `dbgctl` as it reads (R208). -/
def dbgctlWord (x : Debug) : Word :=
  (0#48 ++ BitVec.ofBool x.halted ++ 0#1 ++ x.bpen ++ x.wpen ++ BitVec.ofBool x.xin ++ BitVec.ofBool x.xout ++ 0#6 : BitVec 64)

/-- A write of `dbgctl` (R208). With crash and go both 1 a halted cluster resumes and then halts again (DESIGN CHOICE, log entry 109). -/
def writeDbgctl (s : State) (c : ClusterId) (w : Word) : State :=
  let s1 := s.modCluster c fun x => { x with dbg := { x.dbg with
    bpen := w.extractLsb' 10 4, wpen := w.extractLsb' 8 2, xin := w.getLsbD 7, xout := w.getLsbD 6 } }
  let s2 := if w.getLsbD 14 ∧ (s1.cluster c).dbg.halted then goCluster s1 c else s1
  if w.getLsbD 15 then haltCluster s2 c else s2

/-! ### Registers beyond the strand (R383) -/

/-- Register numbers of the S class (R383). -/
def systemOnly (n : Nat) : Bool := n == 0x11 || (0x13 ≤ n && n ≤ 0x26) || (0x28 ≤ n && n ≤ 0x2D)

/-- The register `ccr` of a core (R383). -/
def ccrWord (c : Core) : Word := (0#58 ++ c.level ++ 0#2 ++ BitVec.ofBool c.daz ++ BitVec.ofBool c.xr : BitVec 64)

/-- Eight entries of `slicemap` (R288, R383). -/
def slicemapWord (d : Die) (i : Nat) : Word :=
  BitVec.ofNat 64 ((List.range 8).foldl (fun n j => n + d.slicemap[Fin.ofNat 32 (8 * i + j)].toNat * 256 ^ j) 0)

/-- `diemap` (R376, R383). -/
def diemapWord (s : State) : Word :=
  BitVec.ofNat 64 ((List.range 4).foldl (fun n i => n + s.diemap[Fin.ofNat 4 i].toNat * 4 ^ i) 0)

/-- A context register read, or a free value in a context that is gone. -/
def contextWord (s : State) (ctx : CtxId) (f : Context → Word) : Word := ((s.context? ctx).map f).getD (Config.freeWord s.fresh)

/-- The least that a read of a context's count finds: what the read before found, and what had been charged 65,536 cycles ago (R398). -/
def energyFloor (s : State) (x : Context) : Nat := max x.shown (if energyAge ≤ s.cycle then x.chargedBy (s.cycle - energyAge) else 0)

/-- The femtojoules that a read of a context's count finds: no more than has been charged, as the count may be some cycles old (R398; DESIGN CHOICE, log entry
86). -/
def energyShown (s : State) (x : Context) : Nat :=
  energyFloor s x + (Config.freeWord s.fresh).toNat % (x.energy - energyFloor s x + 1)

/-- Whole picojoules of a context's count (R398). -/
def energyWord (s : State) (ctx : CtxId) : Word := contextWord s ctx fun x => BitVec.ofNat 64 (energyShown s x / 1000)

/-- What a read of a register leaves behind: the count of energy that it found (R398). -/
def noteRead (s : State) (ctx : CtxId) (n : Nat) : State :=
  (if n = 0x27 then s.modContext ctx fun x => { x with shown := energyShown s x } else s).bump

/-- A register of a core, its cluster, quad or die, a context, or the module (R383); none for numbers that are not such or cannot be read. What
`ewt` reads is not stated: a free value (DESIGN CHOICE, log entry 26). -/
def readSystem (s : State) (c : CoreId) (ctx : CtxId) (n : Nat) : Option Word :=
  let dbg := (s.cluster (clusterOf c)).dbg
  let die := s.die c.die
  match n with
  | 0x0F => some (ccrWord (s.core c))
  | 0x10 => some (s.core c).dqspill
  | 0x11 => some (contextWord s ctx Context.sndto)
  | 0x12 => some ((s.cluster (clusterOf c)).cadmiss.setWidth 64)
  | 0x13 => some (BitVec.ofNat 64 (s.quad (quadOf c)).budget)
  | 0x14 => some (dbgctlWord dbg)
  | 0x15 => some dbg.pc[0]
  | 0x16 => some dbg.pc[1]
  | 0x17 => some dbg.pc[2]
  | 0x18 => some dbg.pc[3]
  | 0x19 => some dbg.wa[0]
  | 0x1A => some dbg.wa[1]
  | 0x1B => some (slicemapWord die 0)
  | 0x1C => some (slicemapWord die 1)
  | 0x1D => some (slicemapWord die 2)
  | 0x1E => some (slicemapWord die 3)
  | 0x1F => some (diemapWord s)
  | 0x20 => some (contextWord s ctx Context.traptab)
  | 0x21 => some (contextWord s ctx Context.flttab)
  | 0x22 => some (contextWord s ctx Context.fltrec)
  | 0x23 => some (contextWord s ctx Context.qtab)
  | 0x25 => some (contextWord s ctx Context.ptroot)
  | 0x26 => some (contextWord s ctx Context.rrspill)
  | 0x27 => some (energyWord s ctx)
  | 0x28 => some (Config.freeWord s.fresh)
  | 0x29 => some s.smpctl
  | 0x2A => some (contextWord s ctx Context.smpbuf)
  | 0x2B => some die.fbbase
  | 0x2C => some die.fbhead
  | 0x2D => some (die.fbtail.setWidth 64 ||| if die.fbdropped then 0x80000000 else 0)
  | 0x2E => some (ctx.setWidth 64)
  | 0x2F => some s.memsize
  | _ => none

/-- Entries 8i to 8i + 7 of a die's `slicemap` written (R288, R383). -/
def writeSlicemap (s : State) (d : BitVec 2) (i : Nat) (w : Word) : State :=
  s.modDie d fun x => { x with slicemap := Vector.ofFn fun k =>
    if k.val / 8 = i then w.extractLsb' (8 * (k.val % 8)) 5 else x.slicemap[k] }

/-- A comparator register of the debug module written (R208). -/
def writeComparator (s : State) (c : ClusterId) (f : Debug → Debug) : State := s.modCluster c fun x => { x with dbg := f x.dbg }

/-- What the packet at the head of a queue waits for is forgotten: the event of a WAITEV, and a SETDET that holds back LAUNCH packets (R309, R311, R323). -/
def forgetWaits (s : State) (ctx : CtxId) (q : BitVec 4) : State :=
  { s with eventWaits := s.eventWaits.filter fun e => !(decide (e.ctx = ctx) && e.queue == q) }.modContext ctx fun x =>
    { x with setdet := x.setdet.filter fun e => !(e.1 == q) }

/-- Entry q of a context's queue table loaded (R309, R312, R388; DEDUCED, log entry 47). -/
def loadQueue (s : State) (c : CoreId) (ctx : CtxId) (q : BitVec 4) : State :=
  match s.context? ctx with
  | none => s
  | some x =>
    let at_ := x.qtab + BitVec.ofNat 64 (16 * q.toNat)
    let word := fun ea => ((s.deviceRead c ctx ea 8).map (BitVec.ofNat 64)).getD (Config.freeWord s.fresh)
    let ring := word at_
    let ctl := word (at_ + 8)
    let start : BitVec 32 := ctl.extractLsb' 32 32
    let cq : CmdQueue := { ring := ring, slots := 2 ^ ((ctl.extractLsb' 0 4).toNat + 4), deviceFed := ctl.getLsbD 8, enabled := ctl.getLsbD 9
                           head := start, tail := start, state := 0, error := 0 }
    (forgetWaits s.bump ctx q).modContext ctx fun x => { x with queues := Table.put q cq x.queues }

/-- An energy weight written; none where the class is above 7 (R398). -/
def writeWeight (s : State) (w : Word) : Option State :=
  let k := (w.extractLsb' 56 8).toNat
  if k ≤ 7 then some { s with ewt := s.ewt.set (Fin.ofNat 8 k) (w.setWidth 32) } else none

/-- The sampling control written; none where its n is outside 10 to 30 with the pulse enabled (R399). The pulse count starts when the pulse is
enabled. -/
def writeSampling (s : State) (w : Word) : Option State :=
  let n := (w.extractLsb' 0 5).toNat
  if w.getLsbD 8 ∧ (n < 10 ∨ 30 < n) then none
  else
    let fresh := w.getLsbD 8 && !s.smpctl.getLsbD 8
    some { s with smpctl := w &&& 0x11F, pulses := if fresh then 0 else s.pulses
                  pulseDue := (s.cycle / 2 ^ n + 1) * 2 ^ n }

/-- A register of a core, its cluster, quad or die, a context, or the module written (R383); none where the number is not such, cannot be
written, or its value is outside a limit that R383 marks (DEDUCED, log entries 46, 63). -/
def writeSystem (s : State) (c : CoreId) (ctx : CtxId) (n : Nat) (w : Word) : Option State :=
  let cl := clusterOf c
  match n with
  | 0x0F =>
    if w.extractLsb' 6 58 ≠ 0 ∨ w.extractLsb' 2 2 ≠ 0 then none
    else some (s.modCore c fun x => { x with daz := w.getLsbD 1, xr := w.getLsbD 0 })
  | 0x10 => some (s.modCore c fun x => { x with dqspill := w })
  | 0x11 => some (s.modContext ctx fun x => { x with sndto := (w.setWidth 32 : BitVec 32).setWidth 64 })
  | 0x13 =>
    let b := (w.setWidth 8 : BitVec 8).toNat
    if 1 ≤ b ∧ b ≤ 32 then some (s.modQuad (quadOf c) fun q => { q with budget := b }) else none
  | 0x14 => some (writeDbgctl s cl w)
  | 0x15 => some (writeComparator s cl fun d => { d with pc := d.pc.set 0 w })
  | 0x16 => some (writeComparator s cl fun d => { d with pc := d.pc.set 1 w })
  | 0x17 => some (writeComparator s cl fun d => { d with pc := d.pc.set 2 w })
  | 0x18 => some (writeComparator s cl fun d => { d with pc := d.pc.set 3 w })
  | 0x19 => some (writeComparator s cl fun d => { d with wa := d.wa.set 0 w })
  | 0x1A => some (writeComparator s cl fun d => { d with wa := d.wa.set 1 w })
  | 0x1B => some (writeSlicemap s c.die 0 w)
  | 0x1C => some (writeSlicemap s c.die 1 w)
  | 0x1D => some (writeSlicemap s c.die 2 w)
  | 0x1E => some (writeSlicemap s c.die 3 w)
  | 0x1F => some { s with diemap := Vector.ofFn fun i => w.extractLsb' (2 * i.val) 2 }
  | 0x20 => if w.toNat % 8 ≠ 0 then none else some (s.modContext ctx fun x => { x with traptab := w })
  | 0x21 => if w.toNat % 8 ≠ 0 then none else some (s.modContext ctx fun x => { x with flttab := w })
  | 0x22 => some (serveRecords (s.modContext ctx fun x => { x with fltrec := w }) ctx (recordWaiters s ctx))
  | 0x23 => some (s.modContext ctx fun x => { x with qtab := w })
  | 0x24 => some (loadQueue s c ctx (w.setWidth 4))
  | 0x25 => if w.extractLsb' 52 12 ≠ 0 ∨ w.extractLsb' 0 12 ≠ 0 then none else some (s.modContext ctx fun x => { x with ptroot := w })
  | 0x26 => some (s.modContext ctx fun x => { x with rrspill := w })
  | 0x28 => writeWeight s w
  | 0x29 => writeSampling s w
  | 0x2A => some (s.modContext ctx fun x => { x with smpbuf := w })
  | 0x2B => some (s.modDie c.die fun d => { d with fbbase := w })
  | 0x2C => some (s.modDie c.die fun d => { d with fbhead := w })
  | _ => none

/-! ### sysr and sysw (R383, R384) -/

/-- The strand belongs to the system context (R383). -/
def isSystem (s : State) (st : Strand) : Bool := (s.context? st.ctx).any Context.system

/-- A register of the strand itself (R383). -/
def readStrand (r : Regs) (n : Nat) : Option Word :=
  match n with
  | 0x00 => some (r.sflags.setWidth 64)
  | 0x01 => some r.trappc
  | 0x02 => some r.trec[0]
  | 0x03 => some r.trec[1]
  | 0x04 => some r.trec[2]
  | 0x05 => some r.trec[3]
  | 0x06 => some r.trec[4]
  | 0x07 => some r.trec[5]
  | 0x08 => some r.trec[6]
  | 0x09 => some r.trec[7]
  | 0x0A => some (r.tmask.setWidth 64)
  | 0x0B => some (r.fmta.setWidth 64)
  | 0x0C => some (r.fmtb.setWidth 64)
  | 0x0D => some r.scla
  | 0x0E => some r.sclb
  | _ => none

/-- R383, R384. -/
def execSysr (g : Option Guard) (a : Fin 24) (number : Word) (s : State) : Out :=
  issue g s fun h st =>
    let n := number.toNat
    match readStrand st.r n with
    | some v => retire s h st [] (some (.g a, v))
    | none =>
      if systemOnly n && !isSystem s st then .error (illegal s 7)
      else
        match readSystem s st.core st.ctx n with
        | some v => retire (noteRead s st.ctx n) h st [] (some (.g a, v))
        | none => .error (illegal s 7)

/-- A register of the strand written; none where the number is not such, or the ILLEGAL cause (R87, R101, R383). -/
def writeStrand (st : Strand) (n : Nat) (w : Word) : Option (Except (BitVec 4) Strand) :=
  let code : BitVec 5 := w.setWidth 5
  match n with
  | 0x00 => some (.ok { st with r := { st.r with sflags := w.setWidth 6 } })
  | 0x01 => some (.ok { st with r := { st.r with trappc := w } })
  | 0x0B => some (if (EType.ofCode code).isNone then .error 6 else .ok { st with r := { st.r with fmta := code } })
  | 0x0C => some (if (EType.ofCode code).isNone then .error 6 else .ok { st with r := { st.r with fmtb := code } })
  | 0x0D => some (.ok { st with r := { st.r with scla := w } })
  | 0x0E => some (.ok { st with r := { st.r with sclb := w } })
  | _ => none

/-- The common part of `sysw` (R383, R384). -/
def systemWrite (g : Option Guard) (a : Reg) (n : Nat) (s : State) : Out :=
  issue g s fun h st => do
    let w ← src s h st 0 a
    match writeStrand st n w with
    | some (.ok st1) => retire s h st1 [a] none
    | some (.error cause) => .error (illegal s cause)
    | none =>
      if systemOnly n && !isSystem s st then .error (illegal s 7)
      else
        match writeSystem s st.core st.ctx n w with
        | some s1 => retire s1 h st [a] none
        | none => .error (illegal s 7)

/-- R383, R384. -/
def execSysw (g : Option Guard) (a : Reg) (number : Word) (s : State) : Out := systemWrite g a number.toNat s

/-- R388: one entry of the queue table is loaded. -/
def execSyswQload (g : Option Guard) (a : Reg) (s : State) : Out := systemWrite g a 0x24 s

/-- R398: one energy weight is written. -/
def execSyswEwt (g : Option Guard) (a : Reg) (s : State) : Out := systemWrite g a 0x28 s

/-- R399: the sampling pulse is set. -/
def execSyswSmpctl (g : Option Guard) (a : Reg) (s : State) : Out := systemWrite g a 0x29 s

/-! ### Frozen tasks (R385) -/

/-- The task of the issuing context that a handle names, where it is frozen now; else NOT_FROZEN (R385, R400). -/
def frozenTask (s : State) (st : Strand) (w : Word) : Res (Handle × Strand × Frozen) :=
  let t : Handle := w.setWidth 32
  let gone : Exc := .fault ⟨0x8, 0, [t.setWidth 64]⟩
  match s.strand? t with
  | some x =>
    match x.frozen with
    | some z => if x.ctx = st.ctx then .ok (t, x, z) else .error gone
    | none => .error gone
  | none => .error gone

/-- A frozen task goes back into rotation (R385); it waits for no record slot any more (R388). -/
def thaw (s : State) (t : Handle) (x : Strand) (z : Frozen) (skip : Nat) : State :=
  freeRecordSlot (dropRecordWait (s.setStrand t { x with
    frozen := none, status := if x.status = .preempted then .preempted else .ready
    r := { x.r with pc := x.r.pc + BitVec.ofNat 64 skip } }) x.ctx (.task t)) x.ctx z.slot

/-- R385: the task goes on after the faulting instruction, or at its delivery point. -/
def execResume (g : Option Guard) (a : Reg) (s : State) : Out :=
  issue g s fun h st => do
    let w ← src s h st 0 a
    let (t, x, z) ← frozenTask s st w
    retire (thaw s t x z z.skip) h st [a] none

/-- R385: the task ends. -/
def execKill (g : Option Guard) (a : Reg) (s : State) : Out :=
  issue g s fun h st => do
    let w ← src s h st 0 a
    let (t, x, z) ← frozenTask s st w
    retire (freeRecordSlot (endTask s t) x.ctx z.slot) h st [a] none

/-- R385: the faulting instruction is issued again from its PC, or the recorded vector instruction is issued again and the task then goes on at its
delivery point, where instructions that were recorded for it before are issued in the order of their issue (R236). -/
def execRetry (g : Option Guard) (a : Reg) (s : State) : Out :=
  issue g s fun h st => do
    let w ← src s h st 0 a
    let (t, x, z) ← frozenTask s st w
    retire (thaw s t { x with redo := (z.again.map fun m => { m with trap := x.r.inTrap }).elim x.redo (insertCmd · x.redo) } z 0) h st [a] none

/-! ### replay and tlbinv (R386, R387) -/

/-- What waits on a page is to be issued again, in the order of the faults, and every die drops its fault-buffer entries (R386). -/
def replayAll (s : State) : State :=
  { s with
    xlate := [], reissue := s.reissue ++ s.xlate
    dies := s.dies.map fun e => (e.1, { e.2 with fbhead := e.2.fbtail.setWidth 64, fbdropped := false, fb := [] }) }

/-- R384, R386: `replay` waits until all of it has been issued again. -/
def execReplay (g : Option Guard) (s : State) : Out :=
  issue g s fun h st =>
    if !isSystem s st then .error (illegal s 7)
    else if (replayAll s).reissue.isEmpty then retire (replayAll s) h st [] none
    else .error (.act (parkPending (replayAll s) h st .replaying (waitPending s)))

/-- The virtual addresses that a `tlbinv` names in a context: the pages that hold an address in any TLB and in the table now, or everything. -/
def invRanges (s : State) (ctx : CtxId) (va : Nat) : List (Nat × Nat) :=
  let kept := (s.clusters.flatMap fun e => e.2.tlb) ++ s.dies.flatMap fun e => e.2.tlb2
  let old := (kept.filter fun e => decide (e.ctx = ctx) && decide (e.base ≤ va) && decide (va < e.base + e.size)).map fun e => (e.base, e.size)
  match s.walk ctx va with
  | .leaf _ size => (va / size * size, size) :: old
  | _ => (va / 65536 * 65536, 65536) :: old

/-- The ranges of addresses that `tlbinv` names (R387). -/
def namedRanges (s : State) (named : CtxId) (mode va : Nat) : List (Nat × Nat) := if mode = 0 then invRanges s named va else []

/-- A `tlbinv` names a virtual address of a context: by page, by context, or wholly (R387). -/
def invNames (mode : Nat) (named ctx : CtxId) (ranges : List (Nat × Nat)) (lo size : Nat) : Bool :=
  mode == 2 || (decide (ctx = named) && (mode == 1 || ranges.any fun r => decide (lo < r.1 + r.2) && decide (r.1 < lo + size)))

/-- The matching TLB entries, and where asked the instruction-cache lines, leave the module (R380, R387). -/
def invalidate (s : State) (named : CtxId) (mode : Nat) (code : Bool) (va : Nat) : State :=
  let ranges := namedRanges s named mode va
  let keep := fun (l : List TlbEntry) => l.filter fun e => !invNames mode named e.ctx ranges e.base e.size
  { s with
    clusters := s.clusters.map fun e => (e.1, { e.2 with
      tlb := keep e.2.tlb
      icache := if code then e.2.icache.filter fun l => !invNames mode named l.ctx ranges l.va lineBytes else e.2.icache })
    dies := s.dies.map fun e => (e.1, { e.2 with tlb2 := keep e.2.tlb2 }) }

/-- The number of a byte is a physical address, to which a translation has led (R376, R381). -/
def translated (key : Nat) : Bool := decide (key < 2 ^ 48)

/-- The posted writes of the contexts named by `tlbinv`, which used their translations, are performed (R294, R387). -/
def settleNamed (s : State) (named : CtxId) (mode : Nat) : State :=
  s.performPosted fun p => (mode == 2 || p.ctx == named) && translated p.key

/-- A strand's access waits at its place under a translation that `tlbinv` names (R387). -/
def usesNamed (named : CtxId) (mode : Nat) (ranges : List (Nat × Nat)) (st : Strand) : Bool :=
  match st.status, st.pending with
  | .parked (.atPlace _), some p =>
    p.kind == 3 && p.reply.isNone && decide (spaceCode p.addr < 8) &&
      invNames mode named st.ctx ranges (p.addr.extractLsb' 0 48 : BitVec 48).toNat 1
  | _, _ => false

/-- A command of a core owes element writes to places that translations of a context named by `tlbinv` have given (R222, R223, R387). -/
def owesNamed (s : State) (named : CtxId) (mode : Nat) (m : VCmd) : Bool :=
  ((s.strand? m.h).any fun st => mode == 2 || st.ctx == named) && m.owed.any fun e => translated e.key

/-- Accesses that used translations named by `tlbinv` have not been performed yet (R387). -/
def stillUsed (s : State) (named : CtxId) (mode : Nat) (ranges : List (Nat × Nat)) : Bool :=
  (s.strands.any fun e => usesNamed named mode ranges e.2) || s.cores.any fun e => e.2.vec.running.any (owesNamed s named mode)

/-- R384, R387: the fence of package scope, then the entries leave every TLB, and the strand parks until every access that used them has been performed
(DEDUCED, log entry 52). -/
def execTlbinv (g : Option Guard) (a b : Reg) (s : State) : Out :=
  issue g s fun h st => do
    let x ← src s h st 0 a
    let y ← src s h st 1 b
    if !isSystem s st then .error (illegal s 7)
    else if x.extractLsb' 15 49 ≠ 0 ∨ x.extractLsb' 12 2 = 3 then .error (illegal s 7)
    else do
      let st1 ← fence s st .pkg
      let mode := (x.extractLsb' 12 2 : BitVec 2).toNat
      let ctx : CtxId := x.setWidth 12
      let va := (y.extractLsb' 0 48 : BitVec 48).toNat
      let ranges := namedRanges s ctx mode va
      let s1 := invalidate (settleNamed s ctx mode) ctx mode (x.getLsbD 14) va
      if stillUsed s1 ctx mode ranges then .error (.act (park s1 h st1 (.tlbinv mode ctx ranges))) else retire s1 h st1 [a, b] none

end Sys2Proof.Machine
end

