-- ==== Sys2Proof/Machine/Binding.lean ====
section
/-! DEFINITION. Binding (R93, R415): what a free slot takes, in its order: inbox packets (R97), handler tasks (R103), returning tasks
(R317), deque entries (R155, R156), work packets (R321), stolen entries (R157). -/

namespace Sys2Proof.Machine

/-! ### A new task (R84, R89, R93) -/

/-- The handle of a slot of a core with a generation (R89). -/
def handleOf (c : CoreId) (slot : BitVec 4) (gen : BitVec 16) : Handle := (c.die ++ c.cluster ++ c.core ++ slot ++ gen : BitVec 32)

/-- The next generation of a slot that no live task still holds (R89). -/
def nextGen (s : State) (c : CoreId) (slot : BitVec 4) (gen : BitVec 16) : Nat → BitVec 16
  | 0 => gen + 1
  | n + 1 => if (s.strand? (handleOf c slot (gen + 1))).isSome then nextGen s c slot (gen + 1) n else gen + 1

/-- The registers of a task at binding (R84, R93). -/
def boundRegs (t : TaskSource) : Regs :=
  { pc := t.entry, gpr := Vector.ofFn fun i => if h : i.val < 4 then t.args[i.val] else 0, full := BitVec.allOnes 24, preds := 0, sflags := 0
    fmta := t.fmta, fmtb := t.fmtb, scla := t.scla, sclb := t.sclb, tmask := 0, trappc := 0, trec := Vector.replicate 8 0, inTrap := false }

/-- A task as it stands at binding (R93). -/
def boundTask (t : TaskSource) (c : CoreId) (slot : BitVec 4) : Strand :=
  { r := boundRegs t, core := c, slot := slot, role := t.role, launch := t.launch, ctx := t.ctx, level := t.level, index := t.index
    status := .ready, vl := 0, claim := none, yieldUntil := 0, pending := none, flight := none, frozen := none, due := [], sending := none, kept := none
    source := t, records := [], entryAt := [], replay := none, unreplayable := false, wdqCounts := [], qflags := {}, fills := [], saved := []
    savedMatrix := [], tile := none, redo := [], counted := false }

/-- A task bound into a slot of a core (R93). -/
def bindTask (s : State) (t : TaskSource) (c : CoreId) (slot : BitVec 4) : State :=
  let i := Fin.ofNat 15 slot.toNat
  let gen := nextGen s c slot ((s.core c).gens[i]) s.strands.length
  let s1 := (s.takeCore c t.ctx t.level).modCore c fun x => { x with gens := x.gens.set i gen }
  s1.setStrand (handleOf c slot gen) (boundTask t c slot)

/-! ### What a slot admits (R147, R415) -/

/-- A slot of a core admits a task of a role (R147). -/
def roleFits (c : Core) (slot : BitVec 4) (role : BitVec 2) : Bool :=
  let r := c.slotrole[Fin.ofNat 15 slot.toNat]
  role == 0 || r == 0 || r == role

/-- A core can bind tasks of a context: it is in service, no other context has it, and its own is not leaving (R159, R210). -/
def bindable (s : State) (c : CoreId) (ctx : CtxId) : Bool := s.coreIn c && s.admitsCtx c ctx && !(s.core c).leaving

/-- The free slots of a core that admit a task of a role (R147). -/
def slotsFor (s : State) (c : CoreId) (role : BitVec 2) : List (BitVec 4) := (s.freeSlots c).filter fun i => roleFits (s.core c) i role

/-- The core that a waiting handler task takes a slot of: the frozen task's, else the lowest-numbered of the cluster that has one free; a slot
with an inbox packet before it is not free for it (R103, R415). -/
def handlerCore (s : State) (c : ClusterId) (t : HandlerTask) : Option CoreId :=
  (coreOf c t.core :: coresOf c).find? fun k => bindable s k t.source.ctx && (s.core k).inbox.isEmpty && !(s.freeSlots k).isEmpty

/-- Some handler task waits that would take a slot of a core (R415). -/
def handlerWaits (s : State) (c : CoreId) : Bool := (s.cluster (clusterOf c)).handlers.any fun t => handlerCore s (clusterOf c) t == some c

/-- The priority of a task's launch (R314, R316). -/
def priorityOf (s : State) (launch : Nat) : Nat := ((s.launch? launch).map Launch.priority).getD 0

/-- The oldest pre-empted task of a core that a slot takes back (R317). -/
def returning (s : State) (c : CoreId) : Option (Handle × Strand) :=
  match (s.core c).away.find? fun h => (s.strand? h).isSome with
  | some h => (s.strand? h).map fun st => (h, st)
  | none => none

/-- Slots of a core that pre-emption has freed for launches of higher priority than a task's, which are not placed yet (R317). -/
def heldSlots (s : State) (c : CoreId) (priority : Nat) : Nat :=
  s.launches.foldl (fun n e => if !e.2.placed && !e.2.retired && decide (priority < e.2.priority) then n + e.2.freed.count c else n) 0

/-- A free slot of a core is left for a task of a launch, beside those that are held for launches of higher priority (R317). -/
def slotLeft (s : State) (c : CoreId) (launch : Nat) : Bool := decide (heldSlots s c (priorityOf s launch) < (s.freeSlots c).length)

/-- The deque of a core from its head to its tail: the on-chip entries, then the spilled ones, which keep the tail side (R155, R156). -/
def wholeDeque (s : State) (c : CoreId) : List TaskSource := (s.core c).deque ++ spilledEntries s c

/-- The entry at a place of a core's deque can be read now: it is on-chip, or no earlier access of the core is on its way to the bank where it lies (R188). -/
def entryFree (s : State) (c : CoreId) (i : Nat) : Bool := decide (i < (s.core c).deque.length) || bankFree s c

/-- The deque of a core without the entry at a place. -/
def dropEntry (s : State) (c : CoreId) (i : Nat) : State :=
  let n := (s.core c).deque.length
  if i < n then s.modCore c fun x => { x with deque := x.deque.eraseIdx i }
  else
    let k := (s.core c).spilled.length - 1 - (i - n)
    (readsSpilled s c ((s.core c).spilled[k]?).toList).modCore c fun x => { x with spilled := x.spilled.eraseIdx k }

/-- The deque entry nearest the head that a slot admits, with its place; also a spilled one, past on-chip entries that the slot does not admit (R155,
R156; DEDUCED, log entry 82). An entry of a context that may not have the core now waits (R159; DESIGN CHOICE, log entry 27). -/
def dequeEntry (s : State) (c : CoreId) (slot : BitVec 4) : Option (Nat × TaskSource) :=
  let l := wholeDeque s c
  ((List.range l.length).zip l).find? fun e => roleFits (s.core c) slot e.2.role && bindable s c e.2.ctx && slotLeft s c e.2.launch

/-- Every lease of a launch is granted, or it takes none; its first task binds only then (R190, R191; DEDUCED, log entry 50). -/
def leaseReady (s : State) (launch : Nat) : Bool := (s.launch? launch).all fun l => l.length == 0 || (l.placed && l.granting.isEmpty)

/-- The oldest work packet that a slot of a core admits, with its place (R321); it binds once its launch's leases are granted (R191). -/
def workPacket (s : State) (c : CoreId) (slot : BitVec 4) : Option (Nat × TaskSource) :=
  let x := s.core c
  ((List.range x.work.length).zip x.work).find? fun e =>
    roleFits x slot e.2.role && bindable s c e.2.ctx && leaseReady s e.2.launch && slotLeft s c e.2.launch

/-- The work packets of launches of higher priority than a returning task's, which a slot binds ahead of it, oldest first (R317, R415). -/
def urgentPackets (s : State) (c : CoreId) (slot : BitVec 4) : List (Nat × TaskSource) :=
  match returning s c with
  | none => []
  | some (_, st) =>
    let x := s.core c
    ((List.range x.work.length).zip x.work).filter fun e =>
      roleFits x slot e.2.role && bindable s c e.2.ctx && decide (priorityOf s st.launch < priorityOf s e.2.launch)

/-- The oldest of them that can bind now (R191, R317, R415). -/
def urgentPacket (s : State) (c : CoreId) (slot : BitVec 4) : Option (Nat × TaskSource) :=
  (urgentPackets s c slot).find? fun e => leaseReady s e.2.launch && slotLeft s c e.2.launch

/-- What a free slot of a core would take (R415). -/
inductive Takes where
  | inbox | handler | returning | deque | work | steal | nothing
deriving DecidableEq, Repr

/-- The core whose deque a slot steals from, with the entry nearest the tail that the slot admits, of a task at level 0 (R157). -/
def victim (s : State) (c : CoreId) (slot : BitVec 4) : Option (CoreId × Nat × TaskSource) :=
  ((List.range 7).map fun k => coreOf (clusterOf c) (c.core + BitVec.ofNat 3 (k + 1))).findSome? fun k =>
    let d := wholeDeque s k
    (((List.range d.length).zip d).reverse.find? fun e =>
      e.2.level == 0 && roleFits (s.core c) slot e.2.role && bindable s c e.2.ctx && slotLeft s c e.2.launch).map fun e => (k, e.1, e.2)

/-- The returning task of a core, where a slot admits its role (R147, R415). -/
def returningTo (s : State) (c : CoreId) (slot : BitVec 4) : Option (Handle × Strand) :=
  (returning s c).filter fun e => roleFits (s.core c) slot e.2.role

/-- The first item of R415 that waits and that a slot of a core admits. A slot that pre-emption has freed waits for its launch, and a returning task for the work
packets that bind ahead of it, which wait for their leases (R191, R317). -/
def takes (s : State) (c : CoreId) (slot : BitVec 4) : Takes :=
  let x := s.core c
  if !x.inbox.isEmpty then .inbox
  else if handlerWaits s c then .handler
  else if (returningTo s c slot).isSome then
    (if (urgentPacket s c slot).isSome then .work
     else if (urgentPackets s c slot).isEmpty && (returning s c).any fun e => slotLeft s c e.2.launch then .returning else .nothing)
  else if (dequeEntry s c slot).isSome then .deque
  else if (workPacket s c slot).isSome then .work
  else if (x.ctx.isNone ∨ x.level = 0) ∧ x.deque.isEmpty ∧ x.spilled.isEmpty ∧ (victim s c slot).isSome then .steal
  else .nothing

/-- The lowest free slot of a core that would take an item of a kind (R415). -/
def slotFor (s : State) (c : CoreId) (k : Takes) : Option (BitVec 4) :=
  if s.coreIn c && !(s.core c).leaving then (s.freeSlots c).find? fun i => takes s c i == k else none

/-! ### The binding events -/

/-- HANDLER_BIND (R103): the oldest waiting handler task of a cluster for which a slot is free is bound. -/
def execHandlerBind (c : ClusterId) (s : State) : Out :=
  match (s.cluster c).handlers.find? fun t => (handlerCore s c t).isSome with
  | none => .next s
  | some t =>
    match handlerCore s c t with
    | none => .next s
    | some k =>
      let s1 := s.modCluster c fun x => { x with handlers := x.handlers.erase t }
      .next (bindTask s1 t.source k ((s.freeSlots k).headD 0))

/-- INBOX_BIND (R97): the packet at the head of a core's inbox takes the lowest free slot, and the fills that waited for it apply. -/
def execInboxBind (c : CoreId) (s : State) : Out :=
  match (s.core c).inbox, slotFor s c .inbox with
  | p :: t, some slot =>
    let s1 := s.modCore c fun x => { x with inbox := t }
    match s.strand? p.h with
    | some st => .next (placeIn s1 p.h st c slot)
    | none => .next s1
  | _, _ => .next s

/-- An abandoned command enters its queue again: its destinations are empty from now on, and it starts afresh (R49, R159, R317). -/
def enterAgain (s : State) (c : CoreId) (m : VCmd) : State :=
  let m1 := { m with id := s.fresh, got := [], owed := [], prior := (s.strand? m.h).bind fun st => priorOf st m.op }
  (s.bump.modVec c fun f => enqueue f m1).modStrand m.h fun x => emptyDest x m.op

/-- A task's abandoned commands enter their queues again, in their order (R159, R317). -/
def restartWork (s : State) (h : Handle) (st : Strand) : State :=
  let s1 := st.saved.foldl (fun s m => enterAgain s st.core m) s
  (s1.modCore st.core fun x => { x with mqueue := x.mqueue ++ st.savedMatrix }).modStrand h fun x => { x with saved := [], savedMatrix := [] }

/-- A claim that a task presents again, ahead of new claims (R200, R201). -/
def presentAgain (s : State) (h : Handle) (st : Strand) : State :=
  match st.claim with
  | none => s
  | some (lo, hi) =>
    s.modCluster (clusterOf st.core) fun c => { c with claims :=
      (c.claims.filter Claim.back) ++ [⟨h, lo, hi, true⟩] ++ c.claims.filter fun m => !m.back }

/-- The status of a task that has come back: frozen if it was, else parked until its claim is granted again, else ready (R200, R317). -/
def returnStatus (st : Strand) : Status := if st.frozen.isSome then .frozen else if st.claim.isSome then .parked .claim else .ready

/-- PREEMPTED_RETURN (R147, R317): the oldest task pre-empted from a core returns to its lowest free slot that admits it. -/
def execPreemptedReturn (c : CoreId) (s : State) : Out :=
  match returning s c, slotFor s c .returning with
  | some (h, st), some slot =>
    let s1 := s.modCore c fun x => { x with away := dropAll h x.away }
    let st1 := { st with slot := slot, status := returnStatus st }
    .next (presentAgain (restartWork (s1.setStrand h st1) h st1) h st1)
  | _, _ => .next s

/-- DEQUE_BIND (R155): a free slot binds the deque entry nearest the head that it admits. With no on-chip entry left, the movement slot brings spilled ones
back first (R156). -/
def execDequeBind (c : CoreId) (s : State) : Out :=
  match slotFor s c .deque with
  | none => .next s
  | some slot =>
    match dequeEntry s c slot with
    | some (i, t) =>
      if (s.core c).deque.isEmpty || !entryFree s c i then .next s else .next (bindTask (dropEntry s c i) t c slot)
    | none => .next s

/-- WORK_PACKET_BIND (R321): a free slot binds the oldest work packet that it admits. -/
def execWorkPacketBind (c : CoreId) (s : State) : Out :=
  match slotFor s c .work with
  | none => .next s
  | some slot =>
    let pick := match urgentPacket s c slot with
      | some e => some e
      | none => workPacket s c slot
    match pick with
    | some (i, t) => .next (bindTask (s.modCore c fun x => { x with work := x.work.eraseIdx i }) t c slot)
    | none => .next s

/-- STEAL (R157): a free slot binds an entry taken from the tail side of another core's deque. -/
def execSteal (c : CoreId) (s : State) : Out :=
  match slotFor s c .steal with
  | none => .next s
  | some slot =>
    match victim s c slot with
    | some (k, i, t) => if entryFree s k i then .next (bindTask (dropEntry s k i) t c slot) else .next s
    | none => .next s

/-- A `fork` or `spawn` has found every on-chip entry of a core in use (R156). -/
def spillDue (s : State) (c : CoreId) : Bool := decide ((s.core c).deque.length ≥ 64) && !(s.core c).dequeRes.isEmpty

/-- The on-chip entries of a core have run out, and spilled ones remain (R156). -/
def refillDue (s : State) (c : CoreId) : Bool := (s.core c).deque.isEmpty && !(s.core c).spilled.isEmpty

/-- DEQUE_SPILL (R156): for a `fork` that found every on-chip entry in use, the movement slot moves entries to the spill area. -/
def execDequeSpill (c : CoreId) (s : State) : Out := if spillDue s c then .next (spillDeque s c) else .next s

/-- DEQUE_REFILL (R156): with no on-chip entry left, the movement slot brings spilled entries back. -/
def execDequeRefill (c : CoreId) (s : State) : Out :=
  if refillDue s c then .next (refillDeque s c) else .next s

end Sys2Proof.Machine
end

