-- ==== Sys2Proof/Machine/Control.lean ====
section
/-! DEFINITION. Page 0: control transfers (R30, R116-R118). -/

namespace Sys2Proof.Machine

/-- The target of a branch: a signed count of halfwords from the instruction's own PC (R116). -/
def branchTarget (st : Strand) (off : Word) : Word := st.r.pc + 2 * off

/-- A transfer to a target; an odd one traps ILLEGAL at the transferring instruction (R30, R116). -/
def transfer (s : State) (h : Handle) (st : Strand) (srcs : List Reg) (dst : Option (Reg × Word)) (pc : Word) : Res State :=
  if pc.getLsbD 0 then .error (illegal s 8) else retireAt s h st srcs dst pc

/-- R116. -/
def execBr (g : Guard) (off : Word) (s : State) : Out :=
  issue (some g) s fun h st => transfer s h st [] none (branchTarget st off)

/-- R116. -/
def execJmp (off : Word) (s : State) : Out :=
  issue none s fun h st => transfer s h st [] none (branchTarget st off)

/-- R116. -/
def execJr (g : Option Guard) (a : Reg) (s : State) : Out :=
  issue g s fun h st => do
    let x ← src s h st 0 a
    transfer s h st [a] none x

/-- The link register (R84). -/
def linkReg : Fin 24 := 23

/-- R116: the link register receives the address after the instruction. -/
def execCall (g : Option Guard) (off : Word) (s : State) : Out :=
  issue g s fun h st => transfer s h st [] (some (.g linkReg, nextPc s st)) (branchTarget st off)

/-- R116. -/
def execRet (g : Option Guard) (s : State) : Out :=
  issue g s fun h st => do
    let x ← gsrc st linkReg
    transfer s h st [] none x

/-- R117. -/
def execLoop (g : Option Guard) (a : Reg) (off : Word) (s : State) : Out :=
  issue g s fun h st => do
    let x ← src s h st 0 a
    let pc := if x - 1 = 0 then nextPc s st else branchTarget st off
    transfer s h st [a] (some (a, x - 1)) pc

/-- R118: trap 5 with the immediate as detail. -/
def execTrap (g : Option Guard) (imm : Word) (s : State) : Out :=
  issue g s fun _ _ => .error (.trap { number := 5, t2 := imm })

/-- R118. -/
def execNop (g : Option Guard) (s : State) : Out :=
  issue g s fun h st => retire s h st [] none

end Sys2Proof.Machine
end

