-- ==== Sys2Proof/Machine/Directional.lean ====
section
/-! DEFINITION. Page 3 at issue (R245-R256): every directional instruction is a vector command. What it does at its pool commit is
in Machine/Pool.lean. -/

namespace Sys2Proof.Machine

def execDfrom (g : Option Guard) (f64 hi : Bool) (a : BitVec 3) (b : BitVec 4) (s : State) : Out := vPlain g (.dfrom g f64 hi a b) s
def execDto (g : Option Guard) (f64 hi : Bool) (rm : Rm) (a : BitVec 4) (b : BitVec 3) (s : State) : Out :=
  vPlain g (.dto g f64 hi rm a b) s

/-- R250: the address is checked at issue. -/
def execDld (g : Option Guard) (a : BitVec 3) (m : Mem) (s : State) : Out :=
  vIssue g (.dld g a m) (fun s _ st => do let ea ← vAddress s st m 8; .ok ([ea], [])) s

/-- R250. -/
def execDldRn (g : Option Guard) (a : BitVec 3) (m : Mem) (s : State) : Out :=
  vIssue g (.dldRn g a m) (fun s _ st => do let ea ← vAddress s st m 8; .ok ([ea], [])) s

/-- R250. -/
def execDst (g : Option Guard) (a : BitVec 3) (m : Mem) (s : State) : Out :=
  vIssue g (.dst g a m) (fun s _ st => do let ea ← vAddress s st m 8; .ok ([ea], [])) s

def execDcos (g : Option Guard) (a : Fin 24) (b c : BitVec 3) (s : State) : Out := vPlain g (.dcos g a b c) s
def execDdot (g : Option Guard) (f64 : Bool) (a : Fin 24) (b c : BitVec 3) (s : State) : Out := vPlain g (.ddot g f64 a b c) s

/-- R255: B is read, and a queue popped, at issue (R246). -/
def execDscl (g : Option Guard) (a : BitVec 3) (b : Reg) (s : State) : Out :=
  vIssue g (.dscl g a b) (fun s h st => do let x ← src s h st 0 b; .ok ([x], [b])) s

def execDadd (g : Option Guard) (a b c : BitVec 3) (s : State) : Out := vPlain g (.dadd g a b c) s

/-- R253: w is read at issue (R246). -/
def execDlerp (g : Option Guard) (a b : BitVec 3) (c : Reg) (s : State) : Out :=
  vIssue g (.dlerp g a b c) (fun s h st => do let x ← src s h st 0 c; .ok ([x], [c])) s

def execDneg (g : Option Guard) (a b : BitVec 3) (s : State) : Out := vPlain g (.dneg g a b) s
def execDproj (g : Option Guard) (a b c : BitVec 3) (s : State) : Out := vPlain g (.dproj g a b c) s
def execDnorm (g : Option Guard) (a b : BitVec 3) (s : State) : Out := vPlain g (.dnorm g a b) s

/-- R255. -/
def execDsetn (g : Option Guard) (a : BitVec 3) (b : Reg) (s : State) : Out :=
  vIssue g (.dsetn g a b) (fun s h st => do let x ← src s h st 0 b; .ok ([x], [b])) s

def execDmov (g : Option Guard) (a b : BitVec 3) (s : State) : Out := vPlain g (.dmov g a b) s
def execDtest (g : Option Guard) (a : Fin 24) (b : BitVec 3) (s : State) : Out := vPlain g (.dtest g a b) s

end Sys2Proof.Machine
end

