-- ==== Sys2Proof/Machine/History.lean ====
section
/-! DEFINITION. Page 5: history memory (R327-R345). -/

namespace Sys2Proof.Machine

/-! ### Keys (R327-R330) -/

/-- The granules that a key takes (R328). -/
def keyGranules (keep size : Nat) : Nat := 1 + keep * ((size + 8 + 63) / 64)

/-- The words of a record (R339). -/
def recordLen (size : Nat) : Nat := (size + 7) / 8

/-- The fields of a key descriptor (R327). -/
def descByte (ws : List Word) (i : Nat) : Nat := ((ws.getD (i / 8) 0).toNat / 256 ^ (i % 8)) % 256
def descSize (ws : List Word) : Nat := descByte ws 0 + 256 * descByte ws 1
def descKeep (ws : List Word) : Nat := descByte ws 3
def descStep (ws : List Word) : Nat := (ws.getD 1 0).toNat
def descXlim (ws : List Word) : Nat := (ws.getD 2 0).toNat
def descHorizon (ws : List Word) : Nat := (ws.getD 3 0).toNat

/-- The first field of a descriptor that breaks its row, with its value (R327, R345). -/
def descBad (ws : List Word) : Option (Nat × Nat) :=
  let size := descSize ws
  if ¬(16 ≤ size ∧ size ≤ 256 ∧ size % (if descByte ws 2 = 1 then 8 else 4) = 0) then some (0x00, size)
  else if descByte ws 2 > 1 then some (0x02, descByte ws 2)
  else if ¬(2 ≤ descKeep ws ∧ descKeep ws ≤ 16) then some (0x03, descKeep ws)
  else if descByte ws 4 > 1 then some (0x04, descByte ws 4)
  else if (ws.getD 0 0).toNat / 2 ^ 40 ≠ 0 then some (0x05, (ws.getD 0 0).toNat / 2 ^ 40)
  else if descStep ws = 0 then some (0x08, 0)
  else if descXlim ws < descStep ws then some (0x10, descXlim ws)
  else if descHorizon ws < descXlim ws then some (0x18, descHorizon ws)
  else if (ws.drop 4).any fun w => w != 0 then some (0x20, (ws.getD 4 0).toNat)
  else none

/-- The address that a key's home is chosen by: the virtual address, or the coordinate-form address (R328). -/
def descAddr (l : Loc) (ea : Word) : Nat :=
  match l.place with
  | .bank _ => l.key
  | _ => ea.toNat % 2 ^ 48

/-- The home slice of a key (R328). -/
def keyHome (s : State) (own : CoreId) (addr : Nat) (pkg : Bool) : SliceId :=
  let ds := s.diesIn
  let d := if pkg then ds.getD (addr / 2 ^ 26 % 64 % ds.length) own.die else own.die
  ⟨d, (s.die d).slicemap[(homeHash addr).toFin]⟩

/-- The lowest free key slot of a slice (R328; DESIGN CHOICE, log entry 22). -/
def freeKeySlot (x : HistSlice) : Option (BitVec 8) :=
  ((List.range 256).map (BitVec.ofNat 8)).find? fun i => !(x.keys.any fun k => k.slot == i)

/-- Granules that the keys of a slice take (R328). -/
def granulesUsed (x : HistSlice) : Nat := x.keys.foldl (fun n k => n + keyGranules k.keep k.size) 0

/-- A key handle (R329). -/
def keyHandle (i : SliceId) (k : Key) : Word := k.gen ++ 0#32 ++ BitVec.ofBool k.pkg ++ i.die ++ i.slice ++ k.slot

/-- The home slice that a handle names (R329). -/
def handleSlice (w : Word) : SliceId := ⟨w.extractLsb' 13 2, w.extractLsb' 8 5⟩

/-- The key that a handle names for a context (R329). -/
def keyOf (s : State) (ctx : CtxId) (w : Word) : Option Key :=
  if w.extractLsb' 16 32 ≠ 0 ∨ !s.sliceIn (handleSlice w) then none
  else
    (s.histSlice (handleSlice w)).keys.find? fun k =>
      decide (k.slot = w.extractLsb' 0 8) && decide (k.gen = w.extractLsb' 48 16) && decide (k.ctx = ctx)

/-- HIST_KEY with its reason (R345). -/
def histKey (w : Word) (reason tn : Nat) : FaultInfo := ⟨0x4F, w, [w, BitVec.ofNat 64 reason, BitVec.ofNat 64 tn]⟩

/-- The newest and the oldest retained stamp of a key; zero with no state. -/
def Key.newest (k : Key) : Nat := (k.states.getLast?.map (·.1)).getD 0
def Key.oldest (k : Key) : Nat := (k.states.head?.map (·.1)).getD 0

/-- One key of a slice changed. -/
def modKey (s : State) (i : SliceId) (slot : BitVec 8) (f : Key → Key) : State :=
  s.modHist i fun x => { x with keys := x.keys.map fun k => if k.slot = slot then f k else k }

/-! ### Deciding a read (R331, R332, R334) -/

/-- The decision of a read: it would park, it faults HIST_AHEAD or HIST_RETIRED, or it is served with its kind, weight, record words
and flags. -/
inductive Verdict where
  | park
  | ahead
  | retired
  | served (kind w : Nat) (words : List Word) (fl : Flags)

/-- One field from the states at ta and tb under a weight in the field's format (R332). -/
def mixField (F : FFmt) (w va vb : Nat) : FRes :=
  let d := F.sub .rne vb va
  let v := F.fma .rne w d.1 va
  (v.1, d.2.or v.2)

/-- The weight of R332 as a binary32 code. -/
def mixWeight (t ta tb : Nat) : FRes := FFmt.f32.quotient .rne false (t - ta) 0 (tb - ta) 0

/-- One record word of one or two fields (R327, R332). -/
def mixWord (f64 : Bool) (w : Nat) (a b : Word) : Word × Flags :=
  if f64 then
    let r := mixField .f64 (FFmt.f64.ofVal .rne 0 (FFmt.f32.value w)).1 a.toNat b.toNat
    (BitVec.ofNat 64 r.1, r.2)
  else
    let lo := mixField .f32 w (a.toNat % 2 ^ 32) (b.toNat % 2 ^ 32)
    let hi := mixField .f32 w (a.toNat / 2 ^ 32) (b.toNat / 2 ^ 32)
    (BitVec.ofNat 64 (lo.1 + hi.1 * 2 ^ 32), lo.2.or hi.2)

/-- The record of two states, word by word. -/
def mixWords (f64 : Bool) (w : Nat) : List Word → List Word → List Word × Flags
  | a :: s, b :: t =>
    let x := mixWord f64 w a b
    let y := mixWords f64 w s t
    (x.1 :: y.1, x.2.or y.2)
  | _, _ => ([], {})

/-- The result of R332 from two states: interpolated below the second, else extrapolated. -/
def mixed (k : Key) (t : Nat) (a b : Nat × List Word) : Verdict :=
  let w := mixWeight t a.1 b.1
  let r := mixWords k.f64 w.1 a.2 b.2
  .served (if t < b.1 then 1 else 2) w.1 r.1 (w.2.or r.2)

/-- The result of R331 within a list of retained states, oldest first, for an instant between its ends; none where no pair is adjacent. -/
def between (k : Key) (t : Nat) : List (Nat × List Word) → Option Verdict
  | a :: b :: l => if a.1 < t && t < b.1 then some (mixed k t a b) else between k t (b :: l)
  | _ => none

/-- Extrapolation from the two newest states of a list, or from the one state (R331, R332). -/
def beyond (k : Key) (t : Nat) (l : List (Nat × List Word)) : Verdict :=
  match l.reverse with
  | b :: a :: _ => mixed k t a b
  | [b] => .served 2 0 b.2 {}
  | [] => .park

/-- The state stamped t of a list, exact (R331). -/
def exactAt (t : Nat) (l : List (Nat × List Word)) : Option Verdict :=
  (l.find? fun x => x.1 == t).map fun x => .served 0 0 x.2 {}

/-- The decision of R331 at level 0. -/
def decide0 (k : Key) (t : Nat) : Verdict :=
  if k.states.isEmpty then (if t ≤ k.horizon then .park else .ahead)
  else
    match exactAt t k.states with
    | some v => v
    | none =>
      match between k t k.states with
      | some v => v
      | none =>
        if t < k.oldest then .retired
        else if t ≤ k.newest + k.xlim then beyond k t k.states
        else if t ≤ k.newest + k.horizon then .park
        else .ahead

/-- The decision of R334 at levels 1 and 2 once the key holds, or has retired, a state stamped c or more: `l` are the retained states
stamped s* or less. A state that is needed and not retained makes it HIST_RETIRED. -/
def decideFixed (k : Key) (t : Nat) (l : List (Nat × List Word)) : Verdict :=
  match exactAt t l with
  | some v => v
  | none =>
    match between k t l with
    | some v => v
    | none =>
      if t < (l.head?.map (·.1)).getD 0 then .retired
      else if l.length = 1 ∧ k.retired.isSome then .retired
      else beyond k t l

/-- The retained states up to the first stamped c or more (R334). -/
def upTo (c : Nat) : List (Nat × List Word) → List (Nat × List Word)
  | [] => []
  | x :: l => if c ≤ x.1 then [x] else x :: upTo c l

/-- The decision of R334 at levels 1 and 2; `arrival` adds the horizon test of step 2. -/
def decide12 (k : Key) (t : Nat) (arrival : Bool) : Verdict :=
  let c := t - k.xlim
  if arrival && decide (k.newest + k.horizon < t) then .ahead
  else if k.retired.any fun r => decide (c ≤ r) then .retired
  else if k.states.any fun x => decide (c ≤ x.1) then decideFixed k t (upTo c k.states)
  else .park

/-- The decision of a read at a determinism level. -/
def decideRead (k : Key) (t level : Nat) (arrival : Bool) : Verdict := if level = 0 then decide0 k t else decide12 k t arrival

/-- The fault of a verdict (R337, R345): a read that would park on a closed key faults HIST_AHEAD with reason 2. -/
def verdictFault (k : Key) (w : Word) (t : Nat) : Verdict → Option FaultInfo
  | .park => if k.closed then some ⟨0x4C, w, [BitVec.ofNat 64 t, BitVec.ofNat 64 k.newest, 2]⟩ else none
  | .ahead => some ⟨0x4C, w, [BitVec.ofNat 64 t, BitVec.ofNat 64 k.newest, 1]⟩
  | .retired => some ⟨0x4D, w, [BitVec.ofNat 64 t, BitVec.ofNat 64 k.oldest, BitVec.ofNat 64 (k.retired.getD (2 ^ 64 - 1))]⟩
  | .served .. => none

/-- The status word (R342). -/
def statusWord (kind w : Nat) (waited : Bool) : Word := BitVec.ofNat 64 (kind + (if waited then 16 else 0) + w * 2 ^ 32)

/-- The bits that a served read sets in sflags (R332, R342). -/
def readFlags (kind : Nat) (fl : Flags) : BitVec 6 := fl.bits ||| if kind = 2 then extrapolatedBit else 0

/-! ### The record buffer (R339, R342) -/

/-- The words of a record buffer, checked one after another (R339). -/
def bufferLocs (s : State) (h : Handle) (st : Strand) (ea : Word) (kind : AccessKind) : Nat → Res (State × List Loc)
  | 0 => .ok (s, [])
  | n + 1 => do
    let (s1, l) ← locateBank s h st ea kind false
    let (s2, ls) ← bufferLocs s1 h st (ea + 8) kind n
    .ok (s2, l :: ls)

/-- The bank location of a record buffer, from the number of its first byte (R339). -/
def recordLoc (own : CoreId) (buf : Word) : Loc := bankLoc buf { own with core := buf.extractLsb' 48 3 } (buf.extractLsb' 0 17).toNat

/-- The record words written from a bank location on, each set full (R209, R342, R398). -/
def writeRecord (s : State) (ctx : CtxId) (own : CoreId) (buf : Word) : List Word → State
  | [] => s
  | w :: t =>
    let l := recordLoc own buf
    writeRecord ((s.account ctx l.place l.key 8 false).store l.place l.key 8 w.toNat true) ctx own (buf + 8) t

/-- TENSOR_BUSY where a running sweep covers the buffer that a served read would write (R363). -/
def recordBusy (s : State) (own : CoreId) (buf : Word) (n : Nat) : Option FaultInfo :=
  s.busyFault (recordLoc own buf).place (recordLoc own buf).key (8 * n) buf

/-- The tmask bits of a record buffer. -/
def bufferBits (st : Strand) (ls : List Loc) : BitVec 48 := ls.foldl (fun b l => b ||| tmaskBits st.core l) 0

/-- The words of a buffer as a key's record: the upper half of a last half-filled word is ignored (R341). -/
def recordOf (size : Nat) (ws : List Word) : List Word :=
  ((List.range ws.length).zip ws).map fun x => if 8 * x.1 + 8 ≤ size then x.2 else x.2 &&& 0xFFFFFFFF#64

/-! ### Parked reads (R333, R336) -/

/-- The wait of a strand, with its slice (R336). -/
def waitOf (s : State) (h : Handle) : Option (SliceId × HistWait) :=
  s.hist.findSome? fun e => (e.2.waits.find? fun w => decide (w.h = h)).map fun w => (e.1, w)

/-- The owner that a parked reader waits for (R336). -/
def edgeOf (s : State) (h : Handle) : Option Handle :=
  (waitOf s h).bind fun x => ((s.histSlice x.1).keys.find? fun k => k.slot == x.2.slot).map (·.owner)

/-- The parties of a cycle from a reader along the edges, where the probe reaches the reader within its hops (R336). -/
def probe (s : State) (reader node : Handle) (path : List Handle) : Nat → Option (List Handle)
  | 0 => if node = reader then some path else none
  | n + 1 =>
    if node = reader then some path
    else
      match edgeOf s node with
      | some next => probe s reader next (path ++ [node]) n
      | none => none

/-- HIST_CYCLE for a party (R345). -/
def cycleFault (key : Word) (path : List Handle) : FaultInfo :=
  ⟨0x4E, key, [path.getD 1 0 ++ path.getD 0 0, path.getD 3 0 ++ path.getD 2 0, BitVec.ofNat 64 path.length]⟩

/-- A read leaves its wait list. -/
def dropWait (s : State) (i : SliceId) (h : Handle) : State := s.modHist i fun x => { x with waits := x.waits.filter fun w => !decide (w.h = h) }

/-- The key handle that a parked reader named. -/
def pendingKey (s : State) (h : Handle) : Word := (((s.strand? h).bind (·.pending)).map (·.addr)).getD 0

/-- Every party of a found cycle has its read removed and faults HIST_CYCLE (R336). -/
def faultCycle (s : State) (path : List Handle) : State :=
  path.foldl (fun s h =>
    match waitOf s h with
    | some (i, _) => (dropWait s i h).deliver h (.inr (cycleFault (pendingKey s h) path))
    | none => s) s

/-- After a read has taken a wait-list entry, the probe from the key's owner (R336). -/
def probeCycle (s : State) (reader owner : Handle) : State :=
  match probe s reader owner [reader] 3 with
  | some path => faultCycle s path
  | none => s

/-- A parked read is served or faults, after its entry has left the list; a record that a running sweep keeps from its buffer is a fault, as with a read that is
served at once (R333, R334, R342, R363). -/
def serveWait (s : State) (i : SliceId) (k : Key) (w : HistWait) : State :=
  let s1 := dropWait s i w.h
  match s1.strand? w.h with
  | none => s1
  | some st =>
    let v := decideRead k w.t w.level.toNat false
    match v with
    | .served kind wt words fl =>
      match recordBusy s1 st.core w.buf words.length with
      | some f => s1.deliver w.h (.inr f)
      | none => (writeRecord s1 st.ctx st.core w.buf words).deliver w.h (.inl ⟨statusWord kind wt true, readFlags kind fl⟩)
    | _ =>
      match verdictFault k (keyHandle i k) w.t v with
      | some f => s1.deliver w.h (.inr f)
      | none => s1

/-- A state stamped `stamp` releases a read of a key: R331 at level 0, R334 at levels 1 and 2, would no longer park it (R333). -/
def releases (k : Key) (stamp : Nat) (w : HistWait) : Bool := decide (w.t ≤ stamp + k.xlim)

/-- The reads that an `hput` releases are served, oldest first (R333). -/
def serveWaits (s : State) (i : SliceId) (k : Key) (stamp : Nat) : State :=
  ((s.histSlice i).waits.filter fun w => w.slot == k.slot && releases k stamp w).foldl (fun s w => serveWait s i k w) s

/-- The location of a key's slice for a strand's tmask (R88, R338). -/
def keyLoc (i : SliceId) (w : Word) : Loc := { place := .slice i, key := 0, ea := w }

/-- The strand after a history operation has been performed at a slice: its tmask bit and its record (R88, R391). -/
def Strand.history (st : Strand) (i : SliceId) (w : Word) (sel : Nat) (vals : List Word) : Strand :=
  (st.orTmask (tmaskBits st.core (keyLoc i w))).record 7 sel w vals

/-! ### Instructions (R339-R344) -/

/-- A new key of a descriptor (R327, R329). -/
def newKey (h : Handle) (ctx : CtxId) (ws : List Word) (slot : BitVec 8) (gen : BitVec 16) : Key :=
  { slot := slot, gen := gen, ctx := ctx, owner := h, pkg := descByte ws 4 == 1, size := descSize ws, f64 := descByte ws 2 == 1
    keep := descKeep ws, xlim := descXlim ws, horizon := descHorizon ws, states := [], retired := none, closed := false }

/-- The detail of HIST_DECL: the offset of the first bad field, and its value as read, all 32 bytes of the reserved one (R345). -/
def declDetail (ws : List Word) (off v : Nat) : List Word :=
  BitVec.ofNat 64 off :: if off = 0x20 then (ws.drop 4).take 4 else [BitVec.ofNat 64 v]

/-- R340. -/
def execHdecl (g : Option Guard) (a b : Reg) (s : State) : Out :=
  issue g s fun h st => do
    let ea ← src s h st 0 b
    if spaceCode ea = 10 then .error (badSpace ea 1)
    else
      recorded st 7 ea (fun r => retire s h st.replayNext [b] (some (a, r.values.headD 0))) do
        let (_, l) ← locate s h st ea 8 .read false
        let (s1, ws) ← loadWords s h st ea 8
        match descBad ws with
        | some (off, v) => .error (.fault ⟨0x50, ea, declDetail ws off v⟩)
        | none =>
          (let i := keyHome s1 st.core (descAddr l ea) (descByte ws 4 == 1)
           let x := s1.histSlice i
           match freeKeySlot x with
           | none => .error (.fault ⟨0x50, ea, [0xFF, 0]⟩)
           | some slot =>
             if granulesUsed x + keyGranules (descKeep ws) (descSize ws) > 4096 then .error (.fault ⟨0x50, ea, [0xFF, 0]⟩)
             else
               let gen := Table.get 0 slot x.gens + 1
               let k := newKey h st.ctx ws slot gen
               let s2 := (s1.modHist i fun y => { y with keys := y.keys ++ [k], gens := Table.put slot gen y.gens }).charge st.ctx 4 1
               let st1 := (st.orTmask (touchWords s h st ea 8 ||| tmaskBits st.core (keyLoc i ea))).record 7 0 ea [keyHandle i k]
               retire s2 h st1 [b] (some (a, keyHandle i k)))

/-- The key with a new state; a full key retires its oldest in the same step (R330). -/
def Key.put (k : Key) (stamp : Nat) (ws : List Word) : Key :=
  if k.states.length < k.keep then { k with states := k.states ++ [(stamp, ws)] }
  else { k with states := k.states.drop 1 ++ [(stamp, ws)], retired := some k.oldest }

/-- R341, R330, R333: the buffer is read, then the fence performed, then the record sent (DEDUCED, log entry 57). -/
def execHput (g : Option Guard) (a b c : Reg) (s : State) : Out :=
  issue g s fun h st => do
    let w ← src s h st 0 a
    let buf ← src s h st 1 b
    let stamp ← src s h st 2 c
    let found := keyOf s st.ctx w
    let scope : Scope := if w.getLsbD 15 then .pkg else .die
    recorded st 7 w (fun _ => do let st1 ← fence s st scope; retire s h st1.replayNext [a, b, c] none) do
      let (s1, ls) ← bufferLocs s h st buf .read ((found.map fun k => recordLen k.size).getD 1)
      let st1 ← fence s (st.orTmask (bufferBits st ls)) scope
      (match found with
       | none => .error (.fault (histKey w 1 0))
       | some k =>
         if k.owner ≠ h then .error (.fault (histKey w 2 0))
         else if !k.states.isEmpty ∧ stamp.toNat ≤ k.newest then .error (.fault (histKey w 3 k.newest))
         else
           let i := handleSlice w
           let k1 := k.put stamp.toNat (recordOf k.size (ls.map fun l => s1.readWord l.key))
           let s2 := (modKey s1 i k.slot fun _ => k1).charge st.ctx 4 1
           let st2 := st1.history i w 1 []
           match retire s2 h st2 [a, b, c] none with
           | .ok s3 => .ok (serveWaits s3 i k1 stamp.toNat)
           | .error e => .error e)

/-- A refused reader whose read is decided at once is no longer listed (R333). -/
def unlistReader (s : State) (i : SliceId) (h : Handle) : State :=
  if h ∈ (s.histSlice i).refused then s.modHist i fun x => { x with refused := dropAll h x.refused } else s

/-- What `hget` and `hgetn` share (R342): `parks` says what happens where the read would park. The buffer is checked at the issue, and its banks see an access only
where a record is written (R209, R339). -/
def historyRead (g : Option Guard) (a b : Reg) (c : Fin 24) (sel : Nat)
    (parks : State → Handle → Strand → Key → Nat → Word → List Loc → Res State) (s : State) : Out :=
  issue g s fun h st => do
    let w ← src s h st 0 b
    let t ← gsrc st c
    let buf ← gsrc st (gplus c 1)
    let found := keyOf s st.ctx w
    recorded st 7 w (fun r => retire s h st.replayNext [b] (some (a, r.values.headD 0))) do
      let (_, ls) ← bufferLocs s h st buf .read ((found.map fun k => recordLen k.size).getD 1)
      (match found with
       | none => .error (.fault (histKey w 1 0))
       | some k =>
         let v := decideRead k t.toNat (levelOf s st) true
         match verdictFault k w t.toNat v with
         | some f => .error (.fault f)
         | none =>
           match v with
           | .served kind wt words fl =>
             let status := statusWord kind wt false
             let at_ : Word := BitVec.ofNat 64 (ls.headD (keyLoc ⟨0, 0⟩ 0)).key
             let st1 := ((st.orTmask (bufferBits st ls)).history (handleSlice w) w sel [status]).orFlags (readFlags kind fl)
             match recordBusy s st.core at_ words.length, retire (unlistReader s (handleSlice w) h) h st1 [b] (some (a, status)) with
             | some f, _ => .error (.fault { f with addr := buf })
             | none, .ok s2 => .ok (writeRecord (s2.charge st.ctx 4 1) st.ctx st.core at_ words)
             | none, .error e => .error e
           | _ => parks s h st k t.toNat w ls)

/-- The read parks on the slice's wait list, or is refused with a retry reply where the list is full (R331, R333). -/
def parkRead (a b : Reg) (s : State) (h : Handle) (st : Strand) (k : Key) (t : Nat) (w : Word) (ls : List Loc) : Res State :=
  let i := handleSlice w
  let x := s.histSlice i
  if roomFor 1024 x.waits.length x.refused h then
    let p : Pending := { dst := some a, pdst := none, sz := .s64, pops := [b], len := s.words, kind := 7, sel := 2, addr := w
                         tmask := bufferBits st ls ||| tmaskBits st.core (keyLoc i w), reply := none }
    let e : HistWait := { h := h, slot := k.slot, t := t, level := (s.core st.core).level
                          buf := BitVec.ofNat 64 (ls.headD (keyLoc ⟨0, 0⟩ 0)).key }
    let s1 := s.modHist i fun y => { y with waits := y.waits ++ [e], refused := dropAll h y.refused }
    .error (.act (probeCycle (parkPending s1 h st (.atPlace (.slice i)) p) h k.owner))
  else
    .error (.act (park (s.modHist i fun y => { y with refused := if y.refused.length < 8 then addOnce h y.refused else y.refused })
      h st (.refused (.slice i))))

/-- R342. -/
def execHget (g : Option Guard) (a b : Reg) (c : Fin 24) (s : State) : Out := historyRead g a b c 2 (parkRead a b) s

/-- R342: kind 3 where `hget` would park. -/
def execHgetn (g : Option Guard) (a b : Reg) (c : Fin 24) (s : State) : Out :=
  historyRead g a b c 3 (fun s1 h st _ _ w _ => retire s1 h (st.history (handleSlice w) w 3 [3]) [b] (some (a, 3))) s

/-- R343. -/
def execHfront (g : Option Guard) (a : Fin 24) (b : Reg) (s : State) : Out :=
  issue g s fun h st => do
    let w ← src s h st 0 b
    recorded st 7 w (fun r => retire s h (st.replayNext.setRange a r.values) [b] none)
      (match keyOf s st.ctx w with
       | none => .error (.fault (histKey w 1 0))
       | some k =>
         let vals := [BitVec.ofNat 64 k.newest, BitVec.ofNat 64 k.oldest, BitVec.ofNat 64 (k.states.length + if k.closed then 256 else 0)]
         retire (s.charge st.ctx 4 1) h ((st.history (handleSlice w) w 4 vals).setRange a vals) [b] none)

/-- A key removed at once: reads parked on it fault HIST_KEY with reason 4 (R337). -/
def dropKey (s : State) (i : SliceId) (k : Key) : State :=
  let hit := (s.histSlice i).waits.filter fun w => w.slot == k.slot
  let s1 := s.modHist i fun x => { x with
    keys := x.keys.filter fun y => y.slot != k.slot
    waits := x.waits.filter fun w => w.slot != k.slot }
  hit.foldl (fun s w => s.deliver w.h (.inr (histKey (keyHandle i k) 4 0))) s1

/-- R344. -/
def execHdrop (g : Option Guard) (a : Reg) (s : State) : Out :=
  issue g s fun h st => do
    let w ← src s h st 0 a
    recorded st 7 w (fun _ => retire s h st.replayNext [a] none)
      (match keyOf s st.ctx w with
       | none => .error (.fault (histKey w 1 0))
       | some k =>
         match retire (s.charge st.ctx 4 1) h (st.history (handleSlice w) w 5 []) [a] none with
         | .ok s1 => .ok (dropKey s1 (handleSlice w) k)
         | .error e => .error e)

end Sys2Proof.Machine
end

