-- ==== Sys2Proof/Machine/Matrix.lean ====
section
/-! DEFINITION. Page 4, matrix part (R260-R278): tile commands, the array of a quad, its governor and its turns. -/

namespace Sys2Proof.Machine

/-! ### Types and descriptors (R261, R264) -/

/-- The K class of an operand type (R261). -/
def kClass (t : EType) : Option Nat :=
  match t with
  | .bf16 | .f16 => some 32
  | .e4m3 | .e5m2 | .mx8a | .mx8b | .mxi8 | .px8 => some 64
  | .mx6a | .mx6b | .mx4 => some 128
  | _ => none

/-- The bytes of an A row or a B column that is not px8 (R261). -/
def rowBytes (t : EType) : Nat := (kClass t).getD 0 * etypeBits t / 8

/-- One operand of a tile product (R262, R264). -/
structure TileOp where
  ty : EType
  core : BitVec 3
  off : Nat
  str : Nat
  sof : Nat
  dcore : BitVec 3
  doff : Nat
deriving DecidableEq, Repr

/-- The descriptor of a tile product (R264). -/
structure TileDesc where
  a : TileOp
  b : TileOp
  gath : Bool
  gvec : BitVec 4
  acc : BitVec 1
  acq : Bool
deriving DecidableEq, Repr

/-- The type of a code of fmta or fmtb. -/
def tileType (c : BitVec 5) : EType := (EType.ofCode c).getD .f32

/-- The descriptor of registers lo and hi under two types (R264). -/
def tileDesc (lo hi : Word) (ta tb : EType) : TileDesc :=
  { a := { ty := ta, core := hi.extractLsb' 61 3, off := 8 * (hi.extractLsb' 47 14).toNat, str := 32 * (hi.extractLsb' 41 6).toNat
           sof := ((hi.extractLsb' 0 8) ++ (lo.extractLsb' 56 8)).toNat, dcore := lo.extractLsb' 37 3, doff := 2 * (lo.extractLsb' 21 16).toNat }
    b := { ty := tb, core := hi.extractLsb' 38 3, off := 8 * (hi.extractLsb' 24 14).toNat, str := 32 * (hi.extractLsb' 18 6).toNat
           sof := (lo.extractLsb' 40 16).toNat, dcore := lo.extractLsb' 18 3, doff := 2 * (lo.extractLsb' 2 16).toNat }
    gath := hi.getLsbD 17, gvec := hi.extractLsb' 13 4, acc := hi.extractLsb' 12 1, acq := hi.getLsbD 11 }

/-- An acquire or release bit and its scope break the rule of R264. -/
def badScope (flag : Bool) (scope : BitVec 3) : Bool := if flag then scope == 0 || scope == 7 else scope != 0

/-- An operand breaks a rule of its rows (R264). -/
def TileOp.bad (x : TileOp) : Bool :=
  (if x.ty == .px8 then x.str != 0 else x.str == 0) || (!isMx x.ty && x.sof != 0) ||
  (x.ty != .px8 && (x.dcore != 0 || x.doff != 0))

/-- A tile product's types and descriptor are illegal (R261, R264). -/
def tileIllegal (lo hi : Word) (ta tb : EType) : Bool :=
  let d := tileDesc lo hi ta tb
  (kClass ta).isNone || kClass ta != kClass tb || d.a.bad || d.b.bad || (!d.gath && d.gvec != 0) ||
  badScope d.acq (hi.extractLsb' 8 3) || lo.extractLsb' 0 2 != 0

/-! ### Operand ranges (R262) -/

/-- The bank and offset that a scale pointer names, or where it names no bank of the issuing cluster, the address of what it names, in coordinate form where
that is a bank, with the reason (R262; DEDUCED, log entry 41). -/
def scaleBase (s : State) (st : Strand) (ptr : Word) : Except (Word × Nat) (CoreId × Nat) :=
  match s.space st.core st.ctx ptr with
  | .ok (.bank c off) => if clusterOf c = clusterOf st.core then .ok (c, off) else .error (coordAddr c off, 2)
  | .ok _ => .error (ptr, 1)
  | .error r => .error (if r = 2 then coordForm st.core ptr else ptr, r)

/-- The range of row `r` of an operand, or of its row-offset table entry for px8 (R262, R63). -/
def TileOp.rowSide (x : TileOp) (cl : ClusterId) (r : Nat) : Side :=
  if x.ty == .px8 then ⟨coreOf cl x.core, x.off + 4 * r, 4⟩ else ⟨coreOf cl x.core, x.off + r * x.str, rowBytes x.ty⟩

/-- The scale bytes of row `r` of a microscaling operand (R262). -/
def TileOp.scaleSide (x : TileOp) (base : CoreId × Nat) (r : Nat) : Side :=
  let n := (kClass x.ty).getD 0 / 32
  ⟨base.1, base.2 + x.sof + n * r, n⟩

/-- The source row numbers of A (R263). -/
def tileRows (gath : Bool) (idx : List (BitVec 32)) : List Nat :=
  (List.range 64).map fun i => if gath then (idx.getD i 0).toNat else i

/-- The checks of the rows and the scales of an operand at issue, in order: BAD_SPACE at the first failing byte (R262). -/
def TileOp.checks (x : TileOp) (s : State) (st : Strand) (ptr : Word) (rows : List Nat) : List (Option FaultInfo) :=
  rows.map (fun r => (x.rowSide (clusterOf st.core) r).spaceFault) ++
  if isMx x.ty then
    match scaleBase s st ptr with
    | .ok base => rows.map fun r => (x.scaleSide base r).spaceFault
    | .error (a, r) => [some ⟨0x1, a + BitVec.ofNat 64 (x.sof + (kClass x.ty).getD 0 / 32 * rows.headD 0), [BitVec.ofNat 64 r]⟩]
  else []

/-- The ranges of an operand that depend on the descriptor alone: rows or table entries, then scales (R262). -/
def TileOp.sides (x : TileOp) (cl : ClusterId) (base : CoreId × Nat) (rows : List Nat) : List Side :=
  rows.map (x.rowSide cl) ++ if isMx x.ty then rows.map (x.scaleSide base) else []

/-! ### Decoded rows -/

/-- A row of A or a column of B: its elements, and where all are finite, the integers at one scale. -/
structure TileRow where
  vals : List FVal
  nan : Bool
  special : Bool
  ints : List Int
  exp : Int

/-- The scale of the elements of a row. -/
def rowScale : List FVal → Int
  | [] => 0
  | .fin _ _ e :: t => match t with
    | [] => e
    | _ => min e (rowScale t)
  | _ :: t => rowScale t

/-- A row from its elements. -/
def TileRow.ofVals (vs : List FVal) : TileRow :=
  let q := rowScale vs
  { vals := vs, nan := vs.any FVal.isNan, special := vs.any FVal.special, exp := q
    ints := vs.map fun v => match v with
      | .fin n m e => scaled n m e q
      | _ => 0 }

/-- The element codes of a bit stream held as a number (R65). -/
def streamCodes (w : Nat) (x : Nat) (n : Nat) : List Nat := (List.range n).map fun j => x / 2 ^ (w * j) % 2 ^ w

/-- A row of an operand that is not px8 (R262, R65). -/
def TileOp.denseRow (x : TileOp) (s : State) (xr : Bool) (cl : ClusterId) (base : CoreId × Nat) (r : Nat) : TileRow :=
  let k := (kClass x.ty).getD 0
  let codes := streamCodes (etypeBits x.ty) ((x.rowSide cl r).read s) k
  if isMx x.ty then
    let scales := streamCodes 8 ((x.scaleSide base r).read s) (k / 32)
    TileRow.ofVals (((List.range k).zip codes).map fun p => mxValue xr x.ty p.2 (scales.getD (p.1 / 32) 0))
  else TileRow.ofVals (codes.map (elementValue xr x.ty))

/-- The bytes that a px8 row may cover: two blocks of at most 25 halfwords (R59). -/
def px8Reach : Nat := 100

/-- Where the block data of row `r` of a px8 operand starts (R262, R63). -/
def TileOp.px8Start (x : TileOp) (s : State) (cl : ClusterId) (r : Nat) : Nat := x.doff + 2 * ((x.rowSide cl r).read s / 2)

/-- A row of a px8 operand: its two blocks, and the bytes that they take (R61, R63). -/
def TileOp.px8Row (x : TileOp) (s : State) (xr : Bool) (cl : ClusterId) (r : Nat) : TileRow × Side :=
  let start := x.px8Start s cl r
  let bits := (Side.mk (coreOf cl x.dcore) start px8Reach).bits s
  let p := px8Decode bits
  let q := px8Decode (bits.drop (16 * p.2))
  (TileRow.ofVals ((p.1 ++ q.1).map fun c => (FFmt.e4m3 xr).value c), ⟨coreOf cl x.dcore, start, 2 * (p.2 + q.2)⟩)

/-- The rows of an operand, with the px8 block ranges that they take. -/
def TileOp.rows (x : TileOp) (s : State) (xr : Bool) (cl : ClusterId) (base : CoreId × Nat) (rs : List Nat) : List TileRow × List Side :=
  if x.ty == .px8 then
    let l := rs.map (x.px8Row s xr cl)
    (l.map (·.1), l.map (·.2))
  else (rs.map (x.denseRow s xr cl base), [])

/-! ### Tile sums (R80, R81) -/

/-- The sum of products with infinities, exactly, and whether it is an invalid operation (R80). -/
def specialSum (a b : List FVal) : FVal × Bool :=
  (a.zip b).foldl (fun s p =>
    let q := p.1.mul p.2
    let r := s.1.add .rne q.1
    (r.1, s.2 || q.2 || r.2)) (.fin true 0 0, false)

/-- The sign of a zero sum: negative where every product is a negative zero (R81). -/
def allNegZero (a b : List FVal) : Bool := (a.zip b).all fun p => p.1.isNeg != p.2.isNeg && (match p.1.mul p.2 with
  | (.fin _ m _, _) => m == 0
  | _ => false)

/-- The products truncated to multiples of 2^(E - 95), E the largest whole logarithm among them (R81). -/
def truncated (ps : List Int) : List Int :=
  let top := ps.foldl (fun t p => if p = 0 then t else max t (Nat.log2 p.natAbs)) 0
  if top ≤ 95 then ps else
    let u : Int := (2 ^ (top - 95) : Nat)
    ps.map fun p => (if p < 0 then -((-p) / u) else p / u) * u

/-- `tilesum` of a row and a column, and whether it is an invalid operation (R80, R81; DEDUCED, log entry 40). -/
def tileSum (bf : Bool) (a b : TileRow) : FVal × Bool :=
  if a.nan || b.nan then (.nan false, false)
  else if a.special || b.special then specialSum a.vals b.vals
  else
    let ps := (a.ints.zip b.ints).map fun p => p.1 * p.2
    let x := (if bf then truncated ps else ps).foldl (· + ·) 0
    if x = 0 then (.fin (allNegZero a.vals b.vals) 0 0, false) else (.fin (decide (x < 0)) x.natAbs (a.exp + b.exp), false)

/-- One element of `mmul` or `mmula` (R268): `m` is the accumulator's element, none for `mmul`. -/
def tileElement (bf : Bool) (a b : TileRow) (m : Option Nat) : FRes :=
  let x := tileSum bf a b
  match m with
  | none => FFmt.f32.deliver .rne x
  | some c =>
    let v := FFmt.f32.value c
    if v.isNan then (FFmt.f32.nanCode, {})
    else
      let r := v.add .rne x.1
      FFmt.f32.deliver .rne (r.1, r.2 || x.2)

/-! ### Accumulators (R260) -/

/-- An accumulator. -/
abbrev Acc := Vector (BitVec 32) 4096

/-- An accumulator of a core. -/
def accOf (s : State) (c : CoreId) (a : BitVec 1) : Acc := Table.get (Vector.replicate 4096 0) a (s.core c).m

/-- An accumulator written whole (R266). -/
def setAcc (s : State) (c : CoreId) (a : BitVec 1) (x : List Nat) : State :=
  s.modCore c fun k => { k with m := Table.put a (Vector.ofFn fun i => BitVec.ofNat 32 (x.getD i.val 0)) k.m }

/-- The codes of an accumulator, row by row. -/
def accCodes (x : Acc) : List Nat := x.toList.map BitVec.toNat

/-! ### Issue (R266) -/

/-- A core's matrix queue has room for a command (R266, R271). -/
def matrixRoom (s : State) (st : Strand) : Bool := decide ((s.core st.core).mqueue.length < 4)

/-- A command is `mzero`, whose strand stays in rotation (R271). -/
def isZero (m : MCmd) : Bool :=
  match m.op with
  | .mzero .. => true
  | _ => false

/-- The command of an instruction, with what it captures at issue (R261, R266). -/
def matrixCommand (s : State) (h : Handle) (st : Strand) (op : Instr) (lo hi : Word) (idx : List (BitVec 32)) : MCmd :=
  { id := s.fresh, op := op, h := h, core := st.core, pc := st.r.pc, words := s.latch, lo := lo, hi := hi, fmta := st.r.fmta
    fmtb := st.r.fmtb, scla := fixScale s st st.r.scla, sclb := fixScale s st st.r.sclb, xr := (s.core st.core).xr, idx := idx }
where
  /-- A scale pointer resolved against the issuing core (R262). -/
  fixScale (s : State) (st : Strand) (p : Word) : Word :=
    match s.space st.core st.ctx p with
    | .ok (.bank c off) => coordAddr c off
    | _ => p

/-- A command at the tail of its core's matrix queue. -/
def enterMatrix (s : State) (m : MCmd) : State := s.bump.modCore m.core fun c => { c with mqueue := c.mqueue ++ [m] }

/-- The tile command of the issuing instruction: the one captured at its issue, where it has parked for room since, else what its checks and its capture give now
(R263, R266). -/
def tileNow (s : State) (h : Handle) (st : Strand) (op : Instr) (a b : Fin 24) (checks : State → Strand → Word → Word → Res (List (BitVec 32))) :
    Res MCmd :=
  match st.kept with
  | some (.tile m) => .ok { m with id := s.fresh }
  | _ => do
    let lo ← gsrc st a
    let hi ← gsrc st b
    let idx ← checks s st lo hi
    .ok (matrixCommand s h st op lo hi idx)

/-- The issue of a tile command (R266): its checks and its capture, then its entry once its core's matrix queue has room, and the strand out of rotation. An
abandoned command that is issued again keeps its name (R272, R277). -/
def tileIssue (g : Option Guard) (op : Instr) (a b : Fin 24) (checks : State → Strand → Word → Word → Res (List (BitVec 32))) (s : State) :
    Out :=
  issue g s fun h st => do
    let m ← tileNow s h st op a b checks
    if matrixRoom s st then
      .error (.act ((enterMatrix s m).setStrand h { st with status := .removed, kept := none, tile := some (st.tile.getD s.fresh) }))
    else .error (.act (park s h { st with kept := some (.tile m) } .matrixRoom))

/-- A check that fails as a fault. -/
def faultRes (f : Option FaultInfo) : Res Unit :=
  match f with
  | some f => .error (.fault f)
  | none => .ok ()

/-- The index vector of a gathered product: elements 0-63 of a v register, once it is full (R263). -/
def tileIndex (s : State) (st : Strand) (d : TileDesc) : Res (List (BitVec 32)) :=
  if d.gath then
    let f := (s.core st.core).vec
    if f.vfull.getLsbD d.gvec.toNat then .ok ((f.reg d.gvec).toList.take 64) else .error (.park (.vreg d.gvec))
  else .ok []

/-- The checks of a tile product at issue (R261-R264; DEDUCED, log entry 41). -/
def productChecks (s : State) (st : Strand) (lo hi : Word) : Res (List (BitVec 32)) := do
  let ta := tileType st.r.fmta
  let tb := tileType st.r.fmtb
  if tileIllegal lo hi ta tb then .error (illegal s 7)
  else
    let d := tileDesc lo hi ta tb
    let idx ← tileIndex s st d
    faultRes (firstFault (d.a.checks s st st.r.scla (tileRows d.gath idx) ++ d.b.checks s st st.r.sclb (List.range 64)))
    .ok idx

/-- R268. -/
def execMmul (g : Option Guard) (a b : Fin 24) (s : State) : Out := tileIssue g (.mmul g a b) a b productChecks s

/-- R268. -/
def execMmula (g : Option Guard) (a b : Fin 24) (s : State) : Out := tileIssue g (.mmula g a b) a b productChecks s

/-- The descriptor of `mld` and `mst` (R269). -/
structure MoveDesc where
  core : BitVec 3
  off : Nat
  str : Nat
  acc : BitVec 1
  acq : Bool
  rel : Bool
  scope : BitVec 3
deriving DecidableEq, Repr

def moveDesc (hi : Word) : MoveDesc :=
  { core := hi.extractLsb' 61 3, off := 8 * (hi.extractLsb' 47 14).toNat, str := 32 * (hi.extractLsb' 41 6).toNat
    acc := hi.extractLsb' 40 1, acq := hi.getLsbD 39, rel := hi.getLsbD 38, scope := hi.extractLsb' 35 3 }

/-- The rows of the tile of `mld` or `mst`, w bytes an element (R269). -/
def moveSides (cl : ClusterId) (d : MoveDesc) (w : Nat) : List Side :=
  (List.range 64).map fun i => ⟨coreOf cl d.core, d.off + i * d.str, 64 * w⟩

/-- The checks of `mld` and `mst` at issue (R269). -/
def moveChecks (store : Bool) (w : Nat) (s : State) (st : Strand) (lo hi : Word) : Res (List (BitVec 32)) := do
  let d := moveDesc hi
  if lo ≠ 0 ∨ hi.extractLsb' 0 35 ≠ 0 ∨ d.str = 0 ∨ (if store then d.acq else d.rel) ∨ (store ∧ d.str < 64 * w) ∨
      badScope (d.acq || d.rel) d.scope then .error (illegal s 7)
  else
    faultRes (firstFault ((moveSides (clusterOf st.core) d w).map Side.spaceFault))
    .ok []

/-- R269. -/
def execMld (g : Option Guard) (a b : Fin 24) (s : State) : Out := tileIssue g (.mld g a b) a b (moveChecks false 4) s

/-- R269. -/
def execMst (g : Option Guard) (t : EType) (rm : Rm) (a b : Fin 24) (s : State) : Out :=
  tileIssue g (.mst g t rm a b) a b (moveChecks true (etypeBits t / 8)) s

/-- The descriptor of `mscl` (R270): the side of ρ and the side of γ where they are used. -/
structure ScaleDesc where
  rho : Option (BitVec 3 × Nat)
  gamma : Option (BitVec 3 × Nat)
  acc : BitVec 1
  acq : Bool
deriving DecidableEq, Repr

def scaleDesc (hi : Word) : ScaleDesc :=
  { rho := if hi.getLsbD 46 then some (hi.extractLsb' 61 3, 8 * (hi.extractLsb' 47 14).toNat) else none
    gamma := if hi.getLsbD 28 then some (hi.extractLsb' 43 3, 8 * (hi.extractLsb' 29 14).toNat) else none
    acc := hi.extractLsb' 27 1, acq := hi.getLsbD 26 }

/-- The ranges of the vectors of `mscl`. -/
def scaleSides (cl : ClusterId) (d : ScaleDesc) : List Side :=
  ([d.rho, d.gamma].filterMap id).map fun x => ⟨coreOf cl x.1, x.2, 256⟩

/-- The checks of `mscl` at issue (R270). -/
def scaleChecks (s : State) (st : Strand) (lo hi : Word) : Res (List (BitVec 32)) := do
  let d := scaleDesc hi
  if lo ≠ 0 ∨ hi.extractLsb' 0 23 ≠ 0 ∨ (d.rho.isNone ∧ hi.extractLsb' 47 17 ≠ 0) ∨ (d.gamma.isNone ∧ hi.extractLsb' 29 17 ≠ 0) ∨
      badScope d.acq (hi.extractLsb' 23 3) then .error (illegal s 7)
  else
    faultRes (firstFault ((scaleSides (clusterOf st.core) d).map Side.spaceFault))
    .ok []

/-- R270. -/
def execMscl (g : Option Guard) (rm : Rm) (a b : Fin 24) (s : State) : Out := tileIssue g (.mscl g rm a b) a b scaleChecks s

/-- R271: `mzero` enters the queue, and its strand stays in rotation. -/
def execMzero (g : Option Guard) (a : BitVec 1) (s : State) : Out :=
  issue g s fun h st => do
    if !matrixRoom s st then .error (.park .matrixRoom)
    else retire (enterMatrix s (matrixCommand s h st (.mzero g a) 0 0 [])) h st [] none

/-- The commands in the four queues of a quad and in its array (R272). -/
def quadCommands (s : State) (q : QuadId) : List Nat :=
  ((coresOfQuad q).flatMap fun c => (s.core c).mqueue.map MCmd.id) ++
  (match (s.quad q).running with
   | some (m, _) => [m.id]
   | none => [])

/-- The names of the commands in the four queues of a quad and in its array, as `mwait` keeps them: a tile command has its strand's (R272). -/
def matrixNames (s : State) (q : QuadId) : List Nat :=
  let l := ((coresOfQuad q).flatMap fun c => (s.core c).mqueue) ++ ((s.quad q).running.map (·.1)).toList
  l.map fun m => if isZero m then m.id else ((s.strand? m.h).bind Strand.tile).getD m.id

/-- The names of every matrix command that has neither completed nor been abandoned by a fault: also those that a pre-emption, a context switch or the
sequencer has taken out of a quad, to be run again (R272, R277). -/
def matrixOpen (s : State) : List Nat :=
  let ids := fun (l : List MCmd) => (l.filter isZero).map MCmd.id
  (s.cores.flatMap fun e => ids e.2.mqueue) ++
  (s.clusters.flatMap fun e => ids ((e.2.quads[0].running.map (·.1)).toList ++ (e.2.quads[1].running.map (·.1)).toList)) ++
  (s.contexts.flatMap fun e => e.2.saved.flatMap fun k => ids k.image.mqueue) ++
  (s.strands.flatMap fun e => ids e.2.savedMatrix ++ e.2.tile.toList)

/-- R272: waits for the commands that stood in the quad when it issued. -/
def execMwait (g : Option Guard) (s : State) : Out :=
  issue g s fun h st =>
    let ids := matrixNames s (quadOf st.core)
    if ids.isEmpty then retire s h st [] none else .error (.act (parkPending s h st (.matrixWork ids) (waitPending s)))

/-! ### The governor (R273-R276) -/

/-- Some core of a quad runs at level 2 (R276). -/
def quadStrict (s : State) (q : QuadId) : Bool := (coresOfQuad q).any fun c => (s.core c).level == 2

/-- Tile products started in the current window (R275; DEDUCED, log entry 42). -/
def issuedNow (s : State) (q : QuadId) : Nat := if (s.quad q).window = s.cycle / 1024 then (s.quad q).issued else 0

/-- The register `mgov` as a core reads it (R273). An `mzero` that an abandonment or a returning task puts before a full queue waits outside its four entries
(DEDUCED, log entry 43). -/
def mgovWord (s : State) (c : CoreId) : Word :=
  let q := s.quad (quadOf c)
  BitVec.ofNat 64 (q.stalls + min 4 (s.core c).mqueue.length * 2 ^ 32 + issuedNow s (quadOf c) * 2 ^ 40 + q.budget * 2 ^ 48 +
    (if (quadCommands s (quadOf c)).isEmpty then 0 else 2 ^ 63))

/-- R274, op 0. -/
def execMgovRead (g : Option Guard) (a : Fin 24) (s : State) : Out :=
  issue g s fun h st => retire s h st [] (some (.g a, mgovWord s st.core))

/-- R274, op 1: stalls is cleared in the same step. -/
def execMgovReadClear (g : Option Guard) (a : Fin 24) (s : State) : Out :=
  issue g s fun h st => retire (s.modQuad (quadOf st.core) fun q => { q with stalls := 0 }) h st [] (some (.g a, mgovWord s st.core))

/-- A command is a tile product. -/
def isProduct (m : MCmd) : Bool :=
  match m.op with
  | .mmul .. | .mmula .. => true
  | _ => false

/-- The governor withholds the head of a core's queue (R275). -/
def withheld (s : State) (q : QuadId) (m : MCmd) : Bool := isProduct m && decide ((s.quad q).budget ≤ issuedNow s q)

/-- The bit acq of a command's descriptor (R264, R269, R270). -/
def commandAcq (m : MCmd) : Bool :=
  match m.op with
  | .mmul .. | .mmula .. => m.hi.getLsbD 11
  | .mld .. => m.hi.getLsbD 39
  | .mscl .. => m.hi.getLsbD 26
  | _ => false

/-- The scope of a command's descriptor, where it has one (R264, R269, R270). -/
def commandScope (m : MCmd) : Nat :=
  match m.op with
  | .mmul .. | .mmula .. => (m.hi.extractLsb' 8 3).toNat
  | .mld .. => (m.hi.extractLsb' 35 3).toNat
  | .mscl .. => (m.hi.extractLsb' 23 3).toNat
  | _ => 0

/-- The array may take a command of a core: its cluster is not halted, its context is not leaving, and the acquire of the command is met (R159, R209, R294). -/
def arrayTakes (s : State) (c : CoreId) (m : MCmd) : Bool :=
  !(s.cluster (clusterOf c)).dbg.halted && !(s.core c).leaving && !(commandAcq m && earlierWork s c m.id (commandScope m))

/-- The head of a core's queue may start at levels 0 and 1 (R275). -/
def mayStart (s : State) (q : QuadId) (c : CoreId) : Bool :=
  match (s.core c).mqueue with
  | m :: _ => !withheld s q m && arrayTakes s c m
  | [] => false

/-- The core of a quad at a position of its order. -/
def quadCore (q : QuadId) (k : Nat) : CoreId := coreOf q.cluster (BitVec.ofNat 3 (k % 4 + if q.hi then 4 else 0))

/-- The core that the array serves next, round-robin (R203, R275). -/
def nextMatrixCore (s : State) (q : QuadId) : Option CoreId :=
  ((List.range 4).map fun k => quadCore q ((s.quad q).next + k)).find? (mayStart s q)

/-- The array starts the command at the head of a core's queue (R266). -/
def startMatrix (s : State) (q : QuadId) (c : CoreId) : State :=
  match (s.core c).mqueue with
  | [] => s
  | m :: t =>
    let n := issuedNow s q + if isProduct m then 1 else 0
    (s.modCore c fun x => { x with mqueue := t }).modQuad q fun x =>
      { x with running := some (m, s.cycle / 512), next := (c.core.toNat % 4 + 1) % 4, issued := n, window := s.cycle / 1024, turnStarted := true }

/-- MATRIX_START (R266, R275, R276). At level 2 the core of the turn may start one command in it. -/
def execMatrixStart (q : QuadId) (s : State) : Out :=
  if (s.quad q).running.isSome then .next s
  else if quadStrict s q then
    let c := quadCore q (s.quad q).turn
    match (s.core c).mqueue with
    | m :: _ =>
      if (s.quad q).turn = s.cycle / 512 ∧ !(s.quad q).turnStarted ∧ arrayTakes s c m then .next (startMatrix s q c)
      else .next s
    | [] => .next s
  else
    match nextMatrixCore s q with
    | some c => .next (startMatrix s q c)
    | none => .next s

/-- GOVERNOR_WINDOW (R275): a window boundary resets the issued count. -/
def execGovernorWindow (q : QuadId) (s : State) : Out :=
  if (s.quad q).window = s.cycle / 1024 then .next s
  else .next (s.modQuad q fun x => { x with window := s.cycle / 1024, issued := 0 })

/-- A turn of the array begins at this cycle (R276). -/
def turnBoundary (s : State) : Bool := s.cycle % 512 == 0

/-- MATRIX_TURN (R276): at a boundary the turn passes on; a core whose queue is empty then leaves its turn idle. A quad that comes to level 2 within a turn
leaves the rest of it idle. -/
def execMatrixTurn (q : QuadId) (s : State) : Out :=
  if (s.quad q).turn = s.cycle / 512 then .next s
  else .next (s.modQuad q fun x =>
    { x with turn := s.cycle / 512, turnStarted := !turnBoundary s || (s.core (quadCore q (s.cycle / 512))).mqueue.isEmpty })

/-- The cycles that may pass before a quad at level 2 has to pass its turn on (R276). -/
def turnLeft (s : State) (q : QuadId) : Option Nat :=
  if !quadStrict s q then none
  else if turnBoundary s ∧ (s.quad q).turn ≠ s.cycle / 512 then some 0
  else some (512 - s.cycle % 512)

/-- The cycles that the governor withholds a ready command of a quad while time advances by `dt` (R273, R275). -/
def stallCycles (s : State) (q : QuadId) (dt : Nat) : Nat :=
  if quadStrict s q then 0
  else if (coresOfQuad q).any fun c => (s.core c).mqueue.head?.any (withheld s q) then min dt (1024 - s.cycle % 1024) else 0

/-! ### Running a command (R266-R270) -/

/-- The result of a command at the array: a new accumulator, writes to banks, and flags; or a fault with nothing written. -/
structure MatrixRes where
  acc : Option (BitVec 1 × List Nat)
  writes : List (CoreId × Nat × Nat × Nat)
  sides : List Side
  fl : Flags

/-- A tile product (R268). -/
def runProduct (s : State) (m : MCmd) (st : Strand) (add : Bool) : Except FaultInfo MatrixRes :=
  let d := tileDesc m.lo m.hi (tileType m.fmta) (tileType m.fmtb)
  let cl := clusterOf m.core
  let base := fun (p : Word) => match scaleBase s { st with core := m.core } p with
    | .ok b => b
    | .error _ => (m.core, 0)
  let rs := tileRows d.gath m.idx
  let fixed := d.a.sides cl (base m.scla) rs ++ d.b.sides cl (base m.sclb) (List.range 64)
  match firstFault (fixed.map (Side.leaseFault s st.launch st.ctx)) with
  | some f => .error f
  | none =>
    let ra := d.a.rows s m.xr cl (base m.scla) rs
    let rb := d.b.rows s m.xr cl (base m.sclb) (List.range 64)
    match firstFault ((ra.2 ++ rb.2).flatMap fun x => [x.spaceFault, x.leaseFault s st.launch st.ctx]) with
    | some f => .error f
    | none =>
      let bf := kClass d.a.ty == some 32
      let old := accCodes (accOf s m.core d.acc)
      let r := mapFlags (fun p => tileElement bf p.1 p.2.1 p.2.2)
        (((List.range 64).zip ra.1).flatMap fun x => ((List.range 64).zip rb.1).map fun y =>
          (x.2, y.2, if add then some (old.getD (64 * x.1 + y.1) 0) else none))
      .ok { acc := some (d.acc, r.1), writes := [], sides := fixed ++ ra.2 ++ rb.2, fl := r.2 }

/-- `mld` (R269). -/
def runMld (s : State) (m : MCmd) (st : Strand) : Except FaultInfo MatrixRes :=
  let d := moveDesc m.hi
  let sides := moveSides (clusterOf m.core) d 4
  match firstFault (sides.map (Side.leaseFault s st.launch st.ctx)) with
  | some f => .error f
  | none => .ok { acc := some (d.acc, sides.flatMap fun x => streamCodes 32 (x.read s) 64), writes := [], sides := sides, fl := {} }

/-- TENSOR_BUSY at a side that a command writes (R363). -/
def Side.busyFault (s : State) (x : Side) : Option FaultInfo :=
  (s.sweeping x.core x.off x.len).map fun t => ⟨0x53, coordAddr x.core x.off, [coordAddr x.core x.off, t]⟩

/-- `mst` (R269): rows ascending, elements in ascending address order. -/
def runMst (s : State) (m : MCmd) (st : Strand) (t : EType) (rm : Rm) : Except FaultInfo MatrixRes :=
  let d := moveDesc m.hi
  let w := etypeBits t / 8
  let sides := moveSides (clusterOf m.core) d w
  match firstFault (sides.flatMap fun x => [x.leaseFault s st.launch st.ctx, x.busyFault s]) with
  | some f => .error f
  | none =>
    let codes := accCodes (accOf s m.core d.acc)
    let r := if t == .f32 then (codes, {}) else mapFlags (fun c => elementOf m.xr t rm 0 (FFmt.f32.value c)) codes
    .ok { acc := none, sides := sides, fl := r.2
          writes := ((List.range 4096).zip r.1).map fun p => (coreOf (clusterOf m.core) d.core, d.off + p.1 / 64 * d.str + w * (p.1 % 64), w, p.2) }

/-- A product of three binary32 codes with one rounding; a NaN factor gives the canonical NaN and sets no flag (R270). -/
def scaleElement (rm : Rm) (m r c : Nat) : FRes :=
  if ([m, r, c].map FFmt.f32.value).any FVal.isNan then (FFmt.f32.nanCode, {})
  else
    let p := (FFmt.f32.value m).mul (FFmt.f32.value r)
    let q := p.1.mul (FFmt.f32.value c)
    FFmt.f32.deliver rm (q.1, p.2 || q.2)

/-- `mscl` (R270). -/
def runMscl (s : State) (m : MCmd) (st : Strand) (rm : Rm) : Except FaultInfo MatrixRes :=
  let d := scaleDesc m.hi
  let cl := clusterOf m.core
  let sides := scaleSides cl d
  match firstFault (sides.map (Side.leaseFault s st.launch st.ctx)) with
  | some f => .error f
  | none =>
    let vec := fun (x : Option (BitVec 3 × Nat)) => match x with
      | some (c, off) => streamCodes 32 ((Side.mk (coreOf cl c) off 256).read s) 64
      | none => List.replicate 64 FFmt.f32.one
    let rho := vec d.rho
    let gam := vec d.gamma
    let r := mapFlags (fun p => scaleElement rm p.2 (rho.getD (p.1 / 64) 0) (gam.getD (p.1 % 64) 0))
      ((List.range 4096).zip (accCodes (accOf s m.core d.acc)))
    .ok { acc := some (d.acc, r.1), writes := [], sides := sides, fl := r.2 }

/-- What the array does for a command (R266-R271). -/
def runMatrix (s : State) (m : MCmd) (st : Strand) : Except FaultInfo MatrixRes :=
  match m.op with
  | .mmul .. => runProduct s m st false
  | .mmula .. => runProduct s m st true
  | .mld .. => runMld s m st
  | .mst _ t rm _ _ => runMst s m st t rm
  | .mscl _ rm _ _ => runMscl s m st rm
  | .mzero _ a => .ok { acc := some (a, List.replicate 4096 0), writes := [], sides := [], fl := {} }
  | _ => .ok { acc := none, writes := [], sides := [], fl := {} }

/-- The writes of a command, in order; full/empty bits stay as they are (R267). -/
def matrixWrites (s : State) : List (CoreId × Nat × Nat × Nat) → State
  | [] => s
  | (c, off, w, v) :: t => matrixWrites (s.store (.bank c) (coordAddr c off).toNat w v false) t

/-- The strand of a tile command returns to rotation at the next instruction; `mzero`'s is in rotation already (R266, R271). -/
def returnStrand (s : State) (m : MCmd) (fl : Flags) (bits : BitVec 48) : State :=
  s.modStrand m.h fun st =>
    let st1 := (st.orFp fl).orTmask bits
    if st.status = .removed ∧ st.r.pc = m.pc then
      { st1 with status := .ready, tile := none, r := { st1.r with pc := m.pc + BitVec.ofNat 64 (2 * m.words.length) } }
    else st1

/-- The tmask bits of the banks that a command touched (R88). -/
def sideBits (own : CoreId) (l : List Side) : BitVec 48 :=
  l.foldl (fun b x => b ||| engineBits own (bankLoc 0 x.core x.off)) 0

/-- The array is free. -/
def freeArray (s : State) (q : QuadId) : State := s.modQuad q fun x => { x with running := none }

/-- Array passes of a command (R277, R398). -/
def arrayPasses (m : MCmd) : Nat := if isProduct m then 32 else 0

/-- The bank accesses of a command's ranges; how many a range takes no program can tell (R398; DESIGN CHOICE, log entry 86). -/
def chargeSides (s : State) (ctx : CtxId) (l : List Side) : State :=
  l.foldl (fun s x => s.charge ctx 3 (Config.bankEvents s.cycle x.len)) s

/-- The commit of a finished command, or its fault delivered on the instruction itself (R266). -/
def commitMatrix (s : State) (q : QuadId) (m : MCmd) : State :=
  match s.strand? m.h with
  | none => freeArray s q
  | some st =>
    match runMatrix s m st with
    | .error f => freezeAt (freeArray s q) m.h st f m.pc (2 * m.words.length) none
    | .ok r =>
      let s1 := match r.acc with
        | some (a, x) => setAcc s m.core a x
        | none => s
      let s2 := matrixWrites (noteSides s1 r.sides) r.writes
      (chargeSides (returnStrand (freeArray s2 q) m r.fl (sideBits m.core r.sides)) st.ctx r.sides).charge st.ctx 2 (arrayPasses m)

/-- The array may report a command that it started in a turn: at level 2, at the end of that turn or of a later one (R276). -/
def mayReport (s : State) (q : QuadId) (started : Nat) : Bool := !quadStrict s q || (turnBoundary s && decide (started < s.cycle / 512))

/-- MATRIX_COMMIT (R266): the array finishes its command; at level 2 it reports at the end of the turn (R276). -/
def execMatrixCommit (q : QuadId) (s : State) : Out :=
  match (s.quad q).running with
  | none => .next s
  | some (m, t) => if mayReport s q t then .next (commitMatrix s q m) else .next s

/-- MATRIX_ABANDON (R277): the running command is dropped at a step boundary with nothing written, and its strand issues the
instruction again from its PC (R31). `mzero`, whose strand has gone on, goes back to the head of its queue (R271; DEDUCED, log entry 43). -/
def execMatrixAbandon (q : QuadId) (s : State) : Out :=
  match (s.quad q).running with
  | none => .next s
  | some (m, _) =>
    let s1 := freeArray s q
    match m.op with
    | .mzero .. => .next (s1.modCore m.core fun c => { c with mqueue := m :: c.mqueue })
    | _ => .next (s1.modStrand m.h fun st => if st.status = .removed then { st with status := .ready } else st)

end Sys2Proof.Machine
end

