-- ==== Sys2Proof/Machine/Queues.lean ====
section
/-! DEFINITION. Command queues and their packets (R308-R315, R322, R323), and the work distributor (R322). -/

namespace Sys2Proof.Machine

/-! ### Queues (R308, R309) -/

/-- The die whose front end serves a queue (R308). -/
def frontDie (s : State) (q : BitVec 4) : BitVec 2 := (s.diesIn)[q.toNat % (s.diesIn).length]?.getD 0

/-- The queue of a context. -/
def queue? (s : State) (ctx : CtxId) (q : BitVec 4) : Option CmdQueue := (s.context? ctx).bind fun x => Table.find q x.queues

/-- One queue of a context changed. -/
def modQueue (s : State) (ctx : CtxId) (q : BitVec 4) (f : CmdQueue → CmdQueue) : State :=
  s.modContext ctx fun x => { x with queues := match Table.find q x.queues with
    | some c => Table.put q (f c) x.queues
    | none => x.queues }

/-- A queue halts with an error (R309, R312): what its packet waited for is forgotten, and a SETDET that waited holds back no LAUNCH any more. -/
def haltQueue (s : State) (ctx : CtxId) (q : BitVec 4) (error : BitVec 8) : State :=
  (modQueue (forgetWaits s ctx q) ctx q fun c => { c with state := 4, error := error })

/-- What `qstat` shows of a queue (R309): a queue that is enabled, waits for nothing and has a packet is reading it. -/
def CmdQueue.shown (c : CmdQueue) : BitVec 8 := if c.state = 0 ∧ c.enabled ∧ c.head ≠ c.tail then 1 else c.state

/-- The register `qstat` of a queue (R309). -/
def qstatWord (c : CmdQueue) : Word := (0#16 ++ c.error ++ c.shown ++ c.head : BitVec 64)

/-- A host write of a tail: ignored for a device-fed queue; a tail beyond the ring halts the queue (R309). -/
def writeTail (s : State) (ctx : CtxId) (q : BitVec 4) (value : Word) : State :=
  match queue? s ctx q with
  | none => s
  | some c =>
    if c.deviceFed then s
    else if ((value.setWidth 32 : BitVec 32) - c.head).toNat ≤ c.slots then modQueue s ctx q fun c => { c with tail := value.setWidth 32 }
    else haltQueue s ctx q 5

/-- QTAIL_WRITE (R309). -/
def execQtailWrite (ctx : CtxId) (q : BitVec 4) (value : Word) (s : State) : Out := .next (writeTail s ctx q value)

/-! ### Reading packets (R310-R312) -/

/-- A core of the die of a front end, from which its reads leave (R322). -/
def frontCore (s : State) (q : BitVec 4) : CoreId := ⟨frontDie s q, 0, 0⟩

/-- A location that the front end reads or writes at a global address; none where the access faults (R312), a page that is not present among them (R381;
DESIGN CHOICE, log entry 112). -/
def frontLoc (s : State) (ctx : CtxId) (q : BitVec 4) (ea : Word) (kind : AccessKind) : Option Loc :=
  if spaceCode ea ≥ 8 then none
  else (s.deviceLoc (frontCore s q) ctx ea kind).filter fun l => !s.isPoisoned l.key

/-- `n` consecutive words that the front end reads. -/
def frontWords (s : State) (ctx : CtxId) (q : BitVec 4) (ea : Word) : Nat → Option (List Word)
  | 0 => some []
  | n + 1 => do
    let l ← frontLoc s ctx q ea .read
    let t ← frontWords s ctx q (ea + 8) n
    some (s.readWord l.key :: t)

/-- A byte of a packet or descriptor. -/
def packetByte (ws : List Word) (i : Nat) : Nat := (ws.getD (i / 8) 0).toNat / 256 ^ (i % 8) % 256

/-- The bytes from `a` up to `b` of a packet are zero. -/
def zeroBytes (ws : List Word) (a b : Nat) : Bool := (List.range (b - a)).all fun i => packetByte ws (a + i) == 0

/-- An event address breaks its rule: 8-byte aligned, in the global space (R312). The sign check of R90 is not part of that rule (DESIGN CHOICE, log entry 114). -/
def badEvent (ea : Word) : Bool := ea.toNat % 8 != 0 || decide (spaceCode ea ≥ 8)

/-- The packet at the head of a queue that its front end may read, or the error that reading it gives (R310, R312). -/
def headPacket (s : State) (ctx : CtxId) (q : BitVec 4) : Option (Except (BitVec 8) (CmdQueue × List Word)) :=
  match queue? s ctx q with
  | none => none
  | some c =>
    if !c.enabled || c.state == 4 || c.head == c.tail || c.slots == 0 then none
    else
      match frontWords s ctx q (c.ring + BitVec.ofNat 64 (64 * (c.head.toNat % c.slots))) 8 with
      | none => some (.error 4)
      | some ws => if packetByte ws 0 = 0 ∨ 5 < packetByte ws 0 then some (.error 1) else some (.ok (c, ws))

/-- The frame of a packet event: a packet of the event's type at the head of the queue is handled; one that cannot be read, or of no type, halts
the queue (R310, R312). -/
def packetEvent (ctx : CtxId) (q : BitVec 4) (type : Nat) (s : State) (f : CmdQueue → List Word → State) : Out :=
  match headPacket s ctx q with
  | none => .next s
  | some (.error e) => .next (haltQueue s ctx q e)
  | some (.ok (c, ws)) => if packetByte ws 0 = type then .next (f c ws) else .next s

/-- A queue has finished with its packet (R310). -/
def advance (s : State) (ctx : CtxId) (q : BitVec 4) : State :=
  modQueue s ctx q fun c => { c with head := c.head + 1, state := 0 }

/-- A queue shows what it waits for (R309). -/
def waiting (s : State) (ctx : CtxId) (q : BitVec 4) (state : BitVec 8) : State := modQueue s ctx q fun c => { c with state := state }

/-- A launch of a queue has not retired (R310). -/
def queueBusy (s : State) (ctx : CtxId) (q : BitVec 4) : Bool :=
  s.launches.any fun e => decide (e.2.ctx = ctx) && e.2.queue == q && !e.2.retired

/-! ### WAITEV, SIGNAL, QFENCE, SETDET (R310, R311, R323) -/

/-- PACKET_WAITEV (R311): the word is compared when the packet is read; while it is below the value the queue waits. A word that
cannot be reached halts the queue with error 4 (DESIGN CHOICE, log entry 113). -/
def execPacketWaitev (ctx : CtxId) (q : BitVec 4) (s : State) : Out :=
  packetEvent ctx q 2 s fun c ws =>
    let ea := ws.getD 1 0
    let value := ws.getD 2 0
    if c.state = 2 then s
    else if !(zeroBytes ws 1 8 && zeroBytes ws 24 64) || badEvent ea then haltQueue s ctx q 2
    else
      match frontLoc s ctx q ea .read with
      | none => haltQueue s ctx q 4
      | some l =>
        if value ≤ s.readWord l.key then advance s ctx q
        else { waiting s ctx q 2 with eventWaits := s.eventWaits ++ [⟨ctx, q, l.key, value, []⟩] }

/-- WAITEV_WRITE_REPORT (R311): the oldest report of a write to the event word is compared. -/
def execWaitevWriteReport (ctx : CtxId) (q : BitVec 4) (s : State) : Out :=
  match s.eventWaits.find? fun e => decide (e.ctx = ctx) && e.queue == q with
  | none => .next s
  | some e =>
    match e.reports with
    | [] => .next s
    | v :: t =>
      if e.value ≤ v then .next (advance { s with eventWaits := s.eventWaits.erase e } ctx q)
      else .next { s with eventWaits := s.eventWaits.map fun x => if x = e then { x with reports := t } else x }

/-- An event word stored, or added to modulo 2^64, as one step at its home slice (R311, R315). -/
def signalEvent (s : State) (ctx : CtxId) (l : Loc) (add : Bool) (value : Word) : State :=
  let v := if add then s.readWord l.key + value else value
  (s.store l.place l.key 8 v.toNat false).dirty l.key ctx

/-- PACKET_SIGNAL (R311): once every earlier launch of the queue has retired, the event word is written; one that cannot be reached halts the queue with error 4
(DESIGN CHOICE, log entry 113). -/
def execPacketSignal (ctx : CtxId) (q : BitVec 4) (s : State) : Out :=
  packetEvent ctx q 3 s fun _ ws =>
    let ea := ws.getD 1 0
    if !(zeroBytes ws 2 8 && zeroBytes ws 24 64) || badEvent ea || decide (1 < packetByte ws 1) then haltQueue s ctx q 2
    else if queueBusy s ctx q then waiting s ctx q 3
    else
      match frontLoc s ctx q ea .write with
      | none => haltQueue s ctx q 4
      | some l => advance (signalEvent s ctx l (packetByte ws 1 == 1) (ws.getD 2 0)) ctx q

/-- PACKET_QFENCE (R310). -/
def execPacketQfence (ctx : CtxId) (q : BitVec 4) (s : State) : Out :=
  packetEvent ctx q 5 s fun _ ws =>
    if !zeroBytes ws 1 64 then haltQueue s ctx q 2
    else if queueBusy s ctx q then waiting s ctx q 3
    else advance s ctx q

/-- A launch of a context has not retired (R323). -/
def contextBusy (s : State) (ctx : CtxId) : Bool := s.launches.any fun e => decide (e.2.ctx = ctx) && !e.2.retired

/-- PACKET_SETDET (R323): while it waits no queue of the context starts a LAUNCH; once every launch of the context has retired the level
changes. -/
def execPacketSetdet (ctx : CtxId) (q : BitVec 4) (s : State) : Out :=
  packetEvent ctx q 4 s fun _ ws =>
    if !zeroBytes ws 2 64 || decide (2 < packetByte ws 1) then haltQueue s ctx q 2
    else if contextBusy s ctx then
      (waiting s ctx q 3).modContext ctx fun x => { x with setdet := addOnce (q, BitVec.ofNat 2 (packetByte ws 1)) x.setdet }
    else
      (advance s ctx q).modContext ctx fun x =>
        { x with level := BitVec.ofNat 2 (packetByte ws 1), setdet := x.setdet.filter fun e => !(e.1 == q) }

/-! ### LAUNCH (R313, R314, R318, R322) -/

/-- The inverse of an odd number modulo 2^64, by Newton's steps. -/
def oddInverse (m : Word) : Word := (List.range 6).foldl (fun x _ => x * (2 - m * x)) m

/-- The number of trailing zero bits of a number below 2^64. -/
def trailing (x : Nat) : Nat := ((List.range 64).takeWhile fun i => x % 2 ^ (i + 1) == 0).length

/-- Some coordinate first + i × step with i < count equals a value, modulo 2^64 (R322). -/
def hitsValue (first step value : Word) (count : Nat) : Bool :=
  if count = 0 then false
  else if step = 0 then first == value
  else
    let d := (value - first).toNat
    let t := trailing step.toNat
    if d % 2 ^ t ≠ 0 then false
    else decide ((BitVec.ofNat 64 (d / 2 ^ t) * oddInverse (BitVec.ofNat 64 (step.toNat / 2 ^ t))).toNat % 2 ^ (64 - t) < count)

/-- An entry of a work-list table breaks a rule (R322). -/
def badList (ws : List Word) : Bool :=
  let count := (ws.getD 1 0).toNat
  ws.getD 3 0 != 0 || decide (2 ^ 32 < count) ||
  ([0xFFFFFFFFFFFFFFFD, 0xFFFFFFFFFFFFFFFE, 0xFFFFFFFFFFFFFFFF] : List Word).any fun v => hitsValue (ws.getD 0 0) (ws.getD 2 0) v count

/-- The check of the entries of a work-list table: an error, if any (R312, R322). -/
def listsError (s : State) (ctx : CtxId) (q : BitVec 4) (table : Word) : Nat → Option (BitVec 8)
  | 0 => none
  | n + 1 =>
    match frontWords s ctx q table 4 with
    | none => some 4
    | some ws => if badList ws then some 2 else listsError s ctx q (table + 32) n

/-- An operand type that a launch may give its tasks (R25). -/
def launchType (c : Nat) : Bool := decide (c < 16) && (EType.ofCode (BitVec.ofNat 5 c)).isSome

/-- The descriptor of a launch is in range (R25, R314; DEDUCED, log entry 49). -/
def descriptorOk (d : List Word) : Bool :=
  let b := packetByte d
  let m := b 12 + 256 * b 13
  let origin := (d.getD 5 0).toNat % 2 ^ 32
  let length := (d.getD 5 0).toNat / 2 ^ 32
  decide (1 ≤ b 8 ∧ b 8 ≤ 15) && decide (1 ≤ b 9 ∧ b 9 ≤ 8) && decide (1 ≤ b 10 ∧ b 10 ≤ 128) && decide (1 ≤ b 11 ∧ b 11 ≤ 4) &&
  decide (1 ≤ m ∧ m ≤ 4096) && decide (b 14 ≤ 3) && launchType (b 15) && launchType (b 16) && zeroBytes d 17 24 &&
  (d.getD 3 0).toNat % 8 == 0 && (d.getD 4 0).toNat % 8 == 0 && (length == 0 || decide (origin + length ≤ 0x1E000)) && zeroBytes d 48 64

/-- A LAUNCH packet breaks a rule of its layout (R312, R313). Where there are no work lists, the bytes of the table address are to be zero (DEDUCED, log
entry 33). -/
def launchPacketBad (ws : List Word) : Bool :=
  decide (4 ≤ packetByte ws 1) || decide (16 < packetByte ws 2) || (packetByte ws 2 == 0 && ws.getD 6 0 != 0) || !zeroBytes ws 3 8 ||
  (ws.getD 7 0 != 0 && badEvent (ws.getD 7 0))

/-- Members of a context's job; a context without a job stands alone (R405). -/
def memberCount (s : State) (ctx : CtxId) : Nat := max 1 (Table.get [] ctx s.jobs).length

/-- The launch that a packet and its descriptor ask for. -/
def launchOf (ctx : CtxId) (q : BitVec 4) (level : BitVec 2) (die : BitVec 2) (ws d : List Word) : Launch :=
  let b := packetByte d
  { ctx := ctx, queue := q, die := die, role := BitVec.ofNat 2 (packetByte ws 1), lists := packetByte ws 2, listTable := ws.getD 6 0
    entry := d.getD 0 0, args := Vector.ofFn fun i => ws.getD (i.val + 2) 0, event := ws.getD 7 0, tasks := b 8, cores := b 9
    clusters := b 10, dies := b 11, modules := b 12 + 256 * b 13, priority := b 14, fmta := BitVec.ofNat 5 (b 15)
    fmtb := BitVec.ofNat 5 (b 16), scla := d.getD 3 0, sclb := d.getD 4 0, origin := (d.getD 5 0).toNat % 2 ^ 32
    length := (d.getD 5 0).toNat / 2 ^ 32, level := level, logical := [], placed := false, retired := false, granting := [], leases := [], freed := [] }

/-- The clusters of a module's die. -/
def clustersOf (d : BitVec 2) : List ClusterId := (List.range 128).map fun i => ⟨d, BitVec.ofNat 7 i⟩

/-- The cores in service of a cluster, in increasing order (R320). -/
def coresIn (s : State) (c : ClusterId) : List CoreId := (coresOf c).filter s.coreIn

/-- A die in service has clusters enough for a launch (R318). -/
def dieSuits (s : State) (l : Launch) (d : BitVec 2) : Bool :=
  decide (l.clusters ≤ ((clustersOf d).filter fun c => decide (l.cores ≤ (coresIn s c).length)).length)

/-- The shape of a launch can be met on the module (R318, R405). -/
def shapePossible (s : State) (l : Launch) : Bool :=
  decide (l.modules ≤ memberCount s l.ctx) &&
  if l.level = 0 then decide (l.dies ≤ ((s.diesIn).filter (dieSuits s l)).length)
  else decide (l.dies ≤ (s.diesIn).length) && ((s.diesIn).take l.dies).all (dieSuits s l)

/-- PACKET_LAUNCH (R310, R313, R314): the packet, its descriptor and its work lists are checked, and the launch is accepted for placement. -/
def execPacketLaunch (ctx : CtxId) (q : BitVec 4) (s : State) : Out :=
  packetEvent ctx q 1 s fun _ ws =>
    match s.context? ctx with
    | none => s
    | some x =>
      if !x.setdet.isEmpty then s
      else if launchPacketBad ws then haltQueue s ctx q 2
      else
        match frontWords s ctx q (ws.getD 1 0) 8 with
        | none => haltQueue s ctx q 4
        | some d =>
          if !descriptorOk d then haltQueue s ctx q 2
          else
            match listsError s ctx q (ws.getD 6 0) (packetByte ws 2) with
            | some e => haltQueue s ctx q e
            | none =>
              let l := launchOf ctx q x.level (frontDie s q) ws d
              if !shapePossible s l then haltQueue s ctx q 3
              else { (advance s ctx q).bump with launches := Table.put s.fresh l s.launches }

/-! ### The work distributor (R182, R322) -/

/-- The end-of-work token, and the two other answers that are no coordinate (R322). -/
def endOfWork : Word := 0xFFFFFFFFFFFFFFFF
def noList : Word := 0xFFFFFFFFFFFFFFFE
def noIndex : Word := 0xFFFFFFFFFFFFFFFD

/-- Tasks of a launch (R318). -/
def Launch.total (l : Launch) : Nat := l.tasks * l.cores * l.clusters * l.dies * l.modules

/-- Coordinate i of a work list (R322). -/
def coordinate (ws : List Word) (i : Nat) : Word := ws.getD 0 0 + BitVec.ofNat 64 i * ws.getD 2 0

/-- The next index of a die's run for a list (R322). -/
def runOf (s : State) (d : BitVec 2) (launch list : Nat) : Option WorkRun :=
  (s.die d).runs.find? fun r => r.launch == launch && r.list == list && decide (r.next < r.stop)

/-- A die's runs with the run of a list replaced. -/
def setRun (s : State) (d : BitVec 2) (r : WorkRun) : State :=
  s.modDie d fun x => { x with runs := (x.runs.filter fun y => !(y.launch == r.launch && y.list == r.list)) ++ [r] }

/-- The answer at level 0: the next index of the die's run, claimed in runs of 64 with an atomic add on the claim word (R322; DEDUCED, log entry 48). -/
def answerByRun (s : State) (d : BitVec 2) (q : WorkQuery) (l : Launch) (ws : List Word) : State × Word :=
  let count := (ws.getD 1 0).toNat
  match runOf s d q.launch q.list with
  | some r => (setRun s d { r with next := r.next + 1 }, coordinate ws r.next)
  | none =>
    let old := (ws.getD 3 0).toNat
    if count ≤ old then (s, endOfWork)
    else
      match frontLoc s q.ctx l.queue (l.listTable + BitVec.ofNat 64 (32 * q.list + 0x18)) .write with
      | none => (s, endOfWork)
      | some k =>
        let s1 := signalEvent s q.ctx k true 64
        (setRun s1 d ⟨q.launch, q.list, old + 1, min (old + 64) count⟩, coordinate ws old)

/-- The answer to a query, with the state after the claim it may need (R322). -/
def answerFor (s : State) (d : BitVec 2) (q : WorkQuery) : State × Word :=
  match s.launch? q.launch with
  | none => (s, noList)
  | some l =>
    if l.lists ≤ q.list then (s, noList)
    else
      let ws := (frontWords s q.ctx l.queue (l.listTable + BitVec.ofNat 64 (32 * q.list)) 4).getD
        [Config.freeWord s.fresh, Config.freeWord (s.fresh + 1), Config.freeWord (s.fresh + 2), Config.freeWord (s.fresh + 3)]
      if q.level = 0 then answerByRun s d q l ws
      else
        match q.index with
        | none => (s, noIndex)
        | some i =>
          let k := i.toNat + q.i * l.total
          (s, if k < (ws.getD 1 0).toNat then coordinate ws k else endOfWork)

/-- The bank of a coordinate-form address. -/
def bankOfKey (key : Nat) : CoreId :=
  let w := BitVec.ofNat 64 key
  ⟨w.extractLsb' 58 2, w.extractLsb' 51 7, w.extractLsb' 48 3⟩

/-- The distributor writes an answer with an engine write, which fills the word; the write is dropped where no live lease of the context covers the word
any more (DEDUCED, log entry 28). -/
def writeAnswer (s : State) (q : WorkQuery) (v : Word) : State :=
  let s1 := s.modCore q.core fun c => { c with wdqOpen := c.wdqOpen - 1 }
  let b := bankOfKey q.key
  if s1.leasedBy q.ctx b (q.key % 2 ^ 17) 8 then (s1.noteAccess (.bank b) q.key 8).store (.bank b) q.key 8 v.toNat true
  else s1

/-- WDQ_ANSWER (R182, R322): the distributor of a die forms the answer to its oldest query, and writes it. The answers to one core may arrive in any
order: where the schedule says 1, the answer stays on its way; where it says k + 2, or no query waits, the k-th answer on its way is written (DESIGN
CHOICE, log entry 2). -/
def execWdqAnswer (d : BitVec 2) (s : State) : Out :=
  let late := fun (k : Nat) => match (s.die d).answers[k]? with
    | none => s
    | some (q, v) => writeAnswer (s.modDie d fun x => { x with answers := x.answers.eraseIdx k }) q v
  match (s.die d).queries, s.picks.headD 0 with
  | [], k => .next (late (k - 2))
  | _, k + 2 => .next (late k)
  | q :: t, k =>
    let r := answerFor (s.modDie d fun x => { x with queries := t }) d q
    let s1 := r.1.bump.bump.bump.bump
    if k = 0 then .next (writeAnswer s1 q r.2) else .next (s1.modDie d fun x => { x with answers := x.answers ++ [(q, r.2)] })

end Sys2Proof.Machine
end

