-- ==== Sys2Proof/Machine/Placement.lean ====
section
/-! DEFINITION. Placement (R316-R321), leases (R190-R192), retirement (R315), pre-emption (R317), and the context switch of a core
(R159). -/

namespace Sys2Proof.Machine

/-! ### Room (R190, R318-R320) -/

/-- A launch has a bank range, live or about to be granted, on a core that meets off .. off + n - 1 (R190). -/
def Launch.holds (l : Launch) (c : CoreId) (off n : Nat) : Bool :=
  (l.leases.contains c || l.granting.contains c) && decide (off < l.origin + l.length) && decide (l.origin < off + n)

/-- A launch's range is free on a bank (R190). -/
def rangeFree (s : State) (l : Launch) (c : CoreId) : Bool :=
  l.length == 0 || !(s.launches.any fun e => e.2.holds c l.origin l.length)

/-- Tasks of a context stand on a core, or wait in its deque. -/
def coreBusy (s : State) (c : CoreId) : Bool :=
  (s.strands.any fun e => decide (e.2.core = c) && s.present e.2) || !(s.core c).deque.isEmpty || !(s.core c).spilled.isEmpty

/-- The slots of a core that a launch may count on: free ones, less those that waiting work packets will take and those freed for launches of higher
priority; none on a core where another context has tasks (R317; DEDUCED, log entry 29). -/
def roomOn (s : State) (l : Launch) (c : CoreId) : Nat :=
  if s.coreIn c && (s.admitsCtx c l.ctx || !coreBusy s c) then (s.freeSlots c).length - (s.core c).work.length - heldSlots s c l.priority else 0

/-- The better of two by a measure, the first at equality. -/
def best {α : Type} (f : α → Nat) : List α → Option α
  | [] => none
  | x :: t =>
    match best f t with
    | some y => some (if f x < f y then y else x)
    | none => some x

/-- `n` elements of a list in falling measure, earlier ones first at equality. -/
def pickBest {α : Type} [DecidableEq α] (f : α → Nat) (l : List α) : Nat → List α
  | 0 => []
  | n + 1 =>
    match best f l with
    | some x => x :: pickBest f (l.erase x) n
    | none => []

/-- The cores that a launch takes on a cluster under given free slots, by load at level 0, by formula above (R319, R320). None where the cluster
does not qualify. -/
def coresFor (s : State) (l : Launch) (room : CoreId → Nat) (c : ClusterId) : Option (List CoreId) :=
  let able := fun k => decide (l.tasks ≤ room k) && rangeFree s l k
  let cs := if l.level = 0 then pickBest room ((coresIn s c).filter able) l.cores else (coresIn s c).take l.cores
  if cs.length = l.cores ∧ cs.all able then some cs else none

/-- Free slots of a cluster (R319). -/
def clusterRoom (room : CoreId → Nat) (c : ClusterId) : Nat := (coresOf c).foldl (fun n k => n + room k) 0

/-- The next logical cluster of a level-0 launch: its cores, by load (R319). -/
def nextByLoad (s : State) (l : Launch) (room : CoreId → Nat) : Option (List CoreId) :=
  let n := l.logical.length / max l.cores 1
  let used := (List.range n).filterMap fun i => (l.logical[i * l.cores]?).map clusterOf
  let die :=
    if n % max l.clusters 1 = 0 then
      best (fun d => (clustersOf d).foldl (fun n c => n + clusterRoom room c) 0)
        ((s.diesIn).filter fun d => dieSuits s l d && !(used.any fun c => c.die == d))
    else (used.getLast?).map ClusterId.die
  match die with
  | none => none
  | some d =>
    let cs := (clustersOf d).filter fun c => !used.contains c && (coresFor s l room c).isSome
    (best (clusterRoom room) cs).bind (coresFor s l room)

/-- Every logical cluster of a level-1 or level-2 launch at once: its cores in logical order, by formula (R320). -/
def allByFormula (s : State) (l : Launch) (room : CoreId → Nat) : Option (List CoreId) :=
  let parts := ((s.diesIn).take l.dies).map fun d => (((clustersOf d).filterMap (coresFor s l room)).take l.clusters)
  if parts.length = l.dies ∧ parts.all (fun p => p.length == l.clusters) then some (parts.flatMap fun p => p.flatMap id) else none

/-- The cores that the front end places next for a launch, under given free slots (R319, R320; DEDUCED, log entry 50). -/
def placementOf (s : State) (l : Launch) (room : CoreId → Nat) : Option (List CoreId) :=
  if l.level = 0 then nextByLoad s l room else allByFormula s l room

/-- The launch that stands at the head of a die's list: the highest priority, then the earliest accepted (R316). -/
def headLaunch (s : State) (d : BitVec 2) : Option (Nat × Launch) :=
  best (fun e => e.2.priority) (s.launches.filter fun e => !e.2.placed && !e.2.retired && frontDie s e.2.queue == d)

/-! ### Placing (R318-R321, R380, R405) -/

/-- The position of a module's context in its job (R405). -/
def moduleNumber (s : State) (ctx : CtxId) : Nat :=
  let l := Table.get [] ctx s.jobs
  if l.idxOf s.position < l.length then l.idxOf s.position else 0

/-- The work packet of task τ of logical core number K of a launch (R318, R321). -/
def workSource (s : State) (id : Nat) (l : Launch) (k τ : Nat) : TaskSource :=
  { entry := l.entry, args := l.args, fmta := l.fmta, fmtb := l.fmtb, scla := l.scla, sclb := l.sclb, role := l.role, launch := id
    ctx := l.ctx, level := l.level
    index := some (BitVec.ofNat 32 (τ + l.tasks * (k + l.cores * l.clusters * l.dies * moduleNumber s l.ctx))) }

/-- The work packets of a logical core sent to its core, in τ order (R320, R321). -/
def sendWork (s : State) (id : Nat) (l : Launch) (k : Nat) (c : CoreId) : State :=
  s.modCore c fun x => { x with work := x.work ++ (List.range l.tasks).map fun τ => workSource s id l k τ }

/-- The work packets of consecutive logical cores. -/
def sendAll (s : State) (id : Nat) (l : Launch) (k : Nat) : List CoreId → State
  | [] => s
  | c :: t => sendAll (sendWork s id l k c) id l (k + 1) t

/-- A cluster drops its instruction-cache lines of a context (R380). -/
def dropLines (s : State) (ctx : CtxId) (c : ClusterId) : State :=
  s.modCluster c fun x => { x with icache := x.icache.filter fun l => !decide (l.ctx = ctx) }

/-- The next cores of a launch taken: their leases reserved, their work packets sent, the instruction caches of their clusters dropped. -/
def placeCores (s : State) (id : Nat) (l : Launch) (cs : List CoreId) : State :=
  let logical := l.logical ++ cs
  let l1 := { l with logical := logical, granting := if l.length = 0 then l.granting else l.granting ++ cs
                     freed := l.freed.filter fun c => !cs.contains c, placed := decide (logical.length = l.cores * l.clusters * l.dies) }
  let s1 := { s with launches := Table.put id l1 s.launches }
  sendAll (cs.foldl (fun s c => dropLines s l.ctx (clusterOf c)) s1) id l1 l.logical.length cs

/-- The other members of a context's job (R405). -/
def otherMembers (s : State) (ctx : CtxId) : List (BitVec 12) := (Table.get [] ctx s.jobs).filter (· != s.position)

/-- LAUNCH_PLACE (R316, R318-R321): the launch at the head of a die's list is placed where it fits. Before any task of a launch of a job of several members is
placed, whatever its own number of modules, the members exchange digests, for which links to all of them have come up; where the schedule reports a difference,
the queue halts and the launch is dropped (R404, R405; DESIGN CHOICE, log entry 2). A member at a position that no module number of the launch has places no task
(R318, R405). -/
def execLaunchPlace (d : BitVec 2) (s : State) : Out :=
  match headLaunch s d with
  | none => .next s
  | some (id, l) =>
    let others := otherMembers s l.ctx
    if l.logical.isEmpty ∧ !(others.all s.linked) then .next s
    else if !others.isEmpty ∧ l.logical.isEmpty ∧ s.picks.headD 0 = 1 then
      .next (haltQueue { s with launches := Table.remove id s.launches } l.ctx l.queue 2)
    else
      if l.modules ≤ moduleNumber s l.ctx then .next { s with launches := Table.put id { l with placed := true } s.launches }
      else
        match placementOf s l (roomOn s l) with
        | some cs => .next (placeCores s id l cs)
        | none => .next s

/-! ### Leases (R190-R192, R198) -/

/-- A granule of a bank passes to a context: unless that context held it last, it reads as zero, full and without a tag (R191). -/
def grantGranule (s : State) (ctx : CtxId) (c : CoreId) (key : Nat) : State :=
  if s.owner key = some ctx then s
  else
    let words := (List.range 8).map fun i => key / 64 * 64 + 8 * i
    let s1 := words.foldl (fun s k => (s.clearTag (.bank c) k).setFull k true) (s.dropSeq (.bank c) key)
    { s1 with mem := Memory.clear s1.mem (key / 64 * 64) (key / 64 * 64 + 64), owners := Table.put (key / 64) ctx s1.owners }

/-- The granules of a byte range. -/
def granulesOf (key n : Nat) : List Nat := (List.range ((key + n + 63) / 64 - key / 64)).map fun i => (key / 64 + i) * 64

/-- LEASE_GRANT (R190, R191): the lease of a launch on a bank is granted before the launch's first task binds there. -/
def execLeaseGrant (launch : Nat) (c : CoreId) (s : State) : Out :=
  match s.launch? launch with
  | none => .next s
  | some l =>
    if l.granting.contains c then
      let s1 := (granulesOf (coordAddr c l.origin).toNat l.length).foldl (fun s k => grantGranule s l.ctx c k) s
      .next (s1.modLaunch launch fun x => { x with granting := dropAll c x.granting, leases := addOnce c x.leases })
    else .next s

/-- A task of a launch waits in the deque of a core, or in its spill area (R192). -/
def Core.dequeHolds (x : Core) (launch : Nat) : Bool := (x.deque ++ x.spilled.map (·.2)).any fun t => t.launch == launch

/-- A work packet of a launch waits at a core (R192). -/
def Core.workHolds (x : Core) (launch : Nat) : Bool := x.work.any fun t => t.launch == launch

/-- A task of a launch stands on a core or waits there (R192). -/
def tasksOn (s : State) (launch : Nat) (c : CoreId) : Bool :=
  (s.strands.any fun e => decide (e.2.core = c) && e.2.launch == launch) || (s.core c).dequeHolds launch || (s.core c).workHolds launch ||
  s.contexts.any fun e => e.2.saved.any fun k => decide (k.core = c) && k.image.dequeHolds launch

/-- A side of an engine command lies within a launch's lease on a core (R192). -/
def Launch.hasSide (l : Launch) (c : CoreId) (x : Side) : Bool :=
  decide (x.core = c) && decide (x.off < l.origin + l.length) && decide (l.origin < x.off + x.len)

/-- A copy, a quantisation command or a sweep in flight has a side within a lease (R192, R302, R363). -/
def engineOn (s : State) (l : Launch) (c : CoreId) : Bool :=
  (s.cores.any fun e => (e.2.copies ++ e.2.copyReg.toList).any fun m => decide (m.ctx = l.ctx) && (m.sides s).any fun x => l.hasSide c x.2) ||
  (s.dies.any fun e => e.2.qqueue.any fun m => decide (m.ctx = l.ctx) &&
    (qSides m.ctrl m.params).any fun x => (bankSide s m.core m.ctx x.1 x.2).any (l.hasSide c)) ||
  (let b := (s.cluster (clusterOf c)).brush
   b.queue.any fun m => m.prog.isNone && (match b.slots[m.slot.toFin] with
     | some t => decide (t.ctx = l.ctx) && (t.ranges (clusterOf c)).any fun r => l.hasSide c r.1 || l.hasSide c r.2
     | none => false))

/-- The word of a byte lies within a lease. -/
def leasedWord (l : Launch) (c : CoreId) (key : Nat) : Bool :=
  decide ((coordAddr c l.origin).toNat ≤ key) && decide (key < (coordAddr c l.origin).toNat + l.length)

/-- The requests that wait on a word of a lease: their strands, and the addresses as formed (R192). -/
def waitersOn (s : State) (l : Launch) (c : CoreId) : List (Handle × Word) :=
  let p := s.place (.bank c)
  ((p.station.filter fun w => leasedWord l c w.key).map fun w => (w.h, w.addr)) ++
  ((p.watch.filter fun w => leasedWord l c w.key).map fun w => (w.h, w.addr)) ++
  (p.seq.filter fun e => leasedWord l c e.key).flatMap fun e => e.held.map fun d => (d.h, d.addr)

/-- A strand whose request waited on a released lease faults LEASE_GONE with reason 1 (R192, R213). -/
def faultGone (s : State) (c : CoreId) (x : Handle × Word) (off : Nat) : State :=
  match s.strand? x.1 with
  | none => s
  | some st =>
    let len := (st.pending.map Pending.len).getD 0
    freezeAt s x.1 st ⟨0x46, x.2, [BitVec.ofNat 64 (c.core.toNat * 2 ^ 17 + off), 1]⟩ st.r.pc (2 * len) none

/-- The bank offset that an address as formed by a strand names. -/
def offsetOf (ea : Word) : Nat := (ea.extractLsb' 0 17 : BitVec 17).toNat

/-- LEASE_RELEASE (R192, R198): a lease that nothing keeps live ends; what waits on its words is withdrawn and its strands fault; its sequence
entries are freed. -/
def execLeaseRelease (launch : Nat) (c : CoreId) (s : State) : Out :=
  match s.launch? launch with
  | none => .next s
  | some l =>
    if !l.leases.contains c || tasksOn s launch c || engineOn s l c then .next s
    else
      let gone := waitersOn s l c
      let s1 := s.modLaunch launch fun x => { x with leases := dropAll c x.leases }
      let s2 := s1.modPlace (.bank c) fun x => { x with seq := x.seq.filter fun e => !leasedWord l c e.key }
      .next (gone.foldl (fun s x => faultGone s c x (offsetOf x.2)) s2)

/-! ### Retirement (R315) -/

/-- A task of a launch lives, waits to be bound, or will be bound for a fault (R315). -/
def launchTasks (s : State) (id : Nat) : Bool :=
  (s.strands.any fun e => e.2.launch == id) ||
  (s.cores.any fun e => e.2.dequeHolds id || e.2.workHolds id) ||
  (s.clusters.any fun e => e.2.handlers.any fun t => t.source.launch == id) ||
  s.contexts.any fun e => (e.2.saved.any fun k => k.image.dequeHolds id) || (e.2.waitingRecord.any fun w => match w with
    | .exited f => f.launch == id
    | .task _ => false)

/-- An engine command of a launch has not completed, or a write of one that has is on its way, which the release of the retirement waits for
(R294, R315; DEDUCED, log entry 6). -/
def launchCommands (s : State) (id : Nat) : Bool :=
  (s.posted.any fun p => p.launch == id) ||
  (s.cores.any fun e => (e.2.copies ++ e.2.copyReg.toList).any fun m => m.launch == id) ||
  (s.dies.any fun e => e.2.qqueue.any fun m => m.launch == id) ||
  s.clusters.any fun e => e.2.brush.queue.any fun m => m.launch == id

/-- The tensor slots that a launch holds are free again (R358). -/
def freeTensors (s : State) (keep : Tensor → Bool) : State :=
  { s with clusters := s.clusters.map fun e =>
    (e.1, { e.2 with brush := { e.2.brush with slots := e.2.brush.slots.map fun t => t.filter keep } }) }

/-- LAUNCH_RETIRE (R315): a launch whose tasks and commands have all ended retires; 1 is added to its completion event. -/
def execLaunchRetire (launch : Nat) (s : State) : Out :=
  match s.launch? launch with
  | none => .next s
  | some l =>
    if !l.placed || l.retired || launchTasks s launch || launchCommands s launch then .next s
    else
      let s1 := freeTensors (s.modLaunch launch fun x => { x with retired := true }) fun t => t.launch != launch
      if l.event = 0 then .next s1
      else
        match frontLoc s1 l.ctx l.queue l.event .write with
        | some k => .next (signalEvent s1 l.ctx k true 1)
        | none => .next s1

/-! ### The context switch of a core (R159) -/

/-- Nothing that names a counter or a mailbox of the core is outstanding (R159, R302, R365). -/
def coreQuiet (s : State) (c : CoreId) : Bool :=
  let x := s.core c
  x.copyReg.isNone && !(x.copies.any fun m => decide (copyKind m.hi ≤ 1)) &&
  !(s.dies.any fun e => e.2.qqueue.any fun m => decide (m.core = c) && decide (qKind m.ctrl ≤ 1)) &&
  !(s.clusters.any fun e => e.2.brush.queue.any fun m => decide (m.core = c)) &&
  !(s.offers.any fun o => decide (o.core = c) && o.path.isEmpty)

/-- The tasks that stand on a core. -/
def tasksOf (s : State) (c : CoreId) : List Handle :=
  (s.strands.filter fun e => decide (e.2.core = c) && e.2.occupies && s.present e.2).map (·.1)

/-- Every parked access of a list of tasks is withdrawn or committed; none where a commit waits for a full queue (R130, R159). -/
def settleAll (s : State) : List Handle → Option State
  | [] => some s
  | h :: t =>
    match s.strand? h with
    | some st => (settle s h st).bind fun s1 => settleAll s1 t
    | none => settleAll s t

/-- The vector side of a core with the commands of a list in its queues, and none running. -/
def VectorFile.hold (f : VectorFile) (l : List VCmd) : VectorFile :=
  { f with queue := l.filter fun m => !m.trap, trapQueue := l.filter VCmd.trap, running := [], waiting := [] }

/-- The vector and directional commands of a core are abandoned, except stores that have begun: they stand in its queues in the order of their issue, and their
destinations are as they were before them (R49, R159). -/
def rewind (s0 : State) (c : CoreId) : State :=
  let s := finishStores s0 c fun _ => true
  let l := issueOrder (s.core c).vec.inFlight
  (restoreDests (s.modVec c fun f => f.hold []) c l).modVec c fun f => f.hold l

/-- The commands that a core has saved enter its queues again, in their order (R159). -/
def restart (s : State) (c : CoreId) : State :=
  (issueOrder (s.core c).vec.inFlight).foldl (fun s m => enterAgain s c m) (s.modVec c fun f => f.hold [])

/-- The matrix commands of a core, in its array and in its queue, in the order of their entry. -/
def matrixWorkOf (s : State) (c : CoreId) : List MCmd :=
  (((s.quad (quadOf c)).running.map (·.1)).toList.filter fun m => decide (m.core = c)) ++ (s.core c).mqueue

/-- The matrix commands of a core are abandoned: `mzero`s stay in its queue, and the strands of the others issue them again from their PCs (R159, R271,
R277; DEDUCED, log entry 43). -/
def rewindMatrix (s : State) (c : CoreId) : State :=
  let l := matrixWorkOf s c
  let s1 := match (s.quad (quadOf c)).running with
    | some (m, _) => if m.core = c then freeArray s (quadOf c) else s
    | none => s
  (l.filter fun m => !isZero m).foldl
    (fun s m => s.modStrand m.h fun st => if st.status = .removed then { st with status := .ready } else st)
    (s1.modCore c fun x => { x with mqueue := l.filter isZero })

/-- Deque entries of tasks of a context, or of other contexts, which have been spawned onto a core that another context has (R168). -/
def entriesOf (ctx : CtxId) (mine : Bool) (l : List TaskSource) : List TaskSource := l.filter fun t => decide (t.ctx = ctx) == mine

/-- What a context switch saves of a core: entries of other contexts stay in its deque (R159). -/
def savedImage (x : Core) (ctx : CtxId) : Core := { x with deque := entriesOf ctx true x.deque, leaving := false }

/-- The cleared core that a context leaves behind: what belongs to the hardware stays, and deque entries of other contexts (R159; DEDUCED, log entry 51). -/
def clearedCore (x : Core) (ctx : CtxId) : Core :=
  { Core.reset with gens := x.gens, work := x.work, deque := entriesOf ctx false x.deque, copies := x.copies, wdqOpen := x.wdqOpen, lastSlot := x.lastSlot, issued := x.issued }

/-- A saved core put back, with what belongs to the hardware as it is now, and with the deque entries that have come since at the head of its own, beyond
64 entries too (R159; DESIGN CHOICE, log entry 105). Messages that have come since, into whatever mailboxes the core had, go with those mailboxes (DESIGN CHOICE, log entry 93). -/
def restoredCore (image now : Core) : Core :=
  { image with gens := now.gens, work := now.work, deque := now.deque ++ image.deque, dequeRes := now.dequeRes, regrant := now.regrant
               copies := now.copies, wdqOpen := now.wdqOpen, lastSlot := now.lastSlot, issued := now.issued }

/-- The lane grants of a context's tasks on a core return to the pool (R200). -/
def returnGrants (s : State) (c : CoreId) (ctx : CtxId) : State :=
  { s with strands := s.strands.map fun e => (e.1, if e.2.core = c ∧ e.2.ctx = ctx then { e.2 with vl := 0 } else e.2) }

/-- A context begins to leave a core (R159): no user slot issues any more, the parked accesses of its tasks are withdrawn or committed, its work in flight is abandoned,
and its lane grants and claims go back. None where a performed access waits for a full queue before it can commit, which the core is still to drain. -/
def beginLeave (s : State) (c : CoreId) : Option State :=
  match (s.core c).ctx with
  | none => none
  | some ctx =>
    if (s.core c).leaving then none
    else
      (settleAll s (tasksOf s c)).map fun s1 =>
        let s2 := rewind (rewindMatrix s1 c) c
        let s3 := s2.modCluster (clusterOf c) fun x =>
          { x with claims := x.claims.filter fun m => !((s.strand? m.h).any fun st => decide (st.core = c)) }
        (returnGrants s3 c ctx).modCore c fun x => { x with leaving := true }

/-- The context that leaves a core is saved, and the core cleared, once nothing that names a counter or a mailbox of it is outstanding (R159). -/
def finishLeave (s : State) (c : CoreId) : State :=
  match (s.core c).ctx with
  | none => s
  | some ctx =>
    if coreQuiet s c then
      (s.modContext ctx fun x => { x with saved := x.saved ++ [⟨c, savedImage (s.core c) ctx⟩] }).setCore c (clearedCore (s.core c) ctx)
    else s

/-- A restored task presents its claim again, ahead of new claims (R201). -/
def presentRestored (s : State) (c : CoreId) (h : Handle) : State :=
  match s.strand? h with
  | none => s
  | some st =>
    if st.core = c ∧ st.claim.isSome ∧ st.occupies then
      presentAgain (s.setStrand h { st with status := if st.status = .ready then .parked .claim else st.status }) h st
    else s

/-- The highest priority of the tasks of a context that stand on a core (R314, R317). -/
def savedPriority (s : State) (c : CoreId) (ctx : CtxId) : Nat :=
  ((s.strands.filter fun e => decide (e.2.core = c) && decide (e.2.ctx = ctx)).map fun e => priorityOf s e.2.launch).foldl max 0

/-- The saved state of a core waits until a launch of another context, for which pre-emption has freed the core, is placed, and until its work packets there, of a
higher priority than the saved tasks, have been bound (R317; DEDUCED, log entry 64). -/
def restoreHeld (s : State) (c : CoreId) (ctx : CtxId) : Bool :=
  (s.launches.any fun e => !e.2.placed && !e.2.retired && e.2.ctx != ctx && e.2.freed.contains c) ||
  (s.core c).work.any fun t => t.ctx != ctx && decide (savedPriority s c ctx < priorityOf s t.launch)

/-- A lane group is gone: the context of a core of its cluster is saved and restored where it stands, so that its tasks present their claims again (R159, R200,
R210; DEDUCED, log entry 94). -/
def regrant (s : State) (c : CoreId) : State :=
  match (s.core c).ctx with
  | none => s.modCore c fun x => { x with regrant := false }
  | some ctx =>
    let hs := tasksOf s c
    let s1 := (settleAll s hs).getD s
    let s2 := returnGrants (restart (rewind (rewindMatrix s1 c) c) c) c ctx
    let s3 := (s2.modCluster (clusterOf c) fun x => { x with claims := x.claims.filter fun m => !hs.contains m.h }).modCore c fun x => { x with regrant := false }
    hs.foldl (fun s h => presentRestored s c h) s3

/-- CONTEXT_SWITCH_OUT (R159): a context begins to leave a core, or the movement slot saves the one that is leaving; after the loss of a lane group it saves and
restores it in one (R210). -/
def execContextSwitchOut (c : CoreId) (s : State) : Out :=
  .next (if (s.core c).leaving then finishLeave s c else if (s.core c).regrant then regrant s c else (beginLeave s c).getD s)

/-- CONTEXT_RESTORE (R159): the saved state of a context comes back to a cleared core before any slot issues. -/
def execContextRestore (c : CoreId) (ctx : CtxId) (s : State) : Out :=
  match (s.core c).ctx, (s.context? ctx).bind fun x => x.saved.find? fun k => decide (k.core = c) with
  | none, some k =>
    if restoreHeld s c ctx then .next s else
    let s1 := restart ((s.setCore c (restoredCore k.image (s.core c))).modContext ctx fun x => { x with saved := x.saved.erase k }) c
    .next ((s1.strands.filter fun e => decide (e.2.ctx = ctx)).foldl (fun s e => presentRestored s c e.1) s1)
  | _, _ => .next s

/-! ### Pre-emption (R317) -/

/-- The vector and directional commands of a task leave its core, except stores that have begun, its destinations restored; its exception in flight stays with it (R235, R317). -/
def pullCommands (s0 : State) (c : CoreId) (h : Handle) : State × List VCmd :=
  let s := finishStores s0 c fun m => decide (m.h = h)
  let v := (s.core c).vec
  let gone := v.inFlight.filter fun m => decide (m.h = h)
  let keep := fun (l : List VCmd) => l.filter fun m => !decide (m.h = h)
  let s1 := s.modVec c fun f => { f with
    running := keep f.running, trapQueue := keep f.trapQueue, queue := keep f.queue
    waiting := f.waiting.filter fun i => !(gone.any fun m => m.id == i) }
  (restoreDests s1 c gone, issueOrder gone)

/-- The `mzero` commands of a task that have not run; its tile command is issued again from its PC (R271, R277). -/
def pulledZeros (s : State) (c : CoreId) (h : Handle) : List MCmd :=
  (matrixWorkOf s c).filter fun m => decide (m.h = h) && isZero m

/-- A task leaves its slot for a launch of higher priority (R317); none where a commit waits for a full queue. -/
def preemptTask (s : State) (h : Handle) (st : Strand) : Option State :=
  (settle s h st).map fun s1 =>
    let zeros := pulledZeros s1 st.core h
    let r := pullCommands s1 st.core h
    let s2 := (abandonMatrix r.1 st.core h).modStrand h fun x => { x with status := .preempted, vl := 0, saved := r.2, savedMatrix := zeros }
    if (s2.strand? h).isSome then s2.modCore st.core fun x => { x with away := addOnce h x.away } else s2

/-- The tasks that a launch may pre-empt, the most recently bound of the lowest priority first (R317; DEDUCED, log entry 64). -/
def victims (s : State) (l : Launch) : List (Handle × Strand) :=
  let able := s.strands.filter fun e =>
    decide (priorityOf s e.2.launch < l.priority) && e.2.level != 2 && e.2.occupies && s.present e.2 && !(s.core e.2.core).leaving
  let p := able.foldl (fun n e => min n (priorityOf s e.2.launch)) 4
  (able.filter fun e => priorityOf s e.2.launch == p).reverse

/-- What a victim leaves by: its own pre-emption within the launch's context, else the context switch of its core, which begins (R159, R317). -/
def evict (s : State) (l : Launch) (e : Handle × Strand) : Option State :=
  if e.2.ctx = l.ctx then preemptTask s e.1 e.2 else beginLeave s e.2.core

/-- The slots of a core that a launch may count on soon: also those of a core that a context is leaving for it (R159, R317). -/
def roomSoon (s : State) (l : Launch) (c : CoreId) : Nat := if (s.core c).leaving && l.freed.contains c then 15 else roomOn s l c

/-- A launch stands at the head of its die's list and cannot be placed for lack of free slots alone, those included that contexts are leaving for it (R317). -/
def lacksSlots (s : State) (launch : Nat) (l : Launch) : Bool :=
  ((headLaunch s (frontDie s l.queue)).any fun e => e.1 == launch) && (placementOf s l (roomSoon s l)).isNone &&
  (placementOf s l fun c => if s.coreIn c then 15 else 0).isSome

/-- The victim that leaves next for a launch, with what its leaving gives: the first that can leave (R317). -/
def nextVictim (s : State) (launch : Nat) : Option ((Handle × Strand) × State) :=
  (s.launch? launch).bind fun l =>
    if lacksSlots s launch l then (victims s l).findSome? fun e => (evict s l e).map fun t => (e, t) else none

/-- The slots that a victim of a launch leaves: its own, or all those of its core by a context switch (R317). -/
def freedBy (l : Launch) (st : Strand) : List CoreId := List.replicate (if st.ctx = l.ctx then 1 else 15) st.core

/-- PREEMPT (R317): one victim leaves for the launch at the head of its die's list, which cannot be placed for lack of free slots alone. What it frees is held
for the launch until it is placed (DEDUCED, log entry 64). -/
def execPreempt (launch : Nat) (s : State) : Out :=
  match nextVictim s launch with
  | none => .next s
  | some (e, t) => .next (t.modLaunch launch fun l => { l with freed := l.freed ++ freedBy l e.2 })

end Sys2Proof.Machine
end

