-- ==== Sys2Proof/Machine/Service.lean ====
section
/-! DEFINITION. Replay of tasks (R389-R393), units taken out of service (R210, R306, R393), and detected errors (R389). -/

namespace Sys2Proof.Machine

/-! ### Where a task goes (R210, R393) -/

/-- The core that stands for the unit whose loss a core shares: itself, else the lost bank of its cluster, else core 0 of the cluster (DESIGN CHOICE, log entry 67). -/
def lostUnit (s : State) (c : CoreId) : CoreId :=
  if s.isOut (.core c) then c else ((coresOf (clusterOf c)).find? fun k => s.isOut (.bank k)).getD ⟨c.die, c.cluster, 0⟩

/-- A core holds a task of a launch. -/
def sharesLaunch (s : State) (c : CoreId) (launch : Nat) : Bool :=
  s.strands.any fun e => decide (e.2.core = c) && e.2.launch == launch && e.2.occupies

/-- A core has a place for a task that is to be replayed: a slot that admits it is free, and its context may have the core (R147, R159, R393). -/
def hasPlace (s : State) (st : Strand) (c : CoreId) : Bool := bindable s c st.ctx && !(slotsFor s c st.role).isEmpty

/-- A core can take the first task of a lost core: it has a place, and above level 0 no task of the same launch is there (R393). -/
def canTake (s : State) (st : Strand) (c : CoreId) : Bool := hasPlace s st c && (st.level == 0 || !sharesLaunch s c st.launch)

/-- The core in service to which what a context held on a lost core has gone (R393). -/
def goneTo (s : State) (c : CoreId) (ctx : CtxId) : Nat → Option CoreId
  | 0 => none
  | n + 1 => (Table.find (c, ctx) s.heirs).bind fun k => if s.coreIn k then some k else goneTo s k ctx n

/-- The cores of a die beyond one cluster, in increasing order. -/
def coresBeyond (s : State) (d : BitVec 2) (c : ClusterId) : List CoreId :=
  ((clustersOf d).filter fun k => !decide (k = c)).flatMap (coresIn s)

/-- The cores outside its cluster that may take what a core leaves: those of its die, or of the other dies where its die is lost (R393). -/
def refuges (s : State) (c : CoreId) : List CoreId :=
  if s.isOut (.die c.die) then (s.diesIn).flatMap fun d => coresBeyond s d (clusterOf c) else coresBeyond s c.die (clusterOf c)

/-- The core on which a task of a lost core is replayed, the same for all its tasks of a context; none while they must wait (R393). -/
def replayCore (s : State) (st : Strand) : Option CoreId :=
  match goneTo s st.core st.ctx s.heirs.length with
  | some c => if hasPlace s st c then some c else none
  | none =>
    match (coresIn s (clusterOf st.core)).head? with
    | some c => if canTake s st c then some c else if st.level = 0 then none else (refuges s st.core).find? (canTake s st)
    | none => (refuges s st.core).find? (canTake s st)

/-! ### What moves with the tasks of a core (R393) -/

/-- The core to which what a context holds on a lost core moves where none of its tasks stands there. -/
def heir (s : State) (c : CoreId) (ctx : CtxId) : Option CoreId :=
  let l := coresIn s (clusterOf c) ++ refuges s c
  match l.find? fun k => s.admitsCtx k ctx with
  | some k => some k
  | none => l.head?

/-- The s registers, queues, mailboxes, counters and deque of a core join those of another (R393; DESIGN CHOICE, log entry 30), deque
entries beyond 64 too (DESIGN CHOICE, log entry 105). -/
def carry (y x : Core) : Core :=
  { y with
    s := x.s, deque := y.deque ++ x.deque ++ (x.spilled.map (·.2)).reverse
    q := Vector.ofFn fun i => y.q[i] ++ x.q[i]
    mb := Vector.ofFn fun i => ⟨y.mb[i].msgs ++ x.mb[i].msgs, y.mb[i].reserved ++ x.mb[i].reserved⟩
    c := Vector.ofFn fun i => y.c[i] + x.c[i]
    copyReg := if y.copyReg.isNone then x.copyReg else y.copyReg
    copies := y.copies ++ x.copies ++ (if y.copyReg.isNone then [] else x.copyReg.toList)
    wdqOpen := y.wdqOpen + x.wdqOpen }

/-- A copy of a core goes on for another; its remote side stays where it was (R91, R393). -/
def moveCopy (s : State) (old new : CoreId) (m : Copy) : Copy :=
  if m.core = old then { m with core := new, lo := fixAddr s old m.ctx m.lo } else m

/-- A quantisation command of a core goes on for another; its sides stay where they were (R91, R393). -/
def moveQcmd (s : State) (old new : CoreId) (m : QCmd) : QCmd :=
  if m.core = old then
    { m with core := new, params := Vector.ofFn fun i => if i.val ∈ [0, 1, 2, 7] then fixAddr s old m.ctx m.params[i] else m.params[i] }
  else m

/-- What engines owe to a core, and messages that wait for room in its mailboxes, go to another (R393). -/
def redirect (s : State) (old new : CoreId) : State :=
  let dest := fun (c : CoreId) => if c = old then new else c
  { s with
    strands := s.strands.map fun e => (e.1, { e.2 with
      sending := e.2.sending.map fun x => { x with core := dest x.core }
      status := match e.2.status with
        | .parked (.mailboxRoom c mb) => .parked (.mailboxRoom (dest c) mb)
        | w => w })
    cores := s.cores.map fun e => (e.1, { e.2 with
      copyReg := e.2.copyReg.map (moveCopy s old new)
      copies := e.2.copies.map (moveCopy s old new) })
    clusters := s.clusters.map fun e => (e.1, { e.2 with brush := { e.2.brush with
      queue := e.2.brush.queue.map fun m => { m with core := dest m.core } } })
    dies := s.dies.map fun e => (e.1, { e.2 with
      qqueue := e.2.qqueue.map (moveQcmd s old new)
      queries := e.2.queries.map fun m => { m with core := dest m.core }
      answers := e.2.answers.map fun a => ({ a.1 with core := dest a.1.core }, a.2) })
    offers := s.offers.map fun o => { o with core := dest o.core } }

/-- What the hardware keeps of a core whose context has left it. -/
def emptiedCore (x : Core) : Core := { Core.reset with gens := x.gens, lastSlot := x.lastSlot, issued := x.issued }

/-- The work packets of a context that wait at a core move to another. -/
def moveWork (s : State) (old new : CoreId) (ctx : CtxId) : State :=
  let mine := (s.core old).work.filter fun t => decide (t.ctx = ctx)
  if mine.isEmpty then s
  else
    (s.modCore new fun y => { y with work := y.work ++ mine }).modCore old fun y =>
      { y with work := y.work.filter fun t => !decide (t.ctx = ctx) }

/-- A core as it receives what a context held on a lost core; spilled entries come as they stand in the lost core's bank (R156, R393). -/
def receiveFrom (s : State) (old new : CoreId) (ctx : CtxId) (x : Core) : State :=
  let x1 := { x with spilled := x.spilled.map fun e => (e.1, spilledEntry s old e) }
  s.modCore new fun y => carry { y with ctx := some ctx, level := x.level } x1

/-- Everything but tasks that a context holds on a lost core moves to another: its waiting work packets, and once it may have the core, what it owns on the
lost one, or has saved of it (R159, R210, R393). -/
def moveCore (s : State) (old new : CoreId) (ctx : CtxId) : State :=
  let s1 := moveWork s old new ctx
  if !s1.admitsCtx new ctx then s1
  else
    let s2 := { s1 with heirs := Table.put (old, ctx) new s1.heirs }
    if (s.core old).ctx = some ctx then
      redirect ((receiveFrom s2 old new ctx (s2.core old)).setCore old { emptiedCore (s2.core old) with work := (s2.core old).work }) old new
    else
      match (s.context? ctx).bind fun k => k.saved.find? fun y => decide (y.core = old) with
      | some y => (receiveFrom s2 old new ctx y.image).modContext ctx fun k => { k with saved := k.saved.erase y }
      | none => s2

/-- The contexts that hold something on a core: the one that has it, those whose state of it is saved, and those whose work packets wait there. -/
def holders (s : State) (c : CoreId) : List CtxId :=
  (s.core c).ctx.toList ++ ((s.contexts.filter fun e => s.hasImage c e.1).map (·.1)) ++ ((s.core c).work.map TaskSource.ctx)

/-- What a context without a task on a lost core holds there moves at once; what one with tasks there holds moves with the first of them that is replayed
(R393). -/
def handOn (s : State) (c : CoreId) (ctx : CtxId) : State :=
  if s.strands.any fun e => decide (e.2.core = c) && decide (e.2.ctx = ctx) then s
  else
    match heir s c ctx with
    | some k => moveCore s c k ctx
    | none => s

/-- A lost core hands on what it can. -/
def loseCore (s : State) (c : CoreId) : State := (holders s c).foldl (fun s ctx => handOn s c ctx) s

/-! ### Replay records in memory (R390, R391) -/

/-- The 64 bytes of a work packet (R321), as words. -/
def packetWords (t : TaskSource) (core : BitVec 3) : List Word :=
  let tail : Word := (t.index.getD 0 ++ 0#8 ++ (0#1 ++ core ++ t.level ++ t.role) ++ (0#3 ++ t.fmtb) ++ (0#3 ++ t.fmta) : BitVec 64)
  [t.entry, t.args[0], t.args[1], t.args[2], t.args[3], t.scla, t.sclb, tail]

/-- The entry of 32 bytes of an operation or of what follows it, at an index within its task (R391). -/
def entryWords (kind sel index : Nat) (addr : Word) (v : List Word) : List Word :=
  [BitVec.ofNat 64 (kind % 256 + sel % 256 * 256 + index * 2 ^ 32), addr, v.getD 0 0, v.getD 1 0]

/-- The entries of kind 15 that hold the words of a message, two each (R391). -/
def moreWords (index : Nat) (addr : Word) (v : List Word) : Nat → List (List Word)
  | 0 => []
  | n + 1 => entryWords 15 0 index addr v :: moreWords (index + 1) addr (v.drop 2) n

/-- The entries of a record from an index on (R391). -/
def Record.words (r : Record) (index : Nat) : List (List Word) :=
  entryWords r.kind r.sel index r.addr (if r.kind = 5 then r.values.take 1 else r.values) ::
  if r.kind = 5 then moreWords (index + 1) r.addr (r.values.drop 1) (r.values.length / 2) else []

/-- The entries of records from an index on. -/
def recordsWords (index : Nat) : List Record → List (List Word)
  | [] => []
  | r :: t => r.words index ++ recordsWords (index + r.entries) t

/-- The entries of a task's replay records: its work packet or its deque entry in two, then its operations (R391; DEDUCED, log entry 84). -/
def Strand.entryList (st : Strand) : List (List Word) :=
  let w := if st.source.index.isSome then packetWords st.source st.core.core else dequeWords st.source
  w.take 4 :: w.drop 4 :: recordsWords 2 st.records

/-- The places of replay entries that a task may use and no task does: those of its cluster's region, then those of its context's spill area (R390; DESIGN
CHOICE, log entry 87). -/
def freeEntry (s : State) (st : Strand) : Option Nat :=
  let used := s.strands.flatMap fun e =>
    e.2.entryAt.filter fun p => if p < regionEntries then decide (clusterOf e.2.core = clusterOf st.core) else decide (e.2.ctx = st.ctx)
  (List.range (regionEntries + spillEntries s st.ctx)).find? fun p => !used.contains p

/-- An entry written at its place: in the replay region of a bank, or in the spill area (R24, R390). -/
def writeEntry (s : State) (st : Strand) (p : Nat) (w : List Word) : State :=
  if p < regionEntries then
    let c := coreOf (clusterOf st.core) (BitVec.ofNat 3 (p / 256))
    storeWords s (.bank c) (coordAddr c (0x1E000 + 32 * (p % 256))).toNat w
  else
    match s.context? st.ctx with
    | some x => s.deviceWriteWords st.core st.ctx ((x.rrspill &&& ~~~(0xFFF#64)) + BitVec.ofNat 64 (32 * (p - regionEntries))) w
    | none => s

/-- The next entry of a task's replay records is written; a task for which no place is left becomes unreplayable (R390, R391). -/
def storeRecord (s : State) (h : Handle) : State :=
  match s.strand? h with
  | none => s
  | some st =>
    if st.unreplayable then s
    else
      match st.entryList[st.entryAt.length]? with
      | none => s
      | some w =>
        match freeEntry s st with
        | some p => writeEntry (s.setStrand h { st with entryAt := st.entryAt ++ [p] }) st p w
        | none => s.setStrand h { st with records := [], entryAt := [], unreplayable := true }

/-! ### Replay (R390, R392) -/

/-- A task as its replay begins: bound again from its first record, sflags bit 5 set, its handle kept (R392; DEDUCED, log entry 66). -/
def replayedTask (st : Strand) (c : CoreId) (slot : BitVec 4) : Strand :=
  let t := boundTask st.source c slot
  { t with
    r := { t.r with sflags := 0x20 }
    due := st.due, records := st.records, entryAt := if clusterOf c = clusterOf st.core then st.entryAt else [], replay := if st.records.isEmpty then none else some 0
    wdqCounts := st.wdqCounts, qflags := st.qflags, fills := st.fills }

/-- A task leaves its slot with nothing of it left on its core or in its cluster (R130, R393). -/
def vacate (s : State) (h : Handle) (st : Strand) : State :=
  let s1 := leaveWaits s h st
  let s2 := abandonMatrix (abandonVector (finishStores s1 st.core fun m => decide (m.h = h)) st.core h) st.core h
  let s3 := s2.modCore st.core fun c => { c with inbox := c.inbox.filter fun p => !decide (p.h = h), away := dropAll h c.away }
  let s4 := s3.modCluster (clusterOf st.core) fun c => { c with handlers := c.handlers.filter fun t => !decide (t.frozen = h) }
  s4.modContext st.ctx fun x => { x with waitingRecord := dropAll (.task h) x.waitingRecord }

/-- A task is bound again in a slot of a core and replayed from its records (R392). -/
def replayOn (s : State) (h : Handle) (st : Strand) (c : CoreId) (slot : BitVec 4) : State :=
  freeRecordSlot (((vacate s h st).takeCore c st.ctx st.level).setStrand h (replayedTask st c slot)) st.ctx (st.frozen.bind Frozen.slot)

/-- UNIT_LOST with its reason and the lost unit's address (R400). -/
def unitLost (s : State) (c : CoreId) (reason : Nat) : FaultInfo := ⟨0x7, 0, [BitVec.ofNat 64 reason, coordAddr (lostUnit s c) 0]⟩

/-- A task that cannot be replayed takes its new slot and faults UNIT_LOST there; one that is frozen already stays so (R390, R393). -/
def loseOn (s : State) (h : Handle) (st : Strand) (c : CoreId) (slot : BitVec 4) (reason : Nat) : State :=
  let st1 := { st with core := c, slot := slot, status := .ready, vl := 0, claim := none, pending := none, sending := none, kept := none, flight := none
                       tile := none }
  let s1 := (vacate s h st).takeCore c st.ctx st.level
  match st.frozen with
  | some _ => s1.setStrand h { st1 with status := .frozen }
  | none => freezeAt (s1.setStrand h st1) h st1 (unitLost s st.core reason) st.r.pc 0 none

/-- TASK_REPLAY (R390, R392, R393): a task of a lost core is bound again and replayed. Where the schedule says that a word of its moved state
fails, it faults instead (DESIGN CHOICE, log entry 2). -/
def execTaskReplay (h : Handle) (s : State) : Out :=
  match s.strand? h with
  | none => .next s
  | some st =>
    if s.coreIn st.core then .next s
    else
      match replayCore s st with
      | none => .next s
      | some c =>
        let s1 := moveCore s st.core c st.ctx
        let slot := (slotsFor s1 c st.role).headD 0
        if st.unreplayable then .next (loseOn s1 h st c slot 2)
        else if s.picks.headD 0 = 1 then .next (loseOn s1 h st c slot 1)
        else .next (replayOn s1 h st c slot)

/-! ### Units out of service (R210, R306, R393) -/

/-- The next entry of a cyclic list of numbers below `n` that satisfies a test, from a number on. -/
def nextNumber (n start : Nat) (ok : Nat → Bool) : Option Nat := ((List.range n).map fun i => (start + 1 + i) % n).find? ok

/-- A lost slice's entries of `slicemap` name the next slice in service (R306; DEDUCED, log entry 68). -/
def remapSlice (s : State) (i : SliceId) : State :=
  match nextNumber 32 i.slice.toNat fun k => s.sliceIn ⟨i.die, BitVec.ofNat 5 k⟩ with
  | some k => s.modDie i.die fun d => { d with slicemap := d.slicemap.map fun e => if e = i.slice then BitVec.ofNat 5 k else e }
  | none => s

/-- A strand's request comes back from a unit that is gone, and its instruction is issued again. -/
def sendBack (s : State) (h : Handle) : State :=
  s.modStrand h fun st => match st.status with
    | .parked _ => if st.pending.any fun p => p.reply.isSome then st else { st with pending := none, status := .ready }
    | _ => st

/-- The offers in a lost slice's relay buffer are refused with retry; those still to pass it take the slice that `slicemap` names (R393). -/
def clearRelay (s : State) (i : SliceId) : State :=
  let here := (s.place (.slice i)).relay
  let gone := s.offers.filter fun o => here.contains o.id
  let swap := fun (x : SliceId) => if x = i then ⟨i.die, (s.die i.die).slicemap[i.slice.toFin]⟩ else x
  let left := (s.offers.filter fun (o : Offer) => !here.contains o.id).map fun (o : Offer) => { o with path := o.path.map swap }
  let s1 := { s with offers := left }
  gone.foldl (fun s o => match o.sender with
    | .strand h => sendBack s h
    | .engine _ => s) (s1.modPlace (.slice i) fun x => { x with relay := [] })

/-- The place of a byte once a slice is lost: for a line of memory its new home (R306). -/
def newHome (s : State) (i : SliceId) (p : Place) (key : Nat) : Place := if p = .slice i ∧ key < 2 ^ 48 then .slice (s.homeOf key) else p

/-- Sequence entries of lines of memory go to the new homes of their lines; what they held is sent again (R199, R306). -/
def moveSeq (s : State) (l : List SeqEntry) : State :=
  (l.filter fun e => decide (e.key < 2 ^ 48)).foldl (fun s e => s.modPlace (.slice (s.homeOf e.key)) fun x => { x with seq := x.seq ++ [{ e with held := [] }] }) s

/-- What is on its way to a lost slice goes to the new homes of its lines: posted writes, reduce packets with their strands, element writes that commands
owe (R223, R292, R294, R306). -/
def rehome (s : State) (i : SliceId) : State :=
  let home := newHome s i
  let write := fun (e : ElementWrite) => { e with place := home e.place e.key }
  let packets := s.clusters.flatMap fun e => e.2.outbox
  { s with
    posted := s.posted.map fun p => { p with place := home p.place p.key }
    clusters := s.clusters.map fun (e : ClusterId × Cluster) => (e.1, { e.2 with outbox := e.2.outbox.map fun p => { p with place := home p.place p.key } })
    cores := s.cores.map fun (e : CoreId × Core) => (e.1, { e.2 with vec := { e.2.vec with
      running := e.2.vec.running.map fun m => { m with owed := m.owed.map write } } })
    strands := s.strands.map fun (e : Handle × Strand) => (e.1, match e.2.status, packets.find? fun p => p.parts.names e.1 with
      | .parked (.atPlace p), some k => { e.2 with status := .parked (.atPlace (home p k.key)) }
      | _, _ => e.2) }

/-- A slice leaves service: its windows and keys are lost, its lines have a new home, and what waited there is sent again (R287, R306, R393). -/
def loseSlice (s : State) (i : SliceId) : State :=
  let s1 := clearRelay (remapSlice { s with grants := s.grants.filter fun g => !decide (g.2.1 = i) } i) i
  let s2 := (s1.histSlice i).keys.foldl (fun s k => dropKey s i k) s1
  let p := s2.place (.slice i)
  let waiting := p.station.map Waiter.h ++ p.watch.map Watch.h ++ p.seq.flatMap fun e => e.held.map Held.h
  let s3 := moveSeq (s2.modPlace (.slice i) fun _ => PlaceState.reset) p.seq
  waiting.foldl sendBack (rehome s3 i)

/-- A lane group leaves service: the grants of every context on its cluster return to the pool at once, and the movement slots are to save and restore the
contexts, before their slots issue again (R159, R200, R210; DEDUCED, log entry 94). -/
def loseLanes (s : State) (c : CoreId) : State :=
  match (s.core c).ctx with
  | none => s
  | some ctx => (returnGrants s c ctx).modCore c fun x => { x with regrant := true }

/-- What the engines of a lost cluster held is gone; a message on its way there goes back to its sender (R210; DESIGN CHOICE, log entry 31). -/
def dropCluster (s : State) (c : ClusterId) : State :=
  let clear := fun (k : CoreId) (x : Core) => if clusterOf k = c then { x with copyReg := none, copies := [], mqueue := [] } else x
  let s1 := { s with cores := s.cores.map fun (e : CoreId × Core) => (e.1, clear e.1 e.2) }
  let s2 := s1.modCluster c fun x => { x with
    claims := [], outbox := []
    quads := x.quads.map fun q => { q with running := none }
    brush := { x.brush with slots := Vector.replicate 4 none, queue := [], pending := [] } }
  let gone := s2.offers.filter fun o => decide (clusterOf o.core = c)
  let drop := dropAllOffers s2 gone
  gone.foldl (fun s o => match o.sender with
    | .strand h => sendBack s h
    | .engine _ => s) drop
where
  dropAllOffers (s : State) (gone : List Offer) : State :=
    let ids := gone.map Offer.id
    { s with
      offers := s.offers.filter fun o => !ids.contains o.id
      places := s.places.map fun e => (e.1, { e.2 with relay := e.2.relay.filter fun i => !ids.contains i }) }

/-- A cluster leaves service. -/
def loseCluster (s : State) (c : ClusterId) : State := (coresOf c).foldl loseCore (dropCluster s c)

/-- A quantisation engine leaves service: its commands go to the engine of the next die in service (R306). -/
def loseQengine (s : State) (d : BitVec 2) : State :=
  match qEngine s d with
  | none => s
  | some e =>
    let q := (s.die d).qqueue
    (s.modDie d fun x => { x with qqueue := [] }).modDie e fun x => { x with qqueue := x.qqueue ++ q }

/-- A die leaves service: `diemap` names other dies, and the lines homed there that the schedule lists cannot be written back and are poisoned
(R393; DESIGN CHOICE, log entry 2). -/
def loseDie (s : State) (d : BitVec 2) : State :=
  let bad := s.picks.filter fun k => decide ((s.homeOf (k * 64)).die = d)
  let new := ((nextNumber 4 d.toNat fun k => !s.isOut (.die (BitVec.ofNat 2 k))).map (BitVec.ofNat 2)).getD d
  let s1 := { s with
    diemap := s.diemap.map fun e => if e = d then new else e
    poisoned := bad.foldl (fun t k => Table.put k 3 t) s.poisoned
    grants := s.grants.filter fun g => !decide (g.2.1.die = d) }
  let s2 := ((List.range 32).map fun i => (⟨d, BitVec.ofNat 5 i⟩ : SliceId)).foldl loseSlice s1
  let mine := (s2.clusters.map (·.1) ++ s2.cores.map fun e => clusterOf e.1).filter fun c => decide (c.die = d)
  mine.foldl loseCluster (loseQengine s2 d)

/-- What follows when a unit is out of service (R210, R306, R393). -/
def afterLoss (s : State) (u : HwUnit) : State :=
  match u with
  | .core c => loseCore s c
  | .bank c => loseCluster s (clusterOf c)
  | .laneGroup c _ => (coresOf c).foldl loseLanes s
  | .array q => loseCluster s q.cluster
  | .copyEngine c => loseCluster s c
  | .debug c => goCluster s c
  | .brush c => loseCluster s c
  | .slice i => loseSlice s i
  | .router c => loseCluster s c
  | .ringLink _ => s
  | .qengine d => loseQengine s d
  | .die d => failLostCopies (loseDie s d)

/-- A unit is taken out of service, once. -/
def takeOut (s : State) (u : HwUnit) : State := if s.isOut u then s else afterLoss { s with out := s.out ++ [u] } u

/-- UNIT_OUT_OF_SERVICE (R393): a lastingly failed unit is taken out of service and its work moved. -/
def execUnitOutOfService (u : HwUnit) (s : State) : Out := .next (takeOut s u)

/-! ### Detected errors (R389) -/

/-- A line is poisoned with the reason of its error (R389, R400). -/
def poisonLine (s : State) (line : Nat) (mac : Bool) : State :=
  if (Table.find line s.poisoned).isSome then s else { s with poisoned := Table.put line (if mac then 2 else 1) s.poisoned }

/-- A task is replayed where it stands (R389, R392); an unreplayable one faults (R390). -/
def replayHere (s : State) (h : Handle) : State :=
  match s.strand? h with
  | none => s
  | some st =>
    if !st.occupies || !s.present st then s
    else if st.unreplayable then loseOn s h st st.core st.slot 2
    else replayOn s h st st.core st.slot

/-- The count of transient errors in the firmware's log (R389). -/
def countError (s : State) : State := { s with errors := s.errors + 1 }

/-- The state in which a line answers no read. -/
def State.faulty (s : State) (line : Nat) : State := { s with poisoned := Table.put line 3 s.poisoned }

/-- The next word of a copy that an engine works on meets a line (R205). -/
def copyMeets (s : State) (line : Nat) (m : Copy) : Bool :=
  copyReady s m && (m.state == 1 || (copyFault s m).isNone && (m.window s).isNone) &&
  match moveWord (s.faulty line) m with
  | .error (.poisoned _) => true
  | _ => false

/-- The next block of a command that an engine works on meets a line (R302). -/
def qcmdMeets (s : State) (line : Nat) (m : QCmd) : Bool :=
  qReady s m && (m.block != 0 || (qUnleased s m (qSides m.ctrl m.params)).isNone) &&
  match quantBlock (s.faulty line) m with
  | .error (.poisoned _) => true
  | _ => false

/-- The copies and the quantisation commands that meet a line next, each with the state in which it has been handed to the firmware or set aside there. -/
def lineUsers (s : State) (line : Nat) : List State :=
  (((s.cores.filterMap fun e => activeCopy s e.1).filter (copyMeets s line)).map (handOver s)) ++
  (((s.dies.filterMap fun e => (activeQcmd s e.1).map fun m => (e.1, m)).filter fun e => qcmdMeets s line e.2).map fun e => asideQcmd s e.1 e.2 none)

/-- An error of a line that a re-read mends: it has been met by a copy, which the firmware finishes, by a quantisation command, which is set aside at its block,
or by another access, to which nothing happens (R205, R302, R389; DESIGN CHOICE, log entry 2). -/
def mendLine (s : State) (line : Nat) : State :=
  match s.picks.headD 0 with
  | 0 => s
  | k + 1 => (lineUsers s line).getD k s

/-- ERROR_RETRY (R389): one retry succeeds, and the error is counted, or fails, and the error is lasting. The retry of a parity error is a replay
of the task on its own core. -/
def execErrorRetry (site : ErrorSite) (result : RetryResult) (s : State) : Out :=
  match site, result with
  | .parity h _, .transient => .next (replayHere (countError s) h)
  | .line k _, .transient => .next (mendLine (countError s) k)
  | _, .transient => .next (countError s)
  | .arith _ u, .lasting | .parity _ u, .lasting | .sram u, .lasting | .link u, .lasting => .next (takeOut s u)
  | .line k mac, .lasting => .next (poisonLine s k mac)

end Sys2Proof.Machine
end

