-- ==== Sys2Proof/Machine/Fabric.lean ====
section
/-! DEFINITION. The fabric between modules: jobs (R405), windows (R406, R408), links and lanes (R401-R404), and accesses of other
modules to the windows homed here (R412). -/

namespace Sys2Proof.Machine

/-! ### Jobs and windows (R405, R406, R408) -/

/-- A list of positions in rising order, each once: position numbers are x + 16 × (y + 16 × z) (R405). -/
def sortMembers (l : List (BitVec 12)) : List (BitVec 12) :=
  l.foldl (fun r x => if x ∈ r then r else put x r) []
where
  put (x : BitVec 12) : List (BitVec 12) → List (BitVec 12)
    | [] => [x]
    | y :: t => if x < y then x :: y :: t else y :: put x t

/-- JOB_JOIN (R405): the firmwares join contexts of member modules, this module's among them, into a job. -/
def execJobJoin (ctx : CtxId) (members : List (BitVec 12)) (s : State) : Out :=
  if (s.context? ctx).isSome ∧ s.position ∈ members then .next { s with jobs := Table.put ctx (sortMembers members) s.jobs } else .next s

/-- The fields of a collective window stand within their limits (R408). -/
def collectiveOk (members : List (BitVec 12)) : Option (Nat × CollType × CollOp × Bool) → Bool
  | none => true
  | some (g, _, _, _) => decide (2 ≤ g) && decide (g ≤ 4096) && decide (g ≤ members.length)

/-- WINDOW_BIND (R406, R408): the firmware binds a granted slice window of a job's context to a home module, once. -/
def execWindowBind (w : WindowBinding) (s : State) : Out :=
  let members := Table.get [] w.ctx s.jobs
  if s.grants.contains (w.ctx, w.slice, w.window) ∧ w.home ∈ members ∧ collectiveOk members w.collective ∧
    !(s.windows.any fun x => decide (x.bind.ctx = w.ctx) && decide (x.bind.slice = w.slice) && x.bind.window == w.window) then
    .next { s with windows := s.windows ++ [⟨w, [], []⟩] }
  else .next s

/-! ### Links (R402-R404) -/

/-- A lane has failed lastingly: the traffic goes by what is left, and what is under way to a module that no path reaches any longer faults (R403). -/
def failLane (s : State) (k : Lane) : State := failLostCopies (s.modLink k fun x => { x with up := false, failed := true, retrying := false })

/-- Lane failures elsewhere have cut a module off (R403; DESIGN CHOICE, log entry 2). -/
def cutOff (s : State) (m : BitVec 12) : State :=
  if m = s.position then s else failLostCopies { s with unreachable := addOnce m s.unreachable }

/-- A lane exists: each die has three in a direction (R401). -/
def laneOk (lane : BitVec 2) : Bool := decide (lane.toNat < 3)

/-- LINK_UP (R404): two firmwares attest each other and agree keys. Each side refuses a peer of another measurement, and one whose debug flag is set while
its own is clear; the link then stays down, which is a lasting failure. -/
def execLinkUp (d : BitVec 2) (dir : FabricDir) (lane : BitVec 2) (sameFirmware debugFlag : Bool) (s : State) : Out :=
  let k : Lane := (d, dir, lane)
  if !laneOk lane || (s.link k).up || (s.link k).failed || decide (s.boot ≠ .running) then .next s
  else if sameFirmware && debugFlag == Config.debugEnabled then
    .next (s.modLink k fun x => { x with up := true, flits := 0, sent := 0, keys := x.keys + 1 })
  else .next (failLane s k)

/-- The flits that one exchange of keys serves in a direction (R404). -/
def keyFlits : Nat := 2 ^ 32

/-- LINK_REKEY (R404): after 2^32 flits in a direction a new exchange replaces the keys of a link. -/
def execLinkRekey (d : BitVec 2) (dir : FabricDir) (lane : BitVec 2) (s : State) : Out :=
  let k : Lane := (d, dir, lane)
  if (s.link k).up && (decide (keyFlits ≤ (s.link k).flits) || decide (keyFlits ≤ (s.link k).sent)) then
    .next (s.modLink k fun x => { x with flits := 0, sent := 0, keys := x.keys + 1 })
  else .next s

/-- A flit leaves on a lane, under the next nonce of its direction; none while new keys are due (R404). -/
def sendFlit (s : State) (k : Lane) : State :=
  if (s.link k).up && decide ((s.link k).sent < keyFlits) then s.modLink k fun x => { x with sent := x.sent + 1 } else s

/-- FLIT_RECEIVE (R402, R404): a flit that passes its CRC and authentication is taken and counted; one that fails is retransmitted once. A retransmission
that passes makes the error transient, and one that fails is a lasting failure of the lane (R389, R403). No flit passes before the new keys that 2^32 flits
call for. -/
def execFlitReceive (d : BitVec 2) (dir : FabricDir) (lane : BitVec 2) (good : Bool) (s : State) : Out :=
  let k : Lane := (d, dir, lane)
  if !(s.link k).up || decide (keyFlits ≤ (s.link k).flits) then .next s
  else if good then
    let s1 := if (s.link k).retrying then countError s else s
    .next (s1.modLink k fun x => { x with flits := x.flits + 1, retrying := false })
  else if (s.link k).retrying then .next (failLane s k)
  else .next (s.modLink k fun x => { x with retrying := true })

/-- LANE_FAIL (R403): a lane fails lastingly, and the traffic goes by what is left. -/
def execLaneFail (d : BitVec 2) (dir : FabricDir) (lane : BitVec 2) (s : State) : Out :=
  if laneOk lane && !(s.link (d, dir, lane)).failed then .next (failLane s (d, dir, lane)) else .next s

/-! ### Parties of other modules (R406, R412) -/

/-- The handle under which a place keeps a request of a party of another module: it names slot 15, where no task stands (R143; DESIGN CHOICE, log entry
83). -/
def foreignHandle (party : BitVec 16) : Handle := (0#12 ++ 15#4 ++ party : BitVec 32)

/-- The bytes that an access of a party names. -/
def ForeignAct.bytes : ForeignAct → Nat
  | .write n .. | .watch n => n
  | .take _ | .put _ => 8
  | .add f64 .. => if f64 then 8 else 4

/-- A party of another module may make an access: it lies, aligned, in a bound window whose home slice is in service here, with a link that has come up, or
whose home module is not lost (R287, R403, R404, R406). -/
def foreignOk (s : State) (x : Foreign) : Bool :=
  let n := x.act.bytes
  [1, 2, 4, 8].contains n && x.off % n == 0 && decide (x.off < 2 ^ 20) &&
  (s.windowHome x.ctx x.slice x.off).any fun m => if m = s.position then s.sliceIn x.slice && s.anyLink else !s.lost m

/-- A request of a party waits at a place, or is refused there (R196). -/
def foreignWaits (s : State) (h : Handle) (l : Loc) (kind : BitVec 3) (v : Word) : State := (s.enterStation l.place ⟨h, l.key, kind, v, l.ea⟩).1

/-- A sequenced addition of a party: applied, held, or answered without effect (R199). -/
def foreignAdd (s : State) (h : Handle) (l : Loc) (f : FSize) (num : BitVec 16) (v : Word) : State :=
  match seqEntry s l f num with
  | .error _ => s
  | .ok (s1, e) =>
    let d := (num - e.next).toNat
    if d ≥ 32768 ∨ e.held.any (fun x => x.number == num) then s
    else if d = 0 then
      (modSeq (s1.applyAdd l.place l.key (f == .f64) v).1 l fun e => { e with next := e.next + 1 }).applyHeld l.place l.key (f == .f64) 8
    else if d ≤ 8 then modSeq s1 l fun e => { e with held := e.held ++ [⟨h, num, v, l.ea⟩] }
    else s

/-- A party of another module makes an access, which is performed at the one place of its word like an access of this module (R406, R412). -/
def foreignAccess (s : State) (x : Foreign) : State :=
  if !foreignOk s x then s
  else
    let l := s.sliceLoc x.ctx (sliceAddr x.slice x.off) x.slice x.off
    let h := foreignHandle x.party
    match x.act with
    | .write n v setsFull => s.store l.place l.key n v setsFull
    | .take keep =>
      if !s.isFull l.key then foreignWaits s h l (if keep then 1 else 0) 0
      else if keep then s else (s.setFull l.key false).serve l.place l.key
    | .put v => if s.isFull l.key then foreignWaits s h l 2 v else s.store l.place l.key 8 v.toNat true
    | .watch n => s.addWatch l.place ⟨h, l.key, n, l.ea⟩
    | .add f64 num v => foreignAdd s h l (if f64 then .f64 else .f32) num v

end Sys2Proof.Machine
end

