-- ==== Sys2Proof/Machine/FloatInstr.lean ====
section
/-! DEFINITION. Page 0: scalar floating point (R119-R123). -/

namespace Sys2Proof.Machine

def execFadd (g : Option Guard) (f : FSize) (rm : Rm) (a b c : Reg) (s : State) : Out := fp3 g f a b c ((fsizeFmt f).add rm) s
def execFsub (g : Option Guard) (f : FSize) (rm : Rm) (a b c : Reg) (s : State) : Out := fp3 g f a b c ((fsizeFmt f).sub rm) s
def execFmul (g : Option Guard) (f : FSize) (rm : Rm) (a b c : Reg) (s : State) : Out := fp3 g f a b c ((fsizeFmt f).mul rm) s

/-- R120: round(B × C + A), one rounding; A is read as a source. -/
def execFfma (g : Option Guard) (f : FSize) (rm : Rm) (a b c : Reg) (s : State) : Out :=
  issue g s fun h st => do
    let x ← src s h st 0 b
    let y ← src s h st 1 c
    let z ← src s h st 2 a
    let F := fsizeFmt f
    let xs ← fpSources s st F [fpBits F x, fpBits F y, fpBits F z]
    let r := F.fma rm (xs.getD 0 0) (xs.getD 1 0) (xs.getD 2 0)
    retire s h (st.orFp r.2) [b, c, a] (some (a, fpWord r))

def execFmin (g : Option Guard) (f : FSize) (a b c : Reg) (s : State) : Out := fp3 g f a b c ((fsizeFmt f).pick true) s
def execFmax (g : Option Guard) (f : FSize) (a b c : Reg) (s : State) : Out := fp3 g f a b c ((fsizeFmt f).pick false) s

/-- R122. -/
def execFcmp (g : Option Guard) (f : FSize) (cc : Cond) (p : BitVec 4) (b c : Reg) (s : State) : Out :=
  issue g s fun h st => do
    let x ← src s h st 0 b
    let y ← src s h st 1 c
    let F := fsizeFmt f
    let xs ← fpSources s st F [fpBits F x, fpBits F y]
    let r := F.compare cc (xs.getD 0 0) (xs.getD 1 0)
    setPred s h (st.orFp r.2) [b, c] p r.1

/-- The binary format or the integer type of a destination of `fcvt` (R39, R123). -/
def cvtDst : CvtDst → FFmt ⊕ Size
  | .f64 => .inl .f64
  | .f32 => .inl .f32
  | .f16 => .inl .f16
  | .bf16 => .inl .bf16
  | .s64 => .inr .s64
  | .n64 => .inr .n64
  | .s32 => .inr .s32
  | .n32 => .inr .n32

/-- An exact value delivered in a destination type of `fcvt` (R76, R123). -/
def cvtDeliver (dst : CvtDst) (rm : Rm) (v : FVal) : Word × Flags :=
  match cvtDst dst with
  | .inl f => let r := f.ofVal rm 0 v; (BitVec.ofNat 64 r.1, r.2)
  | .inr z => let r := intOfVal (sizeSigned z) (sizeBits z) rm 0 v; (extendInt z r.1, r.2)

/-- The exact value of a source of `fcvt`, under R56 for the IEEE types (R58, R121, R123). -/
def cvtSource (s : State) (st : Strand) (src : EType) (x : Word) : Res FVal :=
  match etypeFmt (s.core st.core).xr src with
  | some f => do
    let xs ← fpSources s st f [fpBits f x]
    .ok (f.value (xs.getD 0 0))
  | none =>
    match etypeInt src with
    | some (signed, n) => .ok (FVal.ofInt (intOfBits signed n x.toNat))
    | none => .error (illegal s 7)

/-- R123. -/
def execFcvt (g : Option Guard) (dst : CvtDst) (source : EType) (rm : Rm) (a b : Reg) (s : State) : Out :=
  issue g s fun h st => do
    let x ← src s h st 0 b
    let v ← cvtSource s st source x
    let r := cvtDeliver dst rm v
    retire s h (st.orFp r.2) [b] (some (a, r.1))

end Sys2Proof.Machine
end

