-- ==== Sys2Proof/Machine/Integer.lean ====
section
/-! DEFINITION. Page 0: integer and logic, compares and predicates (R106-R115). -/

namespace Sys2Proof.Machine

/-! ### Results at width N (R108-R110) -/

def addAt (z : Size) (x y : Word) : Word := extend z (x.toNat + y.toNat)
def subAt (z : Size) (x y : Word) : Word := extendInt z (sizedInt z x - sizedInt z y)
def mulAt (z : Size) (x y : Word) : Word := extendInt z (sizedInt z x * sizedInt z y)
/-- Bits [2N-1:N] of the exact product (R108). -/
def mulhAt (z : Size) (x y : Word) : Word := extendInt z (sizedInt z x * sizedInt z y / 2 ^ sizeBits z)
/-- The quotient truncated toward zero; all ones on a zero divisor; -2^(N-1) by -1 wraps (R109). -/
def divAt (z : Size) (x y : Word) : Word :=
  if lowBits z y = 0 then extend z (2 ^ sizeBits z - 1) else extendInt z (Int.tdiv (sizedInt z x) (sizedInt z y))
/-- a - b × quotient; a itself on a zero divisor (R109). -/
def remAt (z : Size) (x y : Word) : Word :=
  if lowBits z y = 0 then extend z x.toNat else extendInt z (Int.tmod (sizedInt z x) (sizedInt z y))
def andAt (z : Size) (x y : Word) : Word := extend z (x &&& y).toNat
def orAt (z : Size) (x y : Word) : Word := extend z (x ||| y).toNat
def xorAt (z : Size) (x y : Word) : Word := extend z (x ^^^ y).toNat
def andnAt (z : Size) (x y : Word) : Word := extend z (x &&& ~~~y).toNat
/-- The shift count: b[log2 N - 1:0] (R108). -/
def shiftBy (z : Size) (y : Word) : Nat := y.toNat % sizeBits z
def shlAt (z : Size) (x y : Word) : Word := extend z (lowBits z x * 2 ^ shiftBy z y)
def shrAt (z : Size) (x y : Word) : Word := extend z (lowBits z x / 2 ^ shiftBy z y)
/-- Copies of a[N-1] enter whatever the suffix's sign (R108). -/
def sarAt (z : Size) (x y : Word) : Word :=
  extendInt z (intOfBits true (sizeBits z) x.toNat / 2 ^ shiftBy z y)
def rolAt (z : Size) (x y : Word) : Word :=
  extend z (lowBits z x * 2 ^ shiftBy z y + lowBits z x / 2 ^ (sizeBits z - shiftBy z y))
def minAt (z : Size) (x y : Word) : Word := extendInt z (min (sizedInt z x) (sizedInt z y))
def maxAt (z : Size) (x y : Word) : Word := extendInt z (max (sizedInt z x) (sizedInt z y))
/-- Leading zero bits of the low N bits, N when they are zero (R110). -/
def clzAt (z : Size) (x : Word) : Word :=
  extend z (if lowBits z x = 0 then sizeBits z else sizeBits z - 1 - Nat.log2 (lowBits z x))
/-- One bits of the low N bits (R110). -/
def popcAt (z : Size) (x : Word) : Word :=
  extend z (((List.range (sizeBits z)).filter fun i => x.getLsbD i).length)

/-! ### Meanings -/

def execAdd (g : Option Guard) (z : Size) (a b c : Reg) (s : State) : Out := alu3 g a b c (addAt z) s
def execSub (g : Option Guard) (z : Size) (a b c : Reg) (s : State) : Out := alu3 g a b c (subAt z) s
def execMul (g : Option Guard) (z : Size) (a b c : Reg) (s : State) : Out := alu3 g a b c (mulAt z) s
def execMulh (g : Option Guard) (z : Size) (a b c : Reg) (s : State) : Out := alu3 g a b c (mulhAt z) s
def execDiv (g : Option Guard) (z : Size) (a b c : Reg) (s : State) : Out := alu3 g a b c (divAt z) s
def execRem (g : Option Guard) (z : Size) (a b c : Reg) (s : State) : Out := alu3 g a b c (remAt z) s
def execAnd (g : Option Guard) (z : Size) (a b c : Reg) (s : State) : Out := alu3 g a b c (andAt z) s
def execOr (g : Option Guard) (z : Size) (a b c : Reg) (s : State) : Out := alu3 g a b c (orAt z) s
def execXor (g : Option Guard) (z : Size) (a b c : Reg) (s : State) : Out := alu3 g a b c (xorAt z) s
def execAndn (g : Option Guard) (z : Size) (a b c : Reg) (s : State) : Out := alu3 g a b c (andnAt z) s
def execShl (g : Option Guard) (z : Size) (a b c : Reg) (s : State) : Out := alu3 g a b c (shlAt z) s
def execShr (g : Option Guard) (z : Size) (a b c : Reg) (s : State) : Out := alu3 g a b c (shrAt z) s
def execSar (g : Option Guard) (z : Size) (a b c : Reg) (s : State) : Out := alu3 g a b c (sarAt z) s
def execRol (g : Option Guard) (z : Size) (a b c : Reg) (s : State) : Out := alu3 g a b c (rolAt z) s
def execClz (g : Option Guard) (z : Size) (a b : Reg) (s : State) : Out := alu2 g a b (clzAt z) s
def execPopc (g : Option Guard) (z : Size) (a b : Reg) (s : State) : Out := alu2 g a b (popcAt z) s
def execMin (g : Option Guard) (z : Size) (a b c : Reg) (s : State) : Out := alu3 g a b c (minAt z) s
def execMax (g : Option Guard) (z : Size) (a b c : Reg) (s : State) : Out := alu3 g a b c (maxAt z) s

/-- R112: both sources are read whatever the predicate holds. -/
def execSel (g : Option Guard) (a b c : Reg) (p : BitVec 4) (s : State) : Out :=
  issue g s fun h st => do
    let x ← src s h st 0 b
    let y ← src s h st 1 c
    retire s h st [b, c] (some (a, if st.r.preds.getLsbD p.toNat then x else y))

/-- R111. -/
def execMov (g : Option Guard) (z : Size) (a b : Reg) (s : State) : Out := alu2 g a b (fun x => extend z x.toNat) s

/-- R111. -/
def execLi (g : Option Guard) (a : Reg) (imm : Word) (s : State) : Out := alu1 g a imm s

/-- R111. -/
def execAddi (g : Option Guard) (z : Size) (a b : Reg) (imm : Word) (s : State) : Out :=
  alu2 g a b (fun x => addAt z x imm) s

/-- R131: the address that a format-M access would form; no access, no check. -/
def execLea (g : Option Guard) (a : Reg) (m : Mem) (s : State) : Out :=
  issue g s fun h st => do
    let ea ← effAddr st m
    retire s h st [] (some (a, ea))

/-- R114. -/
def execCmp (g : Option Guard) (z : Size) (cc : Cond) (p : BitVec 4) (b c : Reg) (s : State) : Out :=
  issue g s fun h st => do
    let x ← src s h st 0 b
    let y ← src s h st 1 c
    setPred s h st [b, c] p (intCond cc (sizedInt z x) (sizedInt z y))

/-- R114: the immediate is sign-extended and then truncated to N bits. -/
def execCmpi (g : Option Guard) (z : Size) (cc : Cond) (p : BitVec 4) (b : Reg) (imm : Word) (s : State) : Out :=
  issue g s fun h st => do
    let x ← src s h st 0 b
    setPred s h st [b] p (intCond cc (sizedInt z x) (sizedInt z imm))

/-- A predicate or its inverse (R115). -/
def predVal (st : Strand) (n : Bool) (p : BitVec 4) : Bool := st.r.preds.getLsbD p.toNat != n

/-- R115. -/
def execPsetAnd (g : Option Guard) (p : BitVec 4) (nx : Bool) (x : BitVec 4) (ny : Bool) (y : BitVec 4) (s : State) : Out :=
  issue g s fun h st => setPred s h st [] p (predVal st nx x && predVal st ny y)

/-- R115. -/
def execPsetOr (g : Option Guard) (p : BitVec 4) (nx : Bool) (x : BitVec 4) (ny : Bool) (y : BitVec 4) (s : State) : Out :=
  issue g s fun h st => setPred s h st [] p (predVal st nx x || predVal st ny y)

/-- R115. -/
def execPsetXor (g : Option Guard) (p : BitVec 4) (nx : Bool) (x : BitVec 4) (ny : Bool) (y : BitVec 4) (s : State) : Out :=
  issue g s fun h st => setPred s h st [] p (predVal st nx x != predVal st ny y)

/-- R115. -/
def execPsetConst (g : Option Guard) (p : BitVec 4) (v : Bool) (s : State) : Out :=
  issue g s fun h st => setPred s h st [] p v

/-- Bits [pos+len-1:pos] of a word, where the field holds len - 1 (R113). -/
def fieldOf (x : Word) (pos len : BitVec 6) : Nat := x.toNat / 2 ^ pos.toNat % 2 ^ (len.toNat + 1)

/-- R113: sign-extended under `.s64`, zero-extended under `.n64`. -/
def execBfx (g : Option Guard) (signed : Bool) (a b : Reg) (pos len : BitVec 6) (s : State) : Out :=
  alu2 g a b (fun x => BitVec.ofInt 64 (intOfBits signed (len.toNat + 1) (fieldOf x pos len))) s

/-- The word with bits [pos+len-1:pos] replaced (R113). -/
def insertField (x y : Word) (pos len : BitVec 6) : Word :=
  let m : Word := BitVec.ofNat 64 ((2 ^ (len.toNat + 1) - 1) * 2 ^ pos.toNat)
  (x &&& ~~~m) ||| (BitVec.ofNat 64 (y.toNat * 2 ^ pos.toNat) &&& m)

/-- R113: A is read as a source. -/
def execBfi (g : Option Guard) (a b : Reg) (pos len : BitVec 6) (s : State) : Out :=
  issue g s fun h st => do
    let y ← src s h st 0 b
    let x ← src s h st 2 a
    retire s h st [b, a] (some (a, insertField x y pos len))

end Sys2Proof.Machine
end

