-- ==== Sys2Proof/Machine/Sha.lean ====
section
/-! DEFINITION. SHA-512 (R395-R397), as FIPS 180-4 defines it (PRESUMED, log entry 103). -/

namespace Sys2Proof.Machine

/-- The round constants. -/
def shaConstants : List Word :=
  [0x428A2F98D728AE22#64, 0x7137449123EF65CD#64, 0xB5C0FBCFEC4D3B2F#64, 0xE9B5DBA58189DBBC#64] ++
  [0x3956C25BF348B538#64, 0x59F111F1B605D019#64, 0x923F82A4AF194F9B#64, 0xAB1C5ED5DA6D8118#64] ++
  [0xD807AA98A3030242#64, 0x12835B0145706FBE#64, 0x243185BE4EE4B28C#64, 0x550C7DC3D5FFB4E2#64] ++
  [0x72BE5D74F27B896F#64, 0x80DEB1FE3B1696B1#64, 0x9BDC06A725C71235#64, 0xC19BF174CF692694#64] ++
  [0xE49B69C19EF14AD2#64, 0xEFBE4786384F25E3#64, 0x0FC19DC68B8CD5B5#64, 0x240CA1CC77AC9C65#64] ++
  [0x2DE92C6F592B0275#64, 0x4A7484AA6EA6E483#64, 0x5CB0A9DCBD41FBD4#64, 0x76F988DA831153B5#64] ++
  [0x983E5152EE66DFAB#64, 0xA831C66D2DB43210#64, 0xB00327C898FB213F#64, 0xBF597FC7BEEF0EE4#64] ++
  [0xC6E00BF33DA88FC2#64, 0xD5A79147930AA725#64, 0x06CA6351E003826F#64, 0x142929670A0E6E70#64] ++
  [0x27B70A8546D22FFC#64, 0x2E1B21385C26C926#64, 0x4D2C6DFC5AC42AED#64, 0x53380D139D95B3DF#64] ++
  [0x650A73548BAF63DE#64, 0x766A0ABB3C77B2A8#64, 0x81C2C92E47EDAEE6#64, 0x92722C851482353B#64] ++
  [0xA2BFE8A14CF10364#64, 0xA81A664BBC423001#64, 0xC24B8B70D0F89791#64, 0xC76C51A30654BE30#64] ++
  [0xD192E819D6EF5218#64, 0xD69906245565A910#64, 0xF40E35855771202A#64, 0x106AA07032BBD1B8#64] ++
  [0x19A4C116B8D2D0C8#64, 0x1E376C085141AB53#64, 0x2748774CDF8EEB99#64, 0x34B0BCB5E19B48A8#64] ++
  [0x391C0CB3C5C95A63#64, 0x4ED8AA4AE3418ACB#64, 0x5B9CCA4F7763E373#64, 0x682E6FF3D6B2B8A3#64] ++
  [0x748F82EE5DEFB2FC#64, 0x78A5636F43172F60#64, 0x84C87814A1F0AB72#64, 0x8CC702081A6439EC#64] ++
  [0x90BEFFFA23631E28#64, 0xA4506CEBDE82BDE9#64, 0xBEF9A3F7B2C67915#64, 0xC67178F2E372532B#64] ++
  [0xCA273ECEEA26619C#64, 0xD186B8C721C0C207#64, 0xEADA7DD6CDE0EB1E#64, 0xF57D4F7FEE6ED178#64] ++
  [0x06F067AA72176FBA#64, 0x0A637DC5A2C898A6#64, 0x113F9804BEF90DAE#64, 0x1B710B35131C471B#64] ++
  [0x28DB77F523047D84#64, 0x32CAAB7B40C72493#64, 0x3C9EBE0A15C9BEBC#64, 0x431D67C49C100D4C#64] ++
  [0x4CC5D4BECB3E42B6#64, 0x597F299CFC657E2A#64, 0x5FCB6FAB3AD6FAEC#64, 0x6C44198C4A475817#64]

/-- The initial hash value. -/
def shaInitial : Vector Word 8 :=
  #v[0x6A09E667F3BCC908#64, 0xBB67AE8584CAA73B#64, 0x3C6EF372FE94F82B#64, 0xA54FF53A5F1D36F1#64, 0x510E527FADE682D1#64, 0x9B05688C2B3E6C1F#64, 0x1F83D9ABFB41BD6B#64, 0x5BE0CD19137E2179#64]

/-- The message with its padding: a one bit, zeros, and its length in bits in 16 bytes. -/
def shaPad (m : List Byte) : List Byte :=
  let n := m.length
  m ++ 0x80 :: List.replicate ((239 - n % 128) % 128) 0 ++ (List.range 16).map fun i => BitVec.ofNat 8 (8 * n / 256 ^ (15 - i))

/-- The word whose bytes, the most significant first, stand at the head of a list. -/
def shaWord (l : List Byte) : Word := (l.take 8).foldl (fun w b => (w <<< 8) ||| b.setWidth 64) 0

/-- `n` further words of a message schedule, whose latest word comes first. -/
def shaExtend (l : List Word) : Nat → List Word
  | 0 => l
  | n + 1 =>
    let x := l.getD 1 0
    let y := l.getD 14 0
    let s1 := x.rotateRight 19 ^^^ x.rotateRight 61 ^^^ (x >>> 6)
    let s0 := y.rotateRight 1 ^^^ y.rotateRight 8 ^^^ (y >>> 7)
    shaExtend ((s1 + l.getD 6 0 + s0 + l.getD 15 0) :: l) n

/-- The message schedule of a block of 128 bytes. -/
def shaSchedule (b : List Byte) : List Word :=
  (shaExtend ((List.range 16).map fun i => shaWord (b.drop (8 * i))).reverse 64).reverse

/-- One round, with its constant and its schedule word. -/
def shaRound (v : Vector Word 8) (kw : Word × Word) : Vector Word 8 :=
  let t1 := v[7] + (v[4].rotateRight 14 ^^^ v[4].rotateRight 18 ^^^ v[4].rotateRight 41) + ((v[4] &&& v[5]) ^^^ (~~~v[4] &&& v[6])) + kw.1 + kw.2
  let t2 := (v[0].rotateRight 28 ^^^ v[0].rotateRight 34 ^^^ v[0].rotateRight 39) + ((v[0] &&& v[1]) ^^^ (v[0] &&& v[2]) ^^^ (v[1] &&& v[2]))
  #v[t1 + t2, v[0], v[1], v[2], v[3] + t1, v[4], v[5], v[6]]

/-- The hash value after a block. -/
def shaBlock (h : Vector Word 8) (b : List Byte) : Vector Word 8 :=
  Vector.zipWith (· + ·) h ((shaConstants.zip (shaSchedule b)).foldl shaRound h)

/-- The hash value after a number of blocks. -/
def shaBlocks (h : Vector Word 8) (m : List Byte) : Nat → Vector Word 8
  | 0 => h
  | n + 1 => shaBlocks (shaBlock h m) (m.drop 128) n

/-- The SHA-512 digest of a byte string, 64 bytes in the order of the digest. -/
def sha512 (m : List Byte) : List Byte :=
  let p := shaPad m
  (shaBlocks shaInitial p (p.length / 128)).toList.flatMap fun w => (List.range 8).map fun i => w.extractLsb' (8 * (7 - i)) 8

end Sys2Proof.Machine
end

