-- ==== Sys2Proof/Machine/Package.lean ====
section
/-! DEFINITION. Page walks (R380-R382), boot and trust (R395-R397), contexts (R94, R287, R388), the host endpoint (R208, R309, R383, R411),
the sampling pulse (R399), and word sequences that name no instruction (R45, R48). -/

namespace Sys2Proof.Machine

/-! ### Unassigned encodings (R45, R48, R168) -/

/-- UNASSIGNED_ENCODING (R45, R48): the strand takes ILLEGAL with the detail that the decoder found. -/
def execUnassignedEncoding (detail : IllegalDetail) (s : State) : Out :=
  issue none s fun _ _ => .error (.trap (illegalInfo s.latch detail))

/-! ### Page walks (R380, R382) -/

/-- PAGE_WALK (R380, R382): a walk that a cluster's die completes. A leaf fills the TLBs; a page that is not present enters the fault buffer, for
no task, as the access that asked for it has gone (DEDUCED, log entry 13). -/
def execPageWalk (c : ClusterId) (ctx : CtxId) (va : Word) (kind : AccessKind) (s : State) : Out :=
  let a : Nat := (va.extractLsb' 0 48 : BitVec 48).toNat
  match s.leafFor c ctx a with
  | .leaf .. => .next (s.keepLeaf c ctx a)
  | .absent level => if (s.context? ctx).isSome then .next (s.faultEntry (coreOf c 0) ctx 0 va kind level) else .next s
  | .malformed _ | .poisoned _ => .next s

/-! ### Boot (R395) -/

/-- An image passes the checks of the ROM: its signature, and its version (R395). -/
def imageGood (image : List Byte) : Bool := Config.imageSigned image && decide (Config.minimumVersion ≤ Config.imageVersion image)

/-- The firmware of an image runs: the module takes its position (R395, R401). -/
def startFirmware (s : State) (image : List Byte) : State :=
  { s with boot := .running, firmware := some image, nvme := some image, position := Config.bootPosition }

/-- RESET_BOOT (R395): the ROM reads the image from NVMe, checks it and runs it, or waits for a recovery image (DESIGN CHOICE, log entry 12). -/
def execResetBoot (s : State) : Out :=
  match s.boot with
  | .rom =>
    let stored := match s.nvme with
      | some x => some x
      | none => Config.storedImage
    match stored with
    | some x => if imageGood x then .next (startFirmware s x) else .next { s with boot := .recovery }
    | none => .next { s with boot := .recovery }
  | _ => .next s

/-- RECOVERY_IMAGE (R395): an image written through the host link while the ROM waits is checked, stored and run. -/
def execRecoveryImage (image : List Byte) (s : State) : Out :=
  match s.boot with
  | .recovery => if imageGood image then .next (startFirmware s image) else .next s
  | _ => .next s

/-! ### Attestation (R396) -/

/-- A number as n bytes, lowest first. -/
def leBytes : Nat → Nat → List Byte
  | 0, _ => []
  | n + 1, v => BitVec.ofNat 8 v :: leBytes n (v / 256)

/-- The configuration that is measured: fuses and CXL devices, units in service, `diemap`, `slicemap` (R396). -/
def measuredConfig (s : State) : List Byte :=
  Config.fuses ++ Config.unitBytes s.out ++ leBytes 8 (diemapWord s).toNat ++
  ((List.range 4).flatMap fun d => (List.range 4).flatMap fun i => leBytes 8 (slicemapWord (s.die (BitVec.ofNat 2 d)) i).toNat)

/-- The report without its signature: bytes 0x000 to 0x117 (R396; DESIGN CHOICE, log entry 19). -/
def reportBody (s : State) (image : List Byte) (ctx : Option CtxId) (nonce : BitVec 256) : List Byte :=
  let m := ((ctx.bind s.context?).map Context.measurement).getD (List.replicate 64 0)
  leBytes 4 1 ++ leBytes 4 (if Config.debugEnabled then 1 else 0) ++ leBytes 16 Config.serial.toNat ++
  sha512 image ++ sha512 (measuredConfig s) ++ m ++ leBytes 32 nonce.toNat ++ leBytes 32 (Config.firmwareKey (sha512 image)).toNat

/-- ATTESTATION_REQUEST (R396): the firmware answers with a report of 344 bytes, signed with its key. -/
def execAttestationRequest (ctx : Option CtxId) (nonce : BitVec 256) (s : State) : Out :=
  match s.boot, s.firmware with
  | .running, some image =>
    let body := reportBody s image ctx nonce
    .next { s with reports := s.reports ++ [body ++ leBytes 64 (Config.firmwareSign body).toNat] }
  | _, _ => .next s

/-! ### Contexts (R94, R287, R388) -/

/-- A context as the firmware creates it, with a key that it draws (R153, R378, R388, R397). -/
def newContext (m : ContextImage) (draw : Nat) : Context :=
  { system := m.system, level := 0, sndto := 0x00100000, traptab := m.traptab, flttab := m.flttab, fltrec := m.fltrec, qtab := m.qtab
    ptroot := m.ptroot, rrspill := m.rrspill, smpbuf := m.smpbuf, records := [], waitingRecord := [], queues := [], setdet := []
    energy := 0, past := [], shown := 0, saved := [], measurement := sha512 m.image, key := Config.contextKey draw }

/-- The little-endian number of a byte list. -/
def leNumber : List Byte → Nat
  | [] => 0
  | b :: t => b.toNat + 256 * leNumber t

/-- Bytes written to LPDDR6 or CXL memory in pieces that do not cross an 8-byte word, each performed at its home slice; a piece whose bytes the test
refuses is dropped (R378, R394; DEDUCED, log entry 69). -/
def writeMemory (ok : State → Nat → Bool) (s : State) (pa : Nat) (bytes : List Byte) : Nat → State
  | 0 => s
  | fuel + 1 =>
    if bytes.isEmpty then s
    else
      let piece := bytes.take (8 - pa % 8)
      let s1 := if ok s pa then s.store (.slice (s.homeOf pa)) pa piece.length (leNumber piece) false else s
      writeMemory ok s1 (pa + piece.length) (bytes.drop (8 - pa % 8)) fuel

/-- Module memory holds a physical address: LPDDR6 or CXL (R375). -/
def State.onModule (s : State) (pa : Nat) : Bool :=
  match s.paKind pa with
  | some .lpddr | some .cxl => true
  | _ => false

/-- The pages that an image is to be loaded into hold module memory and are not open (R397). -/
def imageFits (s : State) (pa n : Nat) : Bool :=
  (List.range ((pa % 65536 + n + 65535) / 65536)).all fun i =>
    let page := (pa / 65536 + i) * 65536
    s.onModule page && s.onModule (page + 65535) && !s.pageOpen page

/-- CONTEXT_CREATE (R378, R388, R397): the firmware creates a context at the host driver's request, with a key of its own, and loads its image into
pages that are not open; at most one context is the system context. The request names where it is loaded (DESIGN CHOICE, log entry 88). -/
def execContextCreate (image : ContextImage) (s : State) : Out :=
  if s.boot = .running ∧ (s.context? image.ctx).isNone ∧ !(image.system && s.systemContext.isSome) then
    let s1 := { s.bump with contexts := Table.put image.ctx (newContext image s.fresh) s.contexts }
    if imageFits s1 image.loadAt image.image.length then .next (writeMemory State.onModule s1 image.loadAt image.image image.image.length) else .next s
  else .next s

/-- The tasks of a context end (R337, R385). -/
def endTasks (s : State) (ctx : CtxId) : State :=
  ((s.strands.filter fun e => decide (e.2.ctx = ctx)).map (·.1)).foldl endTask s

/-- What a core holds for a context is cleared: its files, queues and mailboxes where the context has the core, and everything that waits there
for it (R94, R239). -/
def releaseCore (ctx : CtxId) (x : Core) : Core :=
  let y := if x.ctx = some ctx then { Core.reset with gens := x.gens, work := x.work, deque := x.deque, copies := x.copies, copyReg := x.copyReg
                                                      wdqOpen := x.wdqOpen, lastSlot := x.lastSlot, issued := x.issued } else x
  { y with work := y.work.filter fun t => !decide (t.ctx = ctx), deque := y.deque.filter fun t => !decide (t.ctx = ctx), copies := y.copies.filter fun m => !decide (m.ctx = ctx)
           copyReg := y.copyReg.filter fun m => !decide (m.ctx = ctx) }

/-- A launch belongs to a context. -/
def launchIn (s : State) (ctx : CtxId) (id : Nat) : Bool := (s.launch? id).any fun l => decide (l.ctx = ctx)

/-- What a cluster holds for a context is dropped (R365, R380, R388). -/
def releaseCluster (s : State) (ctx : CtxId) (x : Cluster) : Cluster :=
  { x with
    tlb := x.tlb.filter fun e => !decide (e.ctx = ctx)
    icache := x.icache.filter fun e => !decide (e.ctx = ctx)
    handlers := x.handlers.filter fun t => !decide (t.source.ctx = ctx)
    brush := { x.brush with
      slots := x.brush.slots.map fun t => t.filter fun y => !decide (y.ctx = ctx)
      queue := x.brush.queue.filter fun m => !launchIn s ctx m.launch
      pending := x.brush.pending.filter fun r => !((x.brush.slots[r.slot.toFin]).any fun y => decide (y.ctx = ctx)) } }

/-- The number of a byte lies in a window of a slice that a context holds, here or on its home module (R287, R406). -/
def inWindow (s : State) (ctx : CtxId) (i : SliceId) (key : Nat) : Bool :=
  s.grants.any fun g => decide (g.1 = ctx) && decide (g.2.1 = i) &&
    decide ((sliceAddr i (65536 * g.2.2.toNat)).toNat ≤ key % 2 ^ 64) && decide (key % 2 ^ 64 < (sliceAddr i (65536 * g.2.2.toNat)).toNat + 65536)

/-- A copy of a context is in flight under a name. -/
def copyIn (s : State) (ctx : CtxId) (id : Nat) : Bool := s.cores.any fun e => e.2.copies.any fun m => m.id == id && decide (m.ctx = ctx)

/-- A place without what it keeps for the words of a context's windows and leases, and for its copies (R198, R206, R290). -/
def releasePlace (s : State) (ctx : CtxId) (p : Place) (x : PlaceState) : PlaceState :=
  match p with
  | .bank c =>
    { x with
      seq := x.seq.filter fun e => !s.leasedBy ctx c (e.key % 2 ^ 17) (if e.f64 then 8 else 4)
      arrivals := x.arrivals.filter fun a => !copyIn s ctx a.copy }
  | .slice i | .module _ i =>
    { x with
      station := x.station.filter fun w => !inWindow s ctx i w.key
      watch := x.watch.filter fun w => !inWindow s ctx i w.key
      seq := x.seq.filter fun e => !inWindow s ctx i e.key }
  | _ => x

/-- What a die holds for a context is dropped (R74, R302, R322, R380). -/
def releaseDie (s : State) (ctx : CtxId) (x : Die) : Die :=
  { x with
    qqueue := x.qqueue.filter fun m => !decide (m.ctx = ctx)
    rng := Table.remove ctx x.rng
    runs := x.runs.filter fun r => !launchIn s ctx r.launch
    queries := x.queries.filter fun q => !decide (q.ctx = ctx)
    answers := x.answers.filter fun a => !decide (a.1.ctx = ctx)
    tlb2 := x.tlb2.filter fun e => !decide (e.ctx = ctx) }

/-- The keys of a context are dropped (R337). -/
def releaseKeys (s : State) (ctx : CtxId) : State :=
  s.hist.foldl (fun s e => (e.2.keys.filter fun k => decide (k.ctx = ctx)).foldl (fun s k => dropKey s e.1 k) s) s

/-- A launch of a context that is gone has retired without its completion event, and its leases are released. -/
def releaseLaunch (ctx : CtxId) (l : Launch) : Launch := if l.ctx = ctx then { l with retired := true, granting := [], leases := [], freed := [] } else l

/-- Messages that engines still offer to a core that a context had go with it. -/
def releaseOffers (s : State) (ctx : CtxId) : List Offer :=
  s.offers.filter fun o => !(decide ((s.core o.core).ctx = some ctx) && o.path.isEmpty)

/-- CONTEXT_FINAL_RELEASE (R74, R94, R198, R239, R290, R302, R337, R365): everything the module holds for a context is cleared. No granule records it any
longer, so that a later context under its number finds none of its bytes. -/
def execContextFinalRelease (ctx : CtxId) (s : State) : Out :=
  if (s.context? ctx).isNone then .next s
  else
    let s1 := releaseKeys (endTasks (s.performPosted fun p => p.ctx == ctx) ctx) ctx
    .next { s1 with
      offers := releaseOffers s1 ctx
      cores := s1.cores.map fun (e : CoreId × Core) => (e.1, releaseCore ctx e.2)
      clusters := s1.clusters.map fun (e : ClusterId × Cluster) => (e.1, releaseCluster s1 ctx e.2)
      dies := s1.dies.map fun (e : BitVec 2 × Die) => (e.1, releaseDie s1 ctx e.2)
      launches := s1.launches.map fun (e : Nat × Launch) => (e.1, releaseLaunch ctx e.2)
      places := s1.places.map fun (e : Place × PlaceState) => (e.1, releasePlace s1 ctx e.1 e.2)
      grants := s1.grants.filter fun (g : CtxId × SliceId × BitVec 4) => !decide (g.1 = ctx)
      windows := s1.windows.filter fun (w : Window) => !decide (w.bind.ctx = ctx)
      jobs := Table.remove ctx s1.jobs
      eventWaits := s1.eventWaits.filter fun (e : EventWait) => !decide (e.ctx = ctx)
      owners := s1.owners.filter fun (o : Nat × CtxId) => !decide (o.2 = ctx)
      heirs := s1.heirs.filter fun (e : (CoreId × CtxId) × CoreId) => !decide (e.1.2 = ctx)
      contexts := Table.remove ctx s1.contexts }

/-- A granule of a slice passes to a context: unless that context held it last, it reads as zero and is full (R287). -/
def grantSliceGranule (ctx : CtxId) (i : SliceId) (s : State) (key : Nat) : State :=
  if s.owner key = some ctx then s
  else
    let s1 := ((List.range 8).map fun k => key + 8 * k).foldl (fun s k => (s.clearTag (.slice i) k).setFull k true) (s.dropSeq (.slice i) key)
    { s1 with mem := Memory.clear s1.mem key (key + 64), owners := Table.put (key / 64) ctx s1.owners }

/-- SLICE_WINDOW_GRANT (R287): system software grants a window of 64 KiB of a slice in service to a context; a window of another context stays
there. -/
def execSliceWindowGrant (ctx : CtxId) (i : SliceId) (window : BitVec 4) (s : State) : Out :=
  if !s.sliceIn i || (s.context? ctx).isNone || s.grants.any (fun g => decide (g.2.1 = i) && g.2.2 == window) then .next s
  else
    let base := (sliceAddr i (65536 * window.toNat)).toNat
    let s1 := ((List.range 1024).map fun k => base + 64 * k).foldl (grantSliceGranule ctx i) s
    .next { s1 with grants := s1.grants ++ [(ctx, i, window)] }

/-! ### The host endpoint (R309, R378, R383, R411) -/

/-- A byte of module memory that the host may reach: it lies in an open page, in a line that is not poisoned (R378, R389, R411; DEDUCED, log entry
69). -/
def hostReach (s : State) (pa : Nat) : Bool := s.pageOpen pa && s.onModule pa && !s.isPoisoned pa

/-- A byte as the host reads it: all ones where the page is not open (R378). -/
def hostByte (s : State) (pa : Nat) : Byte := if hostReach s pa then Memory.read s.mem pa else 0xFF

/-- A register of a context's notification page as the host reads it: `qtail` or `qstat` of a queue; a free value elsewhere (R309, R411). -/
def noticeWord (s : State) (ctx : CtxId) (off : BitVec 12) : Word :=
  let q : BitVec 4 := off.extractLsb' 3 4
  match (s.context? ctx).map fun x => Table.get CmdQueue.reset q x.queues with
  | none => Config.freeWord s.fresh
  | some x => if off.toNat < 0x80 then x.tail.setWidth 64 else if off.toNat < 0x100 then qstatWord x else Config.freeWord s.fresh

/-- HOST_BAR_ACCESS (R309, R378, R411): the host reads or writes module memory, a notification page, or the firmware's request mailbox, once the
firmware has opened the endpoint (R395). -/
def execHostBarAccess (access : BarAccess) (s : State) : Out :=
  match access with
  | .read pa n =>
    .next { s with reads := s.reads ++ [(List.range n).map fun i => if s.boot = .running then hostByte s (pa + i) else 0xFF] }
  | .write pa bytes => if s.boot = .running then .next (writeMemory hostReach s pa bytes bytes.length) else .next s
  | .notice ctx off =>
    if s.boot = .running then .next { s.bump with reads := s.reads ++ [leBytes 8 (noticeWord s ctx off).toNat] } else .next s
  | .qtail ctx q value => if s.boot = .running then .next (writeTail s ctx q value) else .next s
  | .mailbox request =>
    if s.boot = .running then .next { s.bump with reads := s.reads ++ [Config.mailboxReply s.fresh request] } else .next s

/-- HOST_DEBUG_REQUEST (R208, R383): the firmware performs a `sysr` or `sysw` of the host debug path on the named cluster, where the debug path
is enabled (R396); a number that it cannot reach, or a value outside a limit, changes nothing. -/
def execHostDebugRequest (r : DebugRequest) (s : State) : Out :=
  let c := coreOf r.cluster 0
  let ctx := s.systemContext.getD 0
  if s.boot = .running ∧ Config.debugEnabled then
    if r.write then .next ((writeSystem s c ctx r.number.toNat r.value).getD s)
    else
      match readSystem s c ctx r.number.toNat with
      | some v => .next { noteRead s ctx r.number.toNat with debugReads := s.debugReads ++ [v] }
      | none => .next s
  else .next s

/-! ### The sampling pulse (R399) -/

/-- The run state of a slot as a sampling record codes it (R399). -/
def runState : Status → Nat
  | .ready => 0
  | .parked _ => 1
  | .removed => 2
  | .frozen | .preempted | .packet _ => 3

/-- The place of a slot within its die. -/
def slotOrder (st : Strand) : Nat := (st.core.cluster.toNat * 8 + st.core.core.toNat) * 16 + st.slot.toNat

/-- A number inserted in a rising list. -/
def insertBy {α : Type} (f : α → Nat) (x : α) : List α → List α
  | [] => [x]
  | y :: t => if f x ≤ f y then x :: y :: t else y :: insertBy f x t

/-- One entry of a sampling record (R399). -/
def sampleEntry (st : Strand) : Word :=
  let core : BitVec 10 := st.core.cluster ++ st.core.core
  ((st.r.pc.setWidth 48 : BitVec 48) ++ BitVec.ofNat 2 (runState st.status) ++ st.slot ++ core : BitVec 64)

/-- The slots of a context on a die that hold a strand, in order of core and slot (R399). -/
def sampled (s : State) (d : BitVec 2) (ctx : CtxId) : List Strand :=
  ((s.strands.filter fun e => decide (e.2.core.die = d) && decide (e.2.ctx = ctx) && e.2.occupies && s.present e.2).map (·.2)).foldl
    (fun l x => insertBy slotOrder x l) []

/-- The record of a die for a context at a pulse (R399; DESIGN CHOICE, log entry 16). -/
def sampleRecord (s : State) (d : BitVec 2) (ctx : CtxId) : List Word :=
  let l := sampled s d ctx
  [BitVec.ofNat 64 (s.pulses + 1), BitVec.ofNat 64 s.pulseDue, BitVec.ofNat 64 (d.toNat + l.length * 65536), ctx.setWidth 64] ++ l.map sampleEntry

/-- A record appended to a context's ring, or dropped and counted where it does not fit (R399). -/
def appendSample (s : State) (d : BitVec 2) (e : CtxId × Context) : State :=
  if e.2.smpbuf = 0 then s
  else
    let own : CoreId := ⟨d, 0, 0⟩
    let base := e.2.smpbuf &&& ~~~(0xFFF#64)
    let size := ((e.2.smpbuf.setWidth 12 : BitVec 12).toNat + 1) * 4096
    let off := (s.deviceRead own e.1 base 8).getD (Config.freeWord s.fresh).toNat
    let ws := sampleRecord s d e.1
    if 64 + off + 8 * ws.length ≤ size then
      ((s.bump.deviceWriteWords own e.1 (base + 64 + BitVec.ofNat 64 off) ws)).deviceWrite own e.1 base 8 (off + 8 * ws.length)
    else
      let lost := (s.deviceRead own e.1 (base + 8) 8).getD (Config.freeWord (s.fresh + 1)).toNat
      s.bump.bump.deviceWrite own e.1 (base + 8) 8 (lost + 1)

/-- SAMPLING_PULSE (R399): at each multiple of 2^n cycles each die appends a record for each context with a ring. -/
def execSamplingPulse (s : State) : Out :=
  if s.smpctl.getLsbD 8 ∧ s.pulseDue ≤ s.cycle then
    let s1 := (s.diesIn).foldl (fun s d => s.contexts.foldl (fun s e => appendSample s d e) s) s
    .next { s1 with pulses := s.pulses + 1, pulseDue := s.pulseDue + 2 ^ (s.smpctl.setWidth 5 : BitVec 5).toNat }
  else .next s

end Sys2Proof.Machine
end

