-- ==== Sys2Proof/Machine/Direction.lean ====
section
/-! DEFINITION. Directional values (R239-R244): sums of integers times fractional powers of two, kept exactly; their
directions and norms, rounded from the exact real quantity (R241). -/

namespace Sys2Proof.Machine

/-! ### Sums of powers -/

/-- A sum of terms c · 2^(k / 2^23), as pairs of c and k. -/
abbrev PowSum := List (Int × Int)

/-- A term added to a sum; terms of one exponent stand together. -/
def PowSum.insert (c k : Int) : PowSum → PowSum
  | [] => [(c, k)]
  | (c', k') :: t => if k' = k then (c' + c, k') :: t else (c', k') :: PowSum.insert c k t

/-- The sum of two sums. -/
def PowSum.add (a b : PowSum) : PowSum := b.foldl (fun s t => PowSum.insert t.1 t.2 s) a

/-- A sum times an integer. -/
def PowSum.scale (n : Int) (a : PowSum) : PowSum := a.map fun t => (n * t.1, t.2)

/-- The square of a sum. -/
def PowSum.square (a : PowSum) : PowSum :=
  a.foldl (fun s t => a.foldl (fun s u => PowSum.insert (t.1 * u.1) (t.2 + u.2) s) s) []

/-- One whole power in units of 2^-23. -/
def pow23 : Int := 2 ^ 23

/-- The least whole exponent of a sum. -/
def PowSum.base (a : PowSum) : Int :=
  match a with
  | [] => 0
  | t :: l => l.foldl (fun m u => min m (u.2 / pow23)) (t.2 / pow23)

/-- The sum of the terms whose exponents have one fraction, at the scale of the base. -/
def PowSum.part (a : PowSum) (base frac : Int) : Int :=
  a.foldl (fun s t => if t.2 % pow23 = frac then s + t.1 * 2 ^ (t.2 / pow23 - base).toNat else s) 0

/-- The sum is zero: powers of two of different fractions are independent over the integers, so each part is. -/
def PowSum.isZero (a : PowSum) : Bool := a.all fun t => PowSum.part a (PowSum.base a) (t.2 % pow23) == 0

/-- Bounds at `w` fraction bits of the product over the set bits of a fraction of `n` bits of 2^(2^-i). -/
def rootLoop (w f : Nat) (lo hi clo chi : Nat) : Nat → Nat × Nat
  | 0 => (lo, hi)
  | i + 1 =>
    let clo' := isqrt (clo * 2 ^ w)
    let chi' := isqrt (chi * 2 ^ w) + 1
    if f.testBit i then rootLoop w f (lo * clo' / 2 ^ w) (hi * chi' / 2 ^ w + 1) clo' chi' i
    else rootLoop w f lo hi clo' chi' i

/-- Bounds at `w` fraction bits of 2^(frac / 2^23); exact where frac is zero. -/
def rootBounds (w : Nat) (frac : Int) : Nat × Nat := rootLoop w frac.toNat (2 ^ w) (2 ^ w) (2 ^ (w + 1)) (2 ^ (w + 1)) 23

/-- The bounds for every fraction of a sum. -/
def PowSum.table (w : Nat) (a : PowSum) : List (Int × Nat × Nat) := (a.map fun t => t.2 % pow23).eraseDups.map fun f => (f, rootBounds w f)

/-- Bounds of a sum at the scale of a base and `w` fraction bits. -/
def PowSum.bounds (tab : List (Int × Nat × Nat)) (base : Int) (a : PowSum) : Int × Int :=
  a.foldl (fun s t =>
    let r := ((tab.find? fun e => e.1 == t.2 % pow23).map (·.2)).getD (0, 0)
    let c := t.1 * 2 ^ (t.2 / pow23 - base).toNat
    if 0 ≤ c then (s.1 + c * r.1, s.2 + c * r.2) else (s.1 + c * r.2, s.2 + c * r.1)) (0, 0)

/-! ### Directions (R241) -/

/-- The bounds of a magnitude from the bounds of a value. -/
def magBounds (lo hi : Int) : Nat × Nat :=
  if 0 ≤ lo then (lo.toNat, hi.toNat) else if hi ≤ 0 then ((-hi).toNat, (-lo).toNat) else (0, max (-lo).toNat hi.toNat)

/-- floor(2 · |y| / m · 2^14) and whether it is exact, from bounds of |y| and of m² (R241). -/
def halfRatio (y m2 : PowSum) (yb : Nat × Nat) (mb : Nat × Nat) : Option (Nat × Bool) :=
  let lo := isqrt (2 ^ 30 * (yb.1 * yb.1) / mb.2)
  let hi := isqrt (2 ^ 30 * (yb.2 * yb.2) / mb.1)
  let exact := fun (k : Nat) => PowSum.isZero (PowSum.add (PowSum.scale (2 ^ 30) (PowSum.square y)) (PowSum.scale (-(k * k : Nat)) m2))
  if exact hi then some (hi, true) else if lo = hi then some (lo, false) else none

/-- RNE of half of k, k exact or with something above it. -/
def rneHalf (k : Nat) (exact : Bool) : Nat :=
  if k % 2 = 0 then k / 2 else if exact then (if k / 2 % 2 = 0 then k / 2 else k / 2 + 1) else k / 2 + 1

/-- One element rne(y / m · 2^14), and whether it was rounded. -/
def directionElem (tab : List (Int × Nat × Nat)) (base : Int) (m2 : PowSum) (mb : Nat × Nat) (y : PowSum) : Option (Int × Bool) :=
  let b := PowSum.bounds tab base y
  match halfRatio y m2 (magBounds b.1 b.2) mb with
  | some (k, exact) =>
    let e : Int := rneHalf k exact
    if e ≠ 0 ∧ b.1 < 0 ∧ 0 < b.2 then none else some (if b.1 < 0 then -e else e, !(exact && k % 2 == 0))
  | none => none

/-- A list of options as an option of a list. -/
def allSome {α : Type} : List (Option α) → Option (List α)
  | [] => some []
  | some x :: t => (allSome t).map (x :: ·)
  | none :: _ => none

/-- The direction of a nonzero vector with exact sums as elements, at one precision. -/
def directionAt (w : Nat) (ys : List PowSum) (m2 : PowSum) : Option (List (Int × Bool)) :=
  let tab := PowSum.table w (ys.foldl PowSum.add [])
  let base := (ys.filter fun y => !y.isEmpty).foldl (fun m y => min m (PowSum.base y)) (PowSum.base (ys.foldl PowSum.add []))
  let sq := (ys.map fun y => let b := PowSum.bounds tab base y; magBounds b.1 b.2)
  let mb := sq.foldl (fun s b => (s.1 + b.1 * b.1, s.2 + b.2 * b.2)) (0, 0)
  if mb.1 = 0 then none else allSome (ys.map (directionElem tab base m2 mb))

/-- The bits of the sum of the magnitudes of the terms of a sum, at the scale of its base. -/
def PowSum.bits (a : PowSum) : Nat := Nat.log2 (a.foldl (fun n t => n + t.1.natAbs * 2 ^ (t.2 / pow23 - PowSum.base a).toNat) 0) + 1

/-- The precisions that the directional operations try on terms of `bits` bits. The last one always decides: 2^(1/2^23) is an algebraic integer of degree
2^23, so a sum of `b` bits that is not zero is at least 2^(-2^23 · (b + 1)) at the scale of its base; every boundary of R241 compares such sums, scaled
down by at most one such factor (R241; DEDUCED, log entry 17). -/
def directionPrecisions (bits : Nat) : List Nat := [96, 256, 1024, 4096, 2 ^ 50 * (2 * bits + 64)]

/-- The first answer of a list of precisions. -/
def firstSome {α : Type} (g : Nat → Option α) : List Nat → Option α
  | [] => none
  | p :: t =>
    match g p with
    | some v => some v
    | none => firstSome g t

/-- The direction of a nonzero vector: its elements and whether any was rounded (R241; DEDUCED, log entry 17). -/
def direction (ys : List PowSum) (m2 : PowSum) : List Int × Bool :=
  match firstSome (fun w => directionAt w ys m2) (directionPrecisions (PowSum.bits ys.flatten)) with
  | some l => (l.map (·.1), l.any (·.2))
  | none => (ys.map fun _ => (Config.unresolved 241 % 16384 : Nat), true)

/-! ### Norms (R68, R241) -/

/-- The first `n` fraction bits of log2 of x / 2^w in [1, 2), without bounds. -/
def log2Guess (w x acc : Nat) : Nat → Nat
  | 0 => acc
  | n + 1 =>
    let a := x * x / 2 ^ w
    if 2 ^ (w + 1) ≤ a then log2Guess w (a / 2) (2 * acc + 1) n else log2Guess w a (2 * acc) n

/-- A positive number as its whole logarithm and its mantissa of `w` fraction bits. -/
def mantissa (w v : Nat) : Nat × Nat := (Nat.log2 v, v * 2 ^ w / 2 ^ Nat.log2 v)

/-- rne(2^22 · log2(m2 / den)) and whether it is exact, at one precision. -/
def normAt (m2 : PowSum) (den : Nat) (w : Nat) : Option (Int × Bool) :=
  let base := PowSum.base m2
  let b := PowSum.bounds (PowSum.table w m2) base m2
  let lo := b.1.toNat * 2 ^ w / den
  let hi := b.2.toNat * 2 ^ w / den + 1
  if lo = 0 then none else
  let whole : Int := base - 2 * w
  let (kl, xl) := mantissa w lo
  let (kh, xh) := mantissa w hi
  let guess : Int := ((whole + kh) * 2 ^ 23 + log2Guess w xh 0 23 + 1) / 2
  if PowSum.isZero (PowSum.insert (-(den : Int)) (2 * guess) m2) then some (guess, true)
  else if kl ≠ kh then none
  else
    match log2Loop w xl (xh + 1) 0 23 with
    | some f => some (((whole + kl) * 2 ^ 23 + f + 1) / 2, false)
    | none => none

/-- The norm x = rne(log2(m) · 2^23) for m² = m2 / den, and whether it is exact (R241; DEDUCED, log entry 17). -/
def normOf (m2 : PowSum) (den : Nat) : Int × Bool :=
  (firstSome (normAt m2 den) (directionPrecisions (PowSum.bits m2 + Nat.log2 den))).getD ((Config.unresolved 68 : Nat), false)

/-! ### Registers -/

/-- A directional register: its elements and its norm code (R239). -/
abbrev DReg := Vector (BitVec 16) 128 × BitVec 32

/-- The codes of R68. -/
def dZeroCode : BitVec 32 := 0x80000000#32
def dNanCode : BitVec 32 := 0x7FFFFFFF#32
def dInfCode : BitVec 32 := 0x7FFFFFFE#32

/-- The zero vector (R240). -/
def DReg.zero : DReg := (Vector.replicate 128 0, dZeroCode)

/-- An invalid register as the device writes it (R240, R244). -/
def DReg.invalid : DReg := (Vector.replicate 128 0, dNanCode)

/-- The classes of R240. -/
inductive DClass where
  | finite | zero | infinite | invalid
deriving DecidableEq, Repr

/-- All elements are zero. -/
def DReg.flat (r : DReg) : Bool := r.1.toList.all fun e => e == 0

/-- The class of a register (R240). -/
def DReg.cls (r : DReg) : DClass :=
  if r.2 = dNanCode then .invalid
  else if r.2 = dZeroCode || DReg.flat r then .zero
  else if r.2 = dInfCode then .infinite
  else .finite

/-- The elements of a register as integers (R67). -/
def DReg.elems (r : DReg) : List Int := r.1.toList.map BitVec.toInt

/-- A register from integer elements and a code. -/
def DReg.make (es : List Int) (x : Int) : DReg := (Vector.ofFn fun i => BitVec.ofInt 16 (es.getD i.val 0), BitVec.ofInt 32 x)

/-- The exponent of a register's elements in units of 2^-23: value_i = e_i · 2^(x/2^23 - 14) (R240). -/
def DReg.expo (r : DReg) : Int := r.2.toInt - 14 * pow23

/-- What an operation on directional registers gives: the register, the flags, and zerodir (R241, R244). -/
structure DRes where
  reg : DReg
  fl : Flags
  zd : Bool

/-- The end of renormalisation: the code within its limits (R241). -/
def settleNorm (es : List Int) (rounded : Bool) (x : Int × Bool) : DRes :=
  let inexact := rounded || !x.2
  if x.1 > 0x7FFFFFFD then ⟨DReg.make es 0x7FFFFFFE, { overflow := true, inexact := inexact }, false⟩
  else if x.1 < -0x7FFFFFFF then ⟨DReg.zero, { inexact := true }, false⟩
  else ⟨DReg.make es x.1, { inexact := inexact }, false⟩

/-- A sum without its zero terms. -/
def PowSum.trim (y : PowSum) : PowSum := if PowSum.isZero y then [] else y.filter fun t => t.1 != 0

/-- Renormalisation of an exact vector (R241); `m2` and `den` give the square of the norm where it is not the sum of the
squares (R254). -/
def renorm (ys : List PowSum) (norm : Option (PowSum × Nat) := none) : DRes :=
  let ys := ys.map PowSum.trim
  if ys.all List.isEmpty then ⟨DReg.zero, {}, true⟩
  else
    let m2 := ys.foldl (fun s y => PowSum.add s (PowSum.square y)) []
    let d := direction ys m2
    let (n, den) := norm.getD (m2, 1)
    settleNorm d.1 d.2 (normOf n den)

/-- The direction of an infinite result (R244): the norm step is skipped (DEDUCED, log entry 45). -/
def infiniteResult (es : List (List (Int × Int))) : DRes :=
  let ys := es.map PowSum.trim
  let d := direction ys (ys.foldl (fun s y => PowSum.add s (PowSum.square y)) [])
  ⟨DReg.make d.1 0x7FFFFFFE, { inexact := d.2 }, false⟩

/-- A coefficient k · 2^e with its register (R244). -/
structure DTerm where
  k : Int
  e : Int
  r : DReg

/-- The elements of Σ k_j · e_j · 2^(expo), one sum for each of the 128 positions. -/
def sumElems (ts : List DTerm) (expo : DTerm → Int) : List PowSum :=
  let cols := ts.map fun t => (DReg.elems t.r, t.k, expo t)
  (List.range 128).map fun i => cols.foldl (fun s c => PowSum.insert (c.2.1 * c.1.getD i 0) c.2.2 s) []

/-- The combination Σ k_j × value_j with its special operands (R244). -/
def combine (ts : List DTerm) : DRes :=
  if ts.any fun t => DReg.cls t.r == .invalid then ⟨DReg.invalid, {}, false⟩
  else
    let zd := ts.any fun t => DReg.cls t.r == .zero
    let infs := ts.filter fun t => DReg.cls t.r == .infinite
    if infs.isEmpty then
      let fins := ts.filter fun t => DReg.cls t.r == .finite
      let r := renorm (sumElems fins fun t => t.e * pow23 + DReg.expo t.r)
      { r with zd := r.zd || zd }
    else
      let u := sumElems infs fun t => t.e * pow23
      if infs.any (fun t => t.k == 0) || u.all PowSum.isZero then ⟨DReg.invalid, { invalid := true }, zd⟩
      else { infiniteResult u with zd := zd }

/-- D := Σ eB_i × eC_i (R251). -/
def dotElems (b c : DReg) : Int := ((DReg.elems b).zip (DReg.elems c)).foldl (fun s p => s + p.1 * p.2) 0

/-- Bits of bounds beyond a precision: few at first, and at the last precision more than any power of two of that degree can come near a boundary (R248;
DEDUCED, log entry 17). -/
def guardBits (c p : Nat) : Nat := if p < 400 then 96 else 2 ^ 24 * (p + Nat.log2 c + 64)

/-- floor(|c| · 2^(frac / 2^23)) at `p` fraction bits, if the bounds agree on it. -/
def powFloor (c : Nat) (frac : Int) (p : Nat) : Option Nat :=
  let g := guardBits c p
  let b := rootBounds (p + g) frac
  if c * b.1 / 2 ^ g = c * b.2 / 2 ^ g then some (c * b.1 / 2 ^ g) else none

/-- round(c · 2^(k / 2^23)) of a nonzero integer c (R248, R252). -/
def FFmt.roundPow (f : FFmt) (rm : Rm) (c k : Int) : FRes :=
  if k % pow23 = 0 then f.ofVal rm 0 (.fin (decide (c < 0)) c.natAbs (k / pow23))
  else
    match firstCertain (powFloor c.natAbs (k % pow23)) (precisions ++ [400]) with
    | some (p, m) => f.roundMag rm (decide (c < 0)) m (k / pow23 - p) true
    | none => (f.withSign (decide (c < 0)) (Config.unresolved 248 % 2 ^ f.signPos), { inexact := true })

end Sys2Proof.Machine
end

