-- ==== Sys2Proof/Machine/Pool.lean ====
section
/-! DEFINITION. The lane pool: claims (R201), dispatch (R202), what each vector and directional command does at its pool
commit (R214-R234, R245-R257), and exceptions in flight (R235, R236, R258). -/

namespace Sys2Proof.Machine

/-! ### Results of a command -/

/-- The result of a command at the pool: the state with its results, and the bits it ORs into sflags. -/
abbrev PoolRes := Except PoolExc (State × BitVec 6)

/-- A v register written and set full (R215). -/
def setVReg (s : State) (c : CoreId) (a : BitVec 4) (v : VReg) : State :=
  s.modVec c fun f => { f with v := Table.put a v f.v, vfull := f.vfull ||| BitVec.twoPow 16 a.toNat }

/-- A d register with its norm entry written and set full (R239, R245). -/
def setDReg (s : State) (c : CoreId) (a : BitVec 3) (r : DReg) : State :=
  s.modVec c fun f => { f with d := Table.put a r f.d, dfull := f.dfull ||| BitVec.twoPow 8 a.toNat }

/-- A d register of a core (R239). -/
def VectorFile.dreg (f : VectorFile) (r : BitVec 3) : DReg := Table.get DReg.zero r f.d

/-- A general register of the issuing strand written and set full (R85, R215). -/
def setGReg (s : State) (h : Handle) (a : Fin 24) (v : Word) : State := s.modStrand h fun st => st.setG a v

/-! ### Page 2 -/

/-- The type, the destination and the sources, in the order B, C, A, of an element-wise instruction (R224-R228). -/
def elementShape : Instr → Option (EType × BitVec 4 × List (BitVec 4))
  | .vadd _ t _ a b c | .vsub _ t _ a b c | .vmul _ t _ a b c | .vdiv _ t _ a b c | .vmin _ t a b c | .vmax _ t a b c
  | .vand _ t a b c | .vor _ t a b c | .vxor _ t a b c | .vshl _ t a b c | .vshr _ t a b c | .vcmp _ t _ a b c => some (t, a, [b, c])
  | .vfma _ t _ a b c | .vsel _ t a b c => some (t, a, [b, c, a])
  | .vabs _ t a b | .vneg _ t a b | .vrcp _ t _ a b | .vsqrt _ t _ a b => some (t, a, [b])
  | .vexp2 _ _ a b | .vlog2 _ _ a b | .vrsq _ _ a b => some (.f32, a, [b])
  | _ => none

/-- `vsel` selects without reading its sources as numbers (R228). -/
def checksSources : Instr → Bool
  | .vsel .. => false
  | _ => true

/-- An element-wise command (R224-R228). -/
def runElements (s : State) (m : VCmd) (st : Strand) (t : EType) (a : BitVec 4) (srcs : List (BitVec 4)) : PoolRes :=
  let f := (s.core st.core).vec
  let n := active (isWide t) f.vn
  match poolSources (if checksSources m.op then trappingFmt t else none) m.daz (gatherCodes t n (srcs.map f.reg)) with
  | .error e => .error e
  | .ok xs =>
    let r := mapFlags (vElement m.xr m.op) xs
    .ok (setVReg s st.core a (VReg.fillFrom (f.reg a) (isWide t) 0 r.1), r.2.bits)

/-- A command that reads memory into a v register (R221, R223). -/
def runLoad (s : State) (m : VCmd) (st : Strand) (t : EType) (a : BitVec 4) (addrs : List Word) : PoolRes :=
  match poolReads s m st (memWidth t) false addrs with
  | .error e => .error e
  | .ok (s1, ls) =>
    let got := m.got ++ ls.map fun e => (e.1, s1.readN e.2.key (memWidth t))
    let s2 := s1.modStrand m.h fun x => x.orTmask (locMask st.core (ls.map (·.2)))
    if got.length < addrs.length then .error (.partway (noteAccesses s2 st.core m got))
    else
      let vals := (List.range addrs.length).map fun i => heldCode t (Table.get 0 i got)
      .ok (setVReg s2 st.core a (VReg.fillFrom ((s.core st.core).vec.reg a) (isWide t) 0 vals), 0)

/-- The element writes of a command, from its values by position: those that the turn picks are performed, and the command owes the rest (R222, R223, R250). -/
def runStores (s : State) (m : VCmd) (st : Strand) (n : Nat) (inOrder : Bool) (addrs : List Word) (vals : List Nat) : PoolRes :=
  match (if m.owed.isEmpty then planWrites s m st n addrs vals else .ok (s, m.owed)) with
  | .error e => .error e
  | .ok (s1, owed) =>
    let now := pickWrites inOrder owed s.picks
    let left := owed.filter fun e => !now.contains e
    let s2 := performWrites s1 m.h st.ctx now
    if left.isEmpty then .ok (s2, 0) else if now.isEmpty then .error (.partway s1) else .error (.partway (noteOwed s2 st.core m left))

/-- A command that writes the active positions of a v register to memory (R221-R223). -/
def runStore (s : State) (m : VCmd) (st : Strand) (t : EType) (a : BitVec 4) (addrs : List Word) : PoolRes :=
  let vals := (VReg.codes ((s.core st.core).vec.reg a) t addrs.length).map fun x => x % 2 ^ (8 * memWidth t)
  runStores s m st (memWidth t) false addrs vals

/-- `vperm`: every index is read before the commit (R229). -/
def permuted (t : EType) (n : Nat) (b c : VReg) : List Nat :=
  (List.range n).map fun i => VReg.pos b (isWide t) (VReg.pos c (isWide t) i % positions (isWide t))

/-- The conversion of the positions of a register (R230-R232); a microscaling value beyond binary32 overflows as R76 says of every source (DEDUCED, log entry
38). -/
def runConvert (s : State) (m : VCmd) (st : Strand) (dst src : EType) (hi : Bool) (rm : Rm) (a b : BitVec 4) : PoolRes :=
  let f := (s.core st.core).vec
  let both := isWide dst == isWide src
  let n := if both then active (isWide dst) f.vn else active true f.vn
  let soff := if !both && !isWide src && hi then 128 else 0
  let doff := if !both && !isWide dst && hi then 128 else 0
  let raw := (List.range n).map fun i => VReg.pos (f.reg b) (isWide src) (i + soff)
  match poolSources (trappingFmt src) m.daz (raw.map fun x => [if isMx src then x else codeHeld src x]) with
  | .error e => .error e
  | .ok xs =>
    let vals := ((List.range n).zip xs).map fun p =>
      (heldValue m.xr src (p.2.headD 0), draw (m.args.getD 0 0) (BitVec.ofNat 32 (p.1 + doff)) (m.args.getD 1 0))
    let r := convertAll m.xr dst rm vals
    .ok (setVReg s st.core a (VReg.fillFrom (f.reg a) (isWide dst) doff r.1), r.2.bits)

/-- The codes of the active positions of registers under R56, for a reduction (R225). -/
def reduceSources (s : State) (m : VCmd) (st : Strand) (t : EType) (srcs : List (BitVec 4)) : Except PoolExc (List (List Nat)) :=
  let f := (s.core st.core).vec
  poolSources (trappingFmt t) m.daz (gatherCodes t (active (isWide t) f.vn) (srcs.map f.reg))

/-- A reduction result in a general register (R119, R233). -/
def reducedWord (t : EType) (x : Nat) : Word :=
  match etypeInt t with
  | some (signed, n) => BitVec.ofInt 64 (intOfBits signed n x)
  | none => BitVec.ofNat 64 x

/-- `vred` (R77, R233). -/
def runReduce (s : State) (m : VCmd) (st : Strand) (t : EType) (op : RedOp) (a : Fin 24) (b : BitVec 4) : PoolRes :=
  match reduceSources s m st t [b] with
  | .error e => .error e
  | .ok xs =>
    let r := reduce m.xr t op (xs.map (·.headD 0))
    .ok (setGReg s m.h a (reducedWord t r.1), r.2.bits)

/-- `vdot` (R78, R233). -/
def runDot (s : State) (m : VCmd) (st : Strand) (t : EType) (a : Fin 24) (b c : BitVec 4) : PoolRes :=
  match reduceSources s m st t [b, c] with
  | .error e => .error e
  | .ok xs =>
    let r := dotTree m.xr t ((etypeFmt m.xr t).getD .f32) xs
    .ok (setGReg s m.h a (reducedWord t r.1), r.2.bits)

/-- `vscan` (R79, R233): positions at or above the active count receive the identity. -/
def runScan (s : State) (m : VCmd) (st : Strand) (t : EType) (op : RedOp) (a b : BitVec 4) : PoolRes :=
  match reduceSources s m st t [b] with
  | .error e => .error e
  | .ok xs =>
    let r := scan m.xr t op (xs.map (·.headD 0))
    let all := r.1 ++ List.replicate (positions (isWide t) - r.1.length) (redIdentity m.xr t op)
    .ok (setVReg s st.core a (VReg.fillFrom ((s.core st.core).vec.reg a) (isWide t) 0 all), r.2.bits)

/-! ### Page 3 -/

/-- A directional result written, with its flags and zerodir (R241). -/
def putDirection (s : State) (c : CoreId) (a : BitVec 3) (r : DRes) : PoolRes :=
  .ok (setDReg s c a r.reg, r.fl.bits ||| if r.zd then zerodirBit else 0)

/-- The finite value as a sum with one term, empty where it is zero. -/
def termOf : FVal → PowSum
  | .fin n m e => if m = 0 then [] else [(if n then -(m : Int) else m, e * pow23)]
  | _ => []

/-- `dfrom` (R247). -/
def fromValues (vs : List FVal) : DRes :=
  if vs.any FVal.isNan then ⟨DReg.invalid, { invalid := true }, false⟩
  else if vs.any FVal.special then
    let r := infiniteResult (vs.map fun v => match v with
      | .inf n => [(if n then -1 else 1, 0)]
      | _ => [])
    { r with fl := {} }
  else renorm (vs.map termOf)

/-- One value of `dto` (R248). -/
def toValue (F : FFmt) (rm : Rm) (k : DClass) (expo e : Int) : FRes :=
  match k with
  | .invalid => (F.nanCode, {})
  | .zero => (0, {})
  | .infinite => if e = 0 then (0, {}) else F.ofVal rm 0 (.inf (decide (e < 0)))
  | .finite => if e = 0 then (0, {}) else F.roundPow rm e expo

/-- The image of a register as 33 words (R249). -/
def imageWords (r : DReg) : List Word :=
  let e := r.1
  ((List.range 32).map fun i => e.toList.getD (4 * i + 3) 0 ++ e.toList.getD (4 * i + 2) 0 ++ e.toList.getD (4 * i + 1) 0 ++ e.toList.getD (4 * i) 0)
    ++ [r.2.setWidth 64]

/-- The register of an image (R249). -/
def imageReg (ws : List Word) : DReg :=
  (Vector.ofFn fun i => (ws.getD (i.val / 4) 0).extractLsb' (16 * (i.val % 4)) 16, (ws.getD 32 0).setWidth 32)

/-- A raw image as `dld` loads it (R250). -/
def loadedReg (r : DReg) : DReg := if r.2 = dZeroCode || r.2 = dNanCode then (Vector.replicate 128 0, r.2) else r

/-- The addresses of the 33 accesses (R250). -/
def imageAddrs (ea : Word) : List Word := (List.range 33).map fun i => ea + BitVec.ofNat 64 (8 * i)

/-- `dcos` (R251). -/
def cosine (b c : DReg) : Nat × Flags × Bool :=
  let kb := DReg.cls b
  let kc := DReg.cls c
  if kb = .invalid || kc = .invalid then (FFmt.f32.nanCode, {}, false)
  else if kb = .zero || kc = .zero then (0, {}, true)
  else
    let d := dotElems b c
    let r := FFmt.f32.ofVal .rne 0 (.fin (decide (d < 0)) d.natAbs (-28))
    let mag := r.1 % 2 ^ 31
    (FFmt.f32.withSign (decide (d < 0)) (min mag 0x3F800000), { inexact := r.2.inexact }, false)

/-- `ddot` (R252). -/
def dotValue (F : FFmt) (b c : DReg) : Nat × Flags × Bool :=
  let kb := DReg.cls b
  let kc := DReg.cls c
  let d := dotElems b c
  if kb = .invalid || kc = .invalid then (F.nanCode, {}, false)
  else if (kb = .zero && kc = .infinite) || (kb = .infinite && kc = .zero) then (F.nanCode, { invalid := true }, true)
  else if kb = .zero || kc = .zero then (0, {}, true)
  else if d = 0 then (0, {}, false)
  else if kb = .infinite || kc = .infinite then ((F.ofVal .rne 0 (.inf (decide (d < 0)))).1, {}, false)
  else
    let r := F.roundPow .rne d (b.2.toInt + c.2.toInt - 28 * pow23)
    (r.1, r.2, false)

/-- `dproj` (R254). -/
def project (b c : DReg) : DRes :=
  let kb := DReg.cls b
  let kc := DReg.cls c
  let d := dotElems b c
  let ec := DReg.elems c
  if kb = .invalid || kc = .invalid then ⟨DReg.invalid, {}, false⟩
  else if (kb = .zero || kc = .zero || d = 0) && kb != .infinite then ⟨DReg.zero, {}, true⟩
  else if kb = .infinite && (d = 0 || kc = .zero) then ⟨DReg.invalid, { invalid := true }, false⟩
  else if kb = .infinite then infiniteResult (ec.map fun e => [(if d < 0 then -e else e, 0)])
  else renorm (ec.map fun e => [(d * e, 0)]) (some ([(d * d, 2 * DReg.expo b)], (ec.foldl (fun s e => s + e * e) 0).toNat))

/-- `dlerp` (R253): w is a binary32 code. -/
def lerp (a b : DReg) (w : Nat) : DRes :=
  if DReg.cls a = .invalid || DReg.cls b = .invalid then ⟨DReg.invalid, {}, false⟩
  else
    match FFmt.f32.value w with
    | .fin n m e =>
      let k : Int := if n then -(m : Int) else m
      let one : Int × Int := if 0 ≤ e then (1 - k * 2 ^ e.toNat, 0) else (2 ^ (-e).toNat - k, e)
      combine [⟨one.1, one.2, a⟩, ⟨k, e, b⟩]
    | _ => ⟨DReg.invalid, { invalid := true }, DReg.cls a == .zero || DReg.cls b == .zero⟩

/-- `dscl` (R255). -/
def scaleReg (a : DReg) (b : Word) : DRes :=
  match DReg.cls a with
  | .finite =>
    let t := a.2.toInt + b.toInt
    if t > 0x7FFFFFFD then ⟨(a.1, dInfCode), { overflow := true }, false⟩
    else if t < -0x7FFFFFFF then ⟨DReg.zero, { inexact := true }, false⟩
    else ⟨(a.1, BitVec.ofInt 32 t), {}, false⟩
  | .zero => ⟨a, {}, true⟩
  | _ => ⟨a, {}, false⟩

/-- `dsetn` (R255). -/
def setNorm (a : DReg) (b : Word) : DRes :=
  let x : BitVec 32 := b.setWidth 32
  if x = dZeroCode || x = dNanCode then ⟨(Vector.replicate 128 0, x), {}, false⟩
  else if DReg.flat a then ⟨DReg.zero, {}, true⟩
  else ⟨(a.1, x), {}, false⟩

/-- `dneg` (R255). -/
def negReg (b : DReg) : DRes :=
  ⟨(b.1.map fun e => if e = 0x8000#16 then 0x7FFF#16 else -e, b.2), { inexact := b.1.toList.any fun e => e == 0x8000#16 }, false⟩

/-- `dtest` (R256). -/
def testWord (b : DReg) : Word :=
  let k := match DReg.cls b with
    | .finite => 0
    | .zero => 1
    | .infinite => 2
    | .invalid => 3
  b.2.setWidth 64 + BitVec.ofNat 64 (k * 2 ^ 32 + (b.1.toList.filter fun e => e != 0).length * 2 ^ 40)

/-- A general-register result of a directional command. -/
def putScalar (s : State) (h : Handle) (a : Fin 24) (r : Nat × Flags × Bool) : PoolRes :=
  .ok (setGReg s h a (BitVec.ofNat 64 r.1), r.2.1.bits ||| if r.2.2 then zerodirBit else 0)

/-- A read of an image (R250). -/
def runImage (s : State) (m : VCmd) (st : Strand) (ea : Word) (k : DReg → DRes) (a : BitVec 3) : PoolRes :=
  match poolReads s m st 8 true (imageAddrs ea) with
  | .error e => .error e
  | .ok (s1, ls) =>
    let got := m.got ++ ls.map fun e => (e.1, s1.readN e.2.key 8)
    let s2 := s1.modStrand m.h fun x => x.orTmask (locMask st.core (ls.map (·.2)))
    if got.length < 33 then .error (.partway (noteAccesses s2 st.core m got))
    else putDirection s2 st.core a (k (imageReg ((List.range 33).map fun i => BitVec.ofNat 64 (Table.get 0 i got))))

/-- A write of an image (R250). -/
def runImageStore (s : State) (m : VCmd) (st : Strand) (ea : Word) (r : DReg) : PoolRes :=
  runStores s m st 8 true (imageAddrs ea) ((imageWords r).map BitVec.toNat)

/-- What a page-3 command does at its pool commit (R247-R256). -/
def runDirectional (s : State) (m : VCmd) (st : Strand) : PoolRes :=
  let f := (s.core st.core).vec
  let c := st.core
  let ea := m.args.headD 0
  match m.op with
  | .dfrom _ f64 hi a b =>
    let v := f.reg b
    let F := if f64 then FFmt.f64 else FFmt.f32
    putDirection s c a (fromValues ((List.range 128).map fun i => F.value (VReg.pos v f64 (i + if hi then 128 else 0))))
  | .dto _ f64 hi rm a b =>
    let r := f.dreg b
    let vals := mapFlags (toValue (if f64 then FFmt.f64 else FFmt.f32) rm (DReg.cls r) (DReg.expo r)) (DReg.elems r)
    .ok (setVReg s c a (VReg.fillFrom (f.reg a) f64 (if hi then 128 else 0) vals.1), vals.2.bits)
  | .dld _ a _ => runImage s m st ea (fun r => ⟨loadedReg r, {}, false⟩) a
  | .dldRn _ a _ => runImage s m st ea (fun r => combine [⟨1, 0, r⟩]) a
  | .dst _ a _ => runImageStore s m st ea (f.dreg a)
  | .dcos _ a b x => putScalar s m.h a (cosine (f.dreg b) (f.dreg x))
  | .ddot _ f64 a b x => putScalar s m.h a (dotValue (if f64 then .f64 else .f32) (f.dreg b) (f.dreg x))
  | .dscl _ a _ => putDirection s c a (scaleReg (f.dreg a) ea)
  | .dadd _ a b x => putDirection s c a (combine [⟨1, 0, f.dreg b⟩, ⟨1, 0, f.dreg x⟩])
  | .dlerp _ a b _ => putDirection s c a (lerp (f.dreg a) (f.dreg b) (ea.toNat % 2 ^ 32))
  | .dneg _ a b => putDirection s c a (negReg (f.dreg b))
  | .dproj _ a b x => putDirection s c a (project (f.dreg b) (f.dreg x))
  | .dnorm _ a b => putDirection s c a (combine [⟨1, 0, f.dreg b⟩])
  | .dsetn _ a _ => putDirection s c a (setNorm (f.dreg a) ea)
  | .dmov _ a b => putDirection s c a ⟨f.dreg b, {}, false⟩
  | .dtest _ a b => .ok (setGReg s m.h a (testWord (f.dreg b)), 0)
  | _ => .ok (s, 0)

/-- What a page-2 command does at its pool commit besides the element-wise ones (R219-R233). -/
def runVector (s : State) (m : VCmd) (st : Strand) : PoolRes :=
  let f := (s.core st.core).vec
  let c := st.core
  let x := m.args.headD 0
  match m.op with
  | .vrenSetn _ _ =>
    let n := (x.extractLsb' 0 9).toNat
    if 1 ≤ n ∧ n ≤ 256 then .ok (s.modVec c fun f => { f with vn := n }, 0) else .error (.trap 0 0)
  | .vrenStat _ a => .ok (setGReg s m.h a (BitVec.ofNat 64 (f.vn + st.vl * 65536)), 0)
  | .vld _ t a _ => runLoad s m st t a (linearAddrs x (memWidth t) (active (isWide t) f.vn))
  | .vst _ t a _ => runStore s m st t a (linearAddrs x (memWidth t) (active (isWide t) f.vn))
  | .vgth _ t a _ i => runLoad s m st t a (indexedAddrs x (f.reg i) (isWide t) (active (isWide t) f.vn))
  | .vsct _ t a _ i => runStore s m st t a (indexedAddrs x (f.reg i) (isWide t) (active (isWide t) f.vn))
  | .vperm _ t a b i =>
    .ok (setVReg s c a (VReg.fillFrom (f.reg a) (isWide t) 0 (permuted t (active (isWide t) f.vn) (f.reg b) (f.reg i))), 0)
  | .vbcst _ t a _ =>
    .ok (setVReg s c a (VReg.fillFrom (f.reg a) (isWide t) 0 (List.replicate (active (isWide t) f.vn) (x.toNat % 2 ^ etypeBits t))), 0)
  | .viota _ t a => .ok (setVReg s c a (VReg.fillFrom (f.reg a) (isWide t) 0 (List.range (active (isWide t) f.vn))), 0)
  | .vcvt _ dst src hi rm a b => runConvert s m st dst src hi rm a b
  | .vredAdd _ t a b => runReduce s m st t .add a b
  | .vredMin _ t a b => runReduce s m st t .min a b
  | .vredMax _ t a b => runReduce s m st t .max a b
  | .vdot _ t a b i => runDot s m st t a b i
  | .vscanAdd _ t a b => runScan s m st t .add a b
  | .vscanMin _ t a b => runScan s m st t .min a b
  | .vscanMax _ t a b => runScan s m st t .max a b
  | _ => runDirectional s m st

/-- What a command does at its pool commit. -/
def runCommand (s : State) (m : VCmd) (st : Strand) : PoolRes :=
  match elementShape m.op with
  | some (t, a, srcs) => runElements s m st t a srcs
  | none => runVector s m st

/-! ### The pool's events -/

/-- The largest number of groups among 8, 4, 2, 1 and 0 that a count allows (R200). -/
def grantBelow (n : Nat) : Nat := if 8 ≤ n then 8 else if 4 ≤ n then 4 else if 2 ≤ n then 2 else n

/-- The groups that grants of a cluster hold (R200). -/
def groupsHeld (s : State) (c : ClusterId) : Nat :=
  s.strands.foldl (fun n e => if clusterOf e.2.core = c then n + e.2.vl / 32 else n) 0

/-- A claim at the pool is answered (R201, R218). -/
def answerClaim (s : State) (c : ClusterId) (m : Claim) (groups : Nat) : State :=
  let s1 := s.modCluster c fun x => { x with claims := x.claims.erase m }
  let s2 := s1.modStrand m.h fun st =>
    { st with vl := 32 * groups, claim := if groups = 0 then none else some (m.lo, m.hi)
              status := if m.back ∧ st.status = .parked .claim then .ready else st.status }
  if m.back then s2 else s2.answer m.h (BitVec.ofNat 64 (32 * groups))

/-- The groups in service can never meet a claim (R201). -/
def hopeless (s : State) (c : ClusterId) (m : Claim) : Bool := decide (claimGroups m.lo > grantBelow (s.groupsIn c))

/-- CLAIM_GRANT (R201): a claim that the groups in service can never meet is answered with 0, wherever it stands; else the head claim takes the largest grant
within its preferred count that free groups allow, or waits while that is below its minimum. -/
def execClaimGrant (c : ClusterId) (s : State) : Out :=
  match (s.cluster c).claims.find? (hopeless s c), (s.cluster c).claims with
  | some m, _ => .next (answerClaim s c m 0)
  | none, [] => .next s
  | none, m :: _ =>
      let n := grantBelow (min (claimGroups m.hi) (s.groupsIn c - groupsHeld s c))
      if n < claimGroups m.lo then .next s else .next (answerClaim s c m n)

/-- The head of a core's trap queue goes before the head of the other queue: that queue is held or empty, or was held when a command entered the trap
queue, or its head has entered later (R215, R236). -/
def VectorFile.trapFirst (f : VectorFile) (m : VCmd) : Bool := f.isHeld || f.trapQueue.any (·.ahead) || f.queue.head?.all fun x => decide (m.id < x.id)

/-- The command that the dispatcher would take from a core: from the trap queue while the other is held, else in the order of their entry. The pool takes a further
command of a core when the one before it has left, and a handler's while one waits there with the queue held, unless an exception of the handler itself is in
flight (R202, R215, R235, R236; DEDUCED, log entry 32). -/
def VectorFile.dispatchable (f : VectorFile) : Option VCmd :=
  match f.trapQueue.head?.filter f.trapFirst with
  | some m => if f.undelivered m.h then none else if (if f.isHeld then f.running.any (·.trap) else !f.running.isEmpty) then none else some m
  | none => if !f.isHeld && f.running.isEmpty then f.queue.head? else none

/-- The core that the dispatcher takes from next, round-robin (R202). -/
def dispatchTurn (s : State) (c : ClusterId) : Option CoreId :=
  ((List.range 8).map fun k => coreOf c (BitVec.ofNat 3 ((s.cluster c).nextVec + k))).find? fun k =>
    ((s.core k).vec.dispatchable).isSome

/-- VECTOR_DISPATCH (R202): one command leaves the head of a core's queue for the pool, which takes none while its cluster is halted, or the core's
context is to be saved or is leaving (R159, R209, R210). -/
def execVectorDispatch (c : CoreId) (s : State) : Out :=
  match (s.core c).vec.dispatchable with
  | some m =>
    if dispatchTurn s (clusterOf c) = some c ∧ !(s.cluster (clusterOf c)).dbg.halted ∧ !(s.core c).regrant ∧ !(s.core c).leaving then
      let s1 := s.modVec c fun f => if m.trap then { f with trapQueue := f.trapQueue.drop 1, running := f.running ++ [m] }
        else { f with queue := f.queue.drop 1, running := f.running ++ [m] }
      .next (s1.modCluster (clusterOf c) fun x => { x with nextVec := (c.core.toNat + 1) % 8 })
    else .next s
  | none => .next s

/-- Some element accesses of a command have been performed, and others have not (R223). -/
def VCmd.begun (m : VCmd) : Bool := !m.got.isEmpty || !m.owed.isEmpty

/-- The command that the pool performs next for a core, none that waits on a page or whose strand has an exception in flight: one that has begun, else a handler's while the queue is held, else the first
in the order of their issue (R215, R223, R235, R236). -/
def VectorFile.performable (f : VectorFile) : Option VCmd :=
  let able := issueOrder (f.running.filter fun m => !f.waiting.contains m.id && !f.undelivered m.h)
  ((able.find? VCmd.begun).orElse fun _ => if f.isHeld then able.find? (·.trap) else none).orElse fun _ => able.head?

/-- The trap record words of an exception in flight (R236). -/
def flightInfo (m : VCmd) (vn : Nat) (n : BitVec 8) (t3 : Word) : TrapInfo :=
  { number := n, t2 := m.pc, t3 := t3, t4 := wordsLow m.words
    t5 := (wordAt m.words 4).setWidth 64 ||| (BitVec.ofNat 64 (m.words.length % 8) <<< 16), t6 := BitVec.ofNat 64 (vn % 512) }

/-- A command is abandoned with an exception in flight: its destinations are restored and the queue is held (R235). -/
def abandonCommand (s : State) (c : CoreId) (m : VCmd) (what : TrapInfo ⊕ FaultInfo) : State :=
  let vn := (s.core c).vec.vn
  let s1 := restoreDests (leavePool s c m) c [m]
  let s2 := s1.modVec c fun f => { f with held := addOnce (m.h, false) f.held }
  s2.modStrand m.h fun st => { st with flight := some ⟨m, vn, what⟩ }

/-- A command that has committed at the pool leaves it, with the flags it raised; later commands of its strand with the same general destination find what it
has written there (R49, R215). -/
def commitCommand (s : State) (c : CoreId) (m : VCmd) (fl : BitVec 6) : State :=
  let s1 := (leavePool s c m).modStrand m.h fun x => x.orFlags fl
  match (vdest m.op).1, s1.strand? m.h with
  | some a, some st => laterPrior s1 c m a (st.r.gpr[a], true)
  | _, _ => s1

/-- VECTOR_POOL_COMMIT (R215): the pool performs a core's next command and commits it whole, performs some of its element accesses (R223), abandons it with
an exception in flight, or leaves it waiting on a page, where it will start again whole (R235). -/
def execVectorPoolCommit (c : CoreId) (s : State) : Out :=
  match (s.core c).vec.performable with
  | none => .next s
  | some m =>
    match s.strand? m.h with
    | none => .next (leavePool s c m)
    | some st =>
      match runCommand s m st with
      | .ok (s1, fl) =>
        .next ((commitCommand s1 c m fl).charge st.ctx 1 (laneOps (s.core c).vec m.op))
      | .error (.trap n t3) => .next (abandonCommand s c m (.inl (flightInfo m (s.core c).vec.vn n t3)))
      | .error (.fault f) => .next (abandonCommand s c m (.inr f))
      | .error .link => .next s
      | .error (.partway s1) => .next s1
      | .error (.page s1) =>
        .next (((noteAccesses s1 c m []).modVec c fun f => { f with waiting := f.waiting ++ [m.id] }).parkOn (.vector c m.id))

/-- The queue that a strand's exceptions hold resumes (R236). -/
def releaseHeld (s : State) (c : CoreId) (h : Handle) : State := s.modVec c fun f => { f with held := f.held.filter fun e => !decide (e.1 = h) }

/-- A strand's exception has been delivered: its trap handler runs, and the queue stays held for it (R236). -/
def noteDelivered (s : State) (c : CoreId) (h : Handle) : State :=
  s.modVec c fun f => { f with held := addOnce (h, true) (dropAll (h, false) f.held) }

/-- A strand can take an exception at its delivery point: it stands ready or parked, and no access of it has been performed
and awaits its commit (R235). -/
def atDelivery (st : Strand) : Bool :=
  match st.status with
  | .ready => true
  | .parked _ =>
    (match st.pending with
     | some p => p.reply.isNone
     | none => true)
  | _ => false

/-- An exception in flight is delivered (R235, R236; DEDUCED, log entry 39). -/
def deliverFlight (s : State) (h : Handle) (st : Strand) (x : Flight) : State :=
  let st1 := { st with flight := none }
  match x.what with
  | .inl t =>
    if st.r.inTrap then freezeAt (releaseHeld s st.core h) h st1 (doubleTrap t) x.cmd.pc 0 (some x.cmd)
    else trapAt (noteDelivered s st.core h) h st1 (wordCountAt s h st1) t
  | .inr f => freezeAt (releaseHeld s st.core h) h st1 f x.cmd.pc 0 (some x.cmd)

/-- EXCEPTION_DELIVERY (R235, R194): the strand takes the exception of an abandoned command, or at its next issue a fault that a copy
left to it. -/
def execExceptionDelivery (h : Handle) (s : State) : Out :=
  match s.strand? h with
  | none => .next s
  | some st =>
    if !atDelivery st then .next s
    else
      match st.flight, st.due with
      | some x, _ => .next (deliverFlight s h st x)
      | none, f :: t => if st.status = .ready then .next (freezeAt s h { st with due := t } f st.r.pc 0 none) else .next s
      | none, [] => .next s

end Sys2Proof.Machine
end

