-- ==== Sys2Proof/Machine/Dispatch.lean ====
section
/-! DEFINITION. The meaning of every instruction and event: one arm per constructor of `Instr`, one call each. -/

namespace Sys2Proof.Machine

/-- The meaning of an instruction or event. -/
def exec (i : Instr) (s : State) : Host.Outcome State Fault Refusal :=
  match i with
  | .add g sz a b c => Sys2Proof.Machine.execAdd g sz a b c s
  | .sub g sz a b c => Sys2Proof.Machine.execSub g sz a b c s
  | .mul g sz a b c => Sys2Proof.Machine.execMul g sz a b c s
  | .mulh g sz a b c => Sys2Proof.Machine.execMulh g sz a b c s
  | .div g sz a b c => Sys2Proof.Machine.execDiv g sz a b c s
  | .rem g sz a b c => Sys2Proof.Machine.execRem g sz a b c s
  | .and g sz a b c => Sys2Proof.Machine.execAnd g sz a b c s
  | .or g sz a b c => Sys2Proof.Machine.execOr g sz a b c s
  | .xor g sz a b c => Sys2Proof.Machine.execXor g sz a b c s
  | .andn g sz a b c => Sys2Proof.Machine.execAndn g sz a b c s
  | .shl g sz a b c => Sys2Proof.Machine.execShl g sz a b c s
  | .shr g sz a b c => Sys2Proof.Machine.execShr g sz a b c s
  | .sar g sz a b c => Sys2Proof.Machine.execSar g sz a b c s
  | .rol g sz a b c => Sys2Proof.Machine.execRol g sz a b c s
  | .clz g sz a b => Sys2Proof.Machine.execClz g sz a b s
  | .popc g sz a b => Sys2Proof.Machine.execPopc g sz a b s
  | .min g sz a b c => Sys2Proof.Machine.execMin g sz a b c s
  | .max g sz a b c => Sys2Proof.Machine.execMax g sz a b c s
  | .sel g a b c p => Sys2Proof.Machine.execSel g a b c p s
  | .mov g sz a b => Sys2Proof.Machine.execMov g sz a b s
  | .li g a imm => Sys2Proof.Machine.execLi g a imm s
  | .addi g sz a b imm => Sys2Proof.Machine.execAddi g sz a b imm s
  | .lea g a m => Sys2Proof.Machine.execLea g a m s
  | .cmp g sz cc p b c => Sys2Proof.Machine.execCmp g sz cc p b c s
  | .cmpi g sz cc p b imm => Sys2Proof.Machine.execCmpi g sz cc p b imm s
  | .psetAnd g p nx x ny y => Sys2Proof.Machine.execPsetAnd g p nx x ny y s
  | .psetOr g p nx x ny y => Sys2Proof.Machine.execPsetOr g p nx x ny y s
  | .psetXor g p nx x ny y => Sys2Proof.Machine.execPsetXor g p nx x ny y s
  | .psetConst g p v => Sys2Proof.Machine.execPsetConst g p v s
  | .bfx g signed a b pos len => Sys2Proof.Machine.execBfx g signed a b pos len s
  | .bfi g a b pos len => Sys2Proof.Machine.execBfi g a b pos len s
  | .br g off => Sys2Proof.Machine.execBr g off s
  | .jmp off => Sys2Proof.Machine.execJmp off s
  | .jr g a => Sys2Proof.Machine.execJr g a s
  | .call g off => Sys2Proof.Machine.execCall g off s
  | .ret g => Sys2Proof.Machine.execRet g s
  | .loop g a off => Sys2Proof.Machine.execLoop g a off s
  | .trap g imm => Sys2Proof.Machine.execTrap g imm s
  | .nop g => Sys2Proof.Machine.execNop g s
  | .fadd g f rm a b c => Sys2Proof.Machine.execFadd g f rm a b c s
  | .fsub g f rm a b c => Sys2Proof.Machine.execFsub g f rm a b c s
  | .fmul g f rm a b c => Sys2Proof.Machine.execFmul g f rm a b c s
  | .ffma g f rm a b c => Sys2Proof.Machine.execFfma g f rm a b c s
  | .fmin g f a b c => Sys2Proof.Machine.execFmin g f a b c s
  | .fmax g f a b c => Sys2Proof.Machine.execFmax g f a b c s
  | .fcmp g f cc p b c => Sys2Proof.Machine.execFcmp g f cc p b c s
  | .fcvt g dst src rm a b => Sys2Proof.Machine.execFcvt g dst src rm a b s
  | .ld g sz q a m => Sys2Proof.Machine.execLd g sz q a m s
  | .st g sz q a m => Sys2Proof.Machine.execSt g sz q a m s
  | .ldf g sz q a m => Sys2Proof.Machine.execLdf g sz q a m s
  | .stf g sz q a m => Sys2Proof.Machine.execStf g sz q a m s
  | .amoSwap g sz q a b c => Sys2Proof.Machine.execAmoSwap g sz q a b c s
  | .amoAdd g sz q a b c => Sys2Proof.Machine.execAmoAdd g sz q a b c s
  | .amoAnd g sz q a b c => Sys2Proof.Machine.execAmoAnd g sz q a b c s
  | .amoOr g sz q a b c => Sys2Proof.Machine.execAmoOr g sz q a b c s
  | .amoXor g sz q a b c => Sys2Proof.Machine.execAmoXor g sz q a b c s
  | .amoMin g sz q a b c => Sys2Proof.Machine.execAmoMin g sz q a b c s
  | .amoMax g sz q a b c => Sys2Proof.Machine.execAmoMax g sz q a b c s
  | .amoFadd g f q a b c => Sys2Proof.Machine.execAmoFadd g f q a b c s
  | .amoFaddSeq g f q a b c => Sys2Proof.Machine.execAmoFaddSeq g f q a b c s
  | .cas g sz q a b c => Sys2Proof.Machine.execCas g sz q a b c s
  | .fence g scope => Sys2Proof.Machine.execFence g scope s
  | .waita g sz q a m => Sys2Proof.Machine.execWaita g sz q a m s
  | .pref g m => Sys2Proof.Machine.execPref g m s
  | .send g a b mbox len => Sys2Proof.Machine.execSend g a b mbox len s
  | .sendNb g p a b mbox len => Sys2Proof.Machine.execSendNb g p a b mbox len s
  | .recv g a mask => Sys2Proof.Machine.execRecv g a mask s
  | .recvn g a b mbox => Sys2Proof.Machine.execRecvn g a b mbox s
  | .mbstat g a mbox => Sys2Proof.Machine.execMbstat g a mbox s
  | .fork g join a b => Sys2Proof.Machine.execFork g join a b s
  | .join g mig a m => Sys2Proof.Machine.execJoin g mig a m s
  | .spawn g join a b => Sys2Proof.Machine.execSpawn g join a b s
  | .exit g join => Sys2Proof.Machine.execExit g join s
  | .yield g => Sys2Proof.Machine.execYield g s
  | .migrate g a => Sys2Proof.Machine.execMigrate g a s
  | .getidHandle g a => Sys2Proof.Machine.execGetidHandle g a s
  | .getidLogicalIndex g a => Sys2Proof.Machine.execGetidLogicalIndex g a s
  | .getidBank g a => Sys2Proof.Machine.execGetidBank g a s
  | .getidSlot g a => Sys2Proof.Machine.execGetidSlot g a s
  | .getidModulePosition g a => Sys2Proof.Machine.execGetidModulePosition g a s
  | .getidCycleCounter g a => Sys2Proof.Machine.execGetidCycleCounter g a s
  | .cpy g a b => Sys2Proof.Machine.execCpy g a b s
  | .cwait g c n => Sys2Proof.Machine.execCwait g c n s
  | .barinit g mig a m => Sys2Proof.Machine.execBarinit g mig a m s
  | .bararv g mig a m => Sys2Proof.Machine.execBararv g mig a m s
  | .barinv g mig m => Sys2Proof.Machine.execBarinv g mig m s
  | .barwait g mig a m => Sys2Proof.Machine.execBarwait g mig a m s
  | .fill g a b n => Sys2Proof.Machine.execFill g a b n s
  | .qctlSetRoles g a => Sys2Proof.Machine.execQctlSetRoles g a s
  | .qctlReadRoles g a => Sys2Proof.Machine.execQctlReadRoles g a s
  | .qctlQueueCounts g a => Sys2Proof.Machine.execQctlQueueCounts g a s
  | .qctlDiscard g a => Sys2Proof.Machine.execQctlDiscard g a s
  | .wdq g a m => Sys2Proof.Machine.execWdq g a m s
  | .launch g a m => Sys2Proof.Machine.execLaunch g a m s
  | .vclaim g a lo hi => Sys2Proof.Machine.execVclaim g a lo hi s
  | .vren g a lo hi => Sys2Proof.Machine.execVren g a lo hi s
  | .vrenSetn g a => Sys2Proof.Machine.execVrenSetn g a s
  | .vrenStat g a => Sys2Proof.Machine.execVrenStat g a s
  | .vrel g => Sys2Proof.Machine.execVrel g s
  | .vld g t a m => Sys2Proof.Machine.execVld g t a m s
  | .vst g t a m => Sys2Proof.Machine.execVst g t a m s
  | .vgth g t a b c => Sys2Proof.Machine.execVgth g t a b c s
  | .vsct g t a b c => Sys2Proof.Machine.execVsct g t a b c s
  | .vadd g t rm a b c => Sys2Proof.Machine.execVadd g t rm a b c s
  | .vsub g t rm a b c => Sys2Proof.Machine.execVsub g t rm a b c s
  | .vmul g t rm a b c => Sys2Proof.Machine.execVmul g t rm a b c s
  | .vfma g t rm a b c => Sys2Proof.Machine.execVfma g t rm a b c s
  | .vmin g t a b c => Sys2Proof.Machine.execVmin g t a b c s
  | .vmax g t a b c => Sys2Proof.Machine.execVmax g t a b c s
  | .vabs g t a b => Sys2Proof.Machine.execVabs g t a b s
  | .vneg g t a b => Sys2Proof.Machine.execVneg g t a b s
  | .vand g t a b c => Sys2Proof.Machine.execVand g t a b c s
  | .vor g t a b c => Sys2Proof.Machine.execVor g t a b c s
  | .vxor g t a b c => Sys2Proof.Machine.execVxor g t a b c s
  | .vshl g t a b c => Sys2Proof.Machine.execVshl g t a b c s
  | .vshr g t a b c => Sys2Proof.Machine.execVshr g t a b c s
  | .vcmp g t cc a b c => Sys2Proof.Machine.execVcmp g t cc a b c s
  | .vsel g t a b c => Sys2Proof.Machine.execVsel g t a b c s
  | .vcvt g dst src h rm a b => Sys2Proof.Machine.execVcvt g dst src h rm a b s
  | .vredAdd g t a b => Sys2Proof.Machine.execVredAdd g t a b s
  | .vredMin g t a b => Sys2Proof.Machine.execVredMin g t a b s
  | .vredMax g t a b => Sys2Proof.Machine.execVredMax g t a b s
  | .vdot g t a b c => Sys2Proof.Machine.execVdot g t a b c s
  | .vperm g t a b c => Sys2Proof.Machine.execVperm g t a b c s
  | .vbcst g t a b => Sys2Proof.Machine.execVbcst g t a b s
  | .vexp2 g rm a b => Sys2Proof.Machine.execVexp2 g rm a b s
  | .vlog2 g rm a b => Sys2Proof.Machine.execVlog2 g rm a b s
  | .vrsq g rm a b => Sys2Proof.Machine.execVrsq g rm a b s
  | .vrcp g t rm a b => Sys2Proof.Machine.execVrcp g t rm a b s
  | .vsqrt g t rm a b => Sys2Proof.Machine.execVsqrt g t rm a b s
  | .vdiv g t rm a b c => Sys2Proof.Machine.execVdiv g t rm a b c s
  | .viota g t a => Sys2Proof.Machine.execViota g t a s
  | .vscanAdd g t a b => Sys2Proof.Machine.execVscanAdd g t a b s
  | .vscanMin g t a b => Sys2Proof.Machine.execVscanMin g t a b s
  | .vscanMax g t a b => Sys2Proof.Machine.execVscanMax g t a b s
  | .vfence g => Sys2Proof.Machine.execVfence g s
  | .dfrom g f64 h a b => Sys2Proof.Machine.execDfrom g f64 h a b s
  | .dto g f64 h rm a b => Sys2Proof.Machine.execDto g f64 h rm a b s
  | .dld g a m => Sys2Proof.Machine.execDld g a m s
  | .dldRn g a m => Sys2Proof.Machine.execDldRn g a m s
  | .dst g a m => Sys2Proof.Machine.execDst g a m s
  | .dcos g a b c => Sys2Proof.Machine.execDcos g a b c s
  | .ddot g f64 a b c => Sys2Proof.Machine.execDdot g f64 a b c s
  | .dscl g a b => Sys2Proof.Machine.execDscl g a b s
  | .dadd g a b c => Sys2Proof.Machine.execDadd g a b c s
  | .dlerp g a b c => Sys2Proof.Machine.execDlerp g a b c s
  | .dneg g a b => Sys2Proof.Machine.execDneg g a b s
  | .dproj g a b c => Sys2Proof.Machine.execDproj g a b c s
  | .dnorm g a b => Sys2Proof.Machine.execDnorm g a b s
  | .dsetn g a b => Sys2Proof.Machine.execDsetn g a b s
  | .dmov g a b => Sys2Proof.Machine.execDmov g a b s
  | .dtest g a b => Sys2Proof.Machine.execDtest g a b s
  | .mmul g a b => Sys2Proof.Machine.execMmul g a b s
  | .mmula g a b => Sys2Proof.Machine.execMmula g a b s
  | .mzero g a => Sys2Proof.Machine.execMzero g a s
  | .mld g a b => Sys2Proof.Machine.execMld g a b s
  | .mst g t rm a b => Sys2Proof.Machine.execMst g t rm a b s
  | .mscl g rm a b => Sys2Proof.Machine.execMscl g rm a b s
  | .mwait g => Sys2Proof.Machine.execMwait g s
  | .mgovRead g a => Sys2Proof.Machine.execMgovRead g a s
  | .mgovReadClear g a => Sys2Proof.Machine.execMgovReadClear g a s
  | .qcmd g a b => Sys2Proof.Machine.execQcmd g a b s
  | .qwait g => Sys2Proof.Machine.execQwait g s
  | .rngres g a b => Sys2Proof.Machine.execRngres g a b s
  | .rngrel g a => Sys2Proof.Machine.execRngrel g a s
  | .rnd g a b c => Sys2Proof.Machine.execRnd g a b c s
  | .hdecl g a b => Sys2Proof.Machine.execHdecl g a b s
  | .hput g a b c => Sys2Proof.Machine.execHput g a b c s
  | .hget g a b c => Sys2Proof.Machine.execHget g a b c s
  | .hgetn g a b c => Sys2Proof.Machine.execHgetn g a b c s
  | .hfront g a b => Sys2Proof.Machine.execHfront g a b s
  | .hdrop g a => Sys2Proof.Machine.execHdrop g a s
  | .tdecl g a b => Sys2Proof.Machine.execTdecl g a b s
  | .eprog g a b => Sys2Proof.Machine.execEprog g a b s
  | .sweep g a b => Sys2Proof.Machine.execSweep g a b s
  | .swwait g a => Sys2Proof.Machine.execSwwait g a s
  | .skset g a b c => Sys2Proof.Machine.execSkset g a b c s
  | .wake g a b c => Sys2Proof.Machine.execWake g a b c s
  | .tret g => Sys2Proof.Machine.execTret g s
  | .sysr g a number => Sys2Proof.Machine.execSysr g a number s
  | .sysw g a number => Sys2Proof.Machine.execSysw g a number s
  | .resume g a => Sys2Proof.Machine.execResume g a s
  | .kill g a => Sys2Proof.Machine.execKill g a s
  | .retry g a => Sys2Proof.Machine.execRetry g a s
  | .replay g => Sys2Proof.Machine.execReplay g s
  | .tlbinv g a b => Sys2Proof.Machine.execTlbinv g a b s
  | .syswQload g a => Sys2Proof.Machine.execSyswQload g a s
  | .syswEwt g a => Sys2Proof.Machine.execSyswEwt g a s
  | .syswSmpctl g a => Sys2Proof.Machine.execSyswSmpctl g a s
  | .unassignedEncoding detail => Sys2Proof.Machine.execUnassignedEncoding detail s
  | .taskReplay h => Sys2Proof.Machine.execTaskReplay h s
  | .crashHalt c cause => Sys2Proof.Machine.execCrashHalt c cause s
  | .handlerBind c => Sys2Proof.Machine.execHandlerBind c s
  | .migrationPacket h => Sys2Proof.Machine.execMigrationPacket h s
  | .inboxBind c => Sys2Proof.Machine.execInboxBind c s
  | .dequeBind c => Sys2Proof.Machine.execDequeBind c s
  | .workPacketBind c => Sys2Proof.Machine.execWorkPacketBind c s
  | .preemptedReturn c => Sys2Proof.Machine.execPreemptedReturn c s
  | .steal c => Sys2Proof.Machine.execSteal c s
  | .dequeSpill c => Sys2Proof.Machine.execDequeSpill c s
  | .dequeRefill c => Sys2Proof.Machine.execDequeRefill c s
  | .fillApply h => Sys2Proof.Machine.execFillApply h s
  | .messageOffer id => Sys2Proof.Machine.execMessageOffer id s
  | .relayOffer id => Sys2Proof.Machine.execRelayOffer id s
  | .sendTimeout h => Sys2Proof.Machine.execSendTimeout h s
  | .requestRetry h => Sys2Proof.Machine.execRequestRetry h s
  | .accessPerform h => Sys2Proof.Machine.execAccessPerform h s
  | .accessReply h => Sys2Proof.Machine.execAccessReply h s
  | .fenceProbe h => Sys2Proof.Machine.execFenceProbe h s
  | .claimGrant c => Sys2Proof.Machine.execClaimGrant c s
  | .vectorDispatch c => Sys2Proof.Machine.execVectorDispatch c s
  | .vectorPoolCommit c => Sys2Proof.Machine.execVectorPoolCommit c s
  | .exceptionDelivery h => Sys2Proof.Machine.execExceptionDelivery h s
  | .matrixStart q => Sys2Proof.Machine.execMatrixStart q s
  | .matrixCommit q => Sys2Proof.Machine.execMatrixCommit q s
  | .governorWindow q => Sys2Proof.Machine.execGovernorWindow q s
  | .matrixTurn q => Sys2Proof.Machine.execMatrixTurn q s
  | .matrixAbandon q => Sys2Proof.Machine.execMatrixAbandon q s
  | .copyIssue c => Sys2Proof.Machine.execCopyIssue c s
  | .copyBurst c => Sys2Proof.Machine.execCopyBurst c s
  | .copyComplete c => Sys2Proof.Machine.execCopyComplete c s
  | .copyFirmwareFinish c => Sys2Proof.Machine.execCopyFirmwareFinish c s
  | .qcmdComplete d => Sys2Proof.Machine.execQcmdComplete d s
  | .qcmdResume d => Sys2Proof.Machine.execQcmdResume d s
  | .wdqAnswer d => Sys2Proof.Machine.execWdqAnswer d s
  | .leaseGrant launch c => Sys2Proof.Machine.execLeaseGrant launch c s
  | .leaseRelease launch c => Sys2Proof.Machine.execLeaseRelease launch c s
  | .preempt launch => Sys2Proof.Machine.execPreempt launch s
  | .contextSwitchOut c => Sys2Proof.Machine.execContextSwitchOut c s
  | .contextRestore c ctx => Sys2Proof.Machine.execContextRestore c ctx s
  | .packetLaunch ctx q => Sys2Proof.Machine.execPacketLaunch ctx q s
  | .packetWaitev ctx q => Sys2Proof.Machine.execPacketWaitev ctx q s
  | .waitevWriteReport ctx q => Sys2Proof.Machine.execWaitevWriteReport ctx q s
  | .packetSignal ctx q => Sys2Proof.Machine.execPacketSignal ctx q s
  | .packetSetdet ctx q => Sys2Proof.Machine.execPacketSetdet ctx q s
  | .packetQfence ctx q => Sys2Proof.Machine.execPacketQfence ctx q s
  | .launchPlace d => Sys2Proof.Machine.execLaunchPlace d s
  | .launchRetire launch => Sys2Proof.Machine.execLaunchRetire launch s
  | .epochCompletion c => Sys2Proof.Machine.execEpochCompletion c s
  | .sweepPass c => Sys2Proof.Machine.execSweepPass c s
  | .slabExchange c => Sys2Proof.Machine.execSlabExchange c s
  | .sweepComplete c => Sys2Proof.Machine.execSweepComplete c s
  | .pageWalk c ctx va kind => Sys2Proof.Machine.execPageWalk c ctx va kind s
  | .resetBoot => Sys2Proof.Machine.execResetBoot s
  | .recoveryImage image => Sys2Proof.Machine.execRecoveryImage image s
  | .attestationRequest ctx nonce => Sys2Proof.Machine.execAttestationRequest ctx nonce s
  | .contextCreate image => Sys2Proof.Machine.execContextCreate image s
  | .jobJoin ctx members => Sys2Proof.Machine.execJobJoin ctx members s
  | .windowBind w => Sys2Proof.Machine.execWindowBind w s
  | .linkUp d dir lane sameFirmware debugFlag => Sys2Proof.Machine.execLinkUp d dir lane sameFirmware debugFlag s
  | .linkRekey d dir lane => Sys2Proof.Machine.execLinkRekey d dir lane s
  | .flitReceive d dir lane good => Sys2Proof.Machine.execFlitReceive d dir lane good s
  | .laneFail d dir lane => Sys2Proof.Machine.execLaneFail d dir lane s
  | .collContribution window member off words => Sys2Proof.Machine.execCollContribution window member off words s
  | .hostBarAccess access => Sys2Proof.Machine.execHostBarAccess access s
  | .samplingPulse => Sys2Proof.Machine.execSamplingPulse s
  | .contextFinalRelease ctx => Sys2Proof.Machine.execContextFinalRelease ctx s
  | .sliceWindowGrant ctx slice window => Sys2Proof.Machine.execSliceWindowGrant ctx slice window s
  | .hostDebugRequest r => Sys2Proof.Machine.execHostDebugRequest r s
  | .errorRetry site result => Sys2Proof.Machine.execErrorRetry site result s
  | .dbgctlCrash c => Sys2Proof.Machine.execDbgctlCrash c s
  | .dbgctlGo c => Sys2Proof.Machine.execDbgctlGo c s
  | .qtailWrite ctx q value => Sys2Proof.Machine.execQtailWrite ctx q value s
  | .unitOutOfService u => Sys2Proof.Machine.execUnitOutOfService u s

end Sys2Proof.Machine
end

