-- ==== Sys2Proof/Machine/Sched.lean ====
section
/-! DEFINITION. Around one instruction or event: the passing of cycles, the rotation (R141, R142), the issue of an instruction, the end of waits
(R52), and the default schedule (DESIGN CHOICE, log entry 1). -/

namespace Sys2Proof.Machine

/-! ### The rotation (R141-R143) -/

/-- The slots of a core may issue: it is in service and not halted, and the firmware runs (R209, R210, R395). -/
def coreIssues (s : State) (c : CoreId) : Bool := s.coreIn c && !(s.cluster (clusterOf c)).dbg.halted && decide (s.boot = .running)

/-- A strand is ready on a core: it is bound and neither parked nor out of rotation (R141), its core issues, and nothing is to reach it before its next
issue: a save and restore of its context, or its leaving (R159, R210), an exception in flight, an owed fault, or a fill (R175, R194, R235). -/
def strandReady (s : State) (c : CoreId) (st : Strand) : Bool :=
  decide (st.core = c) && decide (st.status = .ready) && st.flight.isNone && st.due.isEmpty && st.fills.isEmpty && st.fillDue.isNone &&
  s.present st && coreIssues s c && !(s.core c).regrant && !(s.core c).leaving

/-- The first cycle from `t` on whose number is `slot` modulo 16 (R142). -/
def strictCycle (slot : BitVec 4) (t : Nat) : Nat := t + (BitVec.ofNat 4 (slot.toNat + 16 - t % 16)).toNat

/-- The first cycle at which a ready slot may issue: 8 cycles after its own last issue and one after the last issue of its core (R141), after a `yield`
(R172), and at level 2 at its own position (R142). -/
def issueCycle (s : State) (c : CoreId) (slot : BitVec 4) (yieldUntil : Nat) : Nat :=
  let x := s.core c
  let last := fun (slot : BitVec 4) (gap : Nat) => ((Table.find slot x.issued).map fun k => k + gap).getD 0
  let e := max (max s.cycle (last slot 8)) (max ((x.lastSlot.map fun k => last k 1).getD 0) yieldUntil)
  if x.level = 2 then strictCycle slot e else e

/-- How far a slot stands after the slot that issued last (R142). -/
def rotation (c : Core) (slot : BitVec 4) : Nat := (slot - (c.lastSlot.getD 15) - 1).toNat

/-- A strand of a core whose migration packet its target would take now (R97). -/
def sendable (s : State) (c : CoreId) : Option Handle :=
  (s.strands.find? fun e => decide (e.2.core = c) && s.present e.2 && (match e.2.status with
    | .parked (.inbox k) => inboxOpen s e.2 k
    | _ => false)).map (·.1)

/-- The work of the movement slot of a core that is pending (R143): a context to be saved that is leaving, or to be saved and restored for a lost lane group, a copy command, a spill or a refill of the deque, a packet to receive or to send. -/
def moverWork (s : State) (c : CoreId) : Option Instr :=
  let x := s.core c
  if !coreIssues s c then none
  else if (if x.leaving then coreQuiet s c else x.regrant) then some (.contextSwitchOut c)
  else if x.copyReg.isSome && decide (x.copies.length < 128) then some (.copyIssue c)
  else if spillDue s c && decide (x.spilled.length < spillCap x) && bankFree s c then some (.dequeSpill c)
  else if refillDue s c && bankFree s c then some (.dequeRefill c)
  else if !x.inbox.isEmpty && (slotFor s c .inbox).isSome then some (.inboxBind c)
  else (sendable s c).map .migrationPacket

/-- The core whose movement slot carries out an event (R143); a pre-emption saves the victim's state. -/
def moverOf (s : State) : Instr → Option CoreId
  | .copyIssue c | .dequeSpill c | .dequeRefill c | .inboxBind c | .contextSwitchOut c | .contextRestore c _ => some c
  | .migrationPacket h => (s.strand? h).map Strand.core
  | .preempt id => (nextVictim s id).map fun e => e.1.2.core
  | _ => none

/-- The work that an event is to carry out in a movement slot is pending (R143). -/
def moverReady (s : State) : Instr → Bool
  | .copyIssue c => (s.core c).copyReg.isSome && decide ((s.core c).copies.length < 128)
  | .dequeSpill c => spillDue s c && bankFree s c
  | .dequeRefill c => refillDue s c && bankFree s c
  | .inboxBind c => !(s.core c).inbox.isEmpty && (slotFor s c .inbox).isSome
  | .contextSwitchOut c => if (s.core c).leaving then coreQuiet s c else (s.core c).regrant || (beginLeave s c).isSome
  | .contextRestore c ctx => (s.core c).ctx.isNone && s.hasImage c ctx && !restoreHeld s c ctx
  | .migrationPacket h => (s.strand? h).any fun st => match st.status with
    | .parked (.inbox _) => true
    | _ => false
  | _ => true

/-- A slot that may issue: the cycle, the slot, and its strand; none for the movement slot. -/
abbrev Candidate := Nat × BitVec 4 × Option (Handle × Strand)

/-- The slots of a core that are ready (R141); `mover` where the movement slot is to have work that it may put off. -/
def candidates (s : State) (c : CoreId) (mover : Bool) : List Candidate :=
  (if coreIssues s c && mover || (moverWork s c).isSome then [(issueCycle s c 15 0, 15, none)] else []) ++
  (s.strands.filter fun e => strandReady s c e.2).map fun e => (issueCycle s c e.2.slot e.2.yieldUntil, e.2.slot, some e)

/-- The earlier of two candidates, and at one cycle the one that follows sooner on the slot that issued last (R142). -/
def earlier (x : Core) (a b : Candidate) : Candidate :=
  if b.1 < a.1 ∨ (b.1 = a.1 ∧ rotation x b.2.1 < rotation x a.2.1) then b else a

/-- The slot of a core that issues next (R142). -/
def nextIssue (s : State) (c : CoreId) (mover : Bool) : Option Candidate :=
  match candidates s c mover with
  | [] => none
  | e :: t => some (t.foldl (earlier (s.core c)) e)

/-! ### Time -/

/-- The cores on which a slot is ready. -/
def readyCores (s : State) : List CoreId :=
  ((s.strands.filter fun e => strandReady s e.2.core e.2).map fun e => e.2.core) ++
  ((s.cores.filter fun e => (moverWork s e.1).isSome).map (·.1))

/-- The smallest of some numbers. -/
def least : List Nat → Option Nat
  | [] => none
  | n :: t => some (t.foldl min n)

/-- The cycles that may pass before a ready slot of some core has to issue (R141, R142), a quad at level 2 to pass its turn on (R276), or the sampling pulse to
fire (R399); none where nothing bounds them. -/
def timeLeft (s : State) : Option Nat :=
  least ((if s.smpctl.getLsbD 8 then [s.pulseDue - s.cycle] else []) ++ ((readyCores s).filterMap fun c => (nextIssue s c false).map fun e => e.1 - s.cycle) ++
    s.clusters.flatMap fun e => (turnLeft s ⟨e.1, false⟩).toList ++ (turnLeft s ⟨e.1, true⟩).toList)

/-- Cycles pass; the governors of the quads count the cycles in which they withhold a ready command (R273, R274). -/
def passCycles (s : State) (dt : Nat) : State :=
  if dt = 0 then s
  else
    let count := fun (q : QuadId) (x : Quad) => { x with stalls := min (x.stalls + stallCycles s q dt) 0xFFFFFFFF }
    { s with
      cycle := s.cycle + dt
      clusters := s.clusters.map fun (e : ClusterId × Cluster) =>
        (e.1, { e.2 with quads := #v[count ⟨e.1, false⟩ e.2.quads[0], count ⟨e.1, true⟩ e.2.quads[1]] }) }

/-- Up to `dt` cycles pass, and no more than the rotations and the turns allow (R141, R142, R276; DEDUCED, log entry 8). -/
def passTime (s : State) (dt : Nat) : State := passCycles s ((timeLeft s).elim dt (min dt))

/-! ### The end of waits (R52) -/

/-- None of a list of commands remains among others. -/
def allGone (ids present : List Nat) : Bool := !(ids.any present.contains)

/-- The names of the commands of every quantisation engine. -/
def qcmdIds (s : State) : List Nat := s.dies.flatMap fun e => e.2.qqueue.map QCmd.id

/-- The names of the commands of a cluster's brush. -/
def brushIds (s : State) (c : ClusterId) : List Nat := (s.cluster c).brush.queue.map BrushCmd.id

/-- What a parked strand waits for has come, so that it goes back into rotation and issues its instruction again (R52). -/
def wakes (s : State) (h : Handle) (st : Strand) : Wait → Bool
  | .reg i => st.r.full.getLsbD i.val
  | .vreg i => (s.core st.core).vec.vfull.getLsbD i.toNat
  | .queueRead q => !(s.core st.core).q[q].isEmpty && queueTurn (s.core st.core) q true h
  | .queueWrite q pops => st.reply?.isNone && decide ((s.core st.core).q[q].length - pops < 16) && queueTurn (s.core st.core) q false h
  | .mailbox => ((s.core st.core).mbwait.find? fun w => decide (w.1 = h)).any fun w => (receivable (s.core st.core) h w.2).isSome
  | .mailboxRoom c mb => accepts s c mb (.strand h) || canJoin s c mb (.strand h)
  | .relayRoom i => relayRoom s i
  | .counter c n => decide ((s.core st.core).c[c.toFin].toNat ≤ n)
  | .copyRegister => (s.core st.core).copyReg.isNone
  | .dispatchRoom c trap =>
    decide ((if trap then (s.core c).vec.trapQueue.length else (s.core c).vec.queue.length) < queueDepth)
  | .vectorWork => !vectorBusy s h st.core
  | .allWork => !(vectorBusy s h st.core || matrixBusy s h st.core)
  | .matrixRoom => decide ((s.core st.core).mqueue.length < 4)
  | .wdqRoom => decide ((s.core st.core).wdqOpen < 16)
  | .queueRoom q => (queue? s st.ctx q).all CmdQueue.hasRoom
  | .engineRoom => (qEngine s st.core.die).any fun d => decide ((s.die d).qqueue.length < 256)
  | .qcmds ids => allGone ids (qcmdIds s)
  | .brushRoom c => decide ((s.cluster c).brush.queue.length < 8)
  | .brushCommand ids => st.pending.isNone && allGone ids (brushIds s (clusterOf st.core))
  | .pendingRoom c => decide ((s.cluster c).brush.pending.length < 64)
  | .dequeRoom c => dequeRoom (s.core c) h || dequeFull (s.core c) h
  | .link m => s.linked m || s.lost m
  | .tlbinv mode ctx ranges => !stillUsed s ctx mode ranges
  | .matrixWork _ | .relay _ | .claim | .atPlace _ | .refused _ | .reply | .transit .. | .translation | .inbox _ | .fence | .replaying => false

/-- What a strand waits for with its instruction held has come, so that a reply reaches it (R266, R272, R366, R386). -/
def answered (s : State) (st : Strand) : Wait → Bool
  | .matrixWork ids => allGone ids (matrixOpen s)
  | .replaying => s.reissue.isEmpty
  | .brushCommand ids => st.pending.isSome && allGone ids (brushIds s (clusterOf st.core))
  | _ => false

/-- The module whose loss ends a wait: that of an access which waits there to be performed (R403). -/
def lostAt (s : State) : Wait → Option (BitVec 12)
  | .atPlace (.module m _) => if s.lost m then some m else none
  | _ => none

/-- An access that waits on a lost module is withdrawn, and its strand faults FABRIC_LOST (R130, R403). -/
def loseAccess (s : State) (h : Handle) (st : Strand) (m : BitVec 12) : State :=
  (s.withdraw h).deliver h (.inr (fabricLost m ((st.pending.map Pending.addr).getD 0)))

/-- One strand's wait ends, if what it waits for has come, or can no longer come. -/
def wakeOne (s : State) (h : Handle) : State :=
  match s.strand? h with
  | none => s
  | some st =>
    match st.status with
    | .parked w =>
      match lostAt s w with
      | some m => loseAccess s h st m
      | none => if answered s st w then s.answer h 0 else if wakes s h st w then s.setStrand h { st with status := .ready } else s
    | _ => s

/-- Every wait that has ended is over (R52). -/
def wakeAll (s : State) : State := (s.strands.map (·.1)).foldl wakeOne s

/-- A step is over: waits end, and nothing is issuing. -/
def settleStep (s : State) : State := wakeAll { s with cur := none, latch := [], picks := [] }

/-! ### The issue of an instruction (R30, R141, R209) -/

/-- The PC comparators of a cluster that match an issue (R208, R209). -/
def pcMatches (s : State) (c : ClusterId) (pc : Word) : List HaltCause :=
  let x := (s.cluster c).dbg
  (([0, 1, 2, 3] : List (Fin 4)).filter fun i => x.bpen.getLsbD i.val && x.pc[i] == pc).map fun i => HaltCause.pc (BitVec.ofNat 2 i.val)

/-- A slot of a core issues: its rotation takes note (R141, R142). -/
def noteSlot (s : State) (c : CoreId) (slot : BitVec 4) : State :=
  s.modCore c fun x => { x with lastSlot := some slot, issued := Table.put slot s.cycle x.issued }

/-- The slot of a strand issues: the rotation and the comparators of the cluster take note (R141, R142, R209; DEDUCED, log entry 53). -/
def noteIssue (s : State) (c : CoreId) (st : Strand) : State :=
  let s1 := noteSlot s c st.slot
  let hits := if s.isOut (.debug (clusterOf c)) then [] else pcMatches s (clusterOf c) st.issuePc
  if hits.isEmpty then s1
  else s1.modCluster (clusterOf c) fun x => { x with dbg := { x.dbg with matched := x.dbg.matched ++ hits } }

/-- The state in which the instruction of a strand executes: it is issuing, and its words are latched (DESIGN CHOICE, log entry 3). -/
def State.atIssue (s : State) (h : Handle) (ws : List Half) : State := { s with cur := some h, latch := ws }

/-- What is to be executed next: an instruction or event in a state, or nothing, with the state that is left. -/
inductive Chosen where
  | run (i : Instr) (s : State)
  | rest (s : State)

/-! ### Accesses on their way (R124) -/

/-- The accesses and messages that leave the core for their place, with the sources that may be queues or shared registers. -/
def travels : Instr → Option (List Reg)
  | .ld .. | .ldf .. | .join .. | .bararv .. | .barinv .. | .exit _ true | .qcmd .. | .rngres .. | .rngrel .. => some []
  | .st _ _ _ a _ | .stf _ _ _ a _ | .waita _ _ _ a _ | .barinit _ _ a _ | .barwait _ _ a _ | .send _ a .. | .sendNb _ _ a .. | .fork _ true a _
  | .spawn _ true a _ | .wdq _ a _ => some [a]
  | .amoSwap _ _ _ _ _ c | .amoAdd _ _ _ _ _ c | .amoAnd _ _ _ _ _ c | .amoOr _ _ _ _ _ c | .amoXor _ _ _ _ _ c | .amoMin _ _ _ _ _ c
  | .amoMax _ _ _ _ _ c | .amoFadd _ _ _ _ _ c => some [c]
  | .amoFaddSeq _ _ _ a _ c | .cas _ _ _ a _ c => some [c, a]
  | .hput _ a b c => some [a, b, c]
  | .hget _ _ b _ | .hgetn _ _ b _ | .hdecl _ _ b | .eprog _ _ b | .tdecl _ _ b => some [b]
  | _ => none

/-- The addresses of the accesses that an instruction makes through its core's port (R188); what it waits for where it cannot read its sources (R85, R145). -/
def portAddrs (s : State) (h : Handle) (st : Strand) : Instr → Res (List Word)
  | .ld _ _ _ _ m | .st _ _ _ _ m | .ldf _ _ _ _ m | .stf _ _ _ _ m | .waita _ _ _ _ m | .join _ _ _ m | .barinit _ _ _ m | .bararv _ _ _ m
  | .barinv _ _ m | .barwait _ _ _ m | .wdq _ _ m => (effAddr st m).map fun ea => [ea]
  | .amoSwap _ _ _ _ b _ | .amoAdd _ _ _ _ b _ | .amoAnd _ _ _ _ b _ | .amoOr _ _ _ _ b _ | .amoXor _ _ _ _ b _ | .amoMin _ _ _ _ b _
  | .amoMax _ _ _ _ b _ | .amoFadd _ _ _ _ b _ | .amoFaddSeq _ _ _ _ b _ | .cas _ _ _ _ b _ | .rngrel _ b =>
    (gsrc st b).map fun ea => [ea]
  | .qcmd _ a b | .rngres _ a b => do
    let ea ← gsrc st a
    let _ ← gsrc st b
    .ok [ea]
  | .fork _ true _ b => (grange st b 4).map fun l => [l.getD 3 0]
  | .spawn _ true _ b => (grange st b 5).map fun l => [l.getD 4 0]
  | .exit _ true => (gsrc st 3).map fun ea => [ea]
  | .send _ _ b _ len | .sendNb _ _ _ b _ len => (grange st b len.toNat).map fun _ => []
  | .hput _ _ b _ | .hdecl _ _ b | .eprog _ _ b => (src s h st 1 b).map fun ea => [ea]
  | .hget _ _ _ c | .hgetn _ _ _ c => (grange st c 2).map fun _ => []
  | .tdecl _ a b => do
    let _ ← gsrc st a
    let ea ← src s h st 1 b
    .ok (ea :: ((loadWords s h st ea 4).toOption.map fun r => r.2.getD 2 0).toList)
  | _ => .ok []

/-- The banks that an instruction reaches through its core's port (R188). -/
def portBanks (s : State) (h : Handle) (st : Strand) (i : Instr) : List CoreId :=
  ((portAddrs s h st i).toOption.getD []).filterMap fun ea => match s.space st.core st.ctx ea with
    | .ok (.bank c _) => some c
    | _ => none

/-- An instruction can read every source that it reads at its issue: its access leaves only then (R49, R85, R145). -/
def sourcesReady (s : State) (h : Handle) (st : Strand) (i : Instr) (srcs : List Reg) : Bool :=
  (portAddrs s h st i).toBool && srcs.all fun r => (src s h st 0 r).toBool

/-- An earlier access of a strand's core is on its way to one of some banks (R188). -/
def behind (s : State) (st : Strand) (banks : List CoreId) : Bool :=
  heldAt s st.core banks (Table.get 0 st.slot (s.core st.core).issued)

/-- An access has issued and is on its way: it has read its general registers, the shared registers and XR, it stands in the order of the queues that it reads, and its strand parks
(R49, R58, R124, R144, R145; DEDUCED, log entry 5). -/
def depart (s : State) (h : Handle) (st : Strand) (ws : List Half) (srcs : List Reg) (banks : List CoreId) : State :=
  let shared := (List.range 4).flatMap fun k => (List.range 4).map fun i => s.readShared st.core (Fin.ofNat 4 i) k
  (s.setStrand h { st with status := .parked (.transit shared st.r.gpr (s.core st.core).xr ws banks) }).modCore st.core fun c => keepTurns c h srcs

/-- An access of a strand that is on its way can reach its place: no earlier one of its core is to reach a bank that it reaches, as it left and as a base that
memory holds gives now (R188). -/
def reachable (s : State) (h : Handle) (st : Strand) : Option (Instr × List Half) :=
  match st.status with
  | .parked (.transit _ _ _ ws banks) =>
    match decode ws with
    | .instr i _ => if behind s st (banks ++ portBanks s h st i) then none else some (i, ws)
    | _ => none
  | _ => none

/-- An access on its way reaches its place, where its instruction executes (R124), unless an earlier one of its core is to reach the same bank (R188). -/
def reachPlace (s : State) (h : Handle) : Chosen :=
  match (s.strand? h).bind (reachable s h) with
  | some (i, ws) => .run i (s.atIssue h ws)
  | none => .rest s

/-! ### Turns -/

/-- The issue of a strand's instruction is charged to its context, once however often the instruction is issued again after a wait, and whether it commits or
not (R398; DESIGN CHOICE, log entry 86). -/
def countIssue (s : State) (h : Handle) : State :=
  match s.strand? h with
  | some st => if st.counted then s else (s.setStrand h { st with counted := true }).charge st.ctx 0 1
  | none => s

/-- The instruction of a strand that a slot issues: the one at its PC, in the state after its fetch. A fetch that fails, or parks on a page, takes the place
of the instruction (R381). A vector instruction that `retry` issues again comes from its record (R236). Where the turn says so, or an earlier access of the core
is on its way to the same bank, an access whose guard holds is still on its way at its end (R36, R188). -/
def issueStrand (s : State) (h : Handle) (st : Strand) (hold : Bool) : Chosen :=
  match st.reissue with
  | some m => .run m.op ((countIssue s h).atIssue h m.words)
  | none =>
    match fetch s h st with
    | .ok (s1, ws, i) =>
      let banks := portBanks s1 h st i
      match (if (hold || behind s1 st banks) && guardHolds (guardOf i) st then (travels i).filter (sourcesReady s1 h st i) else none) with
      | some srcs => .rest (depart (countIssue s1 h) h { st with counted := true } ws srcs banks)
      | none => .run i ((countIssue s1 h).atIssue h ws)
    | .error e => .rest (raise s h st e)

/-- A candidate of a core issues at its cycle, unless a slot of another core has to issue before (R141, R142); `i` is what the movement slot carries out. -/
def issueCandidate (s : State) (c : CoreId) (e : Candidate) (i : Option Instr) (hold : Bool) : Chosen :=
  let n := e.1 - s.cycle
  let s1 := passTime s n
  if s1.cycle < e.1 then .rest s1
  else
    match e.2.2, i with
    | some (h, st), _ => issueStrand (noteIssue s1 c st) h st hold
    | none, some i => .run i (noteSlot s1 c 15)
    | none, none => .rest s1

/-- A core issues at the next cycle of its rotation (R141, R142). -/
def issueOn (s : State) (c : CoreId) (hold : Bool) : Chosen :=
  match nextIssue s c false with
  | none => .rest s
  | some e => issueCandidate s c e (moverWork s c) hold

/-- An event comes about after some cycles. One that a movement slot carries out takes that slot's turn, which has to be the next of its core; without that
work pending the slot has no turn (R142, R143). -/
def eventTurn (s : State) (i : Instr) (dt : Nat) : Chosen :=
  match moverOf s i with
  | none => .run i (passTime s dt)
  | some c =>
    match (if moverReady s i then nextIssue s c true else none) with
    | some (t, _, none) => issueCandidate s c (t, 15, none) (some i) false
    | _ => .rest (passTime s dt)

/-! ### The default schedule (DESIGN CHOICE, log entry 1) -/

/-- The events of a strand that may come about. -/
def strandEvents (s : State) (e : Handle × Strand) : List Instr :=
  let (h, st) := e
  (if !s.coreIn st.core then [.taskReplay h] else []) ++
  (if st.flight.isSome || !st.due.isEmpty then [.exceptionDelivery h] else []) ++
  (if !st.fills.isEmpty || st.fillDue.isSome then [.fillApply h] else []) ++
  (if st.reply?.isSome then [.accessReply h] else []) ++
  (if st.sending.any fun x => sendExpired s st.ctx x then [.sendTimeout h] else []) ++
  (match st.status with
   | .parked (.atPlace _) => [.accessPerform h]
   | .parked (.refused _) => [.requestRetry h]
   | .parked .fence => [.fenceProbe h]
   | _ => [])

/-- The events of a quad that may come about. -/
def quadEvents (s : State) (q : QuadId) : List Instr :=
  let work := (coresOfQuad q).any fun c => !(s.core c).mqueue.isEmpty
  (if (s.quad q).running.isSome then [.matrixCommit q] else if work then [.matrixStart q] else []) ++
  (if (s.quad q).window ≠ s.cycle / 1024 then [.governorWindow q] else []) ++
  (if (s.quad q).turn ≠ s.cycle / 512 then [.matrixTurn q] else [])

/-- The events of a cluster that may come about. -/
def clusterEvents (s : State) (e : ClusterId × Cluster) : List Instr :=
  let (c, x) := e
  (if x.claims.isEmpty then [] else [.claimGrant c]) ++ (if x.handlers.isEmpty then [] else [.handlerBind c]) ++
  (if x.dbg.halted then [] else (x.dbg.matched.take 1).map fun k => .crashHalt c k) ++
  (if x.brush.queue.isEmpty then [] else [.sweepPass c, .slabExchange c, .sweepComplete c]) ++
  quadEvents s ⟨c, false⟩ ++ quadEvents s ⟨c, true⟩

/-- A context whose tasks a core could take up in place of its present one: that of its first work packet (R159). -/
def nextContext (x : Core) : Option CtxId := (x.work.head?).map TaskSource.ctx

/-- The events of a core that may come about. -/
def coreEvents (s : State) (e : CoreId × Core) : List Instr :=
  let (c, x) := e
  (if x.away.isEmpty then [] else [.preemptedReturn c]) ++
  (if x.deque.isEmpty then [] else [.dequeBind c]) ++ (if x.work.isEmpty then [] else [.workPacketBind c]) ++
  (if (slotFor s c .steal).isSome then [.steal c] else []) ++
  (if (VectorFile.dispatchable x.vec).isSome then [.vectorDispatch c] else []) ++ (if (VectorFile.performable x.vec).isSome then [.vectorPoolCommit c] else []) ++
  (if x.copies.isEmpty then [] else [.copyBurst c, .copyComplete c, .copyFirmwareFinish c]) ++
  (if x.copies.isEmpty ∧ (overdueQcmd s c).isNone then [] else [.epochCompletion c]) ++
  (match x.ctx with
   | some ctx => if (nextContext x).any fun k => k != ctx && !coreBusy s c then [.contextSwitchOut c] else []
   | none => ((s.contexts.filter fun k => k.2.saved.any fun y => decide (y.core = c)).take 1).map fun k => .contextRestore c k.1)

/-- The events of a die that may come about. -/
def dieEvents (e : BitVec 2 × Die) : List Instr :=
  let (d, x) := e
  (if x.qqueue.isEmpty then [] else [.qcmdComplete d, .qcmdResume d]) ++ (if x.queries.isEmpty ∧ x.answers.isEmpty then [] else [.wdqAnswer d])

/-- The events of a launch that may come about. -/
def launchEvents (s : State) (e : Nat × Launch) : List Instr :=
  let (id, l) := e
  (l.granting.take 1).map (fun c => .leaseGrant id c) ++
  ((l.leases.filter fun c => l.placed && !tasksOn s id c).take 1).map (fun c => .leaseRelease id c) ++
  (if l.placed ∧ !l.retired ∧ !launchTasks s id then [.launchRetire id] else []) ++
  (if l.placed ∨ l.retired then [] else [.launchPlace (frontDie s l.queue), .preempt id])

/-- The events of a context's queues that may come about. -/
def queueEvents (s : State) (e : CtxId × Context) : List Instr :=
  e.2.queues.filterMap fun q => match headPacket s e.1 q.1 with
    | none => none
    | some (.error _) => some (.packetLaunch e.1 q.1)
    | some (.ok (_, ws)) => match packetByte ws 0 with
      | 1 => some (.packetLaunch e.1 q.1)
      | 2 => some (.packetWaitev e.1 q.1)
      | 3 => some (.packetSignal e.1 q.1)
      | 4 => some (.packetSetdet e.1 q.1)
      | _ => some (.packetQfence e.1 q.1)

/-- Every event that the module itself may bring about now. An event whose condition does not hold changes nothing. -/
def moduleEvents (s : State) : List Instr :=
  (match s.boot with
   | .rom => [.resetBoot]
   | _ => []) ++
  s.strands.flatMap (strandEvents s) ++ s.offers.map (fun o => if o.path.isEmpty then .messageOffer o.id else .relayOffer o.id) ++
  s.clusters.flatMap (clusterEvents s) ++ s.cores.flatMap (coreEvents s) ++ s.dies.flatMap dieEvents ++
  s.launches.flatMap (launchEvents s) ++ s.contexts.flatMap (queueEvents s) ++
  ((s.eventWaits.filter fun e => !e.reports.isEmpty).map fun e => .waitevWriteReport e.ctx e.queue) ++
  (if s.smpctl.getLsbD 8 ∧ s.pulseDue ≤ s.cycle then [.samplingPulse] else [])

/-- A posted write can arrive at its place: it is the first of its engine there, and no running sweep covers its word (R285, R294, R363). -/
def mayArrive (s : State) (i : Nat) : Bool :=
  (s.posted[i]?).any fun p => !((s.posted.take i).any p.sameWay) && !p.swept s

/-- A posted write arrives at its place (R285, R294, R363). -/
def arriveAt (s : State) (i : Nat) : State :=
  match s.posted[i]? with
  | some p => if mayArrive s i then { s with posted := s.posted.eraseIdx i }.arrive p else s
  | none => s

/-- An access that is on its way, and before any other of its core to the same bank. -/
def inTransit (s : State) : Option Handle :=
  (s.strands.find? fun e => (reachable s e.1 e.2).isSome).map (·.1)

/-- A task with an entry of its replay records that has not been written. -/
def unstored (s : State) : Option Handle := (s.strands.find? fun e => decide (e.2.entryAt.length < e.2.entries)).map (·.1)

/-- The core whose next slot issues first. -/
def firstCore (s : State) : Option CoreId :=
  match (readyCores s).filterMap fun c => (nextIssue s c false).map fun e => (e.1, c) with
  | [] => none
  | e :: t => some (t.foldl (fun a b => if b.1 < a.1 then b else a) e).2

/-- What the default schedule chooses: what is on its way arrives, replay records are written, and then events, each in its turn round and round, and issues
come by turns. -/
def autoChoice (s : State) (dt : Nat) : Chosen :=
  let s1 := { s with turn := s.turn + 1 }
  match (List.range s.posted.length).find? (mayArrive s), inTransit s, unstored s with
  | some i, _, _ => .rest (arriveAt (passTime s1 (dt + 1)) i)
  | none, some h, _ => reachPlace (passTime s1 dt) h
  | none, none, some h => .rest (storeRecord s1 h)
  | none, none, none =>
    let es := moduleEvents s
    let c := firstCore s
    let event := if es.isEmpty ∨ (s.turn % 2 = 1 ∧ c.isSome) then none else es[s.turn / 2 % es.length]?
    match event, c with
    | some i, _ => eventTurn s1 i dt
    | none, some c => issueOn s1 c false
    | none, none => .rest (passTime s1 (dt + 1))

/-- Events of the opcode table; the other rows are instructions, which only a strand issues. -/
def isEvent : Instr → Bool
  | .taskReplay .. | .dbgctlCrash .. | .dbgctlGo .. | .qtailWrite .. | .handlerBind .. | .migrationPacket .. | .inboxBind .. | .dequeBind ..
  | .workPacketBind .. | .preemptedReturn .. | .steal .. | .dequeSpill .. | .dequeRefill .. | .fillApply .. | .messageOffer ..
  | .relayOffer .. | .sendTimeout .. | .requestRetry .. | .accessPerform .. | .accessReply .. | .fenceProbe .. | .claimGrant ..
  | .vectorDispatch .. | .vectorPoolCommit .. | .exceptionDelivery .. | .matrixStart .. | .matrixCommit .. | .governorWindow ..
  | .matrixTurn .. | .matrixAbandon .. | .copyIssue .. | .copyBurst .. | .copyComplete .. | .copyFirmwareFinish .. | .qcmdComplete ..
  | .qcmdResume .. | .wdqAnswer .. | .leaseGrant .. | .leaseRelease .. | .preempt .. | .contextSwitchOut .. | .contextRestore ..
  | .packetLaunch .. | .packetWaitev .. | .waitevWriteReport .. | .packetSignal .. | .packetSetdet .. | .packetQfence .. | .launchPlace ..
  | .launchRetire .. | .epochCompletion .. | .sweepPass .. | .slabExchange .. | .sweepComplete .. | .crashHalt .. | .pageWalk ..
  | .resetBoot | .recoveryImage .. | .attestationRequest .. | .contextCreate .. | .jobJoin .. | .windowBind .. | .linkUp .. | .linkRekey ..
  | .flitReceive .. | .laneFail .. | .collContribution .. | .hostBarAccess .. | .samplingPulse | .contextFinalRelease ..
  | .sliceWindowGrant .. | .hostDebugRequest .. | .errorRetry .. | .unitOutOfService .. => true
  | _ => false

/-! ### What a replay issues again (R386) -/

/-- A strand that waited on a page issues again: its access, which takes no turn of its slot, or the fetch of its instruction; where something is to reach it
before its next issue it goes back into rotation (R381, R386). -/
def reissueStrand (s : State) (h : Handle) (st : Strand) : Chosen :=
  if !strandReady s st.core st then .rest s
  else if st.counted then issueStrand s h st false
  else
    match fetch s h st with
    | .ok (s1, _, _) => .rest s1
    | .error e => .rest (raise s h st e)

/-- A vector command that waited on a page starts again, before the others of its core unless one has begun (R223, R235, R386). -/
def reissueVector (s : State) (c : CoreId) (id : Nat) : Chosen :=
  let s1 := s.modVec c fun f => { f with waiting := dropAll id f.waiting }
  if (s1.core c).vec.performable.any fun m => m.id == id then .run (.vectorPoolCommit c) s1 else .rest s1

/-- A copy of the module. -/
def State.copy? (s : State) (id : Nat) : Option Copy := s.cores.findSome? fun e => e.2.copies.find? fun m => m.id == id

/-- The die whose quantisation engine has a command. -/
def qcmdDie (s : State) (id : Nat) : Option (BitVec 2) := (s.dies.find? fun e => e.2.qqueue.any fun m => m.id == id).map (·.1)

/-- What waited on a page is issued again (R386): a further fault makes a new entry. -/
def reissue (s : State) : XlateWait → Chosen
  | .strand h =>
    match s.strand? h with
    | some st => if st.status = .parked .translation then reissueStrand (s.setStrand h { st with status := .ready }) h { st with status := .ready } else .rest s
    | none => .rest s
  | .vector c id => reissueVector s c id
  | .copy id =>
    match s.copy? id with
    | some m => .rest (if firmwareReady s m then finishCopy s m else s)
    | none => .rest s
  | .qcmd id =>
    match qcmdDie s id with
    | some d => .run (.qcmdResume d) s
    | none => .rest s

/-- The step while a `replay` has something to issue again: that comes first, with the time and the values of a turn that leaves the choice open (R386; DESIGN
CHOICE, log entry 1). -/
def reissueNext (s : State) (w : XlateWait) : Chosen :=
  match s.agenda with
  | t :: rest => if t.what = .auto then reissue (passTime { s with agenda := rest, picks := t.picks } t.dt) w else reissue { s with picks := [] } w
  | [] => reissue { s with picks := [] } w

/-- What the next step executes: what a `replay` issues again, else the head of the agenda, or what the default schedule chooses (DESIGN CHOICE, log entry 1). -/
def choose (s : State) : Chosen :=
  match s.reissue, s.agenda with
  | w :: more, _ => reissueNext { s with reissue := more } w
  | [], [] => autoChoice { s with picks := [] } 0
  | [], t :: rest =>
    let s1 := { s with agenda := rest, picks := t.picks }
    match t.what with
    | .issue c => issueOn s1 c false
    | .hold c => issueOn s1 c true
    | .reach h => reachPlace (passTime s1 t.dt) h
    | .event i => if isEvent i then eventTurn s1 i t.dt else .rest (passTime s1 t.dt)
    | .arrive i => .rest (arriveAt (passTime s1 t.dt) i)
    | .foreign x => .rest (foreignAccess (passTime s1 t.dt) x)
    | .cut m => .rest (cutOff (passTime s1 t.dt) m)
    | .flit d dir lane => .rest (sendFlit (passTime s1 t.dt) (d, dir, lane))
    | .record h => .rest (storeRecord (passTime s1 t.dt) h)
    | .auto => autoChoice s1 t.dt

end Sys2Proof.Machine
end

