-- ==== Sys2Proof/Machine/Step.lean ====
section
/-! DEFINITION. One step of the module, and the placing of an instruction where the next step fetches it. -/

namespace Sys2Proof.Machine

/-- What is left of an outcome once the step is over. -/
def finish : Out → Out
  | .next s => .next (settleStep s)
  | .fault f => .fault f
  | .refused r => .refused r

/-- What was chosen is executed. -/
def carryOut : Chosen → Out
  | .run i s => finish (exec i s)
  | .rest s => .next (settleStep s)

/-- One step: the next instruction or event of the agenda, or of the default schedule, as one indivisible act (DESIGN CHOICE, log entry 1). -/
def step (s : State) : Host.Outcome State Fault Refusal := carryOut (choose s)

/-- The core, the context and the handle of the strand that `State.withFetchWord` binds. -/
def bootCore : CoreId := ⟨0, 0, 0⟩
def bootContext : CtxId := 1
def bootHandle : Handle := handleOf bootCore 0 1

/-- The system context of that strand. -/
def placedContext : Context :=
  { system := true, level := 0, sndto := 0x00100000, traptab := 0, flttab := 0, fltrec := 0, qtab := 0, ptroot := 0, rrspill := 0
    smpbuf := 0, records := [], waitingRecord := [], queues := [], setdet := [], energy := 0, past := [], shown := 0, saved := []
    measurement := List.replicate 64 0, key := 0 }

/-- The task of that strand: it starts at address 0. -/
def placedSource : TaskSource :=
  { entry := 0, args := Vector.replicate 4 0, fmta := 0, fmtb := 0, scla := 0, sclb := 0, role := 0, launch := 0, ctx := bootContext
    level := 0, index := none }

/-- The translation of the page at address 0: present, a leaf, writable and executable. -/
def placedPage : TlbEntry := ⟨bootContext, 0, 65536, 0xF⟩

/-- The bits of an instruction stored from address 0 on, each 16-bit word in its byte order, and zero above them (R31). -/
def placedBytes (nbits w : Nat) : List Byte := (List.range 12).map fun i => BitVec.ofNat 8 (w % 2 ^ nbits / 256 ^ i)

/-- The state in which the next step fetches and issues an instruction whose bits are `w`: the firmware runs, a strand of a system context is
bound in slot 0 of core 0 of cluster 0 of die 0 at address 0, where the instruction stands, and the agenda issues on that core (DESIGN CHOICE, log entry 18). -/
def State.withFetchWord (s : State) (nbits w : Nat) : State :=
  { s with
    boot := .running
    mem := Memory.writeBytes s.mem 0 (placedBytes nbits w)
    contexts := Table.put bootContext placedContext s.contexts
    cores := Table.put bootCore { s.core bootCore with ctx := some bootContext } s.cores
    clusters := Table.put (clusterOf bootCore) { s.cluster (clusterOf bootCore) with tlb := [placedPage], icache := [] } s.clusters
    strands := [(bootHandle, boundTask placedSource bootCore 0)]
    reissue := []
    agenda := [⟨.issue bootCore, 1, []⟩] }

end Sys2Proof.Machine
end

