-- ==== Sys2Proof/Safety.lean ====
section
/-! DEFINITION. What counts as a safe run, and the terms in which claims are made. The module of the manual never stops: a fault of R103 is a next
state, so a safe step is one that answers a next state, and a safe state is one in which every step from it on does. -/

namespace Sys2Proof.Safety

open Sys2Proof.Machine

/-! ### Runs -/

/-- An outcome with a next state. -/
def answers : Out → Option State
  | .next s => some s
  | _ => none

/-- The instruction or event `i` completes in a state. -/
def completes (i : Instr) (s : State) : Prop := ∃ t, exec i s = .next t

/-- A run of `n` steps stays among next states. -/
def runs (s : State) : Nat → Prop
  | 0 => True
  | n + 1 => ∃ t, step s = .next t ∧ runs t n

/-- A state is safe: no run from it stops. -/
def safe (s : State) : Prop := ∀ n, runs s n

/-! ### One instruction of a strand -/

/-- Task `h`, whose record is `st`, issues an instruction of guard `g`, and the guard holds (R36, R141). -/
abbrev Issues (s : State) (h : Handle) (st : Strand) (g : Option Guard) : Prop := s.issuing = some (h, st) ∧ guardHolds g st = true

/-- The instruction commits (R30, R49): the sources' queues popped, the destination written, the PC at the next instruction. -/
def commits (s : State) (h : Handle) (st : Strand) (srcs : List Reg) (dst : Option (Reg × Word)) : Out :=
  .next (commitAt s h st srcs dst (nextPc s st))

/-- A value can be written to a destination register now: a queue has room, and it is the strand's turn (R145). -/
abbrev Room (s : State) (h : Handle) (st : Strand) (srcs : List Reg) (a : Reg) : Prop := hasRoom (s.core st.core) h srcs (some (a, 0)) = none

/-- The operation is performed, not replayed from a record (R392). -/
abbrev Fresh (st : Strand) : Prop := st.replay = none

/-- The strand parks (R52): it waits for `w`, its registers stay, and so does memory. -/
def Parks (o : Out) (s : State) (h : Handle) (st : Strand) (w : Wait) : Prop :=
  ∃ t y, o = .next t ∧ t.strand? h = some y ∧ y.status = .parked w ∧ y.r = st.r ∧ ∀ a, Memory.read t.mem a = Memory.read s.mem a

/-- Every byte of memory reads as before. -/
def SameBytes (s t : State) : Prop := ∀ a, Memory.read t.mem a = Memory.read s.mem a

/-- The general registers other than those listed hold what they held, full or empty. -/
def KeepsGeneral (except : List (Fin 24)) (x y : Regs) : Prop :=
  ∀ i : Fin 24, i ∉ except → y.gpr[i] = x.gpr[i] ∧ y.full.getLsbD i.val = x.full.getLsbD i.val

/-- The general register that a destination field names, if it names one. -/
def generalOf : Reg → List (Fin 24)
  | .g i => [i]
  | _ => []

/-- The result of an N-bit operation as a register holds it (R53, R106): the sign extended for `.sN`, zeros for `.nN`. -/
def extended (z : Size) (x : BitVec (sizeBits z)) : Word := if sizeSigned z then x.signExtend 64 else x.setWidth 64

/-- The low N bits of an operand (R106). -/
def narrow (z : Size) (x : Word) : BitVec (sizeBits z) := x.setWidth (sizeBits z)

/-- The low N bits of an operand extended to 2N bits by the sign of the suffix (R106). -/
def doubled (z : Size) (x : Word) : BitVec (2 * sizeBits z) := if sizeSigned z then (narrow z x).signExtend _ else (narrow z x).setWidth _

/-- One operand is below another at a size (R106, R114). -/
def below (z : Size) (x y : Word) : Bool := if sizeSigned z then (narrow z x).slt (narrow z y) else (narrow z x).ult (narrow z y)

/-- The truth of an integer condition (R114), from the equality and the order of the operands. -/
def holds (cc : Cond) (z : Size) (x y : Word) : Bool :=
  let eq := narrow z x == narrow z y
  match cc with
  | .eq => eq
  | .ne => !eq
  | .lt => below z x y
  | .le => below z x y || eq
  | .gt => !(below z x y || eq)
  | .ge => !below z x y
  | .uo => false
  | .or => true

/-- A trap taken at the strand's PC (R101): the records, the saved PC, the in-trap bit, the PC at the handler; every other register and every byte of
memory as before. -/
def TrapTaken (s : State) (h : Handle) (st : Strand) (info : TrapInfo) (t : State) : Prop :=
  (∃ y, t.strand? h = some y ∧ y.status = .ready ∧
    y.r = { st.r with trappc := st.r.pc, trec := trapRecords st.r.pc s.words info, inTrap := true, pc := trapHandler s st info.number.toNat }) ∧
  t.mem = s.mem ∧ ∀ k, k ≠ h → (t.strand? k).map (·.r) = (s.strand? k).map (·.r)

/-! ### Register instructions -/

/-- Instructions of page 0 whose whole effect lies in registers, queues and the PC. -/
def registerOnly : Instr → Bool
  | .add .. | .sub .. | .mul .. | .mulh .. | .div .. | .rem .. | .and .. | .or .. | .xor .. | .andn .. | .shl .. | .shr .. | .sar .. | .rol ..
  | .clz .. | .popc .. | .min .. | .max .. | .sel .. | .mov .. | .li .. | .addi .. | .lea .. | .cmp .. | .cmpi .. | .psetAnd .. | .psetOr ..
  | .psetXor .. | .psetConst .. | .bfx .. | .bfi .. | .br .. | .jmp .. | .jr .. | .call .. | .ret .. | .loop .. | .nop ..
  | .fadd .. | .fsub .. | .fmul .. | .ffma .. | .fmin .. | .fmax .. | .fcmp .. | .fcvt .. => true
  | _ => false

/-- Their destination among the general, queue and shared registers. -/
def regDest : Instr → Option Reg
  | .add _ _ a _ _ | .sub _ _ a _ _ | .mul _ _ a _ _ | .mulh _ _ a _ _ | .div _ _ a _ _ | .rem _ _ a _ _ | .and _ _ a _ _ | .or _ _ a _ _
  | .xor _ _ a _ _ | .andn _ _ a _ _ | .shl _ _ a _ _ | .shr _ _ a _ _ | .sar _ _ a _ _ | .rol _ _ a _ _ | .clz _ _ a _ | .popc _ _ a _
  | .min _ _ a _ _ | .max _ _ a _ _ | .sel _ a _ _ _ | .mov _ _ a _ | .li _ a _ | .addi _ _ a _ _ | .lea _ a _ | .bfx _ _ a _ _ _
  | .bfi _ a _ _ _ | .loop _ a _ | .fadd _ _ _ a _ _ | .fsub _ _ _ a _ _ | .fmul _ _ _ a _ _ | .ffma _ _ _ a _ _ | .fmin _ _ a _ _
  | .fmax _ _ a _ _ | .fcvt _ _ _ _ a _ => some a
  | .call .. => some (.g 23)
  | _ => none

/-- Their destination among the predicates. -/
def predDest : Instr → Option (BitVec 4)
  | .cmp _ _ _ p _ _ | .cmpi _ _ _ p _ _ | .psetAnd _ p _ _ _ _ | .psetOr _ p _ _ _ _ | .psetXor _ p _ _ _ _ | .psetConst _ p _
  | .fcmp _ _ _ p _ _ => some p
  | _ => none

/-- They may set sticky flags (R55, R87). -/
def setsFlags : Instr → Bool
  | .fadd .. | .fsub .. | .fmul .. | .ffma .. | .fmin .. | .fmax .. | .fcmp .. | .fcvt .. => true
  | _ => false

/-- Their source registers, whose queues a commit pops (R50). -/
def regSources : Instr → List Reg
  | .add _ _ _ b c | .sub _ _ _ b c | .mul _ _ _ b c | .mulh _ _ _ b c | .div _ _ _ b c | .rem _ _ _ b c | .and _ _ _ b c | .or _ _ _ b c
  | .xor _ _ _ b c | .andn _ _ _ b c | .shl _ _ _ b c | .shr _ _ _ b c | .sar _ _ _ b c | .rol _ _ _ b c
  | .min _ _ _ b c | .max _ _ _ b c | .sel _ _ b c _ | .cmp _ _ _ _ b c | .fadd _ _ _ _ b c | .fsub _ _ _ _ b c | .fmul _ _ _ _ b c
  | .fmin _ _ _ b c | .fmax _ _ _ b c | .fcmp _ _ _ _ b c => [b, c]
  | .ffma _ _ _ a b c => [b, c, a]
  | .clz _ _ _ b | .popc _ _ _ b | .mov _ _ _ b | .addi _ _ _ b _ | .cmpi _ _ _ _ b _ | .bfx _ _ _ b _ _ | .fcvt _ _ _ _ _ b => [b]
  | .bfi _ a b _ _ => [b, a]
  | .jr _ a | .loop _ a _ => [a]
  | _ => []

/-! ### Fetching -/

/-- Words fetched in turn from the strand's PC on, `k` of them before (R31); what a fetch keeps in the caches and TLBs stays. -/
def Fetches (s : State) (h : Handle) (st : Strand) (k : Nat) : List Half → State → Prop
  | [], t => t = s
  | w :: ws, t => ∃ u, fetchWord s h st (st.r.pc + BitVec.ofNat 64 (2 * k)) = .ok (u, w) ∧ Fetches u h st (k + 1) ws t

/-- The words of one instruction: the decoder needs every one of them, and reads `i` from them all (R31, R47). -/
def WordsOf (ws : List Half) (i : Instr) : Prop :=
  decode ws = .instr i ws.length ∧ 1 ≤ ws.length ∧ ws.length ≤ 6 ∧ ∀ k, 1 ≤ k → k < ws.length → decode (ws.take k) = .short

/-! ### Vector and directional commands -/

/-- A vector or directional instruction that captures no scalar operand when it issues (R215, R246). -/
def capturesNothing : Instr → Bool
  | .vadd .. | .vsub .. | .vmul .. | .vfma .. | .vmin .. | .vmax .. | .vabs .. | .vneg .. | .vand .. | .vor .. | .vxor .. | .vshl ..
  | .vshr .. | .vcmp .. | .vsel .. | .vredAdd .. | .vredMin .. | .vredMax .. | .vdot .. | .vperm .. | .vexp2 .. | .vlog2 .. | .vrsq ..
  | .vrcp .. | .vsqrt .. | .vdiv .. | .viota .. | .vscanAdd .. | .vscanMin .. | .vscanMax ..
  | .dfrom .. | .dto .. | .dcos .. | .ddot .. | .dadd .. | .dneg .. | .dproj .. | .dnorm .. | .dmov .. | .dtest .. => true
  | _ => false

/-- The command that a vector or directional instruction enters into its core's dispatch queue (R215, R236). -/
def vectorCommand (s : State) (h : Handle) (st : Strand) (i : Instr) (args : List Word) : VCmd :=
  { id := s.fresh, op := i, h := h, pc := st.issuePc, words := s.latch, args := args, daz := (s.core st.core).daz, xr := (s.core st.core).xr
    trap := st.r.inTrap, ahead := st.r.inTrap && (s.core st.core).vec.isHeld, prior := priorOf st i, got := [], owed := [] }

/-- A dispatch queue of a core: its own, or the trap dispatch queue (R215, R236). -/
def dispatchQueue (c : Core) (trap : Bool) : List VCmd := if trap then c.vec.trapQueue else c.vec.queue

/-- The dispatch queue that a strand's command enters has room (R202, R236). -/
abbrev DispatchRoom (s : State) (st : Strand) : Prop := (dispatchQueue (s.core st.core) st.r.inTrap).length < 8

/-- A vector or directional instruction has issued and committed as far as its strand is concerned (R215): its command stands at the tail of its
queue, each of its destinations is empty, the values of every register are as before, and the strand stands at the next instruction. -/
def Entered (s : State) (h : Handle) (st : Strand) (i : Instr) (args : List Word) (t : State) : Prop :=
  dispatchQueue (t.core st.core) st.r.inTrap = dispatchQueue (s.core st.core) st.r.inTrap ++ [vectorCommand s h st i args] ∧
  dispatchQueue (t.core st.core) (!st.r.inTrap) = dispatchQueue (s.core st.core) (!st.r.inTrap) ∧
  (t.core st.core).vec.v = (s.core st.core).vec.v ∧ (t.core st.core).vec.d = (s.core st.core).vec.d ∧
  (t.core st.core).vec.vn = (s.core st.core).vec.vn ∧
  (∀ a, (vdest i).2.1 = some a → (t.core st.core).vec.vfull.getLsbD a.toNat = false) ∧
  (∀ a, (vdest i).2.2 = some a → (t.core st.core).vec.dfull.getLsbD a.toNat = false) ∧
  (∃ y, t.strand? h = some y ∧ y.status = .ready ∧ y.r.pc = nextPc s st ∧ y.r.gpr = st.r.gpr ∧
    (∀ a, (vdest i).1 = some a → y.r.full.getLsbD a.val = false)) ∧
  SameBytes s t

/-- A pool commit leaves its command's strand with flags and tmask bits added, and every other register as it was (R87, R88, R215). -/
def PoolNoted (s u : State) (m : VCmd) (fl : BitVec 6) (tm : BitVec 48) : Prop :=
  ∃ p q, s.strand? m.h = some p ∧ u.strand? m.h = some q ∧ q.r = { p.r with sflags := p.r.sflags ||| fl, tmask := p.r.tmask ||| tm }

/-- A command of the pool has written a v register in a view (R214, R215): the `n` positions from `lo` on hold `x`, the others and every other register are
as before; the register is full, the command has left the pool, and memory is as before. -/
def PoolWrote (s u : State) (c : CoreId) (m : VCmd) (a : BitVec 4) (wide : Bool) (lo n : Nat) (x : Nat → Nat) (fl : BitVec 6) (tm : BitVec 48) : Prop :=
  (∀ i, i < positions wide →
    VReg.pos ((u.core c).vec.reg a) wide i = if lo ≤ i ∧ i < lo + n then x (i - lo) else VReg.pos ((s.core c).vec.reg a) wide i) ∧
  (∀ r, r ≠ a → (u.core c).vec.reg r = (s.core c).vec.reg r) ∧ (u.core c).vec.d = (s.core c).vec.d ∧ (u.core c).vec.vn = (s.core c).vec.vn ∧
  (u.core c).vec.vfull = (s.core c).vec.vfull ||| BitVec.twoPow 16 a.toNat ∧ m ∉ (u.core c).vec.running ∧ SameBytes s u ∧ PoolNoted s u m fl tm

/-- A directional command of the pool has written a d register with its norm (R215, R245). -/
def PoolWroteD (s u : State) (c : CoreId) (m : VCmd) (a : BitVec 3) (x : Vector (BitVec 16) 128 × BitVec 32) (fl : BitVec 6) (tm : BitVec 48) : Prop :=
  (u.core c).vec.dreg a = x ∧ (∀ r, r ≠ a → (u.core c).vec.dreg r = (s.core c).vec.dreg r) ∧ (u.core c).vec.v = (s.core c).vec.v ∧
  (u.core c).vec.dfull = (s.core c).vec.dfull ||| BitVec.twoPow 8 a.toNat ∧ m ∉ (u.core c).vec.running ∧ SameBytes s u ∧ PoolNoted s u m fl tm

/-- A command of the pool has written a general register of its strand and set it full (R215, R233); the vector registers and memory are as before. -/
def PoolGave (s u : State) (c : CoreId) (m : VCmd) (r : Fin 24) (v : Word) (fl : BitVec 6) : Prop :=
  (∃ p q, s.strand? m.h = some p ∧ u.strand? m.h = some q ∧
    q.r = { p.r with gpr := p.r.gpr.set r v, full := p.r.full ||| BitVec.twoPow 24 r.val, sflags := p.r.sflags ||| fl }) ∧
  (u.core c).vec.v = (s.core c).vec.v ∧ (u.core c).vec.d = (s.core c).vec.d ∧ m ∉ (u.core c).vec.running ∧ SameBytes s u

/-- Element writes of a command have been performed at their locations, position by position, `w` bytes each (R221-R223): every other byte is as before, and
the bytes of a position that no higher one shares hold its value. -/
def PoolStored (s u : State) (c : CoreId) (m : VCmd) (w : Nat) (ls : List (Nat × Loc)) (x : Nat → Nat) : Prop :=
  (∀ j, (∀ e ∈ ls, j < e.2.key ∨ e.2.key + w ≤ j) → Memory.read u.mem j = Memory.read s.mem j) ∧
  (∀ e ∈ ls, (∀ e' ∈ ls, e.1 < e'.1 → e'.2.key + w ≤ e.2.key ∨ e.2.key + w ≤ e'.2.key) → Memory.readN u.mem e.2.key w = x e.1 % 256 ^ w) ∧
  (u.core c).vec.v = (s.core c).vec.v ∧ (u.core c).vec.d = (s.core c).vec.d ∧ m ∉ (u.core c).vec.running ∧ PoolNoted s u m 0 (locMask c (ls.map (·.2)))

/-- The flags that a number of element operations raise together (R55). -/
def flagsOf (n : Nat) (f : Nat → Nat × Flags) : BitVec 6 := (List.range n).foldl (fun v i => v ||| (f i).2.bits) 0

/-- The pairwise tree of R77: the node at a level and a place, over the leaves at level 0. -/
def treeOf {α : Type} (node : α → α → α) (leaf : Nat → α) : Nat → Nat → α
  | 0, i => leaf i
  | k + 1, i => node (treeOf node leaf k (2 * i)) (treeOf node leaf k (2 * i + 1))

/-- A tile command has issued (R266): it stands at the tail of its core's matrix queue, its strand is out of rotation at the instruction, and nothing
else of the strand, the accumulators or memory has changed. -/
def TileEntered (s : State) (h : Handle) (st : Strand) (m : MCmd) (t : State) : Prop :=
  (t.core st.core).mqueue = (s.core st.core).mqueue ++ [m] ∧
  t.strand? h = some { st with status := .removed, kept := none, tile := some (st.tile.getD s.fresh) } ∧
  (t.core st.core).m = (s.core st.core).m ∧ SameBytes s t

/-! ### Events of the module -/

/-- A task bound from a source into a slot of a core (R84, R89, R93): a strand stands there under a handle of its own, with its entry at the PC, its
arguments in g0-g3 and zero above, every register full, the formats and pointers of the source, and every other register of R84 zero. Memory
and every other task stay. -/
def Bound (s t : State) (x : TaskSource) (c : CoreId) (slot : BitVec 4) : Prop :=
  ∃ gen y, t.strand? (handleOf c slot gen) = some y ∧ (t.core c).gens[Fin.ofNat 15 slot.toNat] = gen ∧ (t.core c).ctx = some x.ctx ∧
    y.core = c ∧ y.slot = slot ∧ y.status = .ready ∧ y.ctx = x.ctx ∧ y.launch = x.launch ∧ y.role = x.role ∧ y.index = x.index ∧
    y.r.pc = x.entry ∧ (∀ i : Fin 24, y.r.gpr[i] = if h : i.val < 4 then x.args[i.val] else 0) ∧ y.r.full = BitVec.allOnes 24 ∧
    y.r.preds = 0 ∧ y.r.sflags = 0 ∧ y.r.tmask = 0 ∧ y.r.trappc = 0 ∧ y.r.trec = Vector.replicate 8 0 ∧ y.r.inTrap = false ∧
    y.r.fmta = x.fmta ∧ y.r.fmtb = x.fmtb ∧ y.r.scla = x.scla ∧ y.r.sclb = x.sclb ∧
    t.mem = s.mem ∧ ∀ k, k ≠ handleOf c slot gen → t.strand? k = s.strand? k

/-- A strand is back in rotation and issues its instruction again (R52); every other strand and memory stay. -/
def Rejoins (o : Out) (s : State) (h : Handle) (st : Strand) : Prop :=
  ∃ t, o = .next t ∧ t.strand? h = some { st with status := .ready } ∧ t.mem = s.mem ∧ ∀ k, k ≠ h → t.strand? k = s.strand? k

/-- A reply has reached the pending access of a strand, which commits it later (R124). -/
def Replied (t : State) (h : Handle) (p : Pending) (v : Word) (flags : BitVec 6) : Prop :=
  ∃ y, t.strand? h = some y ∧ y.pending = some { p with reply := some (.inl ⟨v, flags⟩) } ∧ y.status = .parked .reply

end Sys2Proof.Safety
end

