-- ==== Sys2Proof/Certificates/Slice0/Obligations.lean ====
section
/-! DEFINITION. The statements about the module, for the provers. A register file, a queue or a wait that a statement does not name is covered by the
commit it names: `commits` is R49's commit, whose frame `CommitKeepsTheRest` states. -/

open Sys2Proof Sys2Proof.Machine Sys2Proof.Safety

/-! ### Reset, fetching and stepping -/

/-- R84, R147, R153, R158, R191, R273, R288, R395: the module right after reset: core 0 of the management cluster is about to run its ROM, no strand is bound and
no lease, owner or context recorded; every slot takes any role, every queue and mailbox is empty, every counter, `ccr` and the cycle counter
zero; the governor's budget is 24, and `slicemap` and `diemap` are the identity. That memory which nothing has written reads 0 is the model's choice (log
entry 11), as are the registers without a reset value of the manual (log entry 10). -/
def Obligations.ResetState : Prop :=
  let r := State.reset
  r.boot = .rom ∧ r.cycle = 0 ∧ r.smpctl = 0 ∧ Memory.wf r.mem = true ∧ (∀ a, Memory.read r.mem a = 0 ∧ r.isFull a = true ∧ r.isTagged a = false) ∧
  (∀ h, r.strand? h = none) ∧ (∀ x, r.context? x = none) ∧ (∀ n, r.launch? n = none) ∧ (∀ n, Table.find n r.owners = none) ∧
  (∀ c, (r.core c).ctx = none ∧ (r.core c).daz = false ∧ (r.core c).xr = false ∧ (r.core c).deque = [] ∧ (r.core c).vec.vn = 256 ∧
    (∀ i : Fin 15, (r.core c).slotrole[i] = 0) ∧ (∀ i : Fin 4, (r.core c).q[i] = []) ∧ ∀ i : BitVec 4, (r.core c).c[i.toFin] = 0 ∧
      (mailboxOf r c i).msgs = []) ∧
  (∀ q, (r.quad q).budget = 24 ∧ (r.quad q).stalls = 0 ∧ (r.quad q).running = none) ∧
  (∀ (d : BitVec 2) (i : Fin 32), ((r.die d).slicemap[i]).toNat = i.val) ∧ ∀ i : Fin 4, (r.diemap[i]).toNat = i.val

/-- R30, R31, R141, R142, R188, R398: where the agenda issues on a core (log entry 1), nothing is to be issued again after a `replay`, no slot of another core has
to issue before, the strand whose turn it is is not to issue a recorded vector instruction (log entry 34), and the words at its PC decode to an instruction,
the step is that instruction's meaning in the state after the fetch, and what ends waits afterwards; an access whose guard holds, whose sources can be
read, and whose core has an earlier one on its way to the same bank, departs instead. The issue adds the weight of one instruction to its context's energy, unless that was done before
the instruction waited, and changes nothing else but the strand's note of it (log entry 86). -/
def Obligations.StepRunsDecodedInstruction : Prop :=
  ∀ (s s1 s2 s3 : State) (c : CoreId) (dt n : Nat) (slot : BitVec 4) (picks : List Nat) (rest : List Turn) (h : Handle) (st : Strand) (ws : List Half)
      (i : Instr),
    s.reissue = [] → s.agenda = ⟨.issue c, dt, picks⟩ :: rest → s1 = { s with agenda := rest, picks := picks } →
    nextIssue s1 c false = some (n, slot, some (h, st)) →
    (∀ k, timeLeft s1 = some k → n - s1.cycle ≤ k) → st.reissue = none → s2 = noteIssue (passTime s1 (n - s1.cycle)) c st → st.r.pc.getLsbD 0 = false →
    Fetches s2 h st 0 ws s3 → WordsOf ws i →
    let banks := portBanks s3 h st i
    let goes := behind s3 st banks && guardHolds (guardOf i) st && (travels i).any (sourcesReady s3 h st i)
    (goes = false → step s = finish (exec i ((countIssue s3 h).atIssue h ws))) ∧
    (∀ srcs, goes = true → travels i = some srcs →
      step s = .next (settleStep (depart (countIssue s3 h) h { st with counted := true } ws srcs banks))) ∧
    ∀ y, s3.strand? h = some y → ∃ u, u = countIssue s3 h ∧ u = { s3 with strands := u.strands, contexts := u.contexts } ∧
      u.strand? h = some { y with counted := true } ∧ (∀ k, k ≠ h → u.strand? k = s3.strand? k) ∧
      ∀ x, (u.context? x).map Context.energy = (s3.context? x).map fun k =>
        if x = y.ctx ∧ y.counted = false then k.energy + s3.ewt[0].toNat else k.energy

/-- The canonical form of memory, addresses strictly rising and no byte listed that equals what an unlisted address reads as (the model's own form,
log entry 11), is kept by every step, whatever instruction or event it carries out. -/
def Obligations.MemoryStaysCanonical : Prop :=
  ∀ s t : State, Memory.wf s.mem = true → step s = .next t → Memory.wf t.mem = true

/-- R30, R31, R380: a word fetched from a page that grants x, whose line the instruction cache does not hold, is the two bytes of memory at its
physical address, the low byte first. Memory and strands stay as they are. -/
def Obligations.FetchWordReadsMemory : Prop :=
  ∀ (s : State) (h : Handle) (st : Strand) (pc pte : Word) (va pa : Nat),
    s.space st.core st.ctx pc = .ok (.global va) → s.translate (clusterOf st.core) st.ctx va .fetch = .ok pa pte →
    (s.paKind pa).isSome = true → s.isPoisoned pa = false →
    cachedLine (s.keepLeaf (clusterOf st.core) st.ctx va) (clusterOf st.core) st.ctx va = none →
    va % 2 = 0 → pa % 64 = va % 64 →
    ∃ t, fetchWord s h st pc = .ok (t, Memory.read s.mem (pa + 1) ++ Memory.read s.mem pa) ∧ t.mem = s.mem ∧ t.strands = s.strands

/-- Every step answers a next state, and so does every instruction of a strand: it commits, takes a trap, freezes the task, parks it or ends it, and no
instruction and no event of the module stops it (R52, R101, R103). An event whose condition does not hold leaves the state as it was (log entry 1). -/
def Obligations.EveryStepAnswers : Prop :=
  (∀ s : State, ∃ t, step s = .next t) ∧
  (∀ (i : Instr) (s : State) (h : Handle) (st : Strand), s.issuing = some (h, st) → completes i s)

/-! ### Encoding -/

/-- Words written out bit by bit from R32-R44, one or more for every page, decode to the instructions they stand for; the first three and the next but last two
are worked encodings of chapter 02. A `sysr` of qload and a guarded `sysw` of a trap record are ILLEGAL with cause 7 (R36,
R47, R384); that the register number is checked as part of the encoding, before the guard is read, and is reported at the base word is the model's choice (DEDUCED, log entry 72). -/
def Obligations.SampleWordsDecode : Prop :=
  decode [0b1110100001100011#16, 0b0000000010100101#16] = .instr (.add (some ⟨false, 3⟩) .s64 (.g 5) (.g 5) (.g 1)) 2 ∧
  decode [0b1111101001000001#16, 0b1110000000010000#16, 0b1011000010100100#16] =
    .instr (.ld none .s32 ⟨.cluster, .acq, false, false, false⟩ (.g 5) ⟨4, .disp 16⟩) 3 ∧
  decode [0b1110011111110010#16, 0b1110000000000001#16, 0b1110000000000000#16, 0b0101000010000000#16] =
    .instr (.li none (.g 4) 0xFFFFFFFF90010000) 4 ∧
  decode [0b1110111111110010#16, 0b0111001111111111#16] = .instr (.br ⟨true, 2⟩ (-1)) 2 ∧
  decode [0b1110100011000000#16, 0b1111100000000001#16, 0b1001000000100010#16] = .instr (.fadd none .f32 .rne (.g 1) (.g 2) (.g 3)) 3 ∧
  decode [0b1111000010000000#16, 0b0001110000000000#16] = .instr (.exit none false) 2 ∧
  decode [0b1111000100000000#16, 0b1110100011000000#16, 0b0001110000100010#16] = .instr (.vadd none .f32 .rne 1 2 3) 3 ∧
  decode [0b1111000110000000#16, 0b0010010000100010#16] = .instr (.dneg none 1 2) 2 ∧
  decode [0b1111001000000000#16, 0b0001100000000000#16] = .instr (.mwait none) 2 ∧
  decode [0b1111001010000000#16, 0b0001010001100000#16] = .instr (.hdrop none (.g 3)) 2 ∧
  decode [0b1111001100000000#16, 0b0000110001000000#16] = .instr (.swwait none (.g 2)) 2 ∧
  decode [0b1111001110000000#16, 0b0000000000000000#16] = .instr (.tret none) 2 ∧
  decode [0b1110100001100011#16, 0b1110100001100011#16] = .illegal ⟨1, 1, 0⟩ 2 ∧
  decode [0b1101010000000000#16] = .illegal ⟨4, 0, 0⟩ 1 ∧
  decode [0b1111001110000000#16, 0b1110000000000001#16, 0b0000010010100100#16] = .illegal ⟨7, 2, 0⟩ 3 ∧
  decode [0b1111001110000000#16, 0b1110111111100011#16, 0b0000100010100010#16] = .illegal ⟨7, 2, 0⟩ 3

/-- R32-R44: every well-formed instruction that has an encoding is read back from it with all its operands. -/
def Obligations.EncodeDecodeRoundTrip : Prop :=
  ∀ i : Instr, i.wf = true → encode i ≠ [] → decode (encode i) = .instr i (encode i).length

/-- R31, R47: the decoder needs every word of an encoding: no shorter beginning of it is an instruction or an ILLEGAL. -/
def Obligations.EncodingPrefixesAreShort : Prop :=
  ∀ (i : Instr) (k : Nat), i.wf = true → k < (encode i).length → decode ((encode i).take k) = .short

/-! ### Guards, commits and frames -/

/-- R36: an instruction whose guard fails only advances the PC, whatever it is and whatever its operands hold; an ill-formed one traps ILLEGAL whatever
the predicates hold. The strand is not to issue a recorded vector instruction (log entry 34). -/
def Obligations.GuardedOffAdvances : Prop :=
  ∀ (s : State) (h : Handle) (st : Strand), s.issuing = some (h, st) → st.reissue = none →
    (∀ (i : Instr) (g : Guard), guardOf i = some g → st.r.preds.getLsbD g.p.toNat = g.neg →
      exec i s = .next (commitAt s h st [] none (st.r.pc + BitVec.ofNat 64 (2 * s.words)))) ∧
    (∀ d : IllegalDetail, exec (.unassignedEncoding d) s = .next (enterTrap s h st (illegalInfo s.latch d)))

/-- R49, R50: what a commit changes, and that it changes nothing else: of the strand the destination, the PC, its waits, the vector instruction that it was to
issue again, and, where its task's records no longer fit, those records (R390); of its core the queues, the shared registers and who waits for them. -/
def Obligations.CommitKeepsTheRest : Prop :=
  ∀ (s t : State) (h : Handle) (st : Strand) (srcs : List Reg) (dst : Option (Reg × Word)) (pc : Word),
    t = commitAt s h st srcs dst pc →
    (∃ y, t.strand? h = some y ∧
      y = { st with r := y.r, status := .ready, pending := none, sending := none, kept := none, redo := st.reissued.redo, records := y.records
                    entryAt := y.entryAt, unreplayable := y.unreplayable, counted := false } ∧
      (st.records = [] → y.records = [] ∧ y.entryAt = st.entryAt ∧ y.unreplayable = st.unreplayable) ∧
      y.r = { st.r with
        pc := pc
        gpr := match dst with
          | some (.g i, v) => st.r.gpr.set i v
          | _ => st.r.gpr
        full := match dst with
          | some (.g i, _) => st.r.full ||| BitVec.twoPow 24 i.val
          | _ => st.r.full }) ∧
    (∀ k, k ≠ h → t.strand? k = s.strand? k) ∧ (∀ c, c ≠ st.core → t.core c = s.core c) ∧
    (∀ q : Fin 4, (t.core st.core).q[q] = ((s.core st.core).q[q]).drop (popsOf q srcs) ++ (match dst with
      | some (.q i, v) => if i = q then [v] else []
      | _ => [])) ∧
    (∀ k : Fin 4, (t.core st.core).s[k] = match dst with
      | some (.s i, v) => if i = k then ((s.core st.core).s[k]).write s.cycle v else (s.core st.core).s[k]
      | _ => (s.core st.core).s[k]) ∧
    t.core st.core = { s.core st.core with q := (t.core st.core).q, s := (t.core st.core).s, qwait := (t.core st.core).qwait } ∧
    (∀ e, e ∈ (t.core st.core).qwait ↔ e ∈ (s.core st.core).qwait ∧ e.2.2 ≠ h) ∧
    t = { s with strands := t.strands, cores := t.cores }

/-- R36, R49, R50, R85-R87, R107: the frame of the register instructions of page 0, whether they commit, wait or are guarded off: where the task has
taken no trap and no fault, memory, every general register but the destination, every predicate but the destination, the sticky flags but for the
floating-point instructions, which only set them, the shadow registers, the trap registers, the accumulators, the vector file, the mailboxes, the
counters, the queues and shared registers that are not named, and every other strand and core are as before. -/
def Obligations.RegisterInstructionFrame : Prop :=
  ∀ (i : Instr) (s t : State) (h : Handle) (st y : Strand), registerOnly i = true → s.issuing = some (h, st) → exec i s = .next t →
    t.strand? h = some y → y.r.inTrap = st.r.inTrap → y.status ≠ .frozen →
    SameBytes s t ∧ KeepsGeneral (((regDest i).map generalOf).getD []) st.r y.r ∧
    (∀ p : BitVec 4, predDest i ≠ some p → y.r.preds.getLsbD p.toNat = st.r.preds.getLsbD p.toNat) ∧
    (setsFlags i = false → y.r.sflags = st.r.sflags) ∧ y.r.sflags ||| st.r.sflags = y.r.sflags ∧
    y.r.fmta = st.r.fmta ∧ y.r.fmtb = st.r.fmtb ∧ y.r.scla = st.r.scla ∧ y.r.sclb = st.r.sclb ∧ y.r.tmask = st.r.tmask ∧
    y.r.trappc = st.r.trappc ∧ y.r.trec = st.r.trec ∧
    (t.core st.core).m = (s.core st.core).m ∧ (t.core st.core).vec = (s.core st.core).vec ∧ (t.core st.core).mb = (s.core st.core).mb ∧
    (t.core st.core).c = (s.core st.core).c ∧
    (∀ q : Fin 4, Reg.q q ∉ regSources i → regDest i ≠ some (.q q) → (t.core st.core).q[q] = (s.core st.core).q[q]) ∧
    (∀ k : Fin 4, regDest i ≠ some (.s k) → (t.core st.core).s[k] = (s.core st.core).s[k]) ∧
    (∀ k, k ≠ h → t.strand? k = s.strand? k) ∧ (∀ c, c ≠ st.core → t.core c = s.core c)

/-! ### Integer and logic -/

/-- R106, R108, R109: the results of the arithmetic instructions on the low N bits of their operands, extended by the suffix; a division by zero gives
all ones and its remainder the dividend, and the most negative number by -1 wraps. -/
def Obligations.ArithmeticResults : Prop :=
  ∀ (s : State) (h : Handle) (st : Strand) (g : Option Guard) (z : Size) (a b c : Reg) (x y : Word), Issues s h st g →
    src s h st 0 b = .ok x → src s h st 1 c = .ok y → Room s h st [b, c] a →
    let w := fun (v : BitVec (sizeBits z)) => commits s h st [b, c] (some (a, extended z v))
    let u := narrow z x
    let v := narrow z y
    exec (.add g z a b c) s = w (u + v) ∧ exec (.sub g z a b c) s = w (u - v) ∧ exec (.mul g z a b c) s = w (u * v) ∧
    exec (.mulh g z a b c) s = w ((doubled z x * doubled z y).extractLsb' (sizeBits z) (sizeBits z)) ∧
    exec (.div g z a b c) s = w (if v = 0 then BitVec.allOnes _ else if sizeSigned z then u.sdiv v else u.udiv v) ∧
    exec (.rem g z a b c) s = w (if v = 0 then u else if sizeSigned z then u.srem v else u.umod v) ∧
    exec (.min g z a b c) s = w (if below z y x then v else u) ∧ exec (.max g z a b c) s = w (if below z x y then v else u)

/-- R106, R108: the results of the logic instructions, and of shifts and rotations by the low log2 N bits of the second operand; `sar` copies the top bit
whatever the suffix. -/
def Obligations.LogicAndShiftResults : Prop :=
  ∀ (s : State) (h : Handle) (st : Strand) (g : Option Guard) (z : Size) (a b c : Reg) (x y : Word), Issues s h st g →
    src s h st 0 b = .ok x → src s h st 1 c = .ok y → Room s h st [b, c] a →
    let w := fun (v : BitVec (sizeBits z)) => commits s h st [b, c] (some (a, extended z v))
    let u := narrow z x
    let v := narrow z y
    let n := y.toNat % sizeBits z
    exec (.and g z a b c) s = w (u &&& v) ∧ exec (.or g z a b c) s = w (u ||| v) ∧ exec (.xor g z a b c) s = w (u ^^^ v) ∧
    exec (.andn g z a b c) s = w (u &&& ~~~v) ∧ exec (.shl g z a b c) s = w (u <<< n) ∧ exec (.shr g z a b c) s = w (u >>> n) ∧
    exec (.sar g z a b c) s = w (u.sshiftRight n) ∧ exec (.rol g z a b c) s = w (u.rotateLeft n)

/-- R43, R110-R113, R131: counts of leading zeros and of ones, copies with extension, immediates, additions of an immediate; `sel` reads both sources;
`lea` writes the address that a format-M access would form, and accesses nothing; a field of `len + 1` bits at `pos` is extracted, sign- or
zero-extended, or replaced. -/
def Obligations.MoveAndFieldResults : Prop :=
  (∀ (s : State) (h : Handle) (st : Strand) (g : Option Guard) (z : Size) (a b c : Reg) (x y imm : Word) (p : BitVec 4) (m i : Fin 24),
    Issues s h st g → src s h st 0 b = .ok x →
    (Room s h st [b] a →
      (∃ k, k ≤ sizeBits z ∧ (∀ i, i < k → (narrow z x).getMsbD i = false) ∧ (k < sizeBits z → (narrow z x).getMsbD k = true) ∧
        exec (.clz g z a b) s = commits s h st [b] (some (a, extended z (BitVec.ofNat _ k)))) ∧
      exec (.popc g z a b) s = commits s h st [b] (some (a, extended z (BitVec.ofNat _
        (((List.range (sizeBits z)).filter fun i => (narrow z x).getLsbD i).length)))) ∧
      exec (.mov g z a b) s = commits s h st [b] (some (a, extended z (narrow z x))) ∧
      exec (.addi g z a b imm) s = commits s h st [b] (some (a, extended z (narrow z x + narrow z imm)))) ∧
    (Room s h st [] a → exec (.li g a imm) s = commits s h st [] (some (a, imm)) ∧
      (st.r.full.getLsbD m.val = true →
        exec (.lea g a ⟨m, .disp imm⟩) s = commits s h st [] (some (a, st.r.gpr[m] + imm)) ∧
        (st.r.full.getLsbD i.val = true → exec (.lea g a ⟨m, .index i⟩) s = commits s h st [] (some (a, st.r.gpr[m] + st.r.gpr[i]))))) ∧
    (src s h st 1 c = .ok y → Room s h st [b, c] a →
      exec (.sel g a b c p) s = commits s h st [b, c] (some (a, if st.r.preds.getLsbD p.toNat then x else y)))) ∧
  (∀ (s : State) (h : Handle) (st : Strand) (g : Option Guard) (signed : Bool) (a b : Reg) (x y : Word) (pos len : BitVec 6), Issues s h st g →
    src s h st 0 b = .ok x → pos.toNat + len.toNat + 1 ≤ 64 →
    (Room s h st [b] a → ∃ v : Word, exec (.bfx g signed a b pos len) s = commits s h st [b] (some (a, v)) ∧
      (∀ i, i ≤ len.toNat → v.getLsbD i = x.getLsbD (pos.toNat + i)) ∧
      (∀ i, len.toNat < i → i < 64 → v.getLsbD i = (signed && x.getLsbD (pos.toNat + len.toNat)))) ∧
    (src s h st 2 a = .ok y → Room s h st [b, a] a → ∃ v : Word, exec (.bfi g a b pos len) s = commits s h st [b, a] (some (a, v)) ∧
      (∀ i, i ≤ len.toNat → v.getLsbD (pos.toNat + i) = x.getLsbD i) ∧
      (∀ i, i < pos.toNat ∨ pos.toNat + len.toNat < i → v.getLsbD i = y.getLsbD i)))

/-- R30, R114-R118: integer compares at a size, signed or unsigned by its suffix, and the operations on predicates, whose predicate is the only change besides
the PC and the sources' queues; the PC of every control transfer to an even address, the link register of `call`, the count of `loop`, and `nop`. -/
def Obligations.CompareAndControlResults : Prop :=
  (∀ (s : State) (h : Handle) (st : Strand) (g : Option Guard) (z : Size) (cc : Cond) (p m n : BitVec 4) (b c : Reg) (x y imm : Word) (e f v : Bool),
    Issues s h st g →
    let w := fun (srcs : List Reg) (r : Bool) => commits s h (st.setP p r) srcs none
    let u := st.r.preds.getLsbD m.toNat != e
    let k := st.r.preds.getLsbD n.toNat != f
    (src s h st 0 b = .ok x → src s h st 1 c = .ok y → exec (.cmp g z cc p b c) s = w [b, c] (holds cc z x y)) ∧
    (src s h st 0 b = .ok x → exec (.cmpi g z cc p b imm) s = w [b] (holds cc z x imm)) ∧
    exec (.psetAnd g p e m f n) s = w [] (u && k) ∧ exec (.psetOr g p e m f n) s = w [] (u || k) ∧
    exec (.psetXor g p e m f n) s = w [] (u != k) ∧ exec (.psetConst g p v) s = w [] v) ∧
  (∀ (s : State) (h : Handle) (st : Strand) (q : Guard) (g : Option Guard) (off x : Word) (a : Reg), st.reissue = none →
    let next := st.r.pc + BitVec.ofNat 64 (2 * s.words)
    let target := st.r.pc + 2 * off
    let goes := fun (srcs : List Reg) (dst : Option (Reg × Word)) (pc : Word) => Host.Outcome.next (commitAt s h st srcs dst pc)
    (st.r.pc.getLsbD 0 = false → Issues s h st (some q) → exec (.br q off) s = goes [] none target) ∧
    (st.r.pc.getLsbD 0 = false → Issues s h st none → exec (.jmp off) s = goes [] none target) ∧
    (st.r.pc.getLsbD 0 = false → Issues s h st g → exec (.call g off) s = goes [] (some (.g 23, next)) target) ∧
    (Issues s h st g → st.r.full.getLsbD 23 = true → st.r.gpr[(23 : Fin 24)].getLsbD 0 = false → exec (.ret g) s = goes [] none st.r.gpr[(23 : Fin 24)]) ∧
    (Issues s h st g → src s h st 0 a = .ok x → x.getLsbD 0 = false → exec (.jr g a) s = goes [a] none x) ∧
    (Issues s h st g → src s h st 0 a = .ok x → Room s h st [a] a → st.r.pc.getLsbD 0 = false →
      exec (.loop g a off) s = goes [a] (some (a, x - 1)) (if x = 1 then next else target)) ∧
    (Issues s h st g → exec (.nop g) s = goes [] none next))

/-! ### Control transfers -/

/-- R30, R47, R48, R101, R116, R117: an encoding that is no instruction traps ILLEGAL, whose records hold its words, their count, the cause and the word at
fault; every control transfer to an odd address traps ILLEGAL with cause 8 at the transferring instruction, whose address the PC keeps, and `loop` only where
it goes back. That the record then names the base word is the model's choice (log entry 20). -/
def Obligations.IllegalTraps : Prop :=
  ∀ (s : State) (h : Handle) (st : Strand) (d : IllegalDetail), s.issuing = some (h, st) → st.reissue = none → st.r.inTrap = false →
    (s.latch.length ≤ 5 →
      ∃ t y, exec (.unassignedEncoding d) s = .next t ∧ TrapTaken s h st (illegalInfo s.latch d) t ∧ t.strand? h = some y ∧
        (∀ k : Nat, k < 4 → y.r.trec[2].extractLsb' (16 * k) 16 = s.latch.getD k 0) ∧ y.r.trec[3].extractLsb' 0 16 = s.latch.getD 4 0 ∧
        (y.r.trec[3].extractLsb' 16 3).toNat = s.latch.length ∧ y.r.trec[3].extractLsb' 20 4 = d.cause ∧
        y.r.trec[3].extractLsb' 24 5 = d.at_ ∧ y.r.trec[3].extractLsb' 29 6 = d.eword ∧ y.r.trec[3].getLsbD 19 = false) ∧
    ∀ (q : Guard) (g : Option Guard) (a : Reg) (off x : Word),
      let odd := fun (o : Out) => ∃ t, o = .next t ∧ TrapTaken s h st (illegalInfo s.latch ⟨8, BitVec.ofNat 5 (s.latch.length - 1), 0⟩) t
      let target := st.r.pc + 2 * off
      (target.getLsbD 0 = true →
        (guardHolds (some q) st = true → odd (exec (.br q off) s)) ∧ odd (exec (.jmp off) s) ∧ (guardHolds g st = true → odd (exec (.call g off) s)) ∧
        (guardHolds g st = true → src s h st 0 a = .ok x → x ≠ 1 → odd (exec (.loop g a off) s))) ∧
      (guardHolds g st = true → st.r.full.getLsbD 23 = true → st.r.gpr[(23 : Fin 24)].getLsbD 0 = true → odd (exec (.ret g) s)) ∧
      (guardHolds g st = true → src s h st 0 a = .ok x → x.getLsbD 0 = true → odd (exec (.jr g a) s))

/-- R101, R102, R118: `trap` takes trap 5 with its immediate as detail: the PC in `trappc` and `trec0`, the trap's number and the word count in `trec1`, the
immediate in `trec2`, and the PC at entry 5 of the context's trap table where memory answers there. `tret` clears the in-trap bit, goes to `trappc`
and changes no other register; outside a handler it traps ILLEGAL. A trap raised while the in-trap bit is set freezes the task with DOUBLE_TRAP. That `tret`
takes an odd `trappc` as it stands, and that the ILLEGAL record names the base word, are the model's choices (log entries 9, 20). -/
def Obligations.TrapEntryAndReturn : Prop :=
  (∀ (s : State) (h : Handle) (st : Strand) (g : Option Guard) (imm : Word), Issues s h st g → st.reissue = none → st.r.inTrap = false →
    ∃ t y, exec (.trap g imm) s = .next t ∧ TrapTaken s h st { number := 5, t2 := imm } t ∧ t.strand? h = some y ∧
      y.r.trappc = st.r.pc ∧ y.r.trec[0] = st.r.pc ∧ y.r.trec[1] = 5 ||| (BitVec.ofNat 64 (s.words % 8) <<< 8) ∧ y.r.trec[2] = imm ∧
      y.r.inTrap = true ∧ (∀ x v, s.context? st.ctx = some x → s.deviceRead st.core st.ctx (x.traptab + 40) 8 = some v → y.r.pc = BitVec.ofNat 64 v)) ∧
  (∀ (s : State) (h : Handle) (st : Strand) (g : Option Guard) (imm : Word), Issues s h st g → st.reissue = none →
    (st.r.inTrap = true →
      (∃ t y, exec (.tret g) s = .next t ∧ t.strand? h = some y ∧ y.status = .ready ∧ y.r = { st.r with inTrap := false, pc := st.r.trappc } ∧
        SameBytes s t) ∧
      exec (.trap g imm) s = .next (freeze s h st ⟨3, 0, [5, imm, 0]⟩)) ∧
    (st.r.inTrap = false → ∃ t, exec (.tret g) s = .next t ∧
      TrapTaken s h st (illegalInfo s.latch ⟨7, BitVec.ofNat 5 (s.latch.length - 1), 0⟩) t))

/-- R103, R388: a fault freezes the task where it stands: its registers are kept, its record is written to a free record slot of its context, the lowest
(the model's choice, log entry 22), and a handler task is asked for on its cluster, its arguments the frozen task's handle and the record's address. -/
def Obligations.FaultFreezes : Prop :=
  ∀ (s : State) (h : Handle) (st : Strand) (f : FaultInfo) (x : Context) (i e : Nat), s.strand? h = some st → st.reissue = none → f.code ≠ 6 →
    s.context? st.ctx = some x → freeRecord x = some i → s.deviceRead st.core st.ctx (x.flttab + BitVec.ofNat 64 (8 * f.code)) 8 = some e →
    (BitVec.ofNat 64 e : Word) ≠ 0 →
    let s1 := ((leaveWaits (countFault s st f) h st).bump.modContext st.ctx fun x => { x with waitingRecord := dropAll (.task h) x.waitingRecord })
    ∃ y k, (freeze s h st f).strand? h = some y ∧ y.status = .frozen ∧ y.r = st.r ∧
      y.frozen = some { info := f, pc := st.r.pc, skip := 2 * s.words, again := none, slot := some i, handled := true } ∧
      (freeze s h st f).mem = (s1.deviceWriteWords st.core st.ctx (recordAddr x i) (recordWords h st.r.pc f false)).mem ∧
      k ∈ ((freeze s h st f).cluster (clusterOf st.core)).handlers ∧ k.frozen = h ∧ k.source.entry = BitVec.ofNat 64 e ∧
      k.source.args[0] = h.setWidth 64 ∧ k.source.args[1] = recordAddr x i

/-! ### Scalar floating point -/

/-- R55, R56, R87, R119-R122: where no source is subnormal or DAZ is 1, which reads a subnormal as a zero of its sign, the results of the scalar instructions
are the exact result of their operands' values, rounded once, in the low bits of the destination, and their exceptions are added to the sticky flags. A
subnormal source of any of them, and of `fcvt` from an IEEE type, traps SUBNORMAL where DAZ is 0, with a mask of the subnormal sources, the sources as read,
and field A and the QUAL payload as issued in the trap records. -/
def Obligations.ScalarFloatResults : Prop :=
  (∀ (s : State) (h : Handle) (st : Strand) (g : Option Guard) (f : FSize) (rm : Rm) (cc : Cond) (p : BitVec 4) (a b c : Reg) (x y z : Word),
    Issues s h st g → src s h st 0 b = .ok x → src s h st 1 c = .ok y →
    let F := fsizeFmt f
    let daz := (s.core st.core).daz
    let plain := fun (w : Word) => daz = true ∨ F.subnormal (fpBits F w) = false
    let read := fun (w : Word) => if daz then F.flush (fpBits F w) else fpBits F w
    let u := read x
    let v := read y
    let k := read z
    plain x → plain y →
    let w := fun (r : Nat × Flags) => commits s h (st.orFlags r.2.bits) [b, c] (some (a, BitVec.ofNat 64 r.1))
    (Room s h st [b, c] a →
      exec (.fadd g f rm a b c) s = w (F.deliver rm ((F.value u).add rm (F.value v))) ∧
      exec (.fsub g f rm a b c) s = w (F.deliver rm ((F.value u).add rm (F.value v).neg)) ∧
      exec (.fmul g f rm a b c) s = w (F.deliver rm ((F.value u).mul (F.value v))) ∧
      exec (.fmin g f a b c) s = w (F.pick true u v) ∧ exec (.fmax g f a b c) s = w (F.pick false u v)) ∧
    (src s h st 2 a = .ok z → plain z → Room s h st [b, c, a] a →
      let m := (F.value u).mul (F.value v)
      let n := m.1.add rm (F.value k)
      let r := F.deliver rm (n.1, m.2 || n.2)
      exec (.ffma g f rm a b c) s = commits s h (st.orFlags r.2.bits) [b, c, a] (some (a, BitVec.ofNat 64 r.1))) ∧
    exec (.fcmp g f cc p b c) s = commits s h ((st.orFlags (F.compare cc u v).2.bits).setP p (F.compare cc u v).1) [b, c] none) ∧
  (∀ (s : State) (h : Handle) (st : Strand) (g : Option Guard) (f : FSize) (rm : Rm) (cc : Cond) (p : BitVec 4) (a b c : Reg) (x y z : Word) (ty : CvtDst)
      (source : EType) (G : FFmt), Issues s h st g → st.reissue = none → st.r.inTrap = false → (s.core st.core).daz = false → src s h st 0 b = .ok x →
    let F := fsizeFmt f
    let u := fpBits F x
    let v := fpBits F y
    let k := fpBits F z
    let bit := fun (w n : Nat) => if F.subnormal w then n else 0
    let traps := fun (o : Out) (mask u v k : Nat) => ∃ t q, o = .next t ∧ TrapTaken s h st q t ∧ q.number = 1 ∧ q.t2 = BitVec.ofNat 64 mask ∧ q.t3 = 0 ∧
      q.t4 = BitVec.ofNat 64 u ∧ q.t5 = BitVec.ofNat 64 v ∧ q.t6 = BitVec.ofNat 64 k ∧ q.t7.extractLsb' 0 11 = qualPayload s.latch ∧
      q.t7.extractLsb' 11 5 = fieldA s.latch ∧ q.t7.extractLsb' 16 48 = 0
    (src s h st 1 c = .ok y →
      ((F.subnormal u || F.subnormal v) = true →
        let both := fun (o : Out) => traps o (bit u 1 + bit v 2) u v 0
        both (exec (.fadd g f rm a b c) s) ∧ both (exec (.fsub g f rm a b c) s) ∧ both (exec (.fmul g f rm a b c) s) ∧ both (exec (.fmin g f a b c) s) ∧
        both (exec (.fmax g f a b c) s) ∧ both (exec (.fcmp g f cc p b c) s)) ∧
      (src s h st 2 a = .ok z → (F.subnormal u || F.subnormal v || F.subnormal k) = true →
        traps (exec (.ffma g f rm a b c) s) (bit u 1 + bit v 2 + bit k 4) u v k)) ∧
    (etypeFmt (s.core st.core).xr source = some G → G.subnormal (fpBits G x) = true → traps (exec (.fcvt g ty source rm a b) s) 1 (fpBits G x) 0 0))

/-- R58, R76, R121, R123: `fcvt` reads its source's exact value, flushed or not, and delivers it in the destination type: rounded into a binary format,
or rounded to an integer, clamped to its range, and extended. -/
def Obligations.FcvtResult : Prop :=
  ∀ (s : State) (h : Handle) (st : Strand) (g : Option Guard) (ty : CvtDst) (source : EType) (rm : Rm) (a b : Reg) (x : Word) (v : FVal),
    Issues s h st g → src s h st 0 b = .ok x → cvtSource s st source x = .ok v → Room s h st [b] a →
    let r : Word × Flags := match cvtDst ty with
      | .inl f => (BitVec.ofNat 64 (f.ofVal rm 0 v).1, (f.ofVal rm 0 v).2)
      | .inr z => (extended z (BitVec.ofInt _ (intOfVal (sizeSigned z) (sizeBits z) rm 0 v).1), (intOfVal (sizeSigned z) (sizeBits z) rm 0 v).2)
    exec (.fcvt g ty source rm a b) s = commits s h (st.orFlags r.2.bits) [b] (some (a, r.1))

/-- R54, R58, R76: rounding keeps every value that a format holds: a code that is no NaN, read as a value and rounded into its own format under any mode
and draw, gives the code itself and sets nothing. -/
def Obligations.RepresentableValuesAreExact : Prop :=
  ∀ (f : FFmt) (rm : Rm) (draw : BitVec 32) (bits : Nat),
    f ∈ [FFmt.f64, .f32, .f16, .bf16, .e4m3 false, .e4m3 true, .e5m2 false, .e5m2 true] → bits < 2 ^ (f.signPos + 1) →
    (f.value bits).isNan = false → f.ofVal rm draw (f.value bits) = (bits, {})

/-! ### Memory -/

/-- R90-R92, R124, R193, R325, R363, R379, R381, R389, R391, R392, R400: an aligned access of a leased word of the issuing cluster's scratchpad below the replay region,
which no sweep covers against a write, reaches its bank, on the strand's own core or without migration; an aligned access of a global address below
level 2, whose page grants it and whose line is not poisoned, reaches the place of its physical address; memory and strands stay. A failing load,
store, synchronising access, atomic or watch fails in the order of R124: a bank of another cluster or the replay region faults BAD_SPACE before a misaligned
address faults BAD_ALIGN, then `.mig` migrates to the bank's core or traps MIG_STATE, and last a missing lease faults LEASE_GONE; the task freezes with that
fault. In a replay an access of a bank takes its value from the next record and looks at no place, and a record of another kind or address faults
REPLAY_DIVERGED. -/
def Obligations.AccessesChecked : Prop :=
  (∀ (s : State) (h : Handle) (st : Strand) (n : Nat) (kind : AccessKind) (mig : Bool), 0 < n →
    (∀ (k : BitVec 3) (off : Nat) (l : Launch),
      let c := coreOf (clusterOf st.core) k
      s.clusterIn (clusterOf st.core) = true → off < 0x1E000 → off % n = 0 → n ∣ 8 →
      s.launch? st.launch = some l → l.covers c off n = true → (kind = .write → s.sweeping c off n = none) →
      (mig = false ∨ c = st.core ∨ st.r.inTrap = true) →
      ∃ s1, locate s h st (coordAddr c off) n kind mig = .ok (s1, bankLoc (coordAddr c off) c off) ∧ s1.mem = s.mem ∧ s1.strands = s.strands ∧
        s1.cores = s.cores ∧ s1.empties = s.empties ∧ s1.places = s.places) ∧
    (∀ (ea pte : Word) (pa : Nat) (l : Loc), ea.extractLsb' 47 17 = 0 → ea.toNat % n = 0 → levelOf s st ≠ 2 →
      s.translate (clusterOf st.core) st.ctx ea.toNat kind = .ok pa pte → s.paLoc ea pa (pteShwr pte) = some l → s.isPoisoned pa = false →
      ∃ s1, locate s h st ea n kind mig = .ok (s1, l) ∧ s1.mem = s.mem ∧ s1.strands = s.strands ∧ s1.cores = s.cores ∧ l.key = pa)) ∧
  (∀ (s : State) (h : Handle) (st : Strand) (g : Option Guard) (f : FSize) (z : Size) (q : MemQ) (a d : Reg) (b : Fin 24) (m : Mem) (ea x y : Word) (c : CoreId)
      (off : Nat), Issues s h st g → Fresh st → s.space st.core st.ctx ea = .ok (.bank c off) →
    let fails := fun (o : Out) (n : Nat) =>
      (clusterOf c ≠ clusterOf st.core → o = .next (freeze s h st ⟨1, ea, [2]⟩)) ∧
      (clusterOf c = clusterOf st.core → 0x1E000 ≤ off → o = .next (freeze s h st ⟨1, ea, [3]⟩)) ∧
      (clusterOf c = clusterOf st.core → off < 0x1E000 → ea.toNat % n ≠ 0 → o = .next (freeze s h st ⟨2, ea, [BitVec.ofNat 64 n]⟩)) ∧
      (clusterOf c = clusterOf st.core → off < 0x1E000 → ea.toNat % n = 0 →
        (q.mig = true → c ≠ st.core → st.r.inTrap = false →
          (cannotMigrate s h st = true → o = .next (enterTrap s h st { number := 4, t4 := ea })) ∧
          (cannotMigrate s h st = false → Parks o s h st (.inbox c))) ∧
        (q.mig = false ∨ c = st.core ∨ st.r.inTrap = true → (s.launch? st.launch).any (fun l => l.covers c off n) = false →
          o = .next (freeze s h st (leaseGone s st.ctx ea c off n))))
    (effAddr st m = .ok ea → fails (exec (.ld g z q a m) s) (sizeBytes z) ∧ fails (exec (.ldf g z q a m) s) 8 ∧
      (src s h st 0 a = .ok x → fails (exec (.st g z q a m) s) (sizeBytes z) ∧ fails (exec (.stf g z q a m) s) 8 ∧
        fails (exec (.waita g z q a m) s) (sizeBytes z))) ∧
    (gsrc st b = .ok ea → src s h st 1 d = .ok x →
      fails (exec (.amoSwap g z q a b d) s) (sizeBytes z) ∧ fails (exec (.amoAdd g z q a b d) s) (sizeBytes z) ∧
      fails (exec (.amoAnd g z q a b d) s) (sizeBytes z) ∧ fails (exec (.amoOr g z q a b d) s) (sizeBytes z) ∧
      fails (exec (.amoXor g z q a b d) s) (sizeBytes z) ∧ fails (exec (.amoMin g z q a b d) s) (sizeBytes z) ∧
      fails (exec (.amoMax g z q a b d) s) (sizeBytes z) ∧ (levelOf s st = 0 → fails (exec (.amoFadd g f q a b d) s) (fsizeBytes f)) ∧
      (src s h st 2 a = .ok y → fails (exec (.amoFaddSeq g f q a b d) s) (fsizeBytes f) ∧ fails (exec (.cas g z q a b d) s) (sizeBytes z)))) ∧
  (∀ (s : State) (h : Handle) (st st1 : Strand) (g : Option Guard) (z : Size) (q : MemQ) (a d : Reg) (b : Fin 24) (m : Mem) (ea x : Word) (c : CoreId) (off n : Nat)
      (r : Record), Issues s h st g → st.replay = some n → st.records[n]? = some r →
    let takes := fun (kind : Nat) (o : Out) (y : Strand) (srcs : List Reg) (dst : Option (Reg × Word)) =>
      (r.kind = kind → r.addr = ea → o = commits s h y.replayNext srcs dst) ∧
      (r.kind ≠ kind ∨ r.addr ≠ ea → o = .next (freeze s h st
        ⟨5, 0, [BitVec.ofNat 64 n, r.addr, ea, BitVec.ofNat 64 (r.kind % 256 + 256 * (kind % 256))]⟩))
    let v := r.values.headD 0
    let sized := extended z (narrow z v)
    (effAddr st m = .ok ea →
      (s.space st.core st.ctx ea = .ok (.bank c off) → releaseFence s st q = .ok st1 → Room s h st [] a →
        takes 1 (exec (.ld g z q a m) s) st1 [] (some (a, sized))) ∧
      (Room s h st [] a → takes 3 (exec (.ldf g z q a m) s) st [] (some (a, v))) ∧
      (src s h st 0 a = .ok x →
        (releaseFence s st q = .ok st1 → takes 2 (exec (.st g z q a m) s) st1 [a] none) ∧
        (fence s st q.scope = .ok st1 → takes 3 (exec (.stf g z q a m) s) st1 [a] none) ∧
        (Room s h st [a] a → takes 3 (exec (.waita g z q a m) s) st [a] (some (a, sized))))) ∧
    (gsrc st b = .ok ea → src s h st 1 d = .ok x → releaseFence s st q = .ok st1 → Room s h st [d] a →
      takes 3 (exec (.amoSwap g z q a b d) s) st1 [d] (some (a, sized)) ∧ takes 3 (exec (.amoAdd g z q a b d) s) st1 [d] (some (a, sized))))

/-- R53, R88, R124-R127: a load writes the bytes at its address, extended by its suffix, and marks the place touched; `.fe` also sets the word empty and
lets what waits for that go on. No byte of memory changes but those that a store waiting for the empty word writes. -/
def Obligations.LoadResult : Prop :=
  ∀ (s s1 : State) (h : Handle) (st st1 : Strand) (g : Option Guard) (z : Size) (q : MemQ) (a : Reg) (m : Mem) (ea : Word) (l : Loc),
    Issues s h st g → effAddr st m = .ok ea → locate s h st ea (sizeBytes z) .read q.mig = .ok (s1, l) → releaseFence s st q = .ok st1 →
    Fresh st → Room s h st [] a → Memory.wf s.mem = true →
    ∃ t y, exec (.ld g z q a m) s = .next t ∧
      t = commitAt (if q.fe then (s1.setFull l.key false).serve l.place l.key else s1) h y []
        (some (a, extended z (BitVec.ofNat _ (Memory.readN s.mem l.key (sizeBytes z))))) (nextPc s st) ∧
      y.r = { st1.r with tmask := st1.r.tmask ||| tmaskBits st.core l } ∧
      ∀ b, (q.fe = false ∨ ∀ w ∈ waitingAt s1 l.place l.key, w.kind = 2 → b < w.key ∨ w.key + 8 ≤ b) → Memory.read t.mem b = Memory.read s.mem b

/-- R53, R88, R124-R127, R196: a store writes the low bytes of its operand at its address and marks the place touched; `.fe` also sets the word full. No
other byte of memory changes but those that a store waiting for the word writes, and with nothing waiting the bytes read back. -/
def Obligations.StoreResult : Prop :=
  ∀ (s s1 : State) (h : Handle) (st st1 : Strand) (g : Option Guard) (z : Size) (q : MemQ) (a : Reg) (m : Mem) (ea x : Word) (l : Loc),
    Issues s h st g → effAddr st m = .ok ea → src s h st 0 a = .ok x → locate s h st ea (sizeBytes z) .write q.mig = .ok (s1, l) →
    releaseFence s st q = .ok st1 → Fresh st → Memory.wf s.mem = true →
    ∃ t y, exec (.st g z q a m) s = .next t ∧
      t = commitAt (s1.write st l (sizeBytes z) (narrow z x).toNat q.fe) h y [a] none (nextPc s st) ∧
      y.r = { st1.r with tmask := st1.r.tmask ||| tmaskBits st.core l } ∧
      (∀ b, (b < l.key ∨ l.key + sizeBytes z ≤ b) →
        (∀ w ∈ waitingAt s1 l.place l.key, w.kind = 2 → b < w.key ∨ w.key + 8 ≤ b) → Memory.read t.mem b = Memory.read s.mem b) ∧
      (waitingAt s1 l.place l.key = [] → Memory.readN t.mem l.key (sizeBytes z) = (narrow z x).toNat)

/-- R128, R195, R196: `ldf` of a full word reads it and, without `.keep`, sets it empty; of an empty word it waits in the place's station, while that has
room. `stf` to an empty word, after its release fence, writes it and sets it full; to a full word it waits. A request that is performed leaves its place's list of refused ones. That the bits which the fence of `stf` has cleared stay cleared while it waits is the
model's choice (DESIGN CHOICE, log entry 104). -/
def Obligations.SynchronisingAccesses : Prop :=
  ∀ (s s1 : State) (h : Handle) (st st1 : Strand) (g : Option Guard) (z : Size) (q : MemQ) (a : Reg) (m : Mem) (ea x : Word) (l : Loc),
    Issues s h st g → effAddr st m = .ok ea → Fresh st →
    let touched := fun (y : Strand) => y.r.tmask = st.r.tmask ||| tmaskBits st.core l
    (locate s h st ea 8 .read q.mig = .ok (s1, l) → (q.keep = true ∨ busyCheck s1 l = .ok ()) → Room s h st [] a →
      (s1.isFull l.key = true → ∃ y, touched y ∧ y.r = { st.r with tmask := y.r.tmask } ∧
        exec (.ldf g z q a m) s = .next (commitAt (if q.keep then s1.unlist l.place h
          else ((s1.unlist l.place h).setFull l.key false).serve l.place l.key) h y []
          (some (a, BitVec.ofNat 64 (Memory.readN s.mem l.key 8))) (nextPc s st))) ∧
      (s1.isFull l.key = false → (s1.enterStation l.place ⟨h, l.key, if q.keep then 1 else 0, 0, l.ea⟩).2 = true →
        ∃ t y, exec (.ldf g z q a m) s = .next t ∧ t.strand? h = some y ∧ y.status = .parked (.atPlace l.place) ∧ y.r = st.r ∧ SameBytes s t)) ∧
    (locate s h st ea 8 .write q.mig = .ok (s1, l) → src s h st 0 a = .ok x → fence s st q.scope = .ok st1 →
      (s1.isFull l.key = false → ∃ y, y.r = { st1.r with tmask := st1.r.tmask ||| tmaskBits st.core l } ∧
        exec (.stf g z q a m) s = .next (commitAt ((s1.unlist l.place h).write st l 8 x.toNat true) h y [a] none (nextPc s st))) ∧
      (s1.isFull l.key = true → (s1.enterStation l.place ⟨h, l.key, 2, x, l.ea⟩).2 = true →
        ∃ t y, exec (.stf g z q a m) s = .next t ∧ t.strand? h = some y ∧ y.status = .parked (.atPlace l.place) ∧ y.r = st1.r ∧ SameBytes s t))

/-- R127, R132: the integer atomics read the old bytes, write the new ones and deliver the old value extended by the suffix, as one step at the place. The
schedule has not chosen that a slice's router combines the operation (R292, R293; log entry 2). -/
def Obligations.AtomicResults : Prop :=
  ∀ (s s1 : State) (h : Handle) (st st1 : Strand) (g : Option Guard) (z : Size) (q : MemQ) (a c : Reg) (b : Fin 24) (ea x : Word) (l : Loc),
    Issues s h st g → gsrc st b = .ok ea → src s h st 1 c = .ok x → locate s h st ea (sizeBytes z) .write q.mig = .ok (s1, l) →
    releaseFence s st q = .ok st1 → Fresh st → s.picks.headD 0 ≠ 1 → Room s h st [c] a →
    let old : BitVec (sizeBits z) := BitVec.ofNat _ (Memory.readN s.mem l.key (sizeBytes z))
    let u := narrow z x
    let done := fun (o : Out) (v : BitVec (sizeBits z)) => ∃ y, y.r = { st1.r with tmask := st1.r.tmask ||| tmaskBits st.core l } ∧
      o = .next (commitAt (s1.write st l (sizeBytes z) v.toNat false) h y [c] (some (a, extended z old)) (nextPc s st))
    let less := if sizeSigned z then old.slt u else old.ult u
    done (exec (.amoSwap g z q a b c) s) u ∧ done (exec (.amoAdd g z q a b c) s) (old + u) ∧ done (exec (.amoAnd g z q a b c) s) (old &&& u) ∧
    done (exec (.amoOr g z q a b c) s) (old ||| u) ∧ done (exec (.amoXor g z q a b c) s) (old ^^^ u) ∧
    done (exec (.amoMin g z q a b c) s) (if less then old else u) ∧ done (exec (.amoMax g z q a b c) s) (if less then u else old)

/-- R132-R135, R198, R199, R363: `amo.fadd` at determinism level 0 adds with one rounding to nearest and sets sticky flags; `amo.fadd.seq` whose number is the
next of its word's entry, and that no addition held there has, applies its addition, and those held behind it, and delivers the old value: the word becomes its
sum with the operand rounded once to nearest, and where one addition with the next number is held, that sum's with its operand, whose strand is answered. `cas`
writes where the old bytes equal the low bytes of A, and delivers the old value either way; one that fails at a bank is a read there, so that no running sweep
stops it. -/
def Obligations.FloatAtomicAndCasResults : Prop :=
  ∀ (s s1 s2 : State) (h : Handle) (st st1 : Strand) (g : Option Guard) (f : FSize) (z : Size) (q : MemQ) (a c : Reg) (b : Fin 24) (ea x y : Word)
      (l : Loc) (e : SeqEntry),
    Issues s h st g → gsrc st b = .ok ea → src s h st 1 c = .ok x → releaseFence s st q = .ok st1 → Fresh st →
    let keeps := fun (k : Strand) (fl : BitVec 6) =>
      k.r = { st1.r with tmask := st1.r.tmask ||| tmaskBits st.core l, sflags := st1.r.sflags ||| fl }
    (locate s h st ea (fsizeBytes f) .write q.mig = .ok (s1, l) → levelOf s st = 0 → s.picks.headD 0 ≠ 1 → Room s h st [c] a →
      let old := Memory.readN s.mem l.key (fsizeBytes f)
      let r := (fsizeFmt f).add .rne old (fpBits (fsizeFmt f) x)
      ∃ k, keeps k r.2.bits ∧ exec (.amoFadd g f q a b c) s =
        .next (commitAt (s1.write st l (fsizeBytes f) r.1 false) h k [c] (some (a, BitVec.ofNat 64 old)) (nextPc s st))) ∧
    (locate s h st ea (fsizeBytes f) .write q.mig = .ok (s1, l) → src s h st 2 a = .ok y → seqEntry s1 l f (y.setWidth 16) = .ok (s2, e) →
      e.next = y.setWidth 16 → (∀ d ∈ e.held, d.number ≠ e.next) → Room s h st [c, a] a →
      let n := fsizeBytes f
      let F := fsizeFmt f
      let r := s2.applyAdd l.place l.key (f == .f64) x
      let u := (modSeq r.1 l fun e => { e with next := e.next + 1 }).applyHeld l.place l.key (f == .f64) 8
      let old := Memory.readN s.mem l.key n
      let sum := F.add .rne old (fpBits F x)
      let holds := fun (t : State) (v : Nat) => BitVec.ofNat (8 * n) (Memory.readN t.mem l.key n) = BitVec.ofNat (8 * n) v
      (∃ k, keeps k sum.2.bits ∧ exec (.amoFaddSeq g f q a b c) s =
        .next (commitAt (u.dirty l.key st.ctx) h k [c, a] (some (a, BitVec.ofNat 64 old)) (nextPc s st))) ∧
      (Memory.wf s.mem = true → waitingAt s2 l.place l.key = [] → holds r.1 sum.1 ∧ (e.held = [] → holds u sum.1) ∧
        ∀ d, e.held = [d] → d.number = e.next + 1 →
          let mid := Memory.readN r.1.mem l.key n
          let sum2 := F.add .rne mid (fpBits F d.value)
          holds u sum2.1 ∧ ∀ k w, s2.strand? d.h = some k → k.pending = some w → Replied u d.h w (BitVec.ofNat 64 mid) sum2.2.bits)) ∧
    (∀ kind, locate s h st ea (sizeBytes z) kind q.mig = .ok (s1, l) → src s h st 2 a = .ok y → Room s h st [c, a] a →
      let old : BitVec (sizeBits z) := BitVec.ofNat _ (Memory.readN s.mem l.key (sizeBytes z))
      kind = .write ∨ (kind = .read ∧ old ≠ narrow z y ∧ ∃ c, l.place = .bank c) →
      ∃ k, keeps k 0 ∧ exec (.cas g z q a b c) s =
        .next (commitAt (if old = narrow z y then s1.write st l (sizeBytes z) (narrow z x).toNat false else s1) h k [c, a]
          (some (a, extended z old)) (nextPc s st)))

/-- R124, R136-R140, R196, R394: a fence with no dirty line of CXL memory to write back clears the tmask bits of its scope; `waita` of a word that differs from A
delivers it at once, and of an equal word enters the place's watch table and waits; `pref` changes nothing but the PC, where that it charges its context no access, line or flit is the model's choice (DESIGN CHOICE, log entry 96). A write at a
place answers every entry of its watch table that overlaps the written bytes with the word that the entry names as it then stands, and removes it. -/
def Obligations.FenceWatchPrefetch : Prop :=
  ∀ (s s1 : State) (h : Handle) (st : Strand) (g : Option Guard) (scope : Scope) (z : Size) (q : MemQ) (a : Reg) (m : Mem) (ea x : Word) (l : Loc),
    Issues s h st g →
    (needsWriteBack s st scope = false →
      exec (.fence g scope) s = commits s h { st with r := { st.r with tmask := st.r.tmask &&& ~~~(scopeMask st.core scope) } } [] none) ∧
    (effAddr st m = .ok ea → exec (.pref g m) s = commits s h st [] none) ∧
    (effAddr st m = .ok ea → src s h st 0 a = .ok x → locate s h st ea (sizeBytes z) .read q.mig = .ok (s1, l) → Fresh st →
      let v : BitVec (sizeBits z) := BitVec.ofNat _ (Memory.readN s.mem l.key (sizeBytes z))
      (v ≠ narrow z x → Room s h st [a] a → ∃ y, y.r = { st.r with tmask := st.r.tmask ||| tmaskBits st.core l } ∧
        exec (.waita g z q a m) s = .next (commitAt s1 h y [a] (some (a, extended z v)) (nextPc s st))) ∧
      (v = narrow z x → ∃ t y, exec (.waita g z q a m) s = .next t ∧ t.strand? h = some y ∧ y.status = .parked (.atPlace l.place) ∧ y.r = st.r ∧
        (⟨h, l.key, sizeBytes z, ea⟩ : Watch) ∈ (t.place l.place).watch ∧ SameBytes s t)) ∧
    (∀ (p : Place) (k n : Nat), (((s.wakeWatch p k n).place p).watch = (s.place p).watch.filter fun e => !e.hit k n) ∧ SameBytes s (s.wakeWatch p k n) ∧
      ∀ (e : Watch) (y : Strand) (w : Pending), (s.place p).watch = [e] → e.hit k n = true → s.strand? e.h = some y → y.pending = some w →
        ∃ y', (s.wakeWatch p k n).strand? e.h = some y' ∧ y'.status = .parked .reply ∧
          y'.pending = some { w with reply := some (.inl ⟨BitVec.ofNat 64 (Memory.readN s.mem e.key e.bytes), 0⟩) })

/-! ### Messages, tasks and barriers -/

/-- R58, R148-R152, R163-R167: a message that its mailbox accepts joins the mailbox's tail; a refused `send.nb` clears its predicate, a refused `send` parks, and one
whose limit is over traps SEND_TIMEOUT; a `send` that has been refused is sent again with the word, the target and the message of its issue; a receive takes the
message that its mailboxes offer it, writes header and words into consecutive registers and the message leaves its mailbox; a message of the other XR mode traps FMT_MISMATCH, whose `trec2` is the mailbox (DEDUCED, log entry 61); with no message the strand parks, and a `recvn` goes on wanting the message that it named at its issue; `mbstat` counts messages, reserved senders and parked receives, a receive whose message has come and that has not issued again among them by the model's choice (DESIGN CHOICE, log entry 98). -/
def Obligations.MessageResults : Prop :=
  ∀ (s : State) (h : Handle) (st : Strand) (g : Option Guard) (a : Reg) (b i : Fin 24) (p mbox mb : BitVec 4) (len : BitVec 3) (mask : BitVec 16)
      (w : Word) (words : List Word) (k : Nat) (msg : Message),
    Issues s h st g → Fresh st →
    let target := targetCore s (w.setWidth 32)
    let m : Message := { sender := h, seq := w.extractLsb' 32 16, xr := issueXr s st, len := len, mbox := mbox, firmware := false, engine := false
                         dest := w.setWidth 32, words := words }
    let key : Word := (w.setWidth 32 : BitVec 32).setWidth 64
    let took := fun (o : Out) (srcs : List Reg) (word : Word) =>
      ∃ u, (mailboxOf u st.core mb).msgs = (mailboxOf s st.core mb).msgs.eraseIdx k ∧ (∀ c, c ≠ st.core → u.core c = s.core c) ∧
        u.strands = s.strands ∧ u.mem = s.mem ∧ o = commits u h ((st.setRange i (msg.header :: msg.words.take msg.len.toNat)).record 5 0 word
          (msg.header :: msg.words.take msg.len.toNat)) srcs none
    let mismatch := fun (o : Out) =>
      o = .next (enterTrap s h st { number := 2, t2 := mb.setWidth 64, t4 := 0#16 ++ msg.seq ++ msg.sender, t5 := mb.setWidth 64 })
    let sends := fun (x : SendWait) => clusterOf x.core = clusterOf st.core →
      (∀ y, sendOver s st = some y →
        exec (.send g a b mbox len) s = .next (enterTrap s h st { number := 3, t4 := y.word, t5 := y.msg.mbox.setWidth 64 })) ∧
      (sendOver s st = none → accepts s x.core mbox (.strand h) = true → exec (.send g a b mbox len) s =
        commits (accept s x.core (.strand h) x.msg) h (st.record 4 0 ((x.word.setWidth 32 : BitVec 32).setWidth 64) []) [a] none) ∧
      (sendOver s st = none → accepts s x.core mbox (.strand h) = false → sendExpired s st.ctx (x.refused s.cycle) = false →
        Parks (exec (.send g a b mbox len) s) s h st (.mailboxRoom x.core mbox) ∧
        ∀ t, exec (.send g a b mbox len) s = .next t → (t.strand? h).bind Strand.sending = some (x.refused s.cycle))
    let named := fun (W : Want) (word : Word) =>
      (receivable (s.core st.core) h W = some (mb, k, msg) →
        (msg.xr = (s.core st.core).xr → took (exec (.recvn g i a mbox) s) [a] word) ∧
        (msg.xr ≠ (s.core st.core).xr → mismatch (exec (.recvn g i a mbox) s))) ∧
      (receivable (s.core st.core) h W = none → Parks (exec (.recvn g i a mbox) s) s h st .mailbox ∧
        ∀ t, exec (.recvn g i a mbox) s = .next t → (t.strand? h).bind Strand.kept = some (.want W word))
    (∀ x, st.sending = some x → x.msg.mbox = mbox → sends x) ∧
    (src s h st 0 a = .ok w → grange st b len.toNat = .ok words →
      (st.sending = none → sends ⟨none, w, target, m, s.words⟩) ∧
      (clusterOf target = clusterOf st.core →
        (accepts s target mbox (.strand h) = true →
          (mailboxOf (accept s target (.strand h) m) target mbox).msgs = (mailboxOf s target mbox).msgs ++ [m] ∧
          exec (.sendNb g p a b mbox len) s = commits (accept s target (.strand h) m) h ((st.record 4 1 key []).setP p true) [a] none) ∧
        (accepts s target mbox (.strand h) = false →
          exec (.sendNb g p a b mbox len) s = commits s h ((st.record 4 0 key []).setP p false) [a] none))) ∧
    (receivable (s.core st.core) h (.mask mask) = some (mb, k, msg) →
      (msg.xr = (s.core st.core).xr → took (exec (.recv g i mask) s) [] (mask.setWidth 64)) ∧
      (msg.xr ≠ (s.core st.core).xr → mismatch (exec (.recv g i mask) s))) ∧
    (receivable (s.core st.core) h (.mask mask) = none → Parks (exec (.recv g i mask) s) s h st .mailbox) ∧
    (∀ W word, st.kept = some (.want W word) → named W word) ∧
    (src s h st 0 a = .ok w → (∀ W word, st.kept ≠ some (.want W word)) → named (.exact mbox (w.setWidth 32) (w.extractLsb' 32 16)) w) ∧
    (Room s h st [] a →
      let parked := ((s.core st.core).mbwait.filter fun e => e.2.names mbox).length
      exec (.mbstat g a mbox) s = commits s h st []
        (some (a, BitVec.ofNat 64 ((mailboxOf s st.core mbox).msgs.length + 16 * (mailboxOf s st.core mbox).reserved.length + 256 * parked))))

/-- R155, R156, R168-R171: `fork` and `spawn` push a task at the head of a deque whose on-chip part has room, and with a join word count it there first; with
room only in the spill area they keep an entry reserved, with the target and the task of their issue, and wait; a full deque faults DEQUE_FULL; a join word out of range faults JOIN_RANGE; `join` reads a
full word and waits for an empty one; `exit` counts the join word down and ends the task, once its dispatched work is done. A join step adds or subtracts one,
and sets the word full where it is then 0, else empty. That `fork` and `spawn` record the entry PC (DEDUCED, log entry 62), and that they push on the target
core whatever its context or service (DESIGN CHOICE, log entry 27), is the model's choice. -/
def Obligations.TaskResults : Prop :=
  ∀ (s u s1 : State) (h : Handle) (st st1 : Strand) (g : Option Guard) (mig up : Bool) (a : Reg) (b : Fin 24) (m : Mem) (e w ea x0 x1 x2 x3 : Word) (l : Loc),
    Issues s h st g → Fresh st →
    let target := coreOf (clusterOf st.core) (w.setWidth 3)
    let child := childTask st e #v[x0, x1, x2, x3]
    let waits := fun (o : Out) (c : CoreId) (x : TaskSource) => ∃ t, o = .next t ∧ h ∈ (t.core c).dequeRes ∧ (t.core c).deque = (s.core c).deque ∧
      (t.strand? h).bind Strand.kept = some (.entry c x)
    let pushes := fun (i : Bool → Instr) (c : CoreId) (x : TaskSource) =>
      (∀ b, dequeFull (s.core c) h = true → exec (i b) s = .next (freeze s h st ⟨0x45, 0, [c.core.setWidth 64]⟩)) ∧
      (∀ b, dequeFull (s.core c) h = false → dequeRoom (s.core c) h = false → Parks (exec (i b) s) s h st (.dequeRoom c) ∧ waits (exec (i b) s) c x) ∧
      (dequeFull (s.core c) h = false → dequeRoom (s.core c) h = true →
        exec (i false) s = commits (pushDeque s c h x) h (st.record 4 0 x.entry []) [a] none ∧
        (joinStep s h st x.args[3] true = .ok (u, l) →
          exec (i true) s = commits (pushDeque u c h x) h ((st.orTmask (tmaskBits st.core l)).record 4 0 x.entry []) [a] none) ∧
        (locateBank s h st x.args[3] .write false = .ok (s1, l) → 0xFFFFFFFF ≤ (s1.readWord l.key).toNat →
          exec (i true) s = .next (freeze s h st ⟨0x41, x.args[3], [s1.readWord l.key, 1]⟩)))
    (∀ c x, st.kept = some (.entry c x) → pushes (fun j => .fork g j a b) c x ∧ pushes (fun j => .spawn g j a b) c x) ∧
    ((∀ c x, st.kept ≠ some (.entry c x)) →
      (src s h st 0 a = .ok e → grange st b 4 = .ok [x0, x1, x2, x3] → pushes (fun j => .fork g j a b) st.core child) ∧
      (src s h st 0 a = .ok w → grange st b 5 = .ok [e, x0, x1, x2, x3] → pushes (fun j => .spawn g j a b) target child)) ∧
    (effAddr st m = .ok ea → locateBank s h st ea .read mig = .ok (s1, l) →
      (s1.isFull l.key = true → Room s h st [] a → exec (.join g mig a m) s =
        commits (s1.unlist l.place h) h ((st.orTmask (tmaskBits st.core l)).record 3 0 ea [s1.readWord l.key]) [] (some (a, s1.readWord l.key))) ∧
      (s1.isFull l.key = false → (s1.enterStation l.place ⟨h, l.key, 3, 0, ea⟩).2 = true → Parks (exec (.join g mig a m) s) s h st (.atPlace l.place))) ∧
    (vectorBusy s h st.core = false → matrixBusy s h st.core = false →
      exec (.exit g false) s = .next (endTask s h) ∧ (endTask s h).strand? h = none ∧
      (fence s st .die = .ok st1 → gsrc st1 3 = .ok ea → joinStep s h st1 ea false = .ok (u, l) →
        exec (.exit g true) s = .next (endTask u h))) ∧
    ((pushDeque s target h child).core target).deque = child :: (s.core target).deque ∧
    (joinStep s h st ea up = .ok (u, l) → Memory.wf s.mem = true → waitingAt s l.place l.key = [] →
      u.readWord l.key = (if up then s.readWord l.key + 1 else s.readWord l.key - 1) ∧ u.isFull l.key = decide (u.readWord l.key = 0))

/-- R97, R98, R143-R145, R147, R172-R174, R176: `yield` sits out, `migrate` to the strand's own core or in a handler only advances, and to another core hands the
strand to the movement slot, whose packet O49 states, or traps MIG_STATE; `getid` delivers who and where the strand is, `qctl` sets and reads the slots'
roles, counts the queues and discards one. That the ILLEGAL of bad roles names the base word (DEDUCED, log entry 20), and that `getid` records its
selector (DEDUCED, log entry 62), is the model's choice. -/
def Obligations.PlaceAndIdentityResults : Prop :=
  ∀ (s : State) (h : Handle) (st : Strand) (g : Option Guard) (a : Reg) (x : Word), Issues s h st g →
    exec (.yield g) s = commits s h { st with yieldUntil := s.cycle + (if levelOf s st = 2 then 17 else 16) } [] none ∧
    (src s h st 0 a = .ok x →
      let target := coreOf (clusterOf st.core) (x.setWidth 3)
      (target = st.core ∨ st.r.inTrap = true → exec (.migrate g a) s = commits s h st [a] none) ∧
      (target ≠ st.core → st.r.inTrap = false →
        (cannotMigrate s h st = true → exec (.migrate g a) s = .next (enterTrap s h st { number := 4, t4 := coordAddr target 0 })) ∧
        (cannotMigrate s h st = false → Parks (exec (.migrate g a) s) s h st (.inbox target))) ∧
      (x.extractLsb' 30 34 = 0 → ∃ u, exec (.qctlSetRoles g a) s = commits u h st [a] none ∧ u.mem = s.mem ∧ u.strands = s.strands ∧
        (∀ i : Fin 15, (u.core st.core).slotrole[i] = x.extractLsb' (2 * i.val) 2) ∧ (u.core st.core).q = (s.core st.core).q) ∧
      (x.extractLsb' 30 34 ≠ 0 → exec (.qctlSetRoles g a) s =
        .next (enterTrap s h st (illegalInfo s.latch ⟨7, BitVec.ofNat 5 (s.latch.length - 1), 0⟩))) ∧
      (∃ u, exec (.qctlDiscard g a) s = commits u h st [] none ∧ u.mem = s.mem ∧ u.strands = s.strands ∧
        ∀ k : Fin 4, (u.core st.core).q[k] = if k.val = x.toNat % 4 then [] else ((s.core st.core).q[k]).drop (popsOf k [a]))) ∧
    (Room s h st [] a →
      (Fresh st →
        let id := fun (o : Out) (sel : Nat) (v : Word) => o = commits s h (st.record 7 sel (BitVec.ofNat 64 sel) [v]) [] (some (a, v))
        id (exec (.getidHandle g a) s) 0 (h.setWidth 64) ∧
        id (exec (.getidLogicalIndex g a) s) 1 ((st.index.map fun i => i.setWidth 64).getD (BitVec.allOnes 64)) ∧
        id (exec (.getidBank g a) s) 2 (coordAddr st.core 0) ∧ id (exec (.getidSlot g a) s) 3 (st.slot.setWidth 64) ∧
        id (exec (.getidModulePosition g a) s) 4 (s.position.setWidth 64) ∧ id (exec (.getidCycleCounter g a) s) 5 (BitVec.ofNat 64 s.cycle)) ∧
      (∃ v : Word, exec (.qctlReadRoles g a) s = commits s h st [] (some (a, v)) ∧ v.extractLsb' 30 34 = 0 ∧
        ∀ i : Fin 15, v.extractLsb' (2 * i.val) 2 = (s.core st.core).slotrole[i]) ∧
      exec (.qctlQueueCounts g a) s = commits s h st [] (some (a, BitVec.ofNat 64 ((s.core st.core).q[0].length + 32 * (s.core st.core).q[1].length +
        1024 * (s.core st.core).q[2].length + 32768 * (s.core st.core).q[3].length))))

/-- R158, R179-R181, R184: `cwait` passes a counter that is low enough and parks on one that is not; the word of a barrier object after `barinit`, `bararv` and
`barinv`, its tag, and `barwait` passing another generation and parking on its own. An object in use faults BARRIER_BUSY, an untagged word
BARRIER_LOST. What the word holds afterwards is said where no other request waits for it. That only the `barwait`s in the station count for BARRIER_BUSY is the
model's choice (DESIGN CHOICE, log entry 106). -/
def Obligations.BarrierAndCounterResults : Prop :=
  ∀ (s s1 : State) (h : Handle) (st st1 : Strand) (g : Option Guard) (mig : Bool) (a : Reg) (m : Mem) (c : BitVec 4) (n : BitVec 16) (ea x : Word) (l : Loc),
    Issues s h st g → Fresh st →
    let w := s1.readWord l.key
    let quiet := waitingAt s1 l.place l.key = []
    let noted := (st.orTmask (tmaskBits st.core l)).record 3 0 ea [0]
    ((s.core st.core).c[c.toFin] ≤ n → exec (.cwait g c n) s = commits s h st [] none) ∧
    (n < (s.core st.core).c[c.toFin] → Parks (exec (.cwait g c n) s) s h st (.counter c n.toNat)) ∧
    (effAddr st m = .ok ea → locateBank s h st ea .write mig = .ok (s1, l) → Memory.wf s.mem = true →
      (src s h st 0 a = .ok x → x.setWidth 16 ≠ (0 : BitVec 16) → x.extractLsb' 16 48 = 0 →
        (s1.isTagged l.key = true → barArrived w ≠ 0 ∨ barWaiters s1 l ≠ 0 →
          exec (.barinit g mig a m) s = .next (freeze s h st ⟨0x43, ea, [w, BitVec.ofNat 64 (barWaiters s1 l)]⟩)) ∧
        (s1.isTagged l.key = false ∨ (barArrived w = 0 ∧ barWaiters s1 l = 0) →
          ∃ u, exec (.barinit g mig a m) s = commits u h noted [a] none ∧
            (quiet → u.isTagged l.key = true ∧ u.isFull l.key = true ∧
              u.readWord l.key = barWord (if s1.isTagged l.key then barGen w + 1 else 0) (x.setWidth 16) 0))) ∧
      (fence s st .cluster = .ok st1 →
        (s1.isTagged l.key = false → exec (.bararv g mig a m) s = .next (freeze s h st ⟨0x42, ea, [w, 1]⟩)) ∧
        (s1.isTagged l.key = true → Room s h st [] a →
          ∃ u, exec (.bararv g mig a m) s = commits u h ((st1.orTmask (tmaskBits st.core l)).record 3 0 ea [w]) [] (some (a, w)) ∧
            (quiet → u.isTagged l.key = true ∧ u.readWord l.key =
              (if barArrived w + 1 = barExpect w then barWord (barGen w + 1) (barExpect w) 0
               else barWord (barGen w) (barExpect w) (barArrived w + 1))))) ∧
      (∃ u, exec (.barinv g mig m) s = commits u h noted [] none ∧
        (quiet → u.isTagged l.key = false ∧ u.isFull l.key = true ∧ u.readWord l.key = 0))) ∧
    (effAddr st m = .ok ea → src s h st 0 a = .ok x → locateBank s h st ea .read mig = .ok (s1, l) →
      (s1.isTagged l.key = false → exec (.barwait g mig a m) s = .next (freeze s h st ⟨0x42, ea, [w, 2]⟩)) ∧
      (s1.isTagged l.key = true → barGen w ≠ x.setWidth 16 → exec (.barwait g mig a m) s = commits (s1.unlist l.place h) h noted [a] none) ∧
      (s1.isTagged l.key = true → barGen w = x.setWidth 16 → (s1.enterStation l.place ⟨h, l.key, 4, x, ea⟩).2 = true →
        Parks (exec (.barwait g mig a m) s) s h st (.atPlace l.place)))

/-- R158, R175, R177, R178, R182, R183: `cpy` hands its command to the movement slot and raises the counter that it names; `fill` writes a register of another
task and sets it full; `wdq` sets its answer word empty and sends the query; `launch` writes the packet image into the next slot of its queue. A copy
command that breaks R178 traps ILLEGAL, whose record names the base word by the model's choice (log entry 20); `fill` of a dead task faults STALE_HANDLE. That `launch` reads
the image before its fence, which clears what bits of those reads lie in its scope, is the model's choice (DESIGN CHOICE, log entry 90). -/
def Obligations.CopyFillQueryLaunchResults : Prop :=
  ∀ (s s1 : State) (h t : Handle) (st st1 x : Strand) (g : Option Guard) (a b : Fin 24) (c d : Reg) (n : Fin 24) (m : Mem) (ea lo hi v w : Word) (l : Loc)
      (words : List Word) (k : Context) (q : CmdQueue),
    Issues s h st g → Fresh st →
    (gsrc st a = .ok lo → gsrc st b = .ok hi →
      (copyIllegal lo hi = true → exec (.cpy g a b) s =
        .next (enterTrap s h st (illegalInfo s.latch ⟨7, BitVec.ofNat 5 (s.latch.length - 1), 0⟩))) ∧
      (copyChecks s st lo hi = none → (s.core st.core).copyReg = none → (copyKind hi = 0 → (s.core st.core).c[(copyIdx hi).toFin] ≠ BitVec.allOnes 16) →
        ∃ u, exec (.cpy g a b) s = commits u h (st.record 7 0 lo []) [] none ∧ (u.core st.core).copyReg = some (copyCommand s h st lo hi) ∧
          (u.core st.core).copies = (s.core st.core).copies ∧ u.mem = s.mem ∧ u.strands = s.strands ∧
          ∀ i : Fin 16, (u.core st.core).c[i] = (s.core st.core).c[i] + if copyKind hi = 0 ∧ (copyIdx hi).toFin = i then 1 else 0)) ∧
    (src s h st 0 c = .ok w → src s h st 1 d = .ok v → t = w.setWidth 32 →
      (t = h → st.status = .ready → exec (.fill g c d n) s =
        commits s h (((st.record 4 0 (t.setWidth 64) []).setG n v).record 6 n.val (BitVec.ofNat 64 n.val) [v]) [c, d] none) ∧
      (t ≠ h → s.strand? t = none → exec (.fill g c d n) s = .next (freeze s h st ⟨0x44, 0, [t.setWidth 64]⟩)) ∧
      (t ≠ h → s.strand? t = some x → (∀ k, x.status ≠ .packet k) →
        ∃ u y, exec (.fill g c d n) s = commits u h (st.record 4 0 (t.setWidth 64) []) [c, d] none ∧ u.strand? t = some y ∧
          y.r = { x.r with gpr := x.r.gpr.set n v, full := x.r.full ||| BitVec.twoPow 24 n.val } ∧ u.mem = s.mem ∧
          ∀ j, j ≠ t → u.strand? j = s.strand? j)) ∧
    (effAddr st m = .ok ea → src s h st 0 c = .ok w → locateBank s h st ea .read false = .ok (s1, l) → (s.core st.core).wdqOpen < 16 →
      let i := Table.get 0 (w.setWidth 16 : BitVec 16) st.wdqCounts
      let query : WorkQuery := { h := h, core := st.core, ctx := st.ctx, launch := st.launch, level := st.level, index := st.index
                                 list := w.toNat % 65536, i := i, key := l.key }
      ∃ u, exec (.wdq g c m) s = commits u h (({ st with wdqCounts := Table.put (w.setWidth 16 : BitVec 16) (i + 1) st.wdqCounts }.orTmask
          (tmaskBits st.core l)).record 7 0 ea []) [c] none ∧
        (u.die st.core.die).queries = (s.die st.core.die).queries ++ [query] ∧ (u.core st.core).wdqOpen = (s.core st.core).wdqOpen + 1 ∧
        (waitingAt s1 l.place l.key = [] → u.isFull l.key = false ∧ SameBytes s u)) ∧
    (effAddr st m = .ok ea → spaceCode ea < 8 → src s h st 0 c = .ok w → loadWords s h st ea 8 = .ok (s1, words) →
      fence s (st.orTmask (touchWords s h st ea 8)) .pkg = .ok st1 →
      s.context? st.ctx = some k → Table.find (w.setWidth 4 : BitVec 4) k.queues = some q → q.deviceFed = true → q.enabled = true →
      q.tail.toNat - q.head.toNat < q.slots → q.head.toNat ≤ q.tail.toNat →
      ∃ u, exec (.launch g c m) s = commits u h (st1.record 4 0 ea []) [c] none ∧
        u.mem = (s1.deviceWriteWords st.core st.ctx (q.ring + BitVec.ofNat 64 (64 * (q.tail.toNat % q.slots))) words).mem ∧
        ((u.context? st.ctx).bind fun y => Table.find (w.setWidth 4 : BitVec 4) y.queues) = some { q with tail := q.tail + 1 })

/-! ### Vectors, directions, matrices and quantisation -/

/-- R202, R214-R217, R221, R222, R229-R232, R236, R245, R246, R250, R253, R255: a vector or directional instruction of a strand with a grant whose dispatch queue
has room enters that queue, with the operands that it captures at issue: the checked address of a memory command, the base of a gather or scatter, the
scalar that is broadcast or scales a direction, the draws' seed and counter of a stochastic conversion. Without a grant it faults NO_LANES, with the
queue full the strand parks, and a misaligned address faults at issue. -/
def Obligations.VectorCommandsEnter : Prop :=
  (∀ (i : Instr) (s : State) (h : Handle) (st : Strand), capturesNothing i = true → Issues s h st (guardOf i) →
    (st.vl = 0 → exec i s = .next (freeze s h st ⟨0x48, 0, [pageMajor s.latch]⟩)) ∧
    (st.vl ≠ 0 → DispatchRoom s st → ∃ t, exec i s = .next t ∧ Entered s h st i [] t) ∧
    (st.vl ≠ 0 → ¬DispatchRoom s st → Parks (exec i s) s h st (.dispatchRoom st.core st.r.inTrap))) ∧
  (∀ (s : State) (h : Handle) (st : Strand) (g : Option Guard) (t t2 : EType) (up : Bool) (rm : Rm) (a c : BitVec 4) (d e : BitVec 3) (b : Fin 24) (r : Reg) (m : Mem)
      (ea x : Word) (sp : Space), Issues s h st g → st.vl ≠ 0 → DispatchRoom s st →
    let enters := fun (i : Instr) (args : List Word) => ∃ u, exec i s = .next u ∧ Entered s h st i args u
    (effAddr st m = .ok ea → strandSpace s st ea = .ok sp →
      (ea.toNat % (etypeBits t / 8) = 0 → enters (.vld g t a m) [ea] ∧ enters (.vst g t a m) [ea]) ∧
      (ea.toNat % (etypeBits t / 8) ≠ 0 → exec (.vld g t a m) s = .next (freeze s h st ⟨2, ea, [BitVec.ofNat 64 (etypeBits t / 8)]⟩)) ∧
      (ea.toNat % 8 = 0 → enters (.dld g d m) [ea] ∧ enters (.dldRn g d m) [ea] ∧ enters (.dst g d m) [ea])) ∧
    (gsrc st b = .ok x → enters (.vgth g t a b c) [x] ∧ enters (.vsct g t a b c) [x]) ∧
    (src s h st 0 r = .ok x → enters (.vbcst g t a r) [x] ∧ enters (.dscl g d r) [x] ∧ enters (.dlerp g d e r) [x] ∧ enters (.dsetn g d r) [x]) ∧
    enters (.vcvt g t t2 up rm a c) (if rm = .rst then [s.readShared st.core 0 0, s.readShared st.core 1 1] else []))

/-- R200, R201, R218-R220, R234: `vclaim` of a strand without a grant, and `vren` of one whose vector work is done, present a claim at the cluster's pool
and wait for its answer; `vclaim` with a grant traps ILLEGAL; the forms of `vren` that set or read `vn` are commands; `vrel` returns the grant,
`vfence` passes, and both wait for the strand's vector work. That the ILLEGAL record names the base word is the model's choice (log entry 20). -/
def Obligations.LaneClaimResults : Prop :=
  ∀ (s : State) (h : Handle) (st : Strand) (g : Option Guard) (a : Fin 24) (r : Reg) (lo hi : BitVec 2) (x : Word), Issues s h st g →
    let presented := fun (o : Out) => ∃ t y, o = .next t ∧ (t.cluster (clusterOf st.core)).claims = (s.cluster (clusterOf st.core)).claims ++ [⟨h, lo, hi, false⟩] ∧
      t.strand? h = some y ∧ y.status = .parked .claim ∧ y.vl = 0 ∧ y.claim = none ∧ y.r = st.r ∧ SameBytes s t
    (st.vl = 0 → presented (exec (.vclaim g a lo hi) s)) ∧
    (st.vl ≠ 0 → exec (.vclaim g a lo hi) s = .next (enterTrap s h st (illegalInfo s.latch ⟨7, BitVec.ofNat 5 (s.latch.length - 1), 0⟩))) ∧
    (vectorBusy s h st.core = false → presented (exec (.vren g a lo hi) s) ∧
      exec (.vrel g) s = commits s h { st with vl := 0, claim := none } [] none ∧ exec (.vfence g) s = commits s h st [] none) ∧
    (vectorBusy s h st.core = true → Parks (exec (.vren g a lo hi) s) s h st .vectorWork ∧ Parks (exec (.vrel g) s) s h st .vectorWork ∧
      Parks (exec (.vfence g) s) s h st .vectorWork) ∧
    (DispatchRoom s st → (∃ t, exec (.vrenStat g a) s = .next t ∧ Entered s h st (.vrenStat g a) [] t) ∧
      (src s h st 0 r = .ok x → ∃ t, exec (.vrenSetn g r) s = .next t ∧ Entered s h st (.vrenSetn g r) [x] t))

/-- R53, R193, R214, R221-R224, R227-R229: what the pool's commit of an integer or moving command writes, position by position of the 32-bit or the 64-bit view
below the active count; the other positions keep their values and no flag is set. `vperm` and `vsel` read their third operand as an index and as a choice. A
load or gather whose element accesses all pass, performed in one turn (log entry 2), holds the bytes at each address, and a store or scatter writes them; the
places that are written have no requests waiting. -/
def Obligations.VectorIntegerResults : Prop :=
  (∀ (s : State) (c : CoreId) (m : VCmd) (st : Strand) (g : Option Guard) (wide signed : Bool) (rm : Rm) (cc : Cond) (a b d : BitVec 4) (r : Reg),
    (s.core c).vec.performable = some m → s.strand? m.h = some st → st.core = c → (s.core c).vec.vn ≤ 256 →
    let t : EType := if wide then (if signed then .s64 else .n64) else (if signed then .s32 else .n32)
    let z : Size := if wide then (if signed then .s64 else .n64) else (if signed then .s32 else .n32)
    let W := if wide then 64 else 32
    let f := (s.core c).vec
    let n := if wide then (f.vn + 1) / 2 else f.vn
    let at_ := fun (v : BitVec 4) (i : Nat) => (BitVec.ofNat W (VReg.pos (f.reg v) wide i) : BitVec W)
    let x := at_ b
    let y := at_ d
    let lt := fun (i : Nat) => if signed then (x i).slt (y i) else (x i).ult (y i)
    let w := fun (q : Nat → BitVec W) => ∃ u, exec (.vectorPoolCommit c) s = .next u ∧ PoolWrote s u c m a wide 0 n (fun i => (q i).toNat) 0 0
    (m.op = .vadd g t rm a b d → w fun i => x i + y i) ∧ (m.op = .vsub g t rm a b d → w fun i => x i - y i) ∧
    (m.op = .vmul g t rm a b d → w fun i => x i * y i) ∧ (m.op = .vand g t a b d → w fun i => x i &&& y i) ∧
    (m.op = .vor g t a b d → w fun i => x i ||| y i) ∧ (m.op = .vxor g t a b d → w fun i => x i ^^^ y i) ∧
    (m.op = .vshl g t a b d → w fun i => x i <<< ((y i).toNat % W)) ∧
    (m.op = .vshr g t a b d → w fun i => if signed then (x i).sshiftRight ((y i).toNat % W) else x i >>> ((y i).toNat % W)) ∧
    (m.op = .vmin g t a b d → w fun i => if lt i then x i else y i) ∧ (m.op = .vmax g t a b d → w fun i => if lt i then y i else x i) ∧
    (m.op = .vneg g t a b → w fun i => -(x i)) ∧ (m.op = .vabs g t a b → w fun i => if signed && (x i).msb then -(x i) else x i) ∧
    (m.op = .vcmp g t cc a b d → w fun i => if holds cc z ((x i).setWidth 64) ((y i).setWidth 64) then BitVec.allOnes W else 0) ∧
    (m.op = .viota g t a → w fun i => BitVec.ofNat W i) ∧
    (∀ e : EType, isWide e = wide → etypeBits e = W →
      (m.op = .vsel g e a b d → w fun i => if at_ a i ≠ 0 then x i else y i) ∧ (m.op = .vbcst g e a r → w fun _ => (m.args.headD 0).setWidth W) ∧
      (m.op = .vperm g e a b d → w fun i => x ((y i).toNat % positions wide)))) ∧
  (∀ (s s1 : State) (c : CoreId) (m : VCmd) (st : Strand) (g : Option Guard) (t : EType) (a d : BitVec 4) (b : Fin 24) (mem : Mem) (ls : List (Nat × Loc)),
    (s.core c).vec.performable = some m → s.strand? m.h = some st → st.core = c → (s.core c).vec.vn ≤ 256 → m.got = [] → m.owed = [] → s.picks = [] →
    isMx t = false → t ≠ .px8 →
    let f := (s.core c).vec
    let wide := isWide t
    let n := if wide then (f.vn + 1) / 2 else f.vn
    let w := etypeBits t / 8
    let base := m.args.headD 0
    let linear := fun (i : Nat) => base + BitVec.ofNat 64 (w * i)
    let indexed := fun (i : Nat) => base + ((f.reg d)[Fin.ofNat 256 (if wide then 2 * i else i)]).signExtend 64
    let reaches := fun (kind : AccessKind) (e : Nat → Word) => poolLocateAll s m st w kind ((List.range n).map fun i => (i, e i)) = .ok (s1, ls)
    let loads := ∃ u x, exec (.vectorPoolCommit c) s = .next u ∧ (∀ e ∈ ls, x e.1 = heldCode t (Memory.readN s.mem e.2.key w)) ∧
      PoolWrote s u c m a wide 0 n x 0 (locMask c (ls.map (·.2)))
    let stores := ∃ u, exec (.vectorPoolCommit c) s = .next u ∧ PoolStored s u c m w ls fun i => VReg.pos (f.reg a) wide i
    let quiet := Memory.wf s.mem = true ∧ ∀ e ∈ ls, (s.place e.2.place).station = []
    (m.op = .vld g t a mem → reaches .read linear → loads) ∧ (m.op = .vgth g t a b d → reaches .read indexed → loads) ∧
    (m.op = .vst g t a mem → reaches .write linear → quiet → stores) ∧ (m.op = .vsct g t a b d → reaches .write indexed → quiet → stores))

/-- R55, R56, R65, R66, R76, R122, R214, R224-R226, R228, R230-R232: what the pool's commit of a floating-point command writes, position by position of the
view of binary32 or binary64: the exact result of the positions' values, rounded once under the command's mode, a subnormal being read as zero where DAZ is 1;
where DAZ is 0 none occurs. The exceptions of every position are added to the sticky flags of the strand. For the functions of R226 the special cases of its
table, and exact powers of two, are pinned; the value a function rounds is that of `FFmt.exp2` and its like (log entry 17). A conversion reads each position's
value and delivers it in its destination type, in the half that it selects; to a microscaling type it forms a block of each 32 positions, and from one it
rounds as R76 says of every source, with its flags (log entry 38). That `vabs` and `vneg` of a NaN give the canonical NaN, with invalid where it is
signalling, is the model's choice (DEDUCED, log entry 37). -/
def Obligations.VectorFloatResults : Prop :=
  (∀ (s : State) (c : CoreId) (m : VCmd) (st : Strand) (g : Option Guard) (wide : Bool) (rm : Rm) (cc : Cond) (a b d : BitVec 4),
    (s.core c).vec.performable = some m → s.strand? m.h = some st → st.core = c → (s.core c).vec.vn ≤ 256 →
    let t : EType := if wide then .f64 else .f32
    let F : FFmt := if wide then .f64 else .f32
    let f := (s.core c).vec
    let n := if wide then (f.vn + 1) / 2 else f.vn
    let plain := fun (v : BitVec 4) => m.daz = true ∨ ∀ i, i < n → F.subnormal (VReg.pos (f.reg v) wide i) = false
    let read := fun (v : BitVec 4) (i : Nat) => if m.daz then F.flush (VReg.pos (f.reg v) wide i) else VReg.pos (f.reg v) wide i
    let x := read b
    let y := read d
    let k := read a
    plain b → plain d → plain a →
    let w := fun (q : Nat → Nat × Flags) => ∃ u, exec (.vectorPoolCommit c) s = .next u ∧ PoolWrote s u c m a wide 0 n (fun i => (q i).1) (flagsOf n q) 0
    let signed := fun (i : Nat) (neg : Bool) =>
      if (F.value (x i)).isNan then (F.nanCode, { invalid := (F.value (x i)).isSnan }) else (F.withSign neg (x i % 2 ^ F.signPos), ({} : Flags))
    (m.op = .vadd g t rm a b d → w fun i => F.deliver rm ((F.value (x i)).add rm (F.value (y i)))) ∧
    (m.op = .vsub g t rm a b d → w fun i => F.deliver rm ((F.value (x i)).add rm (F.value (y i)).neg)) ∧
    (m.op = .vmul g t rm a b d → w fun i => F.deliver rm ((F.value (x i)).mul (F.value (y i)))) ∧
    (m.op = .vfma g t rm a b d → w fun i =>
      let p := (F.value (x i)).mul (F.value (y i))
      let q := p.1.add rm (F.value (k i))
      F.deliver rm (q.1, p.2 || q.2)) ∧
    (m.op = .vdiv g t rm a b d → w fun i => F.div rm (x i) (y i)) ∧
    (m.op = .vmin g t a b d → w fun i => F.pick true (x i) (y i)) ∧ (m.op = .vmax g t a b d → w fun i => F.pick false (x i) (y i)) ∧
    (m.op = .vabs g t a b → w fun i => signed i false) ∧ (m.op = .vneg g t a b → w fun i => signed i !((x i).testBit F.signPos)) ∧
    (m.op = .vcmp g t cc a b d → w fun i =>
      (if (F.compare cc (x i) (y i)).1 then 2 ^ (if wide then 64 else 32) - 1 else 0, (F.compare cc (x i) (y i)).2)) ∧
    (m.op = .vrcp g t rm a b → w fun i => F.div rm F.one (x i)) ∧ (m.op = .vsqrt g t rm a b → w fun i => F.sqrt rm (x i)) ∧
    (wide = false → (m.op = .vexp2 g rm a b → w fun i => FFmt.f32.exp2 rm (x i)) ∧ (m.op = .vlog2 g rm a b → w fun i => FFmt.f32.log2 rm (x i)) ∧
      (m.op = .vrsq g rm a b → w fun i => FFmt.f32.rsqrt rm (x i)))) ∧
  (∀ (F : FFmt) (rm : Rm) (p q : Nat) (n1 n2 : Bool) (m e : Nat) (j k : Int), F = .f32 ∨ F = .f64 →
    let inf := fun (neg : Bool) => (F.withSign neg ((2 ^ F.ebits - 1) * 2 ^ F.mbits), ({} : Flags))
    let invalid : Nat × Flags := (F.nanCode, { invalid := true })
    (F.value p = .fin n1 0 j → (m ≠ 0 → F.value q = .fin n2 m k → F.div rm q p = inf (n2 != n1)) ∧ (F.value q = .fin n2 0 k → F.div rm q p = invalid) ∧
      F.div rm F.one p = inf n1 ∧ F.sqrt rm p = (F.withSign n1 0, {}) ∧ F.log2 rm p = inf true ∧ F.rsqrt rm p = inf n1) ∧
    (F.value p = .inf n1 → (F.value q = .inf n2 → F.div rm q p = invalid) ∧ F.div rm F.one p = (F.withSign n1 0, {}) ∧
      F.exp2 rm p = (if n1 then (0, {}) else inf false) ∧ F.log2 rm p = (if n1 then invalid else inf false) ∧
      F.rsqrt rm p = (if n1 then invalid else (0, {})) ∧ F.sqrt rm p = (if n1 then invalid else inf false)) ∧
    (m ≠ 0 → F.value p = .fin true m j → F.log2 rm p = invalid ∧ F.rsqrt rm p = invalid ∧ F.sqrt rm p = invalid) ∧
    (F.value p = .fin false (2 ^ m) j → F.log2 rm p = F.ofVal rm 0 (FVal.ofInt (m + j))) ∧
    (0 < m → m ≤ 4096 → F.value p = .fin n1 (m * 2 ^ e) (-e) → F.exp2 rm p = F.roundMag rm false 1 (if n1 then -m else m) false)) ∧
  (∀ (s : State) (c : CoreId) (m : VCmd) (st : Strand) (g : Option Guard) (dst src : EType) (hi : Bool) (rm : Rm) (a b : BitVec 4),
    (s.core c).vec.performable = some m → s.strand? m.h = some st → st.core = c → (s.core c).vec.vn ≤ 256 → m.op = .vcvt g dst src hi rm a b →
    let f := (s.core c).vec
    let n := if isWide dst || isWide src then (f.vn + 1) / 2 else f.vn
    let so := if isWide dst && !isWide src && hi then 128 else 0
    let sh := if isWide src && !isWide dst && hi then 128 else 0
    let raw := fun (i : Nat) => VReg.pos (f.reg b) (isWide src) (i + so)
    let code := fun (i : Nat) => raw i % 2 ^ etypeBits src
    let read := fun (i : Nat) => match trappingFmt src with
      | some F => if m.daz then F.flush (code i) else code i
      | none => code i
    let draws := fun (i : Nat) => draw (m.args.getD 0 0) (BitVec.ofNat 32 (i + sh)) (m.args.getD 1 0)
    let w := fun (q : Nat → Nat) (fl : BitVec 6) => ∃ u, exec (.vectorPoolCommit c) s = .next u ∧ PoolWrote s u c m a (isWide dst) sh n q fl 0
    (∀ F, trappingFmt src = some F → m.daz = true ∨ ∀ i, i < n → F.subnormal (code i) = false) →
    (isMx dst = false → isMx src = false →
      let r := fun (i : Nat) => elementOf m.xr dst rm (draws i) (elementValue m.xr src (read i))
      w (fun i => heldCode dst (r i).1) (flagsOf n r)) ∧
    (isMx src = true → dst = .f32 →
      let r := fun (i : Nat) => FFmt.f32.ofVal rm (draws i) (mxValue m.xr src (code i) (raw i / 256))
      w (fun i => (r i).1) (flagsOf n r)) ∧
    (isMx dst = true → src = .f32 →
      let block := fun (k : Nat) => mxBlock m.xr dst rm ((List.range 32).map fun i =>
        if 32 * k + i < n then (FFmt.f32.value (read (32 * k + i)), draws (32 * k + i)) else (.fin false 0 0, 0))
      w (fun i => (block (i / 32)).2.1.getD (i % 32) 0 + 256 * (block (i / 32)).1) (flagsOf ((n + 31) / 32) fun k => (0, (block k).2.2))))

/-- R77-R79, R119, R225, R233: over integers, which add without rounding, the tree of `vred` gives the sum of the active positions modulo 2^32 or 2^64, extended
by the type, and `vscan` gives at every active position the sum up to it, and zero above; so with the least and the greatest. For all six types the result of `vred` is the fixed pairwise tree
over all positions of the view, the inactive ones holding the operation's identity, one rounding to nearest at each node; `vdot` rounds the exact sum of two
products at the first level; `vscan` is that tree at each position, and the identity above. -/
def Obligations.IntegerReductionIsTheSum : Prop :=
  (∀ (s : State) (c : CoreId) (m : VCmd) (st : Strand) (g : Option Guard) (wide signed : Bool) (r : Fin 24) (a b : BitVec 4),
    (s.core c).vec.performable = some m → s.strand? m.h = some st → st.core = c → (s.core c).vec.vn ≤ 256 →
    let t : EType := if wide then (if signed then .s64 else .n64) else (if signed then .s32 else .n32)
    let W := if wide then 64 else 32
    let f := (s.core c).vec
    let n := if wide then (f.vn + 1) / 2 else f.vn
    let total := fun (n : Nat) => (List.range n).foldl (fun (k : BitVec W) i => k + BitVec.ofNat W (VReg.pos (f.reg b) wide i)) 0
    (m.op = .vredAdd g t r b → ∃ u, exec (.vectorPoolCommit c) s = .next u ∧
      PoolGave s u c m r (if signed then (total n).signExtend 64 else (total n).setWidth 64) 0) ∧
    (m.op = .vscanAdd g t a b → ∃ u, exec (.vectorPoolCommit c) s = .next u ∧
      PoolWrote s u c m a wide 0 (positions wide) (fun i => if i < n then (total (i + 1)).toNat else 0) 0 0)) ∧
  (∀ (s : State) (c : CoreId) (m : VCmd) (st : Strand) (g : Option Guard) (wide : Bool) (op : RedOp) (r : Fin 24) (a b d : BitVec 4),
    (s.core c).vec.performable = some m → s.strand? m.h = some st → st.core = c → (s.core c).vec.vn ≤ 256 →
    let t : EType := if wide then .f64 else .f32
    let F : FFmt := if wide then .f64 else .f32
    let f := (s.core c).vec
    let n := if wide then (f.vn + 1) / 2 else f.vn
    let plain := fun (v : BitVec 4) => m.daz = true ∨ ∀ i, i < n → F.subnormal (VReg.pos (f.reg v) wide i) = false
    let read := fun (v : BitVec 4) (i : Nat) => if m.daz then F.flush (VReg.pos (f.reg v) wide i) else VReg.pos (f.reg v) wide i
    let top := (2 ^ F.ebits - 1) * 2 ^ F.mbits
    let identity := match op with
      | .add => F.withSign true 0
      | .min => top
      | .max => F.withSign true top
    let node := fun (x y : Nat × Flags) =>
      let z := match op with
        | .add => F.deliver .rne ((F.value x.1).add .rne (F.value y.1))
        | .min => F.pick true x.1 y.1
        | .max => F.pick false x.1 y.1
      (z.1, (x.2.or y.2).or z.2)
    let tree := fun (k : Nat) => treeOf node (fun i => (if i < k then read b i else identity, {})) (if wide then 7 else 8) 0
    let product := fun (i : Nat) => if i < n then (F.value (read b i)).mul (F.value (read d i)) else (.fin true 0 0, false)
    let pair := fun (i : Nat) =>
      let s := (product (2 * i)).1.add .rne (product (2 * i + 1)).1
      F.deliver .rne (s.1, s.2 || (product (2 * i)).2 || (product (2 * i + 1)).2)
    let red : Instr := match op with
      | .add => .vredAdd g t r b
      | .min => .vredMin g t r b
      | .max => .vredMax g t r b
    let scan : Instr := match op with
      | .add => .vscanAdd g t a b
      | .min => .vscanMin g t a b
      | .max => .vscanMax g t a b
    plain b → plain d →
    (m.op = red → ∃ u, exec (.vectorPoolCommit c) s = .next u ∧ PoolGave s u c m r (BitVec.ofNat 64 (tree n).1) (tree n).2.bits) ∧
    (m.op = scan → ∃ u, exec (.vectorPoolCommit c) s = .next u ∧
      PoolWrote s u c m a wide 0 (positions wide) (fun i => if i < n then (tree (i + 1)).1 else identity) (flagsOf n fun i => tree (i + 1)) 0) ∧
    (op = .add → m.op = .vdot g t r b d → ∃ u, exec (.vectorPoolCommit c) s = .next u ∧
      let q := treeOf node pair (if wide then 6 else 7) 0
      PoolGave s u c m r (BitVec.ofNat 64 q.1) q.2.bits)) ∧
  (∀ (s : State) (c : CoreId) (m : VCmd) (st : Strand) (g : Option Guard) (wide signed least : Bool) (r : Fin 24) (a b : BitVec 4),
    (s.core c).vec.performable = some m → s.strand? m.h = some st → st.core = c → 1 ≤ (s.core c).vec.vn → (s.core c).vec.vn ≤ 256 →
    let t : EType := if wide then (if signed then .s64 else .n64) else (if signed then .s32 else .n32)
    let W := if wide then 64 else 32
    let f := (s.core c).vec
    let n := if wide then (f.vn + 1) / 2 else f.vn
    let value := fun (x : Nat) => if signed then (BitVec.ofNat W x).toInt else (x : Int)
    let x := fun (i : Nat) => value (VReg.pos (f.reg b) wide i)
    let bound : Int := match signed, least with
      | true, true => 2 ^ (W - 1) - 1
      | true, false => -(2 ^ (W - 1) : Int)
      | false, true => 2 ^ W - 1
      | false, false => 0
    let best := fun (k : Nat) => (List.range k).foldl (fun (v : Int) i => if least then min v (x i) else max v (x i)) (x 0)
    (m.op = (if least then .vredMin g t r b else .vredMax g t r b) → ∃ u, exec (.vectorPoolCommit c) s = .next u ∧
      PoolGave s u c m r (BitVec.ofInt 64 (best n)) 0) ∧
    (m.op = (if least then .vscanMin g t a b else .vscanMax g t a b) → ∃ u y, exec (.vectorPoolCommit c) s = .next u ∧
      (∀ i, i < positions wide → value (y i) = if i < n then best (i + 1) else bound) ∧ PoolWrote s u c m a wide 0 (positions wide) y 0 0))

/-- R239-R241, R243, R244, R247-R256: what the pool's commit of the directional commands writes. `dmov` copies, `dneg` negates every element, a raw -32768, which
is -2.0, becoming 32767 with inexact; `dscl` adds to the exponent of a finite value, saturates to the infinite code, falls to zero, and keeps any other code;
`dsetn` replaces the code, or gives the zero vector where a finite or infinite code meets no direction; `dtest` counts and classifies. The commands that
renormalise write what `renorm`, R241 on an exact vector (log entry 17), gives for theirs, with the special operands of R244, R247 and R254; `dto` rounds each
element's value; `dcos` and `ddot` round the dot product. `dld` loads an image, `dld.rn` renormalises it, and `dst` stores one, in one turn where every
access passes (log entry 2). That `dlerp` with a NaN or infinite w sets zerodir too where an operand's direction is zero is the model's choice (DEDUCED, log
entry 45). -/
def Obligations.DirectionalResults : Prop :=
  (∀ (s : State) (c : CoreId) (m : VCmd) (st : Strand) (g : Option Guard) (a b d : BitVec 3) (v : BitVec 4) (r : Fin 24) (q : Reg) (f64 hi : Bool) (rm : Rm),
    (s.core c).vec.performable = some m → s.strand? m.h = some st → st.core = c →
    let f := (s.core c).vec
    let x := f.dreg b
    let z := f.dreg d
    let k := f.dreg a
    let arg := m.args.headD 0
    let e : BitVec 32 := arg.setWidth 32
    let t := k.2.toInt + arg.toInt
    let F : FFmt := if f64 then .f64 else .f32
    let D := ((List.finRange 128).map fun i => x.1[i].toInt * z.1[i].toInt).sum
    let w := fun (y : Vector (BitVec 16) 128 × BitVec 32) (fl : BitVec 6) => ∃ u, exec (.vectorPoolCommit c) s = .next u ∧ PoolWroteD s u c m a y fl 0
    let gives := fun (y : Nat) (fl : BitVec 6) => ∃ u, exec (.vectorPoolCommit c) s = .next u ∧ PoolGave s u c m r (BitVec.ofNat 64 y) fl
    let res := fun (y : DRes) => w y.reg (y.fl.bits ||| if y.zd then zerodirBit else 0)
    let y := fun (i : Nat) => F.value (VReg.pos (f.reg v) f64 (i + if hi then 128 else 0))
    ((DReg.cls x = .invalid ↔ x.2 = 0x7FFFFFFF) ∧ (DReg.cls x = .zero ↔ x.2 = 0x80000000 ∨ (x.2 ≠ 0x7FFFFFFF ∧ ∀ i : Fin 128, x.1[i] = 0)) ∧
      (DReg.cls x = .infinite ↔ x.2 = 0x7FFFFFFE ∧ ∃ i : Fin 128, x.1[i] ≠ 0)) ∧
    (m.op = .dmov g a b → w x 0) ∧
    (m.op = .dneg g a b → ∃ y : Vector (BitVec 16) 128, (∀ i : Fin 128, y[i] = if x.1[i] = 0x8000#16 then 0x7FFF#16 else -x.1[i]) ∧
      ((∃ i : Fin 128, x.1[i] = 0x8000#16) → w (y, x.2) 1) ∧ ((∀ i : Fin 128, x.1[i] ≠ 0x8000#16) → w (y, x.2) 0)) ∧
    (m.op = .dscl g a q →
      (DReg.cls k = .finite → (0x7FFFFFFD < t → w (k.1, 0x7FFFFFFE) 2) ∧ (t < -0x7FFFFFFF → w DReg.zero 1) ∧
        (-0x7FFFFFFF ≤ t → t ≤ 0x7FFFFFFD → w (k.1, BitVec.ofInt 32 t) 0)) ∧
      (DReg.cls k = .zero → w k zerodirBit) ∧ (DReg.cls k = .infinite ∨ DReg.cls k = .invalid → w k 0)) ∧
    (m.op = .dsetn g a q → (e = 0x80000000 ∨ e = 0x7FFFFFFF → w (Vector.replicate 128 0, e) 0) ∧
      (e ≠ 0x80000000 → e ≠ 0x7FFFFFFF → ((∀ i : Fin 128, k.1[i] = 0) → w DReg.zero zerodirBit) ∧ ((∃ i : Fin 128, k.1[i] ≠ 0) → w (k.1, e) 0))) ∧
    (m.op = .dtest g r b → ∃ u n, exec (.vectorPoolCommit c) s = .next u ∧ PoolGave s u c m r n 0 ∧ n.extractLsb' 0 32 = x.2 ∧
      n.extractLsb' 32 2 = (match DReg.cls x with
        | .finite => 0
        | .zero => 1
        | .infinite => 2
        | .invalid => 3) ∧ n.extractLsb' 34 6 = 0 ∧ (n.extractLsb' 40 8).toNat = (x.1.toList.filter fun e => e != 0).length ∧ n.extractLsb' 48 16 = 0) ∧
    (m.op = .dfrom g f64 hi a v → (f64 = true → hi = false) →
      ((∃ i, i < 128 ∧ (y i).isNan = true) → w DReg.invalid 4) ∧
      ((∀ i, i < 128 → (y i).isNan = false) → (∃ i, i < 128 ∧ (y i).special = true) →
        w (infiniteResult ((List.range 128).map fun i => match y i with
          | .inf n => [(if n then -1 else 1, 0)]
          | _ => [])).reg 0) ∧
      ((∀ i, i < 128 → (y i).special = false) → res (renorm ((List.range 128).map fun i => termOf (y i))))) ∧
    (m.op = .dto g f64 hi rm v b → (f64 = true → hi = false) → ∃ u, exec (.vectorPoolCommit c) s = .next u ∧
      let n := fun (i : Nat) =>
        let e := (x.1.getD i 0).toInt
        match DReg.cls x with
        | .finite => if e = 0 then (0, ({} : Flags)) else F.roundPow rm e (x.2.toInt - 14 * 2 ^ 23)
        | .zero => (0, {})
        | .infinite => (if e = 0 then 0 else F.withSign (decide (e < 0)) ((2 ^ F.ebits - 1) * 2 ^ F.mbits), {})
        | .invalid => (F.nanCode, {})
      PoolWrote s u c m v f64 (if hi then 128 else 0) 128 (fun i => (n i).1) (flagsOf 128 n) 0) ∧
    (m.op = .dcos g r b d →
      (DReg.cls x = .invalid ∨ DReg.cls z = .invalid → gives 0x7FC00000 0) ∧
      (DReg.cls x ≠ .invalid → DReg.cls z ≠ .invalid →
        (DReg.cls x = .zero ∨ DReg.cls z = .zero → gives 0 zerodirBit) ∧
        (DReg.cls x ≠ .zero → DReg.cls z ≠ .zero →
          let n := FFmt.f32.ofVal .rne 0 (.fin (decide (D < 0)) D.natAbs (-28))
          gives (FFmt.f32.withSign (decide (D < 0)) (min (n.1 % 2 ^ 31) 0x3F800000)) (if n.2.inexact then 1 else 0)))) ∧
    (m.op = .ddot g f64 r b d →
      (DReg.cls x = .invalid ∨ DReg.cls z = .invalid → gives F.nanCode 0) ∧
      (DReg.cls x ≠ .invalid → DReg.cls z ≠ .invalid →
        ((DReg.cls x = .zero ∧ DReg.cls z = .infinite) ∨ (DReg.cls x = .infinite ∧ DReg.cls z = .zero) → gives F.nanCode (4 ||| zerodirBit)) ∧
        ((DReg.cls x = .zero ∧ DReg.cls z ≠ .infinite) ∨ (DReg.cls x ≠ .infinite ∧ DReg.cls z = .zero) → gives 0 zerodirBit) ∧
        (DReg.cls x ≠ .zero → DReg.cls z ≠ .zero → (D = 0 → gives 0 0) ∧
          (D ≠ 0 → (DReg.cls x = .infinite ∨ DReg.cls z = .infinite → gives (F.withSign (decide (D < 0)) ((2 ^ F.ebits - 1) * 2 ^ F.mbits)) 0) ∧
            (DReg.cls x = .finite → DReg.cls z = .finite →
              let n := F.roundPow .rne D (x.2.toInt + z.2.toInt - 28 * 2 ^ 23)
              gives n.1 n.2.bits))))) ∧
    (m.op = .dadd g a b d → res (combine [⟨1, 0, x⟩, ⟨1, 0, z⟩]) ∧ (DReg.cls x = .invalid ∨ DReg.cls z = .invalid → w DReg.invalid 0) ∧
      (DReg.cls x = .zero → DReg.cls z = .zero → w DReg.zero zerodirBit)) ∧
    (m.op = .dnorm g a b → res (combine [⟨1, 0, x⟩]) ∧ (DReg.cls x = .invalid → w DReg.invalid 0) ∧ (DReg.cls x = .zero → w DReg.zero zerodirBit) ∧
      (DReg.cls x = .finite → res (renorm (sumElems [⟨1, 0, x⟩] fun t => t.e * 2 ^ 23 + (t.r.2.toInt - 14 * 2 ^ 23))))) ∧
    (m.op = .dlerp g a b q →
      (DReg.cls k = .invalid ∨ DReg.cls x = .invalid → w DReg.invalid 0) ∧
      (DReg.cls k ≠ .invalid → DReg.cls x ≠ .invalid →
        let n := FFmt.f32.value (arg.toNat % 2 ^ 32)
        (n.special = true → w DReg.invalid (4 ||| if DReg.cls k = .zero ∨ DReg.cls x = .zero then zerodirBit else 0)) ∧
        (∀ (neg : Bool) (i j : Nat),
          let w : Int := if neg then -(i : Int) else i
          (n = .fin neg i (-j) → res (combine [⟨2 ^ j - w, -j, k⟩, ⟨w, -j, x⟩])) ∧ (n = .fin neg i j → res (combine [⟨1 - w * 2 ^ j, 0, k⟩, ⟨w, j, x⟩]))))) ∧
    (m.op = .dproj g a b d →
      (DReg.cls x = .invalid ∨ DReg.cls z = .invalid → w DReg.invalid 0) ∧
      (DReg.cls x ≠ .invalid → DReg.cls z ≠ .invalid →
        (DReg.cls x ≠ .infinite → DReg.cls x = .zero ∨ DReg.cls z = .zero ∨ D = 0 → w DReg.zero zerodirBit) ∧
        (DReg.cls x = .infinite → DReg.cls z = .zero ∨ D = 0 → w DReg.invalid 4) ∧
        (DReg.cls z ≠ .zero → D ≠ 0 →
          let C := (List.finRange 128).map fun i => z.1[i].toInt
          (DReg.cls x = .infinite → res (infiniteResult (C.map fun e => [(if D < 0 then -e else e, 0)]))) ∧
          (DReg.cls x = .finite → res (renorm (C.map fun e => [(D * e, 0)])
            (some ([(D * D, 2 * (x.2.toInt - 14 * 2 ^ 23))], ((C.map fun e => e * e).sum).toNat))))))) ∧
    renorm (List.replicate 128 []) = ⟨DReg.zero, {}, true⟩) ∧
  (∀ (s s1 : State) (c : CoreId) (m : VCmd) (st : Strand) (g : Option Guard) (a : BitVec 3) (mem : Mem) (ls : List (Nat × Loc)),
    (s.core c).vec.performable = some m → s.strand? m.h = some st → st.core = c → m.got = [] → m.owed = [] → s.picks = [] →
    let k := (s.core c).vec.dreg a
    let at_ := (List.range 33).map fun i => (i, m.args.headD 0 + BitVec.ofNat 64 (8 * i))
    let word := fun (i : Nat) => (ls.find? fun e => e.1 == i).elim 0 fun e => s.readWord e.2.key
    let image : Vector (BitVec 16) 128 × BitVec 32 :=
      (Vector.ofFn fun i => (word (i.val / 4)).extractLsb' (16 * (i.val % 4)) 16, (word 32).setWidth 32)
    let w := fun (y : Vector (BitVec 16) 128 × BitVec 32) (fl : BitVec 6) => ∃ u, exec (.vectorPoolCommit c) s = .next u ∧
      PoolWroteD s u c m a y fl (locMask c (ls.map (·.2)))
    (poolLocateAll s m st 8 .read at_ = .ok (s1, ls) →
      (m.op = .dld g a mem → w (if image.2 = 0x80000000 ∨ image.2 = 0x7FFFFFFF then (Vector.replicate 128 0, image.2) else image) 0) ∧
      (m.op = .dldRn g a mem → let y := combine [⟨1, 0, image⟩]; w y.reg (y.fl.bits ||| if y.zd then zerodirBit else 0))) ∧
    (poolLocateAll s m st 8 .write at_ = .ok (s1, ls) → m.op = .dst g a mem → Memory.wf s.mem = true → (∀ e ∈ ls, (s.place e.2.place).station = []) →
      ∃ (u : State) (x : Nat → Word), exec (.vectorPoolCommit c) s = .next u ∧ PoolStored s u c m 8 ls (fun i => (x i).toNat) ∧ x 32 = k.2.setWidth 64 ∧
        ∀ i : Fin 128, (x (i.val / 4)).extractLsb' (16 * (i.val % 4)) 16 = k.1[i]))

/-- R260-R266, R269-R274: a tile command whose descriptor and ranges pass their checks enters its core's matrix queue and its strand leaves rotation; `mzero`
enters it and the strand goes on; `mwait` passes a quad without commands, else waits for those that stand there; `mgov` is read, and its stalls
cleared. An illegal descriptor traps ILLEGAL, where that the record names the base word is the model's choice (DEDUCED, log entry 20). A full queue parks
the strand, whose command keeps what it captured at its issue. -/
def Obligations.MatrixCommandsEnter : Prop :=
  ∀ (s : State) (h : Handle) (st : Strand) (g : Option Guard) (a b : Fin 24) (lo hi : Word) (idx : List (BitVec 32)) (t : EType) (rm : Rm) (n : BitVec 1),
    Issues s h st g →
    let takes := fun (i : Instr) (m : MCmd) =>
      ((s.core st.core).mqueue.length < 4 → ∃ u, exec i s = .next u ∧ TileEntered s h st m u) ∧
      (¬(s.core st.core).mqueue.length < 4 → Parks (exec i s) s h st .matrixRoom ∧
        ∀ u, exec i s = .next u → (u.strand? h).bind Strand.kept = some (.tile m))
    let enters := fun (i : Instr) => takes i (matrixCommand s h st i lo hi idx)
    let quad := quadOf st.core
    ((∀ m, st.kept ≠ some (.tile m)) → gsrc st a = .ok lo → gsrc st b = .ok hi →
      (tileIllegal lo hi (tileType st.r.fmta) (tileType st.r.fmtb) = true → exec (.mmul g a b) s =
        .next (enterTrap s h st (illegalInfo s.latch ⟨7, BitVec.ofNat 5 (s.latch.length - 1), 0⟩))) ∧
      (productChecks s st lo hi = .ok idx → enters (.mmul g a b) ∧ enters (.mmula g a b)) ∧
      (moveChecks false 4 s st lo hi = .ok idx → enters (.mld g a b)) ∧
      (moveChecks true (etypeBits t / 8) s st lo hi = .ok idx → enters (.mst g t rm a b)) ∧
      (scaleChecks s st lo hi = .ok idx → enters (.mscl g rm a b))) ∧
    (∀ m, st.kept = some (.tile m) →
      ∀ i, i ∈ [Instr.mmul g a b, .mmula g a b, .mld g a b, .mst g t rm a b, .mscl g rm a b] → takes i { m with id := s.fresh }) ∧
    ((s.core st.core).mqueue.length < 4 → ∃ u, exec (.mzero g n) s = commits u h st [] none ∧ u.mem = s.mem ∧ u.strands = s.strands ∧
      (u.core st.core).m = (s.core st.core).m ∧
      (u.core st.core).mqueue = (s.core st.core).mqueue ++ [matrixCommand s h st (.mzero g n) 0 0 []]) ∧
    (quadCommands s quad = [] → exec (.mwait g) s = commits s h st [] none) ∧
    (quadCommands s quad ≠ [] → Parks (exec (.mwait g) s) s h st (.matrixWork (matrixNames s quad))) ∧
    exec (.mgovRead g a) s = commits s h st [] (some (.g a, mgovWord s st.core)) ∧
    (∃ u, exec (.mgovReadClear g a) s = commits u h st [] (some (.g a, mgovWord s st.core)) ∧ (u.quad quad).stalls = 0 ∧
      (u.quad quad).budget = (s.quad quad).budget ∧ u.mem = s.mem ∧ u.strands = s.strands)

/-- R72-R75, R299-R305: `qcmd` reads its parameter block, checks it and hands its command to the die's engine, raising the counter that it names; `qwait` passes
once the strand's commands have completed and takes their flags; `rnd` delivers the draw of its seed, stream and counter; `rngres` adds a reservation
that overlaps none, `rngrel` takes every equal one from every die. That the record of an ILLEGAL names the base word is the model's choice (DEDUCED, log
entry 20). -/
def Obligations.QuantAndRandomResults : Prop :=
  ∀ (s s1 : State) (h : Handle) (st : Strand) (g : Option Guard) (a b c : Fin 24) (p q : Reg) (x y z : Word) (ws : List Word) (d : BitVec 2),
    Issues s h st g → Fresh st →
    (gsrc st a = .ok x → gsrc st b = .ok y →
      (qIllegal y = true → exec (.qcmd g a b) s = .next (enterTrap s h st (illegalInfo s.latch ⟨7, BitVec.ofNat 5 (s.latch.length - 1), 0⟩))) ∧
      (qIllegal y = false → loadWords s h st x 8 = .ok (s1, ws) →
        (∀ off v, qBadField y (params8 ws) = some (off, v) →
          exec (.qcmd g a b) s = .next (freeze s h st ⟨0x4A, 0, [BitVec.ofNat 64 off, BitVec.ofNat 64 v]⟩)) ∧
        (qBadField y (params8 ws) = none → qSpaceFault s1 st (qSides y (params8 ws)) = none → qEngine s1 st.core.die = some d →
          (s1.die d).qqueue.length < 256 → (qKind y = 0 → (s1.core st.core).c[(qIdx y).toFin] ≠ BitVec.allOnes 16) →
          ∃ u m, exec (.qcmd g a b) s = commits u h ((st.orTmask (touchWords s h st x 8)).record 7 0 x []) [] none ∧
            (u.die d).qqueue = (s1.die d).qqueue ++ [m] ∧ m.h = h ∧ m.core = st.core ∧ m.ctrl = y ∧ m.blockAt = x ∧ m.params = params8 ws ∧ m.block = 0 ∧
            u.mem = s.mem ∧
            ∀ i : Fin 16, (u.core st.core).c[i] = (s.core st.core).c[i] + if qKind y = 0 ∧ (qIdx y).toFin = i then 1 else 0))) ∧
    (qcmdsOf s h = [] → exec (.qwait g) s = commits s h { st.orFlags st.qflags.bits with qflags := {} } [] none) ∧
    (qcmdsOf s h ≠ [] → Parks (exec (.qwait g) s) s h st (.qcmds (qcmdsOf s h))) ∧
    (src s h st 0 q = .ok x → gsrc st c = .ok y → gsrc st (gplus c 1) = .ok z → Room s h st [q] p →
      exec (.rnd g p q c) s = commits s h st [q] (some (p, (draw x (y.setWidth 32) z).setWidth 64))) ∧
    (gsrc st a = .ok x → gsrc st b = .ok 0 → loadWords s h st x 4 = .ok (s1, ws) → (imageReservation ws).ok = true →
      (refusesReservation s1 st.core.die st.ctx (imageReservation ws) = none →
        ∃ u, exec (.rngres g a b) s = commits u h (st.orTmask (touchWords s h st x 4)) [] none ∧ u.mem = s.mem ∧
          reservations u st.core.die st.ctx = reservations s1 st.core.die st.ctx ++ [imageReservation ws]) ∧
      (∀ why i, refusesReservation s1 st.core.die st.ctx (imageReservation ws) = some (why, i) → exec (.rngres g a b) s =
        .next (freeze s1 h st ⟨0x49, 0, [BitVec.ofNat 64 (2 ^ st.core.die.toNat), BitVec.ofNat 64 why, ws.getD 0 0, BitVec.ofNat 64 i]⟩))) ∧
    (gsrc st a = .ok x → loadWords s h st x 4 = .ok (s1, ws) →
      ∃ u, exec (.rngrel g a) s = commits u h (st.orTmask (touchWords s h st x 4)) [] none ∧ u.mem = s.mem ∧
        ∀ k ctx, reservations u k ctx = if ctx = st.ctx then (reservations s1 k ctx).filter (fun e => !decide (e = imageReservation ws)) else reservations s1 k ctx)

/-! ### History memory and element contexts -/

/-- R328-R335, R338-R345: `hdecl` makes an open key without states at its home slice and delivers its handle, and faults HIST_DECL at a bad field; `hput` reads its
buffer, performs the fence, which clears the bits of the buffer's bank too, and appends a state, a full key retiring its oldest; a served `hget` or `hgetn` writes the record and the status word, or faults TENSOR_BUSY where a running sweep covers the buffer (R363), and where `hget` parks on the slice's wait list, `hgetn` delivers kind 3;
`hfront` delivers the newest and oldest stamps and the count; `hdrop` removes the key. An unknown key faults HIST_KEY. That a new key takes the lowest free slot
is the model's choice (DESIGN CHOICE, log entry 22), and so is the order in which the buffer and the key are looked at (DEDUCED, log entry 57). -/
def Obligations.HistoryResults : Prop :=
  ∀ (s s0 s1 : State) (h : Handle) (st st1 : Strand) (g : Option Guard) (a b c : Reg) (i : Fin 24) (w ea stamp buf : Word) (ws words : List Word) (l : Loc)
      (ls : List Loc) (k : Key) (slot : BitVec 8) (kind wt : Nat) (fl : Flags),
    Issues s h st g → Fresh st →
    let home := keyHome s1 st.core (descAddr l ea) (descByte ws 4 == 1)
    (src s h st 0 b = .ok ea → spaceCode ea ≠ 10 → locate s h st ea 8 .read false = .ok (s0, l) → loadWords s h st ea 8 = .ok (s1, ws) →
      descBad ws = none → freeKeySlot (s1.histSlice home) = some slot → s1.sliceIn home = true →
      granulesUsed (s1.histSlice home) + keyGranules (descKeep ws) (descSize ws) ≤ 4096 → Room s h st [b] a →
      ∃ u y q, exec (.hdecl g a b) s = commits u h y [b] (some (a, keyHandle home q)) ∧ y.r.gpr = st.r.gpr ∧ keyOf u st.ctx (keyHandle home q) = some q ∧
        q.owner = h ∧ q.slot = slot ∧ q.states = [] ∧ q.closed = false ∧ q.size = descSize ws ∧ q.keep = descKeep ws ∧ q.xlim = descXlim ws ∧
        q.horizon = descHorizon ws ∧ u.mem = s.mem) ∧
    (∀ off v, src s h st 0 b = .ok ea → spaceCode ea ≠ 10 → locate s h st ea 8 .read false = .ok (s0, l) → loadWords s h st ea 8 = .ok (s1, ws) →
      descBad ws = some (off, v) → exec (.hdecl g a b) s =
        .next (freeze s h st ⟨0x50, ea, BitVec.ofNat 64 off :: if off = 0x20 then (ws.drop 4).take 4 else [BitVec.ofNat 64 v]⟩)) ∧
    (src s h st 0 a = .ok w → src s h st 1 b = .ok buf → src s h st 2 c = .ok stamp → keyOf s st.ctx w = some k → k.owner = h →
      bufferLocs s h st buf .read (recordLen k.size) = .ok (s1, ls) → fence s (st.orTmask (bufferBits st ls)) (if w.getLsbD 15 then .pkg else .die) = .ok st1 →
      let new := (stamp.toNat, recordOf k.size (ls.map fun l => s1.readWord l.key))
      (k.states ≠ [] → stamp.toNat ≤ k.newest → exec (.hput g a b c) s = .next (freeze s h st ⟨0x4F, w, [w, 3, BitVec.ofNat 64 k.newest]⟩)) ∧
      (k.states = [] ∨ k.newest < stamp.toNat → (s.histSlice (handleSlice w)).waits = [] →
        ∃ u, exec (.hput g a b c) s = commits u h (st1.history (handleSlice w) w 1 []) [a, b, c] none ∧ u.mem = s.mem ∧
          keyOf u st.ctx w = some (if k.states.length < k.keep then { k with states := k.states ++ [new] }
            else { k with states := k.states.drop 1 ++ [new], retired := some k.oldest }))) ∧
    (src s h st 0 b = .ok w → gsrc st i = .ok stamp → gsrc st (gplus i 1) = .ok buf → keyOf s st.ctx w = some k →
      bufferLocs s h st buf .read (recordLen k.size) = .ok (s1, ls) →
      let at_ : Word := BitVec.ofNat 64 (ls.headD (keyLoc ⟨0, 0⟩ 0)).key
      let served := fun (o : Out) => ∃ y, y.r = { st.r with sflags := st.r.sflags ||| readFlags kind fl, tmask := y.r.tmask } ∧
        o = .next (writeRecord ((commitAt (unlistReader s (handleSlice w) h) h y [b] (some (a, statusWord kind wt false)) (nextPc s st)).charge st.ctx 4 1)
          st.ctx st.core at_ words)
      (decideRead k stamp.toNat (levelOf s st) true = .served kind wt words fl →
        (recordBusy s st.core at_ words.length = none → Room s h st [b] a → served (exec (.hget g a b i) s) ∧ served (exec (.hgetn g a b i) s)) ∧
        ∀ f, recordBusy s st.core at_ words.length = some f → exec (.hget g a b i) s = .next (freeze s h st { f with addr := buf }) ∧
          exec (.hgetn g a b i) s = .next (freeze s h st { f with addr := buf })) ∧
      (decideRead k stamp.toNat (levelOf s st) true = .park → k.closed = false →
        (Room s h st [b] a → exec (.hgetn g a b i) s = commits s h (st.history (handleSlice w) w 3 [3]) [b] (some (a, 3))) ∧
        ((s.histSlice (handleSlice w)).waits.length < 1000 → (s.histSlice (handleSlice w)).refused = [] → k.owner ≠ h → waitOf s k.owner = none →
          Parks (exec (.hget g a b i) s) s h st (.atPlace (.slice (handleSlice w)))))) ∧
    (src s h st 0 b = .ok w →
      (keyOf s st.ctx w = none → exec (.hfront g i b) s = .next (freeze s h st ⟨0x4F, w, [w, 1, 0]⟩)) ∧
      (keyOf s st.ctx w = some k →
        let vals := [BitVec.ofNat 64 k.newest, BitVec.ofNat 64 k.oldest, BitVec.ofNat 64 (k.states.length + if k.closed then 256 else 0)]
        exec (.hfront g i b) s = commits (s.charge st.ctx 4 1) h ((st.history (handleSlice w) w 4 vals).setRange i vals) [b] none ∧
        ∃ t y, exec (.hdrop g b) s = .next t ∧ t.strand? h = some y ∧ y.status = .ready ∧ y.r.pc = nextPc s st ∧ y.r.gpr = st.r.gpr ∧ t.mem = s.mem ∧
          (t.histSlice (handleSlice w)).keys = (s.histSlice (handleSlice w)).keys.filter fun q => q.slot != k.slot))

/-- R331, R332: the decision of a read at level 0: exact where a retained state carries the stamp; interpolated between the two retained states around it;
HIST_RETIRED before the oldest; extrapolated from the two newest, or from the one state, within the key's limit after the newest; parked after that up to
its horizon, and HIST_AHEAD beyond, as with no state held from stamp 0 on. The retained states stand in rising order of their stamps. -/
def Obligations.HistoryDecision : Prop :=
  ∀ (k : Key) (t : Nat) (arrival : Bool), k.states.Pairwise (fun x y => x.1 < y.1) →
    (∀ ws, (t, ws) ∈ k.states → decideRead k t 0 arrival = .served 0 0 ws {}) ∧
    (∀ x a b y, k.states = x ++ a :: b :: y → a.1 < t → t < b.1 →
      let w := FFmt.f32.quotient .rne false (t - a.1) 0 (b.1 - a.1) 0
      let r := mixWords k.f64 w.1 a.2 b.2
      decideRead k t 0 arrival = .served 1 w.1 r.1 (w.2.or r.2)) ∧
    (k.states ≠ [] → t < k.oldest → decideRead k t 0 arrival = .retired) ∧
    (∀ x a b, k.states = x ++ [a, b] → b.1 < t → t ≤ b.1 + k.xlim →
      let w := FFmt.f32.quotient .rne false (t - a.1) 0 (b.1 - a.1) 0
      let r := mixWords k.f64 w.1 a.2 b.2
      decideRead k t 0 arrival = .served 2 w.1 r.1 (w.2.or r.2)) ∧
    (k.states ≠ [] → k.newest + k.xlim < t → t ≤ k.newest + k.horizon → decideRead k t 0 arrival = .park) ∧
    (k.states ≠ [] → k.newest + k.xlim < t → k.newest + k.horizon < t → decideRead k t 0 arrival = .ahead) ∧
    (k.states = [] → decideRead k t 0 arrival = if t ≤ k.horizon then .park else .ahead) ∧
    (∀ a, k.states = [a] → a.1 < t → t ≤ a.1 + k.xlim → decideRead k t 0 arrival = .served 2 0 a.2 {})

/-- R355-R358, R362, R366: `tdecl` of a descriptor that passes its checks declares the tensor on its slab clusters and delivers its handle; `eprog` with no
command before it replaces the program, else waits for its turn; `sweep` enters its command into the queue of every slab's brush; `swwait` passes
when no sweep of the strand on the tensor is left; `skset` and `wake` with no sweep running are applied at once, and set the tmask bits of the banks that they
write in the strand's cluster (R88). That the record of an ILLEGAL names the base
word is the model's choice (DEDUCED, log entry 20). -/
def Obligations.ElementResults : Prop :=
  ∀ (s s1 s2 : State) (h : Handle) (st : Strand) (g : Option Guard) (i : Fin 24) (a b c : Reg) (pw w x y : Word) (ws : List Word) (prog : List Half)
      (bits : BitVec 48) (t : Tensor) (slot : BitVec 2),
    Issues s h st g → Fresh st →
    (gsrc st i = .ok pw → src s h st 1 b = .ok x → pwIllegal pw = false → loadWords s h st x 4 = .ok (s1, ws) → descTensorBad ws = none →
      loadImage s1 h st (ws.getD 2 0) = .ok (s2, prog, bits) → checkTensor s2 st pw x ws prog = .ok (t, slot) →
      ∃ u q, exec (.tdecl g i b) s = commits u h ((st.orTmask (bits ||| touchWords s h st x 4 ||| declaredBits u st.core slot)).record 7 0 x
          [tensorHandle q slot.toNat]) [b] (some (.g i, tensorHandle q slot.toNat)) ∧
        tensorIn u t.cluster0 slot = some q ∧ q.prog = prog ∧ q.slabs = t.slabs ∧ q.e0 = t.e0 ∧ q.e1 = t.e1 ∧ q.e2 = t.e2 ∧ q.ctx = st.ctx) ∧
    (gsrc st i = .ok pw → src s h st 1 b = .ok x → pwIllegal pw = true →
      exec (.tdecl g i b) s = .next (enterTrap s h st (illegalInfo s.latch ⟨7, BitVec.ofNat 5 (s.latch.length - 1), 0⟩))) ∧
    (src s h st 0 a = .ok w → namedTensor s st w = .ok (slot, t) →
      (src s h st 1 b = .ok x → loadImage s h st x = .ok (s1, prog, bits) →
        ((∀ k ∈ t.slabs, (s1.cluster k).brush.queue = []) →
          ∃ u, exec (.eprog g a b) s = commits u h ((st.orTmask bits).record 7 1 w []) [a, b] none ∧ u.mem = s.mem ∧
            ∀ k ∈ t.slabs, ∀ q, tensorIn u k slot = some q → q.prog = prog) ∧
        ((∃ k ∈ t.slabs, (s1.cluster k).brush.queue ≠ []) → (∀ k ∈ t.slabs, (s1.cluster k).brush.queue.length < 8) →
          Parks (exec (.eprog g a b) s) s h st (.brushCommand [s1.fresh]))) ∧
      (src s h st 1 b = .ok x → swIllegal x = false → t.slabs.Nodup → (∀ k ∈ t.slabs, (s.cluster k).brush.queue.length < 8) →
        ∃ u, exec (.sweep g a b) s = commits u h (st.record 7 2 w []) [a, b] none ∧ u.mem = s.mem ∧
          ∀ k, (u.cluster k).brush.queue = (s.cluster k).brush.queue ++ if k ∈ t.slabs then [brushCommand s h st slot x none] else []) ∧
      (sweepsOf s h st slot = [] → exec (.swwait g a) s = commits s h (st.record 7 3 w []) [a] none) ∧
      (sweepsOf s h st slot ≠ [] → Parks (exec (.swwait g a) s) s h st (.brushCommand (sweepsOf s h st slot))) ∧
      (src s h st 1 b = .ok x → src s h st 2 c = .ok y → (∀ k ∈ t.slabs, sweepRuns s k slot = false) →
        let apply := fun (r : TensorRequest) => (slabsOf s t slot r.first r.count).foldl (fun s e => applyRequest s e.1 e.2 r) s
        let done := fun (o : Out) (sel : Nat) (r : TensorRequest) => ∃ bits : BitVec 48,
          o = commits (apply r) h ((st.orTmask bits).record 7 sel w []) [a, b, c] none ∧
          ∀ e ∈ slabsOf s t slot r.first r.count, e.1 = clusterOf st.core → ∀ k, k < r.count → e.2.owns (r.first + k) = true →
            bits.getLsbD (elementAt e.1 e.2 (r.first + k)).1.core.toNat = true
        (ctxWait (y.setWidth 32) < 5 → y.extractLsb' 48 16 = 0 → x.toNat + (y.extractLsb' 32 16).toNat + 1 ≤ t.count →
          done (exec (.skset g a b c) s) 4 ⟨h, slot, x.toNat, (y.extractLsb' 32 16).toNat + 1, some (y.setWidth 32), none⟩) ∧
        (y.extractLsb' 7 57 = 0 → x.toNat < t.count →
          done (exec (.wake g a b c) s) 5 ⟨h, slot, x.toNat, 1, none, if y.getLsbD 6 then some (y.setWidth 6) else none⟩)))

/-! ### System instructions -/

/-- R87, R101, R383, R384, R388, R398, R399: what `sysr` reads and `sysw` writes: the registers of the strand, the core's `ccr` and `dqspill`, the context's
tables, the quad's budget, `ctxid`, `memsize`, one queue entry, one energy weight, the sampling pulse; a read of `energy` finds a count that is
at most 65,536 cycles old and no more than all that has been charged (R398). That it is no less than the read before found (DESIGN CHOICE, log entry 86), and
that a write to a unit away from the core takes effect in the step (DEDUCED, log entry 63), is the model's choice. A register of class S outside the system context, one
that is not listed or not to be read or written so, and a value outside a limit trap ILLEGAL with cause 7, a type code that names no type with cause 6. That
such a trap reports the base word is the model's choice (DEDUCED, log entry 20), and so are the bits that `smpctl` keeps and the ILLEGAL of a `traptab` or
`flttab` that is no multiple of 8 (DEDUCED, log entry 46). -/
def Obligations.SystemRegisterResults : Prop :=
  ∀ (s : State) (h : Handle) (st : Strand) (g : Option Guard) (a : Fin 24) (b : Reg) (n w : Word) (k : Context) (r c : Nat), Issues s h st g →
    let illegalCause := fun (cause : BitVec 4) =>
      (.next (enterTrap s h st (illegalInfo s.latch ⟨cause, BitVec.ofNat 5 (s.latch.length - 1), 0⟩)) : Out)
    let reads := fun (n : Nat) (v : Word) => exec (.sysr g a (BitVec.ofNat 64 n)) s = commits s h st [] (some (.g a, v))
    let unit := fun (n : Nat) (v : Word) => exec (.sysr g a (BitVec.ofNat 64 n)) s = commits s.bump h st [] (some (.g a, v))
    let sets := fun (n : Nat) (r : Regs) => exec (.sysw g b (BitVec.ofNat 64 n)) s = commits s h { st with r := r } [b] none
    let writes := fun (n : Nat) (u : State) => exec (.sysw g b (BitVec.ofNat 64 n)) s = commits u h st [b] none
    (reads 0x00 (st.r.sflags.setWidth 64) ∧ reads 0x01 st.r.trappc ∧ (∀ i : Fin 8, reads (2 + i.val) st.r.trec[i]) ∧ reads 0x0A (st.r.tmask.setWidth 64) ∧
      reads 0x0B (st.r.fmta.setWidth 64) ∧ reads 0x0C (st.r.fmtb.setWidth 64) ∧ reads 0x0D st.r.scla ∧ reads 0x0E st.r.sclb) ∧
    (unit 0x0F (ccrWord (s.core st.core)) ∧ unit 0x10 (s.core st.core).dqspill ∧ unit 0x12 ((s.cluster (clusterOf st.core)).cadmiss.setWidth 64) ∧
      unit 0x2E (st.ctx.setWidth 64) ∧ unit 0x2F s.memsize) ∧
    (∀ j : Nat, j ≠ 0 → (k.charge s.cycle j).energy = k.energy + j ∧ (k.charge s.cycle j).chargedBy s.cycle = k.energy + j) ∧
    (s.context? st.ctx = some k → k.shown ≤ k.energy → (∀ j, k.chargedBy j ≤ k.energy) →
      ∃ u e, k.shown ≤ e ∧ e ≤ k.energy ∧ (65536 ≤ s.cycle → k.chargedBy (s.cycle - 65536) ≤ e) ∧
      exec (.sysr g a 0x27) s = commits u h st [] (some (.g a, BitVec.ofNat 64 (e / 1000))) ∧ u.context? st.ctx = some { k with shown := e } ∧ u.mem = s.mem) ∧
    (s.context? st.ctx = some k → k.system = true →
      unit 0x11 k.sndto ∧ unit 0x20 k.traptab ∧ unit 0x21 k.flttab ∧ unit 0x22 k.fltrec ∧ unit 0x23 k.qtab ∧ unit 0x25 k.ptroot ∧ unit 0x26 k.rrspill ∧
      unit 0x2A k.smpbuf ∧ unit 0x29 s.smpctl ∧ unit 0x1F (diemapWord s) ∧ unit 0x13 (BitVec.ofNat 64 (s.quad (quadOf st.core)).budget)) ∧
    (src s h st 0 b = .ok w →
      (sets 0x00 { st.r with sflags := w.setWidth 6 } ∧ sets 0x01 { st.r with trappc := w } ∧ sets 0x0D { st.r with scla := w } ∧
        sets 0x0E { st.r with sclb := w } ∧
        ((EType.ofCode (w.setWidth 5)).isSome = true → sets 0x0B { st.r with fmta := w.setWidth 5 } ∧ sets 0x0C { st.r with fmtb := w.setWidth 5 }) ∧
        ((EType.ofCode (w.setWidth 5)).isNone = true → exec (.sysw g b 0x0B) s = illegalCause 6 ∧ exec (.sysw g b 0x0C) s = illegalCause 6)) ∧
      (w.extractLsb' 6 58 = 0 → w.extractLsb' 2 2 = 0 → writes 0x0F (s.modCore st.core fun x => { x with daz := w.getLsbD 1, xr := w.getLsbD 0 })) ∧
      (w.extractLsb' 6 58 ≠ 0 ∨ w.extractLsb' 2 2 ≠ 0 → exec (.sysw g b 0x0F) s = illegalCause 7) ∧
      (isSystem s st = true →
        (1 ≤ w.toNat % 256 → w.toNat % 256 ≤ 32 → writes 0x13 (s.modQuad (quadOf st.core) fun q => { q with budget := w.toNat % 256 })) ∧
        (w.toNat % 256 = 0 ∨ 32 < w.toNat % 256 → exec (.sysw g b 0x13) s = illegalCause 7) ∧
        (w.toNat % 8 = 0 → writes 0x20 (s.modContext st.ctx fun x => { x with traptab := w }) ∧
          writes 0x21 (s.modContext st.ctx fun x => { x with flttab := w })) ∧
        (w.toNat % 8 ≠ 0 → exec (.sysw g b 0x20) s = illegalCause 7 ∧ exec (.sysw g b 0x21) s = illegalCause 7) ∧
        (s.context? st.ctx = some k → k.waitingRecord = [] → writes 0x22 (s.modContext st.ctx fun x => { x with fltrec := w })) ∧
        writes 0x23 (s.modContext st.ctx fun x => { x with qtab := w }) ∧
        (s.context? st.ctx = some k → s.deviceRead st.core st.ctx (k.qtab + BitVec.ofNat 64 (16 * (w.toNat % 16))) 8 = some r →
          s.deviceRead st.core st.ctx (k.qtab + BitVec.ofNat 64 (16 * (w.toNat % 16)) + 8) 8 = some c →
          ∃ u, exec (.syswQload g b) s = commits u h st [b] none ∧ u.mem = s.mem ∧ u.strands = s.strands ∧
            (u.context? st.ctx).map (fun x => Table.find (w.setWidth 4 : BitVec 4) x.queues) = some (some
              { ring := BitVec.ofNat 64 r, slots := 2 ^ (c % 16 + 4), deviceFed := c.testBit 8, enabled := c.testBit 9
                head := BitVec.ofNat 32 (c / 2 ^ 32), tail := BitVec.ofNat 32 (c / 2 ^ 32), state := 0, error := 0 })) ∧
        (∀ i : Fin 8, w.toNat / 2 ^ 56 = i.val → exec (.syswEwt g b) s = commits { s with ewt := s.ewt.set i (w.setWidth 32) } h st [b] none) ∧
        (8 ≤ w.toNat / 2 ^ 56 → exec (.syswEwt g b) s = illegalCause 7) ∧
        (w.getLsbD 8 = false ∨ (10 ≤ w.toNat % 32 ∧ w.toNat % 32 ≤ 30) → ∃ u, exec (.syswSmpctl g b) s = commits u h st [b] none ∧
          u.smpctl = w &&& 0x11F ∧ u.mem = s.mem ∧ u.strands = s.strands ∧ u.contexts = s.contexts) ∧
        (w.getLsbD 8 = true → w.toNat % 32 < 10 ∨ 30 < w.toNat % 32 → exec (.syswSmpctl g b) s = illegalCause 7)) ∧
      (isSystem s st = false → exec (.syswQload g b) s = illegalCause 7 ∧ exec (.syswEwt g b) s = illegalCause 7 ∧ exec (.syswSmpctl g b) s = illegalCause 7 ∧
        (systemOnly n.toNat = true → exec (.sysw g b n) s = illegalCause 7)) ∧
      (0x02 ≤ n.toNat → n.toNat ≤ 0x0A ∨ n.toNat = 0x12 ∨ n.toNat = 0x27 ∨ 0x2D ≤ n.toNat → exec (.sysw g b n) s = illegalCause 7)) ∧
    (isSystem s st = false → systemOnly n.toNat = true → exec (.sysr g a n) s = illegalCause 7) ∧
    (n.toNat = 0x24 ∨ 0x30 ≤ n.toNat → exec (.sysr g a n) s = illegalCause 7)

/-- R49, R137, R384-R387, R400: `resume` continues a frozen task of the issuing context after the faulting instruction, `retry` at it, `kill` ends it, and each
frees its record slot; what then comes of a fault that waited for a slot is not said here. A killed task leaves memory as it is, unless a command of it has begun
to store, which then finishes (log entry 89). A handle that names no frozen task of the context faults NOT_FROZEN. `replay` hands on what waits on a page, in the
order of the faults, empties the fault buffer of every die, and commits once nothing is left to be issued again: the steps that follow issue it first, whatever
the agenda (log entry 1), and the last answers the waiting `replay`. `tlbinv` drops the translations that it names from every TLB, and parks while an access that
used one of them waits at its place, or a vector store that has begun still owes element writes to such places. Outside the system context both trap ILLEGAL with cause 7; that mode 3 of `tlbinv` and its bits 63-15 do so too, and
that such a trap reports the base word, is the model's choice (DEDUCED, log entries 20, 52). -/
def Obligations.FrozenTasksAndTranslation : Prop :=
  (∀ (s : State) (h t : Handle) (st x : Strand) (z : Frozen) (k : Context) (g : Option Guard) (a : Reg) (w : Word),
    Issues s h st g → src s h st 0 a = .ok w → t = w.setWidth 32 →
    ((∀ y, s.strand? t = some y → y.frozen = none ∨ y.ctx ≠ st.ctx) →
      let gone : Out := .next (freeze s h st ⟨0x8, 0, [t.setWidth 64]⟩)
      exec (.resume g a) s = gone ∧ exec (.kill g a) s = gone ∧ exec (.retry g a) s = gone) ∧
    (t ≠ h → s.strand? t = some x → x.frozen = some z → x.ctx = st.ctx → s.context? st.ctx = some k → k.waitingRecord = [] →
      let thawed := fun (o : Out) (skip : Nat) => ∃ u y, o = commits u h st [a] none ∧ u.strand? t = some y ∧ y.frozen = none ∧
        (x.status ≠ .preempted → y.status = .ready) ∧ y.r = { x.r with pc := x.r.pc + BitVec.ofNat 64 skip } ∧ u.mem = s.mem ∧
        (∀ j, j ≠ t → u.strand? j = s.strand? j) ∧
        ∀ i, z.slot = some i → (u.context? st.ctx).map Context.records = some (k.records.erase i)
      thawed (exec (.resume g a) s) z.skip ∧ thawed (exec (.retry g a) s) 0 ∧
      ∃ u, exec (.kill g a) s = commits u h st [a] none ∧ u.strand? t = none ∧
        ((∀ m ∈ (s.core x.core).vec.running, m.h = t → m.owed = []) → u.mem = s.mem) ∧
        ∀ i, z.slot = some i → (u.context? st.ctx).map Context.records = some (k.records.erase i))) ∧
  (∀ (s : State) (h : Handle) (st st1 x : Strand) (g : Option Guard) (a b : Reg) (v w : Word) (c : ClusterId) (d : BitVec 2) (e : TlbEntry), Issues s h st g →
    let refuse : Out := .next (enterTrap s h st (illegalInfo s.latch ⟨7, BitVec.ofNat 5 (s.latch.length - 1), 0⟩))
    (isSystem s st = false → exec (.replay g) s = refuse ∧ (src s h st 0 a = .ok v → src s h st 1 b = .ok w → exec (.tlbinv g a b) s = refuse)) ∧
    (isSystem s st = true →
      (∃ u, u.mem = s.mem ∧ u.strands = s.strands ∧ u.xlate = [] ∧ u.reissue = s.reissue ++ s.xlate ∧
        (∀ y, (d, y) ∈ s.dies → (u.die d).fb = [] ∧ (u.die d).fbdropped = false ∧ (u.die d).fbhead = (u.die d).fbtail.setWidth 64) ∧
        (u.reissue = [] → exec (.replay g) s = commits u h st [] none) ∧
        (u.reissue ≠ [] → exec (.replay g) s = .next (parkPending u h st .replaying (waitPending s)))) ∧
      (src s h st 0 a = .ok v → src s h st 1 b = .ok w →
        (v.extractLsb' 15 49 ≠ 0 ∨ v.extractLsb' 12 2 = 3 → exec (.tlbinv g a b) s = refuse) ∧
        (v.extractLsb' 15 49 = 0 → v.extractLsb' 12 2 ≠ 3 → fence s st .pkg = .ok st1 → s.posted = [] →
          let waits := ∃ u y r, exec (.tlbinv g a b) s = .next u ∧ u.strand? h = some y ∧ u.mem = s.mem ∧
            y.status = .parked (.tlbinv (v.extractLsb' 12 2 : BitVec 2).toNat (v.setWidth 12) r)
          (∀ i q p, s.strand? i = some x → x.status = .parked (.atPlace q) → x.pending = some p → p.kind = 3 → p.reply = none → spaceCode p.addr < 8 →
            v.extractLsb' 12 2 = 2 ∨ (v.extractLsb' 12 2 = 1 ∧ x.ctx = v.setWidth 12) → waits) ∧
          (∀ k ∈ s.cores, ∀ m ∈ k.2.vec.running, s.strand? m.h = some x → v.extractLsb' 12 2 = 2 ∨ x.ctx = v.setWidth 12 →
            (∃ o ∈ m.owed, o.key < 2 ^ 48) → waits) ∧
          ((∀ z ∈ s.strands, ∀ q, z.2.status ≠ .parked (.atPlace q)) → (∀ k ∈ s.cores, ∀ m ∈ k.2.vec.running, m.owed = []) → ∃ u, exec (.tlbinv g a b) s = commits u h st1 [a, b] none ∧ u.mem = s.mem ∧ u.strands = s.strands ∧
            (e ∈ (u.cluster c).tlb → e ∈ (s.cluster c).tlb ∧ v.extractLsb' 12 2 ≠ 2 ∧ (v.extractLsb' 12 2 = 1 → e.ctx ≠ v.setWidth 12) ∧
              (v.extractLsb' 12 2 = 0 → ¬ (e.ctx = v.setWidth 12 ∧ e.base ≤ w.toNat % 2 ^ 48 ∧ w.toNat % 2 ^ 48 < e.base + e.size))) ∧
            (e ∈ (u.die d).tlb2 → e ∈ (s.die d).tlb2 ∧ v.extractLsb' 12 2 ≠ 2 ∧ (v.extractLsb' 12 2 = 1 → e.ctx ≠ v.setWidth 12))))))) ∧
  (∀ (s s1 : State) (j : Handle) (x : Strand) (more : List XlateWait) (ws : List Half) (i : Instr),
    s.reissue = .strand j :: more → (∀ t rest, s.agenda = t :: rest → t.what ≠ .auto) → s.strand? j = some x → x.status = .parked .translation →
    let y := { x with status := .ready }
    let s0 := { s with reissue := more, picks := [] }.setStrand j y
    x.counted = true → x.reissue = none → strandReady s0 y.core y = true → x.r.pc.getLsbD 0 = false → Fetches s0 j y 0 ws s1 → WordsOf ws i →
    behind s1 y (portBanks s1 j y i) = false → step s = finish (exec i (s1.atIssue j ws))) ∧
  (∀ (s : State) (h : Handle) (st : Strand) (p : Pending), s.strand? h = some st → st.status = .parked .replaying → st.pending = some p →
    s.reissue = [] → Replied (wakeOne s h) h p 0 0)

/-! ### Events: binding -/

/-- R84, R89, R93, R97, R103, R155-R157, R200, R317, R321, R415: a free slot binds a waiting handler task, the deque entry or the work packet that it takes, or an
entry stolen from another core, and the item leaves its list; a spilled entry only once no earlier access of its core is on its way to the bank (R188). Where none is to be bound the event changes nothing (log entry 1). A new handle is that of
no task that is still live, where fewer than 65,536 are. A packet at the head of an inbox takes the lowest free slot and its strand is ready there; a
pre-empted task comes back to its core with its registers; for a `fork` that waits at a deque with 64 entries up to 32 are spilled from its tail to the places
of the spill area, and an empty deque takes the newest 32 back in their order, as they stand in the bank. That a slot may also take a spilled entry past
on-chip ones that it does not admit is the model's choice (DEDUCED, log entry 82), and so are the places and the order of the spilled entries (DESIGN CHOICE,
log entry 23), that no lease is asked for them (DESIGN CHOICE, log entry 97), and that a core takes the context of the task that binds (DEDUCED, log entry
65). -/
def Obligations.BindingAndDequeEvents : Prop :=
  (∀ (s : State) (c k : CoreId) (cl : ClusterId) (slot : BitVec 4) (gen : BitVec 16) (i : Nat) (t : TaskSource) (x : HandlerTask),
    (((s.cluster cl).handlers.find? fun y => (handlerCore s cl y).isSome) = some x → handlerCore s cl x = some k →
      ∃ u e, exec (.handlerBind cl) s = .next u ∧ e ∈ s.freeSlots k ∧ Bound s u x.source k e ∧ (u.cluster cl).handlers = (s.cluster cl).handlers.erase x) ∧
    (((s.cluster cl).handlers.find? fun y => (handlerCore s cl y).isSome) = none → exec (.handlerBind cl) s = .next s) ∧
    (slotFor s c .deque = some slot → dequeEntry s c slot = some (i, t) →
      (∀ x, (s.core c).ctx = some x → x = t.ctx) ∧
      ((s.core c).deque = [] ∨ entryFree s c i = false → exec (.dequeBind c) s = .next s) ∧
      ((s.core c).deque ≠ [] → entryFree s c i = true → ∃ u, exec (.dequeBind c) s = .next u ∧ Bound s u t c slot ∧ (u.core c).deque = (s.core c).deque.eraseIdx i ∧
        wholeDeque u c = (wholeDeque s c).eraseIdx i)) ∧
    (slotFor s c .deque = none → exec (.dequeBind c) s = .next s) ∧
    (slotFor s c .work = some slot →
      (urgentPacket s c slot = none → workPacket s c slot = some (i, t) →
        ∃ u, exec (.workPacketBind c) s = .next u ∧ Bound s u t c slot ∧ (u.core c).work = (s.core c).work.eraseIdx i) ∧
      (urgentPacket s c slot = some (i, t) →
        ∃ u, exec (.workPacketBind c) s = .next u ∧ Bound s u t c slot ∧ (u.core c).work = (s.core c).work.eraseIdx i)) ∧
    (slotFor s c .work = none → exec (.workPacketBind c) s = .next s) ∧
    (slotFor s c .steal = some slot → victim s c slot = some (k, i, t) →
      t.level = 0 ∧ (entryFree s k i = false → exec (.steal c) s = .next s) ∧
      (entryFree s k i = true → ∃ u, exec (.steal c) s = .next u ∧ Bound s u t c slot ∧ (u.core k).deque = (s.core k).deque.eraseIdx i ∧
        wholeDeque u k = (wholeDeque s k).eraseIdx i)) ∧
    (slotFor s c .steal = none → exec (.steal c) s = .next s) ∧
    (s.strands.length < 65536 → s.strand? (handleOf c slot (nextGen s c slot gen s.strands.length)) = none)) ∧
  (∀ (s : State) (c : CoreId) (slot : BitVec 4) (h : Handle) (st : Strand) (p : Packet) (rest : List Packet),
    let x := s.core c
    let n := min 32 (min x.deque.length (spillCap x - x.spilled.length))
    let m := min 32 x.spilled.length
    (x.inbox = p :: rest → slotFor s c .inbox = some slot → s.strand? p.h = some st →
      ∃ u, exec (.inboxBind c) s = .next u ∧ u.strand? p.h = some { st with core := c, slot := slot, status := .ready } ∧ (u.core c).inbox = rest ∧
        (u.core c).ctx = some st.ctx ∧ u.mem = s.mem ∧ ∀ k, k ≠ p.h → u.strand? k = s.strand? k) ∧
    (returning s c = some (h, st) → slotFor s c .returning = some slot →
      ∃ u y, exec (.preemptedReturn c) s = .next u ∧ u.strand? h = some y ∧ y.core = st.core ∧ y.slot = slot ∧ y.r.pc = st.r.pc ∧ y.r.gpr = st.r.gpr ∧
        (st.saved = [] → y.r = st.r) ∧
        y.status = (if st.frozen.isSome then .frozen else if st.claim.isSome then .parked .claim else .ready) ∧ h ∉ (u.core c).away ∧ u.mem = s.mem) ∧
    (slotFor s c .returning = none → exec (.preemptedReturn c) s = .next s) ∧
    (64 ≤ x.deque.length → x.dequeRes ≠ [] → Memory.wf s.mem = true → ∃ u, exec (.dequeSpill c) s = .next u ∧ (u.core c).deque = x.deque.take (x.deque.length - n) ∧
      (u.core c).spilled = x.spilled ++ ((spillPlaces x).take n).zip (x.deque.drop (x.deque.length - n)).reverse ∧
      ∀ k, (∀ o ∈ (spillPlaces x).take n, k < (coordAddr c o).toNat ∨ (coordAddr c o).toNat + 64 ≤ k) → Memory.read u.mem k = Memory.read s.mem k) ∧
    (x.deque.length < 64 ∨ x.dequeRes = [] → exec (.dequeSpill c) s = .next s) ∧
    (x.deque = [] → x.spilled ≠ [] → ∃ u, exec (.dequeRefill c) s = .next u ∧ (u.core c).deque = (spilledEntries s c).take m ∧
      (u.core c).spilled = x.spilled.take (x.spilled.length - m) ∧ u.mem = s.mem) ∧
    (x.deque ≠ [] ∨ x.spilled = [] → exec (.dequeRefill c) s = .next s))

/-! ### Events: what reaches a strand -/

/-- R83, R124, R128, R145, R160, R196, R292, R293, R363: an access that waits at its place is performed once its word admits it, alone at its word here: a load
empties it, a store fills it, and where a running sweep covers the word it faults TENSOR_BUSY instead and leaves it; a reduce packet that is alone at its router is one step on its word. Each is answered, and the strand's access then commits with the value extended
to its destination, or faults. -/
def Obligations.ReplyEvents : Prop :=
  ∀ (s : State) (h : Handle) (st : Strand) (q : Pending) (p : Place) (w : Waiter) (y : Reply) (f : FaultInfo) (k : ReducePacket) (v : Word),
    s.strand? h = some st →
    let dst := q.dst.map fun d => (d, extend q.sz y.value.toNat)
    (st.reply? = some (q, .inl y) → hasRoom (s.core st.core) h q.pops dst = none →
      exec (.accessReply h) s = .next (commitAt s h (st.takeReply q y) q.pops dst (st.r.pc + BitVec.ofNat 64 (2 * q.len)))) ∧
    (st.reply? = some (q, .inr f) → exec (.accessReply h) s = .next (freezeAt s h st f st.r.pc (2 * q.len) none)) ∧
    (st.reply? = none → exec (.accessReply h) s = .next s) ∧
    (st.status = .parked (.atPlace p) → st.pending = some q → ((s.place p).station.find? fun e => decide (e.h = h)) = some w → waitingAt s p w.key = [w] →
      (∀ e ∈ (s.place p).seq, ∀ d ∈ e.held, d.h ≠ h) → Memory.wf s.mem = true →
      (s.admits w = false → exec (.accessPerform h) s = .next s) ∧
      (s.admits w = true → w.kind = 0 ∨ w.kind = 2 → s.busyFault p w.key 8 w.addr = some f → ∃ u z, exec (.accessPerform h) s = .next u ∧
        u.strand? h = some z ∧ z.pending = some { q with reply := some (.inr f) } ∧ u.isFull w.key = s.isFull w.key ∧ SameBytes s u) ∧
      (w.kind = 0 → s.isFull w.key = true → s.busyFault p w.key 8 w.addr = none → ∃ u, exec (.accessPerform h) s = .next u ∧ Replied u h q (s.readWord w.key) 0 ∧ u.isFull w.key = false ∧
        SameBytes s u ∧ waitingAt u p w.key = []) ∧
      (w.kind = 2 → s.isFull w.key = false → s.busyFault p w.key 8 w.addr = none → ∃ u, exec (.accessPerform h) s = .next u ∧ Replied u h q 0 0 ∧ u.isFull w.key = true ∧
        u.readWord w.key = w.value ∧ waitingAt u p w.key = [])) ∧
    (st.status = .parked (.atPlace p) → st.pending = some q → (∀ e ∈ (s.place p).station, e.h ≠ h) → (s.cluster (clusterOf st.core)).outbox = [k] →
      k.parts = .one h v → s.picks.headD 0 ≠ 1 → waitingAt s k.place k.key = [] → Memory.wf s.mem = true →
      let old := Memory.readN s.mem k.key (sizeBytes k.size)
      let r := amoValue k.op k.size old (BitVec.ofNat 64 (lowBits k.size v))
      ∃ u, exec (.accessPerform h) s = .next u ∧ Memory.readN u.mem k.key (sizeBytes k.size) = r.1 % 256 ^ sizeBytes k.size ∧
        Replied u h q (BitVec.ofNat 64 old) r.2.bits ∧ (u.cluster (clusterOf st.core)).outbox = [])

/-- R97, R101, R130, R137, R148-R153, R175, R196, R291, R374, R375, R391, R394: a refused request and a fence that has come back put their strand back into
rotation, the fence once no line of CXL memory is dirty for its context; a blocking send that has waited beyond its limit traps SEND_TIMEOUT. An engine's
message and a message at its last relay slice are taken by a mailbox that accepts them, and an engine's stays where it is refused; a relay slice
forwards a message to the next one that has room, and takes none of a blocking send whose limit is over; a refused migration packet finds a slot; fills that
waited for a task in a packet are written in their order, and in a replay the recorded one. That the limit is over from its last cycle on is the model's
choice (DEDUCED, log entry 55), and so is the place of a recorded fill in a replay (DEDUCED, log entry 15). -/
def Obligations.RetryMessageAndPacketEvents : Prop :=
  (∀ (s : State) (h : Handle) (st : Strand) (w : Wait) (x : SendWait) (n : Nat), s.strand? h = some st →
    (st.status = .parked w → (w.retries = true → Rejoins (exec (.requestRetry h) s) s h st) ∧ (w.retries = false → exec (.requestRetry h) s = .next s)) ∧
    (st.status = .parked .fence → Rejoins (exec (.fenceProbe h) s) s h st ∧
      ∃ u, exec (.fenceProbe h) s = .next u ∧ (∀ l ∈ u.cxlDirty, l.2 ≠ st.ctx) ∧ ∀ l, l.2 ≠ st.ctx → (l ∈ u.cxlDirty ↔ l ∈ s.cxlDirty)) ∧
    (st.status ≠ .parked .fence → exec (.fenceProbe h) s = .next s) ∧
    (st.status = .parked w → (w.retries = true ∨ ∃ q, st.pending = some q ∧ q.kind = 4 ∧ q.reply = none) → st.sending = some x → x.since = some n →
      (s.cycle < n + sendLimit s st.ctx → exec (.sendTimeout h) s = .next s) ∧
      (n + sendLimit s st.ctx ≤ s.cycle → st.r.inTrap = false → ∃ u y, exec (.sendTimeout h) s = .next u ∧ u.strand? h = some y ∧ y.status = .ready ∧
        y.r = { st.r with trappc := st.r.pc, trec := trapRecords st.r.pc x.len { number := 3, t4 := x.word, t5 := x.msg.mbox.setWidth 64 }, inTrap := true
                          pc := trapHandler s st 3 } ∧ u.mem = s.mem) ∧
      (n + sendLimit s st.ctx ≤ s.cycle → st.r.inTrap = true → exec (.sendTimeout h) s =
        .next (freezeAt s h st (doubleTrap { number := 3, t4 := x.word, t5 := x.msg.mbox.setWidth 64 }) st.r.pc (2 * x.len) none)))) ∧
  (∀ (s : State) (h : Handle) (st : Strand) (c : CoreId) (id n : Nat) (o : Offer) (q : Pending) (i j : SliceId) (rest : List SliceId) (r : Record),
    let box := fun (u : State) => (mailboxOf u o.core o.msg.mbox).msgs
    ((s.offers.find? fun e => e.id == id && e.path.isEmpty) = some o →
      (accepts s o.core o.msg.mbox o.sender = true → ∃ u, exec (.messageOffer id) s = .next u ∧ box u = box s ++ [o.msg] ∧
        u.offers = (s.offers.filter fun e => e.id != id) ∧ u.mem = s.mem ∧ u.strands = s.strands) ∧
      (accepts s o.core o.msg.mbox o.sender = false → ∃ u, exec (.messageOffer id) s = .next u ∧ box u = box s ∧ u.offers = s.offers ∧ u.strands = s.strands)) ∧
    ((s.offers.find? fun e => e.id == id && e.path.isEmpty) = none → exec (.messageOffer id) s = .next s) ∧
    ((s.offers.find? fun e => e.id == id) = some o →
      (o.path = [i] → o.sender = .strand h → s.strand? h = some st → st.pending = some q → accepts s o.core o.msg.mbox o.sender = true →
        (o.blocking = true → ∀ z m, st.sending = some z → z.since = some m → s.cycle < m + sendLimit s st.ctx) →
        ∃ u, exec (.relayOffer id) s = .next u ∧ box u = box s ++ [o.msg] ∧ Replied u h q 1 0 ∧ (∀ e ∈ u.offers, e.id ≠ id)) ∧
      (o.path = [i] → o.sender = .strand h → s.strand? h = some st → st.pending = some q → accepts s o.core o.msg.mbox o.sender = false → o.blocking = false →
        ∃ u, exec (.relayOffer id) s = .next u ∧ box u = box s ∧ Replied u h q 0 0) ∧
      (o.path = i :: j :: rest → i ≠ j → relayRoom s j = true →
        ∃ u, exec (.relayOffer id) s = .next u ∧ (u.offers.find? fun e => e.id == id) = some { o with path := j :: rest } ∧
          (u.place (.slice j)).relay = (s.place (.slice j)).relay ++ [id] ∧ id ∉ (u.place (.slice i)).relay ∧ box u = box s)) ∧
    (s.strand? h = some st →
      (st.status = .parked (.inbox c) → (s.core c).inbox = [] → s.freeSlots c ≠ [] → s.coreIn c = true → s.admitsCtx c st.ctx = true → (s.core c).leaving = false →
        ∃ u y, exec (.migrationPacket h) s = .next u ∧ u.strand? h = some y ∧ y.core = c ∧ y.slot ∈ s.freeSlots c ∧ y.status = .ready ∧
          y.r = { st.r with trec := Vector.replicate 8 0 } ∧ u.mem = s.mem) ∧
      ((∀ k, st.status ≠ .packet k) → st.replay = none →
        ∃ u y, exec (.fillApply h) s = .next u ∧ u.strand? h = some y ∧ y.fills = [] ∧ y.r.pc = st.r.pc ∧
          y.r.gpr = st.fills.foldl (fun v (e : Fin 24 × Word) => v.set e.1 e.2) st.r.gpr ∧
          y.r.full = st.fills.foldl (fun v (e : Fin 24 × Word) => v ||| BitVec.twoPow 24 e.1.val) st.r.full ∧
          u.mem = s.mem ∧ ∀ k, k ≠ h → u.strand? k = s.strand? k) ∧
      ((∀ k, st.status ≠ .packet k) → st.fills = [] → st.replay = some n → st.records[n]? = some r → r.kind = 6 →
        ∃ u y, exec (.fillApply h) s = .next u ∧ u.strand? h = some y ∧ y.r.gpr = st.r.gpr.set (Fin.ofNat 24 r.sel) (r.values.headD 0) ∧
          y.r.full = st.r.full ||| BitVec.twoPow 24 (Fin.ofNat 24 r.sel : Fin 24).val)))

/-- R194, R200-R202, R209, R214, R219, R235, R236: a claim that the groups in service never reach is answered 0 wherever it stands; else the one at the head of a pool
takes the largest grant that the free groups allow, and waits below its minimum; the dispatcher takes the head of a queue once the core's command before it has
left the pool, a handler's also while one waits there with the queue held, unless an exception of that handler is still to be delivered, and none while the
cluster is halted or the core's context is to be saved (DEDUCED, log entry 94) or is leaving (R159); the pool
performs a command that has begun before every other, and with none begun and the queue not held the first in the order of their issue; a commit of `vren` sets
and reads vn; an exception in flight is taken at the strand's delivery point, a fault owed to it at its next issue. That the record of such a fault names the
instruction at which it is taken, with nothing to skip, is the model's choice (DEDUCED, log entry 39), and so are that order between the two queues and the wait for
an exception that is still to be delivered (DEDUCED, log entry 32). -/
def Obligations.PoolEvents : Prop :=
  ∀ (s : State) (c : CoreId) (cl : ClusterId) (h : Handle) (st : Strand) (q : Pending) (x : Claim) (rest : List Claim) (m : VCmd) (tl : List VCmd)
      (g : Option Guard) (a : Fin 24) (b : Reg) (k : Flight) (t : TrapInfo) (f : FaultInfo) (fs : List FaultInfo),
    let groups := grantBelow (min (claimGroups x.hi) (s.groupsIn cl - groupsHeld s cl))
    let answered := fun (o : Out) (n : Nat) => ∃ u y, o = .next u ∧ (u.cluster cl).claims = (s.cluster cl).claims.erase x ∧ u.strand? x.h = some y ∧ y.vl = 32 * n ∧
      (x.back = false → Replied u x.h q (BitVec.ofNat 64 (32 * n)) 0) ∧ (x.back = true → st.status = .parked .claim → y.status = .ready) ∧ u.mem = s.mem
    (s.strand? x.h = some st → st.pending = some q →
      (((s.cluster cl).claims.find? fun e => decide (grantBelow (s.groupsIn cl) < claimGroups e.lo)) = some x → answered (exec (.claimGrant cl) s) 0) ∧
      ((∀ e ∈ (s.cluster cl).claims, claimGroups e.lo ≤ grantBelow (s.groupsIn cl)) → (s.cluster cl).claims = x :: rest →
        (groups < claimGroups x.lo → exec (.claimGrant cl) s = .next s) ∧
        (claimGroups x.lo ≤ groups → answered (exec (.claimGrant cl) s) groups))) ∧
    (dispatchTurn s (clusterOf c) = some c →
      ((s.cluster (clusterOf c)).dbg.halted = true ∨ (s.core c).regrant = true ∨ (s.core c).leaving = true → exec (.vectorDispatch c) s = .next s) ∧
      ((s.cluster (clusterOf c)).dbg.halted = false → (s.core c).regrant = false → (s.core c).leaving = false →
        ((s.core c).vec.queue = m :: tl → (s.core c).vec.trapQueue = [] → m.trap = false → (s.core c).vec.held = [] → (s.core c).vec.waiting = [] →
          (s.core c).vec.running = [] →
          ∃ u, exec (.vectorDispatch c) s = .next u ∧ (u.core c).vec.queue = tl ∧ (u.core c).vec.running = [m] ∧
            (u.cluster (clusterOf c)).nextVec = (c.core.toNat + 1) % 8 ∧ u.mem = s.mem ∧ u.strands = s.strands) ∧
        ((s.core c).vec.trapQueue = m :: tl → m.trap = true →
          (s.core c).vec.isHeld = true ∨ (∃ e ∈ (s.core c).vec.trapQueue, e.ahead = true) ∨ (∀ e, (s.core c).vec.queue.head? = some e → m.id < e.id) →
          (if (s.core c).vec.isHeld then ∀ e ∈ (s.core c).vec.running, e.trap = false else (s.core c).vec.running = []) →
          (s.core c).vec.undelivered m.h = false →
          ∃ u, exec (.vectorDispatch c) s = .next u ∧ (u.core c).vec.queue = (s.core c).vec.queue ∧ (u.core c).vec.trapQueue = tl ∧
            (u.core c).vec.running = (s.core c).vec.running ++ [m] ∧ (u.cluster (clusterOf c)).nextVec = (c.core.toNat + 1) % 8 ∧ u.mem = s.mem ∧
            u.strands = s.strands))) ∧
    ((s.core c).vec.trapQueue = m :: tl → (s.core c).vec.undelivered m.h = true → (s.core c).vec.dispatchable = none) ∧
    (let able := fun (e : VCmd) => e ∈ (s.core c).vec.running ∧ e.id ∉ (s.core c).vec.waiting ∧ (s.core c).vec.undelivered e.h = false
      ∀ e, able e → ∃ p, (s.core c).vec.performable = some p ∧ able p ∧ (e.begun = true → p.begun = true) ∧
        ((∀ y, able y → y.begun = false) → (s.core c).vec.isHeld = false → p.id ≤ e.id)) ∧
    ((s.core c).vec.dispatchable = none → exec (.vectorDispatch c) s = .next s) ∧
    ((s.core c).vec.performable = none → exec (.vectorPoolCommit c) s = .next s) ∧
    ((s.core c).vec.performable = some m → s.strand? m.h = some st → st.core = c →
      (m.op = .vrenStat g a → ∃ u y, exec (.vectorPoolCommit c) s = .next u ∧ u.strand? m.h = some y ∧
        y.r.gpr = st.r.gpr.set a (BitVec.ofNat 64 ((s.core c).vec.vn + st.vl * 65536)) ∧ y.r.full = st.r.full ||| BitVec.twoPow 24 a.val) ∧
      (m.op = .vrenSetn g b → 1 ≤ (m.args.headD 0).toNat % 512 → (m.args.headD 0).toNat % 512 ≤ 256 →
        ∃ u, exec (.vectorPoolCommit c) s = .next u ∧ (u.core c).vec.vn = (m.args.headD 0).toNat % 512 ∧ u.mem = s.mem) ∧
      (m.op = .vrenSetn g b → (m.args.headD 0).toNat % 512 = 0 ∨ 256 < (m.args.headD 0).toNat % 512 →
        ∃ u y, exec (.vectorPoolCommit c) s = .next u ∧ (u.core c).vec.vn = (s.core c).vec.vn ∧ u.strand? m.h = some y ∧
          y.flight.map Flight.what = some (.inl (flightInfo m (s.core c).vec.vn 0 0)) ∧ (m.h, false) ∈ (u.core c).vec.held)) ∧
    (s.strand? h = some st → atDelivery st = true →
      (st.flight = some k → k.what = .inl t → st.r.inTrap = false →
        ∃ u y, exec (.exceptionDelivery h) s = .next u ∧ u.strand? h = some y ∧ y.flight = none ∧ y.status = .ready ∧
          y.r = { st.r with trappc := st.r.pc, trec := trapRecords st.r.pc (wordCountAt s h { st with flight := none }) t, inTrap := true
                            pc := trapHandler s st t.number.toNat } ∧ u.mem = s.mem ∧
          (h, true) ∈ (u.core st.core).vec.held ∧ (h, false) ∉ (u.core st.core).vec.held) ∧
      (st.flight = some k → k.what = .inr f → exec (.exceptionDelivery h) s =
        .next (freezeAt (releaseHeld s st.core h) h { st with flight := none } f k.cmd.pc 0 (some k.cmd))) ∧
      (st.flight = none → st.due = f :: fs → st.status = .ready →
        exec (.exceptionDelivery h) s = .next (freezeAt s h { st with due := fs } f st.r.pc 0 none)) ∧
      (st.flight = none → st.due = [] → exec (.exceptionDelivery h) s = .next s))

/-- R80, R268: over finite elements, the tile sum of K classes 64 and 128 is the exact sum of the exact products, whatever their exponents: no product is
rounded or truncated, and no invalid operation is met. Values are compared as integers at the scale 2^-N, which no element falls below. -/
def Obligations.TileSumIsExact : Prop :=
  ∀ (N : Nat) (vs ws : List FVal), vs.length = ws.length → (∀ v, v ∈ vs ∨ v ∈ ws → ∃ n m e, v = .fin n m e ∧ -(N : Int) ≤ e) →
    let int := fun (v : FVal) (k : Nat) => match v with
      | .fin n m e => (if n then -(m : Int) else (m : Int)) * 2 ^ (e + (k : Int)).toNat
      | _ => 0
    (tileSum false (.ofVals vs) (.ofVals ws)).2 = false ∧ (tileSum false (.ofVals vs) (.ofVals ws)).1.special = false ∧
    int (tileSum false (.ofVals vs) (.ofVals ws)).1 (2 * N) = ((vs.zip ws).map fun p => int p.1 N * int p.2 N).foldl (· + ·) 0

/-- R266, R269, R271, R273, R275-R277: the array starts the head of a queue and counts a tile product, unless the governor's budget is used up; at a commit the
accumulator is written whole, the flags go to the strand and the strand goes on, or the fault is its instruction's own; `mld` copies the words of its rows,
`mst.f32` writes them, `mzero` clears; an abandoned command leaves nothing, and its strand issues it again, or for `mzero` the entry goes back. A halted cluster
starts no command, and at level 2 a command is reported at the end of a turn, the boundary alone deciding whether a turn is idle. That turns begin at the
multiples of 512 cycles is the model's choice (DEDUCED, log entry 42), and so is that a command may be abandoned at any time before its commit (DEDUCED, log
entry 43). -/
def Obligations.MatrixEvents : Prop :=
  ∀ (s : State) (q : QuadId) (c : CoreId) (m : MCmd) (rest : List MCmd) (st : Strand) (r : MatrixRes) (f : FaultInfo) (g : Option Guard) (a b : Fin 24)
      (rm : Rm) (n : BitVec 1) (k : Nat),
    ((s.quad q).running = none → quadStrict s q = false →
      (nextMatrixCore s q = some c → (s.core c).mqueue = m :: rest →
        ∃ u, exec (.matrixStart q) s = .next u ∧ (u.quad q).running = some (m, s.cycle / 512) ∧ (u.core c).mqueue = rest ∧ u.mem = s.mem ∧
          u.strands = s.strands ∧ issuedNow u q = issuedNow s q + (if isProduct m then 1 else 0)) ∧
      ((∀ e ∈ coresOfQuad q, ∀ x ∈ (s.core e).mqueue, isProduct x = true) → (s.quad q).budget ≤ issuedNow s q → exec (.matrixStart q) s = .next s)) ∧
    ((s.quad q).running = none → quadStrict s q = true → (s.quad q).turn = s.cycle / 512 → (s.quad q).turnStarted = false →
      (s.core (quadCore q (s.quad q).turn)).mqueue = m :: rest → commandAcq m = false → (s.cluster q.cluster).dbg.halted = false →
      (s.core (quadCore q (s.quad q).turn)).leaving = false →
      ∃ u, exec (.matrixStart q) s = .next u ∧ (u.quad q).running = some (m, s.cycle / 512) ∧ (u.quad q).turnStarted = true ∧ u.mem = s.mem) ∧
    ((s.quad q).running.isSome = true ∨ (s.cluster q.cluster).dbg.halted = true → exec (.matrixStart q) s = .next s) ∧
    ((s.quad q).running = none → exec (.matrixCommit q) s = .next s ∧ exec (.matrixAbandon q) s = .next s) ∧
    ((s.quad q).running = some (m, k) → quadStrict s q = true → s.cycle % 512 ≠ 0 ∨ s.cycle / 512 ≤ k → exec (.matrixCommit q) s = .next s) ∧
    ((s.quad q).running = some (m, k) → quadStrict s q = false → s.strand? m.h = some st → st.status = .removed → st.pending = none →
      st.r.pc = m.pc →
      let d := moveDesc m.hi
      let bank := coreOf (clusterOf m.core) d.core
      let at_ := fun (i : Fin 4096) => (coordAddr bank (d.off + i.val / 64 * d.str)).toNat + 4 * (i.val % 64)
      let leased := ∀ i : Fin 64, (Side.mk bank (d.off + i.val * d.str) 256).leaseFault s st.launch st.ctx = none
      let returned := fun (u : State) => (u.quad q).running = none ∧ ∃ y, u.strand? m.h = some y ∧ y.status = .ready ∧ y.r.gpr = st.r.gpr ∧
        y.r.pc = m.pc + BitVec.ofNat 64 (2 * m.words.length)
      (runMatrix s m st = .error f → exec (.matrixCommit q) s = .next (freezeAt (freeArray s q) m.h st f m.pc (2 * m.words.length) none)) ∧
      (runMatrix s m st = .ok r → ∃ u, exec (.matrixCommit q) s = .next u ∧ returned u ∧
        (∀ x e, r.acc = some (x, e) → ∀ i : Fin 4096, (accOf u m.core x)[i] = BitVec.ofNat 32 (e.getD i.val 0)) ∧
        (r.writes = [] → u.mem = s.mem ∧ ∃ y, u.strand? m.h = some y ∧ y.r.sflags = st.r.sflags ||| r.fl.bits)) ∧
      (m.op = .mzero g n → ∃ u, exec (.matrixCommit q) s = .next u ∧ accOf u m.core n = Vector.replicate 4096 0 ∧ u.mem = s.mem) ∧
      (m.op = .mld g a b → leased → ∃ u, exec (.matrixCommit q) s = .next u ∧ returned u ∧ u.mem = s.mem ∧
        ∀ i : Fin 4096, (accOf u m.core d.acc)[i] = BitVec.ofNat 32 (Memory.readN s.mem (at_ i) 4)) ∧
      (m.op = .mst g .f32 rm a b → leased → (∀ i : Fin 64, s.sweeping bank (d.off + i.val * d.str) 256 = none) → Memory.wf s.mem = true →
        256 ≤ d.str → d.off + 63 * d.str + 256 ≤ 0x1E000 → (s.place (.bank bank)).station = [] →
        ∃ u, exec (.matrixCommit q) s = .next u ∧ (∀ i : Fin 4096, Memory.readN u.mem (at_ i) 4 = ((accOf s m.core d.acc)[i]).toNat) ∧
          (u.core m.core).m = (s.core m.core).m ∧
          ∀ j, (∀ i : Fin 4096, j < at_ i ∨ at_ i + 4 ≤ j) → Memory.read u.mem j = Memory.read s.mem j)) ∧
    ((s.quad q).running = some (m, k) → ((∀ g a, m.op ≠ .mzero g a) → s.strand? m.h = some st → st.status = .removed →
        ∃ u, exec (.matrixAbandon q) s = .next u ∧ (u.quad q).running = none ∧ u.strand? m.h = some { st with status := .ready } ∧ u.mem = s.mem ∧
          ∀ e, (u.core e).m = (s.core e).m) ∧
      (m.op = .mzero g n → ∃ u, exec (.matrixAbandon q) s = .next u ∧ (u.quad q).running = none ∧ (u.core m.core).mqueue = m :: (s.core m.core).mqueue ∧
        u.mem = s.mem ∧ ∀ e, (u.core e).m = (s.core e).m)) ∧
    (∃ u, exec (.governorWindow q) s = .next u ∧ (u.quad q).window = s.cycle / 1024 ∧ issuedNow u q = issuedNow s q ∧ (u.quad q).stalls = (s.quad q).stalls ∧
      (u.quad q).budget = (s.quad q).budget) ∧
    (∃ u, exec (.matrixTurn q) s = .next u ∧ (u.quad q).turn = s.cycle / 512 ∧ (u.quad q).running = (s.quad q).running ∧
      ((s.quad q).turn ≠ s.cycle / 512 → s.cycle % 512 = 0 → (u.quad q).turnStarted = (s.core (quadCore q (s.cycle / 512))).mqueue.isEmpty) ∧
      ((s.quad q).turn ≠ s.cycle / 512 → s.cycle % 512 ≠ 0 → (u.quad q).turnStarted = true))

/-! ### Events: engines -/

/-- R178, R194, R204-R207, R301, R302, R325, R363, R389: the movement slot takes a copy command from its register; a burst moves the next word and sets it full, one word being
left here; a copy that fails a check moves nothing and leaves the fault to its task; a finished copy lowers its counter, posts its message or
arrives at its barrier object, which it waits to do while a running sweep covers that (R363); the firmware moves the words left of a copy that a page stopped. At level 2 with a global side completion waits for
the end of the epoch, and a late one raises `cadmiss`. A quantisation command completes after its last block with its flags given to its strand. A command that reads a
poisoned line is handed over or set aside once, and the second time its task faults. That a copy which stops so counts as finished, with its fault owed, is the
model's choice (DESIGN CHOICE, log entry 102). -/
def Obligations.CopyAndQuantEvents : Prop :=
  ∀ (s u1 u2 : State) (c : CoreId) (d : BitVec 2) (m : Copy) (q q1 : QCmd) (l k : Loc) (f : FaultInfo) (st : Strand) (e : Arrival),
    let x := s.core c
    let turned := s.modCluster (clusterOf c) fun y => { y with nextCopy := (c.core.toNat + 1) % 8 }
    let lowered := fun (u : State) (j : Fin 16) => ∀ i : Fin 16, (u.core c).c[i] = if i = j ∧ x.c[i] ≠ 0 then x.c[i] - 1 else x.c[i]
    let wrote := fun (u : State) => u.readWord k.key = s.readWord l.key ∧ u.isFull k.key = true ∧
      ∀ j, j < k.key ∨ k.key + 8 ≤ j → Memory.read u.mem j = Memory.read s.mem j
    (x.copyReg = some m → x.copies.length < 128 → ∃ u, exec (.copyIssue c) s = .next u ∧ (u.core c).copyReg = none ∧
      (u.core c).copies = x.copies ++ [{ m with issued := s.cycle }] ∧ u.mem = s.mem ∧ u.strands = s.strands) ∧
    (128 ≤ x.copies.length → exec (.copyIssue c) s = .next s) ∧
    ((s.cluster (clusterOf c)).dbg.halted = true → exec (.copyBurst c) s = .next s) ∧
    (activeCopy s c = some m → m.core = c → (s.cluster (clusterOf c)).dbg.halted = false → burstTurn s (clusterOf c) = some c →
      (m.state = 1 → m.done + 1 = m.len → engineLoc turned c m.ctx .read (m.srcAt m.done) = .ok (u1, l) →
        engineLoc u1 c m.ctx .write (m.dstAt m.done) = .ok (u2, k) → Memory.wf s.mem = true → waitingAt s k.place k.key = [] →
        s.picks.headD 0 ≠ 1 → s.posted = [] →
        ∃ u y, exec (.copyBurst c) s = .next u ∧ u.posted = [] ∧ wrote u ∧ y ∈ (u.core c).copies ∧ y.id = m.id ∧ y.done = m.len ∧ y.finished = true) ∧
      (m.state = 0 → copyFault turned m = some f → s.strand? m.h = some st →
        ∃ u y, exec (.copyBurst c) s = .next u ∧ u.mem = s.mem ∧ y ∈ (u.core c).copies ∧ y.id = m.id ∧ y.finished = true ∧
          u.strand? m.h = some { st with due := st.due ++ [f] }) ∧
      (m.state = 1 → m.done < m.len → engineLoc turned c m.ctx .read (m.srcAt m.done) = .error (.poisoned f) → m.firmware = false →
        ∃ u y, exec (.copyBurst c) s = .next u ∧ u.mem = s.mem ∧ y ∈ (u.core c).copies ∧ y = { m with state := 2, firmware := true })) ∧
    ((x.copies.find? fun y => y.finished && !y.scheduled s && !arrivalHeld s y) = some m → m.core = c →
      (∃ u, exec (.copyComplete c) s = .next u ∧ (u.core c).copies = x.copies.filter fun y => y.id != m.id) ∧
      (copyKind m.hi = 0 → ∃ u, exec (.copyComplete c) s = .next u ∧ lowered u (copyIdx m.hi).toFin ∧ u.mem = s.mem) ∧
      (copyKind m.hi = 1 → ∃ u o, exec (.copyComplete c) s = .next u ∧ u.offers = s.offers ++ [o] ∧ o.core = c ∧ o.path = [] ∧
        o.msg = engineMessage m.h m.xr (copyIdx m.hi) m.firmware [(copyObj m.hi).setWidth 64, 0]) ∧
      (copyKind m.hi = 2 → m.state ≠ 3 → ((s.place (.bank (m.object s).1)).arrivals.find? fun y => y.copy == m.id) = some e → e.state = 0 →
        barGen (s.readWord (m.objectAddr s).toNat) = e.gen → Memory.wf s.mem = true → waitingAt s (.bank (m.object s).1) (m.objectAddr s).toNat = [] →
        ∃ u, exec (.copyComplete c) s = .next u ∧ u.readWord (m.objectAddr s).toNat = barArrive (s.readWord (m.objectAddr s).toNat))) ∧
    ((x.copies.find? fun y => y.finished && !y.scheduled s && !arrivalHeld s y) = none → exec (.copyComplete c) s = .next s) ∧
    ((x.copies.find? fun y => firmwareReady s y && !s.onPage (.copy y.id)) = some m → m.core = c →
      m.firmware = true → m.done < m.len → engineLoc s c m.ctx .read (m.srcAt m.done) = .error (.poisoned f) → s.strand? m.h = some st →
      ∃ u y, exec (.copyFirmwareFinish c) s = .next u ∧ u.mem = s.mem ∧ y ∈ (u.core c).copies ∧ y.id = m.id ∧ y.finished = true ∧
        u.strand? m.h = some { st with due := st.due ++ [f] }) ∧
    ((x.copies.find? fun y => firmwareReady s y && !s.onPage (.copy y.id)) = some m → m.core = c →
      m.done + 1 = m.len → engineLoc s c m.ctx .read (m.srcAt m.done) = .ok (u1, l) → engineLoc u1 c m.ctx .write (m.dstAt m.done) = .ok (u2, k) → Memory.wf s.mem = true →
      waitingAt s k.place k.key = [] → m.level ≠ 2 → copyKind m.hi ≠ 2 → s.picks.headD 0 ≠ 1 → s.posted = [] →
      ∃ u, exec (.copyFirmwareFinish c) s = .next u ∧ wrote u ∧ ∀ y ∈ (u.core c).copies, y.id ≠ m.id) ∧
    ((x.copies.find? fun y => y.finished && y.scheduled s && epochOver s y.epoch && !arrivalHeld s y) = some m → m.core = c → copyKind m.hi = 0 →
      ∃ u, exec (.epochCompletion c) s = .next u ∧ lowered u (copyIdx m.hi).toFin ∧ ((u.core c).copies = x.copies.filter fun y => y.id != m.id) ∧
        (u.cluster (clusterOf c)).cadmiss = (let n := (s.cluster (clusterOf c)).cadmiss; if m.missed = true ∧ n ≠ BitVec.allOnes 32 then n + 1 else n)) ∧
    ((x.copies.find? fun y => y.finished && y.scheduled s && epochOver s y.epoch && !arrivalHeld s y) = none → overdueQcmd s c = some (d, q) →
      ∃ u, exec (.epochCompletion c) s = .next u ∧ (u.die d).qqueue = (s.die d).qqueue.filter fun y => y.id != q.id) ∧
    (activeQcmd s d = some q → qReady s q = true →
      (q.block = 0 → qUnleased s q (qSides q.ctrl q.params) = some f → q.scheduled = false → s.strand? q.h = some st →
        ∃ u y, exec (.qcmdComplete d) s = .next u ∧ u.strand? q.h = some y ∧ y.due = st.due ++ [f] ∧ u.mem = s.mem ∧
          (u.die d).qqueue = (s.die d).qqueue.filter fun y => y.id != q.id) ∧
      ((q.block = 0 → qUnleased s q (qSides q.ctrl q.params) = none) → q.block < q.total → s.picks = [] → quantBlock s q = .error (.poisoned f) →
        s.strand? q.h = some st →
        (q.reread = false → ∃ u, exec (.qcmdComplete d) s = .next u ∧ u.mem = s.mem ∧ { q with aside := true, reread := true } ∈ (u.die d).qqueue) ∧
        (q.reread = true → q.scheduled = false → ∃ u y, exec (.qcmdComplete d) s = .next u ∧ u.mem = s.mem ∧ u.strand? q.h = some y ∧
          y.due = st.due ++ [f] ∧ ∀ z ∈ (u.die d).qqueue, z.id ≠ q.id)) ∧
      ((q.block = 0 → qUnleased s q (qSides q.ctrl q.params) = none) → quantBlock s q = .ok (u1, q1) → q1.finished = true → q1.scheduled = false →
        s.picks = [] → u1.strand? q.h = some st → (qKind q.ctrl = 0 → q.core = c) →
        ∃ u y, exec (.qcmdComplete d) s = .next u ∧ u.mem = u1.mem ∧ u.strand? q.h = some y ∧ y.qflags = st.qflags.or q1.flags ∧
          (u.die d).qqueue = ((u1.die d).qqueue.filter fun y => y.id != q.id) ∧ (qKind q.ctrl = 0 → lowered u (qIdx q.ctrl).toFin))) ∧
    (((s.die d).qqueue.find? fun y => y.aside && !s.onPage (.qcmd y.id)) = some q →
      ∃ u, exec (.qcmdResume d) s = .next u ∧ u.mem = s.mem ∧ ∀ y ∈ (u.die d).qqueue, y.id = q.id → y = { q with aside := false })

/-- R285, R294, R295: where the schedule picks it (log entry 6), a burst of a copy that is no kind 2 posts its word, one being left here, if the word lies
outside the issuing cluster's scratchpad and no release of the command covers its place; the command has then moved its last word, with memory
as it was. A posted write is performed at its place when it arrives there, and not before an earlier one of its engine to that place, nor while a running sweep covers its word (R363). A copy with an
acquire does not begin while a write of an earlier command of its core is on its way to a place of the acquire's scope or a lower one. -/
def Obligations.PostedEngineWrites : Prop :=
  ∀ (s u1 u2 : State) (c : CoreId) (m : Copy) (l k : Loc) (p : Posted) (i dt : Nat) (picks : List Nat) (rest : List Turn),
    let turned := s.modCluster (clusterOf c) fun y => { y with nextCopy := (c.core.toNat + 1) % 8 }
    let sent : Posted := ⟨.copyEngine (clusterOf c), m.id, c, m.h, m.ctx, m.launch, k.place, k.key, 8, (s.readWord l.key).toNat, locScope c k⟩
    (activeCopy s c = some m → m.core = c → (s.cluster (clusterOf c)).dbg.halted = false → burstTurn s (clusterOf c) = some c →
      m.state = 1 → m.done + 1 = m.len → engineLoc turned c m.ctx .read (m.srcAt m.done) = .ok (u1, l) →
      engineLoc u1 c m.ctx .write (m.dstAt m.done) = .ok (u2, k) → s.picks.headD 0 = 1 → copyKind m.hi ≠ 2 → m.level ≠ 2 →
      (∀ b, k.place = .bank b → clusterOf b ≠ clusterOf c) → (copyRel m.hi = true → copyScope m.hi < locScope c k) →
      ∃ u y, exec (.copyBurst c) s = .next u ∧ u.mem = s.mem ∧ u.posted = s.posted ++ [sent] ∧ y ∈ (u.core c).copies ∧ y.id = m.id ∧ y.done = m.len ∧
        y.finished = true) ∧
    (s.reissue = [] → s.agenda = ⟨.arrive i, dt, picks⟩ :: rest → s.posted[i]? = some p →
      ((∃ q ∈ s.posted.take i, q.unit = p.unit ∧ q.place = p.place) ∨ p.swept s = true → ∃ u, step s = .next u ∧ u.mem = s.mem ∧ u.posted = s.posted) ∧
      ((∀ q ∈ s.posted.take i, q.unit ≠ p.unit ∨ q.place ≠ p.place) → p.swept s = false → Memory.wf s.mem = true → waitingAt s p.place p.key = [] →
        ∃ u, step s = .next u ∧ u.posted = s.posted.eraseIdx i ∧ u.isFull p.key = true ∧ Memory.readN u.mem p.key p.n = p.v % 2 ^ (8 * p.n) ∧
          ∀ j, j < p.key ∨ p.key + p.n ≤ j → Memory.read u.mem j = Memory.read s.mem j)) ∧
    (activeCopy s c = some m → m.core = c → m.state = 0 → copyAcq m.hi = true →
      (∃ q ∈ s.posted, q.core = c ∧ q.cmd < m.id ∧ q.scope ≤ copyScope m.hi) → exec (.copyBurst c) s = .next s)

/-- R359-R366, R408-R410: the brush makes a sweep of its slab, counted in its command; a die tensor's slabs exchange once all have finished it; a sweep that has
ended leaves its queues and posts its four words; a program command replaces the program. A contribution to a collective window is held until the last of its
generation, which writes the result, here the sum of two 64-bit words, full. One whose range differs from the first of its generation, or that has failed on its
own module, contributes nothing, and its member goes on to the next generation all the same, which is the model's reading of R410 (DEDUCED, log entry 81). A
range that leaves the window brings nothing (R408), and nor does a member that no link of this module reaches, which is the model's choice (DEDUCED, log entry
80). -/
def Obligations.BrushAndCollectiveEvents : Prop :=
  ∀ (s : State) (c k : ClusterId) (m : BrushCmd) (t : Tensor) (p : List Half) (i off : Nat) (w : Window) (member : Fin 2) (x y : Word) (b ordered : Bool)
      (g : Nat) (ws : List Word),
    let gen := nextGeneration w member.val
    let key := (s.sliceLoc w.bind.ctx (sliceAddr w.bind.slice off) w.bind.slice off)
    let comes := fun (n : Nat) => windowHolds w.bind off n = true ∧ (w.bind.home ≠ s.position ∨ s.anyLink = true)
    let sound := s.picks.headD 0 = 0
    (headCmd s c = some m → tensorIn s c m.slot = some t →
      (m.prog = none → m.passed = false → m.ended = false → m.started = true → t.slabs = [c] → (s.cluster c).brush.pending = [] →
        let swept := sweepSlab (touchBanks s m.h c (slabBits c t)) c t
        ∃ u n, exec (.sweepPass c) s = .next u ∧ u.mem = swept.s.mem ∧ headCmd u c = some n ∧ n.id = m.id ∧ n.sweeps = m.sweeps + 1 ∧
          n.visits = m.visits + swept.visits ∧ n.bad = m.bad + swept.bad ∧ (swCount m.ctrl ≤ m.sweeps + 1 → n.ended = true) ∧
          (n.ended = false → n.passed = false)) ∧
      (m.prog = none → atEveryHead s t m.id = false → exec (.sweepPass c) s = .next s) ∧
      ((∃ j ∈ t.slabs, ∀ n, headCmd s j = some n → n.id ≠ m.id ∨ n.passed = false) → exec (.slabExchange c) s = .next s) ∧
      (1 < t.slabs.length → m.ended = false → (∀ j ∈ t.slabs, ∃ n, headCmd s j = some n ∧ n.id = m.id ∧ n.passed = true) → k ∈ t.slabs →
        ∃ u n, exec (.slabExchange c) s = .next u ∧ headCmd u k = some n ∧ n.id = m.id ∧ (swCount m.ctrl ≤ m.sweeps → n.ended = true) ∧
          (n.ended = true ∨ n.passed = false)) ∧
      (m.prog = none → m.ended = false → exec (.sweepComplete c) s = .next s) ∧
      (m.prog = none → m.ended = true → ∃ u o, exec (.sweepComplete c) s = .next u ∧ u.offers = s.offers ++ [o] ∧ o.core = m.core ∧ o.path = [] ∧
        o.msg = engineMessage m.h m.xr (swMbox m.ctrl) false (sweepWords s t m) ∧ (k ∈ t.slabs → ∀ n ∈ (u.cluster k).brush.queue, n.id ≠ m.id)) ∧
      (m.prog = some p → atEveryHead s t m.id = true → k ∈ t.slabs → ∃ u, exec (.sweepComplete c) s = .next u ∧ u.mem = s.mem ∧
        (∀ n ∈ (u.cluster k).brush.queue, n.id ≠ m.id) ∧ ∀ z, tensorIn u k m.slot = some z → z.prog = p)) ∧
    (s.windows[i]? = some w → w.bind.collective = some (g, .s64, .add, ordered) → member.val < g → memberIndex s w ≠ some member.val → ws ≠ [] →
      comes ws.length → sound → w.pending.length + 1 < g → (∀ z ∈ w.pending, z.gen = gen → z.off = off ∧ z.words.length = ws.length) →
      ∃ u, exec (.collContribution i member.val off ws) s = .next u ∧ u.mem = s.mem ∧
        u.windows[i]? = some { w with counts := Table.put member.val (gen + 1) w.counts, pending := w.pending ++ [⟨member.val, gen, off, ws, none⟩] }) ∧
    (s.windows[i]? = some w → w.bind.collective = some (2, .s64, .add, b) → memberIndex s w ≠ some member.val → comes 1 → sound →
      w.pending = [⟨(1 - member).val, gen, off, [y], none⟩] → Memory.wf s.mem = true → waitingAt s key.place key.key = [] →
      ∃ u, exec (.collContribution i member.val off [x]) s = .next u ∧ u.readWord key.key = x + y ∧ u.isFull key.key = true ∧
        u.windows[i]? = some { w with counts := Table.put member.val (gen + 1) w.counts, pending := [] }) ∧
    (s.windows[i]? = some w → w.bind.collective = some (g, .s64, .add, ordered) → member.val < g → memberIndex s w ≠ some member.val → ws ≠ [] →
      comes ws.length →
      ¬sound ∨ (∃ z, (w.pending.find? fun x => x.gen == gen) = some z ∧ (z.off ≠ off ∨ z.words.length ≠ ws.length)) →
      ∃ u, exec (.collContribution i member.val off ws) s = .next u ∧ u.mem = s.mem ∧
        u.windows[i]? = some { w with counts := Table.put member.val (gen + 1) w.counts }) ∧
    (s.windows[i]? = some w → ¬comes ws.length → exec (.collContribution i member.val off ws) s = .next s) ∧
    (s.windows[i]? = none → exec (.collContribution i off off ws) s = .next s)

/-! ### Events: queues, placement and leases -/

/-- R309-R315, R322, R323: what a queue does with the packet at its head. A LAUNCH whose packet, descriptor and lists are in order and whose shape the module can
meet is accepted; a WAITEV goes on once its word is high enough, now or by a later report, else it waits; SIGNAL, QFENCE and SETDET wait for the launches before them, then
write their event word, pass, or set the level. A packet out of order halts the queue with its error,
and what it waited for is forgotten. A host write moves a tail within the ring. That a table address beside no list is out of order is the model's choice (DEDUCED, log
entry 33), and so is that scale pointers, a scratch range and types of a descriptor which break their rules halt the queue with error 2 (DEDUCED, log entry 49). So are error 4 for a page that is not present (DESIGN CHOICE, log entry 112) and
for an event word that cannot be reached (DESIGN CHOICE, log entry 113), and that the sign check is no part of the rule of event addresses (DESIGN CHOICE, log
entry 114). -/
def Obligations.QueueEvents : Prop :=
  ∀ (s : State) (ctx : CtxId) (q : BitVec 4) (c : CmdQueue) (ws d : List Word) (l : Loc) (x : Context) (err : BitVec 8) (e : EventWait) (v : Word)
      (rest : List Word),
    let advanced := fun (u : State) => queue? u ctx q = some { c with head := c.head + 1, state := 0 }
    let halts := fun (o : Out) (n : BitVec 8) => ∃ u, o = .next u ∧ queue? u ctx q = some { c with state := 4, error := n } ∧ u.mem = s.mem ∧
      u.launches = s.launches ∧ (∀ y ∈ u.eventWaits, ¬ (y.ctx = ctx ∧ y.queue = q)) ∧ ∀ y, u.context? ctx = some y → ∀ e ∈ y.setdet, e.1 ≠ q
    let waits := fun (o : Out) (n : BitVec 8) => ∃ u, o = .next u ∧ queue? u ctx q = some { c with state := n } ∧ u.mem = s.mem
    (headPacket s ctx q = none → exec (.packetLaunch ctx q) s = .next s ∧ exec (.packetWaitev ctx q) s = .next s ∧ exec (.packetSignal ctx q) s = .next s ∧
      exec (.packetSetdet ctx q) s = .next s ∧ exec (.packetQfence ctx q) s = .next s) ∧
    (queue? s ctx q = some c → headPacket s ctx q = some (.error err) → halts (exec (.packetLaunch ctx q) s) err) ∧
    (headPacket s ctx q = some (.ok (c, ws)) →
      (packetByte ws 0 = 1 → s.context? ctx = some x →
        (x.setdet ≠ [] → exec (.packetLaunch ctx q) s = .next s) ∧
        (x.setdet = [] → launchPacketBad ws = true → halts (exec (.packetLaunch ctx q) s) 2) ∧
        (x.setdet = [] → launchPacketBad ws = false → frontWords s ctx q (ws.getD 1 0) 8 = none → halts (exec (.packetLaunch ctx q) s) 4) ∧
        (x.setdet = [] → launchPacketBad ws = false → frontWords s ctx q (ws.getD 1 0) 8 = some d →
          (descriptorOk d = false → halts (exec (.packetLaunch ctx q) s) 2) ∧
          (descriptorOk d = true → listsError s ctx q (ws.getD 6 0) (packetByte ws 2) = some err → halts (exec (.packetLaunch ctx q) s) err) ∧
          (descriptorOk d = true → listsError s ctx q (ws.getD 6 0) (packetByte ws 2) = none →
            let a := launchOf ctx q x.level (frontDie s q) ws d
            (shapePossible s a = false → halts (exec (.packetLaunch ctx q) s) 3) ∧
            (shapePossible s a = true → ∃ u, exec (.packetLaunch ctx q) s = .next u ∧ advanced u ∧ u.launch? s.fresh = some a ∧ u.mem = s.mem ∧
              ∀ j, j ≠ s.fresh → u.launch? j = s.launch? j)))) ∧
      (packetByte ws 0 = 2 → c.state ≠ 2 →
        let ok := zeroBytes ws 1 8 && zeroBytes ws 24 64 && !badEvent (ws.getD 1 0)
        (ok = false → halts (exec (.packetWaitev ctx q) s) 2) ∧
        (ok = true → frontLoc s ctx q (ws.getD 1 0) .read = none → halts (exec (.packetWaitev ctx q) s) 4) ∧
        (ok = true → frontLoc s ctx q (ws.getD 1 0) .read = some l →
          ((ws.getD 2 0).toNat ≤ (s.readWord l.key).toNat → ∃ u, exec (.packetWaitev ctx q) s = .next u ∧ advanced u ∧ u.mem = s.mem) ∧
          ((s.readWord l.key).toNat < (ws.getD 2 0).toNat → ∃ u, exec (.packetWaitev ctx q) s = .next u ∧ queue? u ctx q = some { c with state := 2 } ∧
            u.eventWaits = s.eventWaits ++ [⟨ctx, q, l.key, ws.getD 2 0, []⟩] ∧ u.mem = s.mem))) ∧
      (packetByte ws 0 = 3 →
        let ok := zeroBytes ws 2 8 && zeroBytes ws 24 64 && !badEvent (ws.getD 1 0) && decide (packetByte ws 1 ≤ 1)
        (ok = false → halts (exec (.packetSignal ctx q) s) 2) ∧
        (ok = true → queueBusy s ctx q = true → waits (exec (.packetSignal ctx q) s) 3) ∧
        (ok = true → queueBusy s ctx q = false → frontLoc s ctx q (ws.getD 1 0) .write = none → halts (exec (.packetSignal ctx q) s) 4) ∧
        (ok = true → queueBusy s ctx q = false → frontLoc s ctx q (ws.getD 1 0) .write = some l → Memory.wf s.mem = true → waitingAt s l.place l.key = [] →
          ∃ u, exec (.packetSignal ctx q) s = .next u ∧ advanced u ∧
            u.readWord l.key = if packetByte ws 1 = 1 then s.readWord l.key + ws.getD 2 0 else ws.getD 2 0)) ∧
      (packetByte ws 0 = 4 →
        (zeroBytes ws 2 64 = false ∨ 2 < packetByte ws 1 → halts (exec (.packetSetdet ctx q) s) 2) ∧
        (zeroBytes ws 2 64 = true → packetByte ws 1 ≤ 2 →
          (contextBusy s ctx = true → waits (exec (.packetSetdet ctx q) s) 3) ∧
          (contextBusy s ctx = false → ∃ u, exec (.packetSetdet ctx q) s = .next u ∧ advanced u ∧ u.mem = s.mem ∧
            (u.context? ctx).map Context.level = some (BitVec.ofNat 2 (packetByte ws 1))))) ∧
      (packetByte ws 0 = 5 →
        (zeroBytes ws 1 64 = false → halts (exec (.packetQfence ctx q) s) 2) ∧
        (zeroBytes ws 1 64 = true → queueBusy s ctx q = true → waits (exec (.packetQfence ctx q) s) 3) ∧
        (zeroBytes ws 1 64 = true → queueBusy s ctx q = false → ∃ u, exec (.packetQfence ctx q) s = .next u ∧ advanced u ∧ u.mem = s.mem))) ∧
    (queue? s ctx q = some c → (s.eventWaits.find? fun y => decide (y.ctx = ctx) && y.queue == q) = some e → e.reports = v :: rest →
      (e.value.toNat ≤ v.toNat → ∃ u, exec (.waitevWriteReport ctx q) s = .next u ∧ advanced u ∧ u.eventWaits = s.eventWaits.erase e ∧ u.mem = s.mem) ∧
      (v.toNat < e.value.toNat → ∃ u, exec (.waitevWriteReport ctx q) s = .next u ∧ queue? u ctx q = some c ∧ u.mem = s.mem ∧
        (u.eventWaits.find? fun y => decide (y.ctx = ctx) && y.queue == q) = some { e with reports := rest })) ∧
    (queue? s ctx q = some c →
      (c.deviceFed = true → exec (.qtailWrite ctx q v) s = .next s) ∧
      (c.deviceFed = false → ((v.setWidth 32 : BitVec 32) - c.head).toNat ≤ c.slots → ∃ u, exec (.qtailWrite ctx q v) s = .next u ∧
        queue? u ctx q = some { c with tail := v.setWidth 32 } ∧ u.mem = s.mem) ∧
      (c.deviceFed = false → c.slots < ((v.setWidth 32 : BitVec 32) - c.head).toNat → halts (exec (.qtailWrite ctx q v) s) 5))

/-- R49, R182, R190-R192, R315, R318-R322, R405: the launch at the head of a die's list is placed where it fits, and each of its cores receives its work packets,
none on a member that no module number of the launch names; a lease that is granted clears the granules that another context held last, leaves the others, and
records its context; a lease that nothing keeps ends; a launch whose work is over retires and adds 1 to its event; the distributor answers a query with the next
coordinate of its list, or the end of work, at once or, where the schedule picks it (log entry 2), later and in any order. R159, R200, R317: a task of a lower
priority leaves its slot for a launch of its own context, which the slot then waits for (DEDUCED, log entry 64), with its registers, and returns later; a core whose context has nothing outstanding there is saved and
cleared but for what the hardware keeps, and a cleared core takes back what was saved. What the hardware keeps, and the two turns of the switch, are the model's choice (DEDUCED, log entry 51), and
so are the slots that a launch may count on (DEDUCED, log entry 29), the grain of placement (DEDUCED, log entry 50), that an answer of the distributor takes the
list entry as it then reads (DEDUCED, log entry 48), that a launch of a job of several members waits for links to all of them (DEDUCED, log entry 80), and that entries and messages which have come since join or
leave a restored core (DESIGN CHOICE, log entries 93, 105). -/
def Obligations.PlacementAndPreemption : Prop :=
  (∀ (s : State) (d : BitVec 2) (id : Nat) (l : Launch) (c : CoreId) (cs : List CoreId) (k : Loc) (w : WorkQuery) (rest : List WorkQuery) (ws : List Word)
      (n : BitVec 32) (r : WorkRun),
    let linked := l.logical ≠ [] ∨ ∀ j ∈ otherMembers s l.ctx, s.linked j = true
    let agreed := l.logical ≠ [] ∨ otherMembers s l.ctx = [] ∨ s.picks.headD 0 ≠ 1
    (headLaunch s d = some (id, l) → ¬linked → exec (.launchPlace d) s = .next s) ∧
    (headLaunch s d = some (id, l) → linked → ¬agreed →
      ∃ u, exec (.launchPlace d) s = .next u ∧ u.launch? id = none ∧ u.cores = s.cores ∧ u.mem = s.mem ∧
        queue? u l.ctx l.queue = (queue? s l.ctx l.queue).map fun y => { y with state := 4, error := 2 }) ∧
    (headLaunch s d = some (id, l) → linked → agreed → l.modules ≤ moduleNumber s l.ctx →
      ∃ u, exec (.launchPlace d) s = .next u ∧ u.launch? id = some { l with placed := true } ∧ u.cores = s.cores ∧ u.mem = s.mem) ∧
    (headLaunch s d = some (id, l) → linked → agreed → moduleNumber s l.ctx < l.modules →
      (placementOf s l (roomOn s l) = none → exec (.launchPlace d) s = .next s) ∧
      (placementOf s l (roomOn s l) = some cs → cs.Nodup → ∃ u a, exec (.launchPlace d) s = .next u ∧ u.launch? id = some a ∧
        a.logical = l.logical ++ cs ∧ a.granting = (if l.length = 0 then l.granting else l.granting ++ cs) ∧ a.leases = l.leases ∧
        (a.placed = true ↔ a.logical.length = l.cores * l.clusters * l.dies) ∧ u.mem = s.mem ∧ u.strands = s.strands ∧
        ∀ i (hi : i < cs.length), (u.core cs[i]).work = (s.core cs[i]).work ++ (List.range l.tasks).map (workSource s id l (l.logical.length + i)))) ∧
    (headLaunch s d = none → exec (.launchPlace d) s = .next s) ∧
    (s.launch? id = some l →
      (c ∉ l.granting → exec (.leaseGrant id c) s = .next s) ∧
      (c ∈ l.granting → Memory.wf s.mem = true →
        let lo := (coordAddr c l.origin).toNat
        ∃ u, exec (.leaseGrant id c) s = .next u ∧ u.launch? id = some { l with granting := dropAll c l.granting, leases := addOnce c l.leases } ∧
          (∀ j, lo / 64 ≤ j / 64 → j < lo + l.length →
            u.owner j = some l.ctx ∧ (s.owner j = some l.ctx → Memory.read u.mem j = Memory.read s.mem j ∧ u.isFull j = s.isFull j) ∧
            (s.owner j ≠ some l.ctx → Memory.read u.mem j = 0 ∧ u.isFull j = true ∧ u.isTagged j = false ∧
              ∀ e ∈ (u.place (.bank c)).seq, e.key / 64 ≠ j / 64)) ∧
          ∀ j, j / 64 < lo / 64 ∨ (lo + l.length + 63) / 64 ≤ j / 64 → Memory.read u.mem j = Memory.read s.mem j ∧ u.owner j = s.owner j) ∧
      ((c ∉ l.leases ∨ tasksOn s id c = true ∨ engineOn s l c = true) → exec (.leaseRelease id c) s = .next s) ∧
      (c ∈ l.leases → tasksOn s id c = false → engineOn s l c = false → waitersOn s l c = [] →
        ∃ u, exec (.leaseRelease id c) s = .next u ∧ u.launch? id = some { l with leases := dropAll c l.leases } ∧ u.mem = s.mem ∧ u.strands = s.strands) ∧
      ((l.placed = false ∨ l.retired = true ∨ launchTasks s id = true ∨ launchCommands s id = true) → exec (.launchRetire id) s = .next s) ∧
      (l.placed = true → l.retired = false → launchTasks s id = false → launchCommands s id = false →
        ∃ u, exec (.launchRetire id) s = .next u ∧ u.launch? id = some { l with retired := true } ∧
          (∀ b slot t, tensorIn u b slot = some t → t.launch ≠ id) ∧ (l.event = 0 → u.mem = s.mem) ∧
          (l.event ≠ 0 → frontLoc s l.ctx l.queue l.event .write = some k → Memory.wf s.mem = true → waitingAt s k.place k.key = [] →
            u.readWord k.key = s.readWord k.key + 1))) ∧
    ((s.die d).queries = w :: rest → s.launch? w.launch = some l → w.list < l.lists →
      frontWords s w.ctx l.queue (l.listTable + BitVec.ofNat 64 (32 * w.list)) 4 = some ws → s.leasedBy w.ctx (bankOfKey w.key) (w.key % 2 ^ 17) 8 = true →
      Memory.wf s.mem = true → waitingAt s (.bank (bankOfKey w.key)) w.key = [] →
      let answers := fun (v : Word) =>
        (s.picks.headD 0 = 0 → ∃ u, exec (.wdqAnswer d) s = .next u ∧ u.readWord w.key = v ∧ u.isFull w.key = true ∧ (u.die d).queries = rest ∧
          (u.die d).answers = (s.die d).answers ∧ (u.core w.core).wdqOpen = (s.core w.core).wdqOpen - 1) ∧
        (s.picks.headD 0 = 1 → ∃ u, exec (.wdqAnswer d) s = .next u ∧ (u.die d).queries = rest ∧ (u.die d).answers = (s.die d).answers ++ [(w, v)] ∧
          (u.core w.core).wdqOpen = (s.core w.core).wdqOpen)
      let value := fun (i : Nat) => ws.getD 0 0 + BitVec.ofNat 64 i * ws.getD 2 0
      (w.level ≠ 0 → w.index = some n →
        answers (if n.toNat + w.i * l.total < (ws.getD 1 0).toNat then value (n.toNat + w.i * l.total) else BitVec.allOnes 64)) ∧
      (w.level = 0 → runOf s d w.launch w.list = some r → answers (value r.next)) ∧
      (w.level = 0 → runOf s d w.launch w.list = none → (ws.getD 1 0).toNat ≤ (ws.getD 3 0).toNat → answers (BitVec.allOnes 64))) ∧
    (∀ i v, (s.die d).answers[i]? = some (w, v) → s.picks.headD 0 = i + 2 → s.leasedBy w.ctx (bankOfKey w.key) (w.key % 2 ^ 17) 8 = true →
      Memory.wf s.mem = true → waitingAt s (.bank (bankOfKey w.key)) w.key = [] →
      ∃ u, exec (.wdqAnswer d) s = .next u ∧ u.readWord w.key = v ∧ u.isFull w.key = true ∧ (u.die d).answers = (s.die d).answers.eraseIdx i ∧
        (u.die d).queries = (s.die d).queries ∧ (u.core w.core).wdqOpen = (s.core w.core).wdqOpen - 1) ∧
    ((s.die d).queries = [] → (s.die d).answers = [] → exec (.wdqAnswer d) s = .next s)) ∧
  (∀ (s : State) (id : Nat) (l : Launch) (h : Handle) (st : Strand) (rest : List (Handle × Strand)) (c : CoreId) (ctx : CtxId) (x : Context) (image : Core),
    ((h, st) ∈ victims s l → priorityOf s st.launch < l.priority ∧ st.level ≠ 2) ∧
    (s.launch? id = some l → headLaunch s (frontDie s l.queue) = some (id, l) → placementOf s l (roomSoon s l) = none →
      (placementOf s l fun c => if s.coreIn c then 15 else 0).isSome = true → victims s l = (h, st) :: rest → s.strand? h = some st →
      (∀ t, st.ctx ≠ l.ctx → beginLeave s st.core = some t → ∃ u, exec (.preempt id) s = .next u ∧ u.cores = t.cores ∧ u.mem = t.mem ∧
        u.launch? id = (t.launch? id).map fun y => { y with freed := y.freed ++ List.replicate 15 st.core }) ∧
      (st.ctx = l.ctx → st.pending = none → (∀ m ∈ (s.core st.core).vec.inFlight, m.h ≠ h) →
      ∃ u y, exec (.preempt id) s = .next u ∧ u.strand? h = some y ∧ y.status = .preempted ∧ y.vl = 0 ∧ y.r.pc = st.r.pc ∧ y.r.gpr = st.r.gpr ∧
        y.core = st.core ∧ h ∈ (u.core st.core).away ∧ u.launch? id = some { l with freed := l.freed ++ [st.core] } ∧ u.mem = s.mem)) ∧
    (s.launch? id = some l → (placementOf s l (roomSoon s l)).isSome = true → exec (.preempt id) s = .next s) ∧
    ((s.core c).regrant = false → (s.core c).leaving = false → (s.core c).ctx = some ctx → (s.core c).vec.inFlight = [] → (s.core c).vec.waiting = [] →
      (s.core c).mqueue = [] → (s.quad (quadOf c)).running = none →
      (tasksOf s c = [] → ∃ u, exec (.contextSwitchOut c) s = .next u ∧ u.core c = { s.core c with leaving := true } ∧ u.mem = s.mem) ∧
      (∀ p, tasksOf s c = [h] → s.strand? h = some st → st.status = .parked (.atPlace p) → st.reply? = none →
        ∃ u y, exec (.contextSwitchOut c) s = .next u ∧ (u.core c).leaving = true ∧ u.strand? h = some y ∧ y.status = .ready ∧ y.pending = none ∧
          y.r = st.r ∧ u.mem = s.mem)) ∧
    ((s.core c).leaving = true → (∀ y, strandReady s c y = false) ∧ bindable s c ctx = false ∧ (coreQuiet s c = false → exec (.contextSwitchOut c) s = .next s)) ∧
    ((s.core c).leaving = true → (s.core c).ctx = some ctx → coreQuiet s c = true → s.context? ctx = some x →
      ∃ u, exec (.contextSwitchOut c) s = .next u ∧ (u.core c).ctx = none ∧ (u.core c).leaving = false ∧ (u.core c).gens = (s.core c).gens ∧ (u.core c).work = (s.core c).work ∧
        (u.core c).copies = (s.core c).copies ∧ (u.core c).q = Vector.replicate 4 [] ∧
        (u.context? ctx).map Context.saved = some (x.saved ++ [⟨c, savedImage (s.core c) ctx⟩]) ∧ u.mem = s.mem) ∧
    ((s.core c).regrant = false → (s.core c).leaving = false → (s.core c).ctx = none → exec (.contextSwitchOut c) s = .next s) ∧
    ((s.core c).ctx = none → restoreHeld s c ctx = true → exec (.contextRestore c ctx) s = .next s) ∧
    ((s.core c).ctx = none → restoreHeld s c ctx = false → s.context? ctx = some x → (x.saved.find? fun k => decide (k.core = c)) = some ⟨c, image⟩ →
      image.vec.inFlight = [] → image.vec.waiting = [] → ∃ u, exec (.contextRestore c ctx) s = .next u ∧ u.core c = restoredCore image (s.core c) ∧
        (u.context? ctx).map Context.saved = some (x.saved.erase ⟨c, image⟩) ∧ u.mem = s.mem) ∧
    ((s.core c).ctx ≠ none → exec (.contextRestore c ctx) s = .next s))

/-! ### Events: halting, errors, boot, contexts, the fabric and the host -/

/-- R208-R210, R389-R393, R400: a crash write, a matched comparator and a network trigger halt a cluster, whose cores then issue nothing, and trigger the clusters
that listen; go resumes it. A retry that succeeds is counted and changes nothing else, unless the schedule says that an engine's
command has met the line, of which a copy is handed to the firmware (R205; DESIGN CHOICE, log entry 2); a lasting error poisons its line or takes its unit out of service;
a task of a lost core is bound again from its first record on another core, under its handle. -/
def Obligations.HaltAndErrorEvents : Prop :=
  ∀ (s : State) (c k : ClusterId) (cause : HaltCause) (core target : CoreId) (mover : Bool) (w : HwUnit) (site : ErrorSite) (line : Nat) (mac : Bool) (h : Handle)
      (st : Strand) (d : BitVec 2) (i : SliceId),
    let halts := fun (o : Out) => ∃ u, o = .next u ∧ (u.cluster c).dbg.halted = true ∧ u.cores = s.cores ∧ u.strands = s.strands ∧ u.mem = s.mem ∧
      ((s.cluster c).dbg.xout = true → k.die = c.die → k ≠ c → (s.cluster k).dbg.xin = true → HaltCause.network ∈ (u.cluster k).dbg.matched)
    let replays := fun (o : Out) (c : CoreId) => ∃ u y, o = .next u ∧ u.strand? h = some y ∧ y.core = c ∧ y.status = .ready ∧
      y.r = { boundRegs st.source with sflags := 0x20 } ∧ y.records = st.records ∧ y.replay = (if st.records = [] then none else some 0)
    (s.isOut (.debug c) = false → halts (exec (.dbgctlCrash c) s)) ∧ (s.isOut (.debug c) = true → exec (.dbgctlCrash c) s = .next s) ∧
    ((s.cluster c).dbg.halted = true → ∃ u, exec (.dbgctlGo c) s = .next u ∧ (u.cluster c).dbg.halted = false ∧ u.cores = s.cores ∧ u.strands = s.strands) ∧
    ((s.cluster c).dbg.halted = false → exec (.dbgctlGo c) s = .next s) ∧
    (s.isOut (.debug c) = false → cause ∈ (s.cluster c).dbg.matched → (s.cluster c).dbg.halted = false → halts (exec (.crashHalt c cause) s)) ∧
    (cause ∉ (s.cluster c).dbg.matched → exec (.crashHalt c cause) s = .next s) ∧
    ((s.cluster (clusterOf core)).dbg.halted = true → nextIssue s core mover = none) ∧
    ((∀ h w, site ≠ .parity h w) → (∀ k m, site ≠ .line k m) ∨ s.picks.headD 0 = 0 →
      exec (.errorRetry site .transient) s = .next { s with errors := s.errors + 1 }) ∧
    (∀ j u, s.picks = [j + 1] → (lineUsers { s with errors := s.errors + 1 } line)[j]? = some u →
      exec (.errorRetry (.line line mac) .transient) s = .next u ∧ u.mem = s.mem) ∧
    (∀ m f, activeCopy s core = some m → m.core = core → m.state = 1 → copyReady s m = true → moveWord (s.faulty line) m = .error (.poisoned f) →
      ∃ u ∈ lineUsers s line, { m with state := 2, firmware := true } ∈ (u.core core).copies) ∧
    (Table.find line s.poisoned = none → exec (.errorRetry (.line line mac) .lasting) s =
      .next { s with poisoned := Table.put line (if mac then 2 else 1) s.poisoned }) ∧
    (exec (.errorRetry (.arith h w) .lasting) s = exec (.unitOutOfService w) s ∧ exec (.errorRetry (.parity h w) .lasting) s = exec (.unitOutOfService w) s ∧
      exec (.errorRetry (.sram w) .lasting) s = exec (.unitOutOfService w) s ∧ exec (.errorRetry (.link w) .lasting) s = exec (.unitOutOfService w) s) ∧
    (s.strand? h = some st → st.frozen = none → st.unreplayable = false →
      (st.occupies = true → s.present st = true → replays (exec (.errorRetry (.parity h w) .transient) s) st.core) ∧
      (s.coreIn st.core = false → replayCore s st = some target → s.picks.headD 0 ≠ 1 → replays (exec (.taskReplay h) s) target) ∧
      (s.coreIn st.core = true → exec (.taskReplay h) s = .next s)) ∧
    (s.isOut w = true → exec (.unitOutOfService w) s = .next s) ∧
    (s.isOut (.ringLink d) = false → exec (.unitOutOfService (.ringLink d)) s = .next { s with out := s.out ++ [.ringLink d] }) ∧
    (s.isOut (.slice i) = false → ∃ u, exec (.unitOutOfService (.slice i)) s = .next u ∧ u.sliceIn i = false ∧ (∀ g ∈ u.grants, g.2.1 ≠ i) ∧ u.mem = s.mem) ∧
    (s.isOut (.debug c) = false → ∃ u, exec (.unitOutOfService (.debug c)) s = .next u ∧ u.isOut (.debug c) = true ∧ (u.cluster c).dbg.halted = false)

/-- R74, R94, R191, R287, R337, R380-R382, R388, R395-R397: the ROM runs an image that passes its checks, else waits for one that does; a report of 344 bytes carries its
fields at their offsets; the firmware creates a context, at most one as the system context, and loads its image into pages of module memory that are not open; a
released context leaves no task, translation, window, register or granule behind; a granted slice window is cleared where another context held it; a walk
fills the TLB, or the fault buffer. That the report's first bytes are a version of 4 bytes and 4 more is the model's choice (DESIGN CHOICE, log entry 19), and so
is that what NVMe holds at first is a free value (DESIGN CHOICE, log entry 12). So are the load address that a context request names, and that nothing changes
where its pages do not fit (DESIGN CHOICE, log entry 88), the function SHA-512 and the order of its bytes (PRESUMED, log entry 103), and a measurement over
the image bytes alone (DESIGN CHOICE, log entry 19). -/
def Obligations.BootAndContextEvents : Prop :=
  ∀ (s : State) (image : List Byte) (ctx : Option CtxId) (nonce : BitVec 256) (m : ContextImage) (x : Context) (c : ClusterId) (core : CoreId) (n : CtxId)
      (i : SliceId) (window : BitVec 4) (va pte : Word) (size level : Nat) (kind : AccessKind),
    let stored := if s.nvme.isSome then s.nvme else Config.storedImage
    let judges := fun (o : Out) (image : List Byte) (bad : State) =>
      if Config.imageSigned image = true ∧ Config.minimumVersion ≤ Config.imageVersion image then
        ∃ u, o = .next u ∧ u.boot = .running ∧ u.firmware = some image ∧ u.nvme = some image ∧ u.mem = s.mem
      else o = .next bad
    let base := (sliceAddr i (65536 * window.toNat)).toNat
    let a := va.toNat % 2 ^ 48
    (s.boot = .rom → match stored with
      | some x => judges (exec .resetBoot s) x { s with boot := .recovery }
      | none => exec .resetBoot s = .next { s with boot := .recovery }) ∧
    (s.boot ≠ .rom → exec .resetBoot s = .next s) ∧
    (s.boot = .recovery → judges (exec (.recoveryImage image) s) image s) ∧
    (s.boot ≠ .recovery → exec (.recoveryImage image) s = .next s) ∧
    (s.boot = .running → s.firmware = some image → (∀ y, ctx.bind s.context? = some y → y.measurement.length = 64) → ∃ r, exec (.attestationRequest ctx nonce) s = .next { s with reports := s.reports ++ [r] } ∧
      r.length = 344 ∧ r.take 4 = [1, 0, 0, 0] ∧ (r.drop 0x08).take 16 = leBytes 16 Config.serial.toNat ∧
      (r.drop 0x18).take 64 = sha512 image ∧ (r.drop 0x58).take 64 = sha512 (measuredConfig s) ∧
      (r.drop 0x98).take 64 = ((ctx.bind s.context?).map Context.measurement).getD (List.replicate 64 0) ∧ (r.drop 0xD8).take 32 = leBytes 32 nonce.toNat ∧
      r.drop 0x118 = leBytes 64 (Config.firmwareSign (r.take 0x118)).toNat) ∧
    (s.boot = .running → s.context? m.ctx = none → m.system = false ∨ s.systemContext = none →
      let s1 := { s.bump with contexts := Table.put m.ctx (newContext m s.fresh) s.contexts }
      let lo := m.loadAt
      (imageFits s1 lo m.image.length = false → exec (.contextCreate m) s = .next s) ∧
      (imageFits s1 lo m.image.length = true → Memory.wf s.mem = true → (∀ i, (s.place (.slice i)).station = []) →
      (∀ j, j < m.image.length → s.onModule (lo + j) = true) → ∃ u y, exec (.contextCreate m) s = .next u ∧ u.context? m.ctx = some y ∧ y.system = m.system ∧ y.level = 0 ∧ y.sndto = 0x00100000 ∧ y.traptab = m.traptab ∧
        y.flttab = m.flttab ∧ y.fltrec = m.fltrec ∧ y.qtab = m.qtab ∧ y.ptroot = m.ptroot ∧ y.rrspill = m.rrspill ∧ y.smpbuf = m.smpbuf ∧ y.queues = [] ∧
        y.measurement = sha512 m.image ∧ y.measurement.length = 64 ∧ (∀ j, j < lo ∨ lo + m.image.length ≤ j → Memory.read u.mem j = Memory.read s.mem j) ∧
        ∀ j (hj : j < m.image.length), Memory.read u.mem (lo + j) = m.image[j])) ∧
    (s.boot ≠ .running ∨ s.context? m.ctx ≠ none ∨ (m.system = true ∧ s.systemContext ≠ none) → exec (.contextCreate m) s = .next s) ∧
    (s.context? n = none → exec (.contextFinalRelease n) s = .next s) ∧
    (s.context? n = some x → ∃ u, exec (.contextFinalRelease n) s = .next u ∧ u.context? n = none ∧ (∀ h y, u.strand? h = some y → y.ctx ≠ n) ∧
      (∀ g ∈ u.grants, g.1 ≠ n) ∧ (∀ j, u.owner j ≠ some n) ∧ (∀ e ∈ (u.cluster c).tlb, e.ctx ≠ n) ∧ (∀ e ∈ (u.die c.die).tlb2, e.ctx ≠ n) ∧ (∀ e ∈ (u.cluster c).icache, e.ctx ≠ n) ∧
      ((s.core core).ctx = some n → (u.core core).ctx = none ∧ (u.core core).q = Vector.replicate 4 [] ∧ (u.core core).vec = VectorFile.reset) ∧
      (s.posted = [] → (∀ e ∈ s.cores, ∀ y ∈ e.2.vec.running, y.owed = []) → u.mem = s.mem)) ∧
    (s.sliceIn i = true → s.context? n = some x → (∀ g ∈ s.grants, g.2.1 = i → g.2.2 ≠ window) → Memory.wf s.mem = true →
      ∃ u, exec (.sliceWindowGrant n i window) s = .next u ∧ u.grants = s.grants ++ [(n, i, window)] ∧
        (∀ j, base ≤ j → j < base + 65536 → u.owner j = some n ∧ (s.owner j = some n → Memory.read u.mem j = Memory.read s.mem j) ∧
          (s.owner j ≠ some n → Memory.read u.mem j = 0 ∧ u.isFull j = true ∧ ∀ e ∈ (u.place (.slice i)).seq, e.key / 64 ≠ j / 64)) ∧
        ∀ j, j < base ∨ base + 65536 ≤ j → Memory.read u.mem j = Memory.read s.mem j) ∧
    (s.sliceIn i = false ∨ s.context? n = none ∨ (∃ g ∈ s.grants, g.2.1 = i ∧ g.2.2 = window) → exec (.sliceWindowGrant n i window) s = .next s) ∧
    (s.leafFor c n a = .leaf pte size → 0 < size → ∃ u e, exec (.pageWalk c n va kind) s = .next u ∧ e ∈ (u.cluster c).tlb ∧ e.ctx = n ∧ e.pte = pte ∧
      e.base ≤ a ∧ a < e.base + e.size ∧ u.mem = s.mem ∧ u.strands = s.strands) ∧
    (s.leafFor c n a = .absent level → s.context? n = some x → ((s.die c.die).unread.find? fun e => decide (e.ctx = n) && e.page == a / 65536) = none →
      ((s.die c.die).unread.length < 64 → ∃ u, exec (.pageWalk c n va kind) s = .next u ∧ (u.die c.die).fbtail = (s.die c.die).fbtail + 1 ∧
        (u.die c.die).fb = (s.die c.die).unread ++ [⟨(s.die c.die).fbtail.toNat, n, a / 65536, 1⟩]) ∧
      (64 ≤ (s.die c.die).unread.length → ∃ u, exec (.pageWalk c n va kind) s = .next u ∧ (u.die c.die).fbdropped = true ∧ u.mem = s.mem)) ∧
    (s.leafFor c n a = .malformed pte → exec (.pageWalk c n va kind) s = .next s)

/-- R309, R378, R383, R389, R399, R401-R408, R411, R412: jobs and windows; a link that comes up with an attested peer of its own firmware where each side admits
the other's debug flag, takes new keys after 2^32 flits in a direction, has a bad flit sent once more, and fails lastingly at a second one; a module is lost once the
first dimension in which it differs has no lane left here, or failures elsewhere cut it off (log entries 2, 80); another module's write to a window that is homed here is
performed at its slice (log entry 83); the host reads and writes open pages only, byte by byte (log entry 69), reads and moves tails, reads `qstat`, reaches the
firmware's mailbox, and reads and writes system registers where the debug path is enabled; a sampling pulse that is due writes each context's record, at the
offset that the ring holds, counted from its byte 64 (DESIGN CHOICE, log entry 16), and comes again after 2^n cycles. -/
def Obligations.FabricAndHostEvents : Prop :=
  ∀ (s : State) (ctx : CtxId) (members : List (BitVec 12)) (w : WindowBinding) (d : BitVec 2) (dir : FabricDir) (lane : BitVec 2) (b1 b2 : Bool) (pa n : Nat)
      (b : Byte) (bytes : List Byte) (q : BitVec 4) (v : Word) (r : DebugRequest) (x : Context) (off : Nat) (y : CmdQueue) (m : BitVec 12) (z : Foreign) (dt : Nat) (picks : List Nat)
      (rest : List Turn),
    let k : Lane := (d, dir, lane)
    (s.context? ctx = some x → s.position ∈ members → ∃ u l, exec (.jobJoin ctx members) s = .next u ∧ Table.find ctx u.jobs = some l ∧
      (∀ p, p ∈ l ↔ p ∈ members) ∧ l.Pairwise (fun x y => x.toNat < y.toNat)) ∧
    (s.context? ctx = none ∨ s.position ∉ members → exec (.jobJoin ctx members) s = .next s) ∧
    ((w.ctx, w.slice, w.window) ∈ s.grants → w.home ∈ Table.get [] w.ctx s.jobs → w.collective = none →
      (∀ y ∈ s.windows, y.bind.ctx = w.ctx → y.bind.slice = w.slice → y.bind.window ≠ w.window) →
      exec (.windowBind w) s = .next { s with windows := s.windows ++ [⟨w, [], []⟩] }) ∧
    ((w.ctx, w.slice, w.window) ∉ s.grants ∨ w.home ∉ Table.get [] w.ctx s.jobs → exec (.windowBind w) s = .next s) ∧
    (lane.toNat < 3 → (s.link k).up = false → (s.link k).failed = false → s.boot = .running →
      (b1 = true → b2 = Config.debugEnabled → ∃ u, exec (.linkUp d dir lane b1 b2) s = .next u ∧
        u.link k = { s.link k with up := true, flits := 0, sent := 0, keys := (s.link k).keys + 1 }) ∧
      (b1 = false ∨ b2 ≠ Config.debugEnabled → ∃ u, exec (.linkUp d dir lane b1 b2) s = .next u ∧ (u.link k).up = false ∧
        (u.link k).failed = true)) ∧
    ((s.link k).up = true →
      ((s.link k).flits < 2 ^ 32 →
        (∃ u, exec (.flitReceive d dir lane true) s = .next u ∧ u.link k = { s.link k with flits := (s.link k).flits + 1, retrying := false } ∧
          u.errors = s.errors + if (s.link k).retrying then 1 else 0) ∧
        ((s.link k).retrying = false → ∃ u, exec (.flitReceive d dir lane false) s = .next u ∧ u.link k = { s.link k with retrying := true } ∧
          u.errors = s.errors) ∧
        ((s.link k).retrying = true → ∃ u, exec (.flitReceive d dir lane false) s = .next u ∧ (u.link k).failed = true ∧ (u.link k).up = false)) ∧
      ((s.link k).flits < 2 ^ 32 → (s.link k).sent < 2 ^ 32 → exec (.linkRekey d dir lane) s = .next s) ∧
      (2 ^ 32 ≤ (s.link k).flits → ∀ b, exec (.flitReceive d dir lane b) s = .next s) ∧
      (2 ^ 32 ≤ (s.link k).flits ∨ 2 ^ 32 ≤ (s.link k).sent →
        ∃ u, exec (.linkRekey d dir lane) s = .next u ∧ u.link k = { s.link k with flits := 0, sent := 0, keys := (s.link k).keys + 1 })) ∧
    (lane.toNat < 3 → (s.link k).failed = false → ∃ u, exec (.laneFail d dir lane) s = .next u ∧ (u.link k).failed = true ∧ (u.link k).up = false ∧
      (u.dirLeft dir = true ↔ ∃ e i, i < 3 ∧ ¬(e = d ∧ BitVec.ofNat 2 i = lane) ∧ s.laneLeft (e, dir, BitVec.ofNat 2 i) = true) ∧
      ∀ dim, dim < 3 → (∀ e, e < dim → coordOf m e = coordOf s.position e) → coordOf m dim ≠ coordOf s.position dim → u.dirLeft (dirsOf dim).1 = false → u.dirLeft (dirsOf dim).2 = false → u.lost m = true) ∧
    (s.reissue = [] → s.agenda = ⟨.cut m, dt, picks⟩ :: rest → m ≠ s.position → ∃ u, step s = .next u ∧ u.lost m = true ∧ u.mem = s.mem) ∧
    (let key := (s.sliceLoc z.ctx (sliceAddr z.slice z.off) z.slice z.off).key
     ∀ w t, s.reissue = [] → s.agenda = ⟨.foreign z, dt, picks⟩ :: rest → foreignOk s z = true → s.windowHome z.ctx z.slice z.off = some s.position → z.act = .write n w t →
      Memory.wf s.mem = true → waitingAt s (.slice z.slice) key = [] →
      ∃ u, step s = .next u ∧ Memory.readN u.mem key n = w % 256 ^ n ∧ (t = true → u.isFull key = true) ∧
        ∀ j, j < key ∨ key + n ≤ j → Memory.read u.mem j = Memory.read s.mem j) ∧
    (s.boot = .running →
      (∃ l, exec (.hostBarAccess (.read pa n)) s = .next { s with reads := s.reads ++ [l] } ∧ l.length = n ∧
        ∀ j (hj : j < l.length), l[j] = if hostReach s (pa + j) then Memory.read s.mem (pa + j) else 0xFF) ∧
      ((∀ j, hostReach s j = false) → exec (.hostBarAccess (.write pa bytes)) s = .next s) ∧
      (hostReach s pa = true → Memory.wf s.mem = true → waitingAt s (.slice (s.homeOf pa)) pa = [] →
        ∃ u, exec (.hostBarAccess (.write pa [b])) s = .next u ∧ Memory.read u.mem pa = b ∧ ∀ j, j ≠ pa → Memory.read u.mem j = Memory.read s.mem j) ∧
      exec (.hostBarAccess (.qtail ctx q v)) s = exec (.qtailWrite ctx q v) s ∧
      (queue? s ctx q = some y →
        let state := if y.state = 0 ∧ y.enabled = true ∧ y.head ≠ y.tail then 1 else y.state.toNat
        exec (.hostBarAccess (.notice ctx (BitVec.ofNat 12 (8 * q.toNat)))) s = .next { s.bump with reads := s.reads ++ [leBytes 8 y.tail.toNat] } ∧
        exec (.hostBarAccess (.notice ctx (BitVec.ofNat 12 (0x80 + 8 * q.toNat)))) s =
          .next { s.bump with reads := s.reads ++ [leBytes 8 (y.head.toNat + state * 2 ^ 32 + y.error.toNat * 2 ^ 40)] }) ∧
      (∃ u l, exec (.hostBarAccess (.mailbox bytes)) s = .next u ∧ u.reads = s.reads ++ [l] ∧ u.mem = s.mem)) ∧
    (s.boot ≠ .running → exec (.hostDebugRequest r) s = .next s) ∧
    (s.boot = .running → r.write = false → r.number.toNat ≠ 0x27 → ∀ v, readSystem s (coreOf r.cluster 0) (s.systemContext.getD 0) r.number.toNat = some v →
      exec (.hostDebugRequest r) s = .next (if Config.debugEnabled = true then { s.bump with debugReads := s.debugReads ++ [v] } else s)) ∧
    (s.boot = .running → r.write = true → r.number.toNat = 0x10 → ∃ u, exec (.hostDebugRequest r) s = .next u ∧
      if Config.debugEnabled = true then (u.core (coreOf r.cluster 0)).dqspill = r.value else u = s) ∧
    (s.smpctl.getLsbD 8 = false ∨ s.cycle < s.pulseDue → exec .samplingPulse s = .next s) ∧
    (s.smpctl.getLsbD 8 = true → s.pulseDue ≤ s.cycle →
      (∃ u, exec .samplingPulse s = .next u ∧ u.pulses = s.pulses + 1 ∧ u.pulseDue = s.pulseDue + 2 ^ (s.smpctl.toNat % 32)) ∧
      (s.diesIn = [d] → s.contexts = [(ctx, x)] → x.smpbuf ≠ 0 →
        let ring := x.smpbuf &&& 0xFFFFFFFFFFFFF000
        s.deviceRead ⟨d, 0, 0⟩ ctx ring 8 = some off → 64 + off + 8 * (sampleRecord s d ctx).length ≤ (x.smpbuf.toNat % 4096 + 1) * 4096 →
        ∃ u, exec .samplingPulse s = .next u ∧ u.mem = ((s.bump.deviceWriteWords ⟨d, 0, 0⟩ ctx (ring + 64 + BitVec.ofNat 64 off)
          (sampleRecord s d ctx)).deviceWrite ⟨d, 0, 0⟩ ctx ring 8 (off + 8 * (sampleRecord s d ctx).length)).mem))
end

