-- ==== Sys2Proof/Laws/State.lean ====
section
/-! SUPPORT. Beside State: what each of its updates leaves of every field, and what it leaves of the tables that it does not write. -/

namespace Sys2Proof.Machine

/-! ### One update written through another -/

@[simp] theorem State.modCore_eq (s : State) (c : CoreId) (f : Core → Core) : s.modCore c f = s.setCore c (f (s.core c)) := rfl
@[simp] theorem State.modVec_eq (s : State) (c : CoreId) (f : VectorFile → VectorFile) :
    s.modVec c f = s.setCore c { s.core c with vec := f (s.core c).vec } := rfl
@[simp] theorem State.charge_eq (s : State) (ctx : CtxId) (k : Fin 8) (n : Nat) :
    s.charge ctx k n = s.modContext ctx fun x => x.charge s.cycle (n * s.ewt[k].toNat) := rfl

/-! ### setStrand -/

@[simp] theorem State.cores_setStrand (s : State) (h : Handle) (x : Strand) : (s.setStrand h x).cores = s.cores := rfl
@[simp] theorem State.clusters_setStrand (s : State) (h : Handle) (x : Strand) : (s.setStrand h x).clusters = s.clusters := rfl
@[simp] theorem State.dies_setStrand (s : State) (h : Handle) (x : Strand) : (s.setStrand h x).dies = s.dies := rfl
@[simp] theorem State.places_setStrand (s : State) (h : Handle) (x : Strand) : (s.setStrand h x).places = s.places := rfl
@[simp] theorem State.hist_setStrand (s : State) (h : Handle) (x : Strand) : (s.setStrand h x).hist = s.hist := rfl
@[simp] theorem State.contexts_setStrand (s : State) (h : Handle) (x : Strand) : (s.setStrand h x).contexts = s.contexts := rfl
@[simp] theorem State.launches_setStrand (s : State) (h : Handle) (x : Strand) : (s.setStrand h x).launches = s.launches := rfl
@[simp] theorem State.mem_setStrand (s : State) (h : Handle) (x : Strand) : (s.setStrand h x).mem = s.mem := rfl
@[simp] theorem State.empties_setStrand (s : State) (h : Handle) (x : Strand) : (s.setStrand h x).empties = s.empties := rfl
@[simp] theorem State.tags_setStrand (s : State) (h : Handle) (x : Strand) : (s.setStrand h x).tags = s.tags := rfl
@[simp] theorem State.owners_setStrand (s : State) (h : Handle) (x : Strand) : (s.setStrand h x).owners = s.owners := rfl
@[simp] theorem State.poisoned_setStrand (s : State) (h : Handle) (x : Strand) : (s.setStrand h x).poisoned = s.poisoned := rfl
@[simp] theorem State.cxlDirty_setStrand (s : State) (h : Handle) (x : Strand) : (s.setStrand h x).cxlDirty = s.cxlDirty := rfl
@[simp] theorem State.grants_setStrand (s : State) (h : Handle) (x : Strand) : (s.setStrand h x).grants = s.grants := rfl
@[simp] theorem State.offers_setStrand (s : State) (h : Handle) (x : Strand) : (s.setStrand h x).offers = s.offers := rfl
@[simp] theorem State.posted_setStrand (s : State) (h : Handle) (x : Strand) : (s.setStrand h x).posted = s.posted := rfl
@[simp] theorem State.eventWaits_setStrand (s : State) (h : Handle) (x : Strand) : (s.setStrand h x).eventWaits = s.eventWaits := rfl
@[simp] theorem State.xlate_setStrand (s : State) (h : Handle) (x : Strand) : (s.setStrand h x).xlate = s.xlate := rfl
@[simp] theorem State.reissue_setStrand (s : State) (h : Handle) (x : Strand) : (s.setStrand h x).reissue = s.reissue := rfl
@[simp] theorem State.diemap_setStrand (s : State) (h : Handle) (x : Strand) : (s.setStrand h x).diemap = s.diemap := rfl
@[simp] theorem State.memsize_setStrand (s : State) (h : Handle) (x : Strand) : (s.setStrand h x).memsize = s.memsize := rfl
@[simp] theorem State.ewt_setStrand (s : State) (h : Handle) (x : Strand) : (s.setStrand h x).ewt = s.ewt := rfl
@[simp] theorem State.smpctl_setStrand (s : State) (h : Handle) (x : Strand) : (s.setStrand h x).smpctl = s.smpctl := rfl
@[simp] theorem State.pulses_setStrand (s : State) (h : Handle) (x : Strand) : (s.setStrand h x).pulses = s.pulses := rfl
@[simp] theorem State.pulseDue_setStrand (s : State) (h : Handle) (x : Strand) : (s.setStrand h x).pulseDue = s.pulseDue := rfl
@[simp] theorem State.out_setStrand (s : State) (h : Handle) (x : Strand) : (s.setStrand h x).out = s.out := rfl
@[simp] theorem State.heirs_setStrand (s : State) (h : Handle) (x : Strand) : (s.setStrand h x).heirs = s.heirs := rfl
@[simp] theorem State.errors_setStrand (s : State) (h : Handle) (x : Strand) : (s.setStrand h x).errors = s.errors := rfl
@[simp] theorem State.boot_setStrand (s : State) (h : Handle) (x : Strand) : (s.setStrand h x).boot = s.boot := rfl
@[simp] theorem State.nvme_setStrand (s : State) (h : Handle) (x : Strand) : (s.setStrand h x).nvme = s.nvme := rfl
@[simp] theorem State.firmware_setStrand (s : State) (h : Handle) (x : Strand) : (s.setStrand h x).firmware = s.firmware := rfl
@[simp] theorem State.reports_setStrand (s : State) (h : Handle) (x : Strand) : (s.setStrand h x).reports = s.reports := rfl
@[simp] theorem State.reads_setStrand (s : State) (h : Handle) (x : Strand) : (s.setStrand h x).reads = s.reads := rfl
@[simp] theorem State.debugReads_setStrand (s : State) (h : Handle) (x : Strand) : (s.setStrand h x).debugReads = s.debugReads := rfl
@[simp] theorem State.position_setStrand (s : State) (h : Handle) (x : Strand) : (s.setStrand h x).position = s.position := rfl
@[simp] theorem State.jobs_setStrand (s : State) (h : Handle) (x : Strand) : (s.setStrand h x).jobs = s.jobs := rfl
@[simp] theorem State.windows_setStrand (s : State) (h : Handle) (x : Strand) : (s.setStrand h x).windows = s.windows := rfl
@[simp] theorem State.links_setStrand (s : State) (h : Handle) (x : Strand) : (s.setStrand h x).links = s.links := rfl
@[simp] theorem State.unreachable_setStrand (s : State) (h : Handle) (x : Strand) : (s.setStrand h x).unreachable = s.unreachable := rfl
@[simp] theorem State.cycle_setStrand (s : State) (h : Handle) (x : Strand) : (s.setStrand h x).cycle = s.cycle := rfl
@[simp] theorem State.agenda_setStrand (s : State) (h : Handle) (x : Strand) : (s.setStrand h x).agenda = s.agenda := rfl
@[simp] theorem State.turn_setStrand (s : State) (h : Handle) (x : Strand) : (s.setStrand h x).turn = s.turn := rfl
@[simp] theorem State.picks_setStrand (s : State) (h : Handle) (x : Strand) : (s.setStrand h x).picks = s.picks := rfl
@[simp] theorem State.cur_setStrand (s : State) (h : Handle) (x : Strand) : (s.setStrand h x).cur = s.cur := rfl
@[simp] theorem State.latch_setStrand (s : State) (h : Handle) (x : Strand) : (s.setStrand h x).latch = s.latch := rfl
@[simp] theorem State.fresh_setStrand (s : State) (h : Handle) (x : Strand) : (s.setStrand h x).fresh = s.fresh := rfl

/-! ### dropStrand -/

@[simp] theorem State.cores_dropStrand (s : State) (h : Handle) : (s.dropStrand h).cores = s.cores := rfl
@[simp] theorem State.clusters_dropStrand (s : State) (h : Handle) : (s.dropStrand h).clusters = s.clusters := rfl
@[simp] theorem State.dies_dropStrand (s : State) (h : Handle) : (s.dropStrand h).dies = s.dies := rfl
@[simp] theorem State.places_dropStrand (s : State) (h : Handle) : (s.dropStrand h).places = s.places := rfl
@[simp] theorem State.hist_dropStrand (s : State) (h : Handle) : (s.dropStrand h).hist = s.hist := rfl
@[simp] theorem State.contexts_dropStrand (s : State) (h : Handle) : (s.dropStrand h).contexts = s.contexts := rfl
@[simp] theorem State.launches_dropStrand (s : State) (h : Handle) : (s.dropStrand h).launches = s.launches := rfl
@[simp] theorem State.mem_dropStrand (s : State) (h : Handle) : (s.dropStrand h).mem = s.mem := rfl
@[simp] theorem State.empties_dropStrand (s : State) (h : Handle) : (s.dropStrand h).empties = s.empties := rfl
@[simp] theorem State.tags_dropStrand (s : State) (h : Handle) : (s.dropStrand h).tags = s.tags := rfl
@[simp] theorem State.owners_dropStrand (s : State) (h : Handle) : (s.dropStrand h).owners = s.owners := rfl
@[simp] theorem State.poisoned_dropStrand (s : State) (h : Handle) : (s.dropStrand h).poisoned = s.poisoned := rfl
@[simp] theorem State.cxlDirty_dropStrand (s : State) (h : Handle) : (s.dropStrand h).cxlDirty = s.cxlDirty := rfl
@[simp] theorem State.grants_dropStrand (s : State) (h : Handle) : (s.dropStrand h).grants = s.grants := rfl
@[simp] theorem State.offers_dropStrand (s : State) (h : Handle) : (s.dropStrand h).offers = s.offers := rfl
@[simp] theorem State.posted_dropStrand (s : State) (h : Handle) : (s.dropStrand h).posted = s.posted := rfl
@[simp] theorem State.eventWaits_dropStrand (s : State) (h : Handle) : (s.dropStrand h).eventWaits = s.eventWaits := rfl
@[simp] theorem State.xlate_dropStrand (s : State) (h : Handle) : (s.dropStrand h).xlate = s.xlate := rfl
@[simp] theorem State.reissue_dropStrand (s : State) (h : Handle) : (s.dropStrand h).reissue = s.reissue := rfl
@[simp] theorem State.diemap_dropStrand (s : State) (h : Handle) : (s.dropStrand h).diemap = s.diemap := rfl
@[simp] theorem State.memsize_dropStrand (s : State) (h : Handle) : (s.dropStrand h).memsize = s.memsize := rfl
@[simp] theorem State.ewt_dropStrand (s : State) (h : Handle) : (s.dropStrand h).ewt = s.ewt := rfl
@[simp] theorem State.smpctl_dropStrand (s : State) (h : Handle) : (s.dropStrand h).smpctl = s.smpctl := rfl
@[simp] theorem State.pulses_dropStrand (s : State) (h : Handle) : (s.dropStrand h).pulses = s.pulses := rfl
@[simp] theorem State.pulseDue_dropStrand (s : State) (h : Handle) : (s.dropStrand h).pulseDue = s.pulseDue := rfl
@[simp] theorem State.out_dropStrand (s : State) (h : Handle) : (s.dropStrand h).out = s.out := rfl
@[simp] theorem State.heirs_dropStrand (s : State) (h : Handle) : (s.dropStrand h).heirs = s.heirs := rfl
@[simp] theorem State.errors_dropStrand (s : State) (h : Handle) : (s.dropStrand h).errors = s.errors := rfl
@[simp] theorem State.boot_dropStrand (s : State) (h : Handle) : (s.dropStrand h).boot = s.boot := rfl
@[simp] theorem State.nvme_dropStrand (s : State) (h : Handle) : (s.dropStrand h).nvme = s.nvme := rfl
@[simp] theorem State.firmware_dropStrand (s : State) (h : Handle) : (s.dropStrand h).firmware = s.firmware := rfl
@[simp] theorem State.reports_dropStrand (s : State) (h : Handle) : (s.dropStrand h).reports = s.reports := rfl
@[simp] theorem State.reads_dropStrand (s : State) (h : Handle) : (s.dropStrand h).reads = s.reads := rfl
@[simp] theorem State.debugReads_dropStrand (s : State) (h : Handle) : (s.dropStrand h).debugReads = s.debugReads := rfl
@[simp] theorem State.position_dropStrand (s : State) (h : Handle) : (s.dropStrand h).position = s.position := rfl
@[simp] theorem State.jobs_dropStrand (s : State) (h : Handle) : (s.dropStrand h).jobs = s.jobs := rfl
@[simp] theorem State.windows_dropStrand (s : State) (h : Handle) : (s.dropStrand h).windows = s.windows := rfl
@[simp] theorem State.links_dropStrand (s : State) (h : Handle) : (s.dropStrand h).links = s.links := rfl
@[simp] theorem State.unreachable_dropStrand (s : State) (h : Handle) : (s.dropStrand h).unreachable = s.unreachable := rfl
@[simp] theorem State.cycle_dropStrand (s : State) (h : Handle) : (s.dropStrand h).cycle = s.cycle := rfl
@[simp] theorem State.agenda_dropStrand (s : State) (h : Handle) : (s.dropStrand h).agenda = s.agenda := rfl
@[simp] theorem State.turn_dropStrand (s : State) (h : Handle) : (s.dropStrand h).turn = s.turn := rfl
@[simp] theorem State.picks_dropStrand (s : State) (h : Handle) : (s.dropStrand h).picks = s.picks := rfl
@[simp] theorem State.cur_dropStrand (s : State) (h : Handle) : (s.dropStrand h).cur = s.cur := rfl
@[simp] theorem State.latch_dropStrand (s : State) (h : Handle) : (s.dropStrand h).latch = s.latch := rfl
@[simp] theorem State.fresh_dropStrand (s : State) (h : Handle) : (s.dropStrand h).fresh = s.fresh := rfl

/-! ### setCore -/

@[simp] theorem State.strands_setCore (s : State) (c : CoreId) (x : Core) : (s.setCore c x).strands = s.strands := rfl
@[simp] theorem State.clusters_setCore (s : State) (c : CoreId) (x : Core) : (s.setCore c x).clusters = s.clusters := rfl
@[simp] theorem State.dies_setCore (s : State) (c : CoreId) (x : Core) : (s.setCore c x).dies = s.dies := rfl
@[simp] theorem State.places_setCore (s : State) (c : CoreId) (x : Core) : (s.setCore c x).places = s.places := rfl
@[simp] theorem State.hist_setCore (s : State) (c : CoreId) (x : Core) : (s.setCore c x).hist = s.hist := rfl
@[simp] theorem State.contexts_setCore (s : State) (c : CoreId) (x : Core) : (s.setCore c x).contexts = s.contexts := rfl
@[simp] theorem State.launches_setCore (s : State) (c : CoreId) (x : Core) : (s.setCore c x).launches = s.launches := rfl
@[simp] theorem State.mem_setCore (s : State) (c : CoreId) (x : Core) : (s.setCore c x).mem = s.mem := rfl
@[simp] theorem State.empties_setCore (s : State) (c : CoreId) (x : Core) : (s.setCore c x).empties = s.empties := rfl
@[simp] theorem State.tags_setCore (s : State) (c : CoreId) (x : Core) : (s.setCore c x).tags = s.tags := rfl
@[simp] theorem State.owners_setCore (s : State) (c : CoreId) (x : Core) : (s.setCore c x).owners = s.owners := rfl
@[simp] theorem State.poisoned_setCore (s : State) (c : CoreId) (x : Core) : (s.setCore c x).poisoned = s.poisoned := rfl
@[simp] theorem State.cxlDirty_setCore (s : State) (c : CoreId) (x : Core) : (s.setCore c x).cxlDirty = s.cxlDirty := rfl
@[simp] theorem State.grants_setCore (s : State) (c : CoreId) (x : Core) : (s.setCore c x).grants = s.grants := rfl
@[simp] theorem State.offers_setCore (s : State) (c : CoreId) (x : Core) : (s.setCore c x).offers = s.offers := rfl
@[simp] theorem State.posted_setCore (s : State) (c : CoreId) (x : Core) : (s.setCore c x).posted = s.posted := rfl
@[simp] theorem State.eventWaits_setCore (s : State) (c : CoreId) (x : Core) : (s.setCore c x).eventWaits = s.eventWaits := rfl
@[simp] theorem State.xlate_setCore (s : State) (c : CoreId) (x : Core) : (s.setCore c x).xlate = s.xlate := rfl
@[simp] theorem State.reissue_setCore (s : State) (c : CoreId) (x : Core) : (s.setCore c x).reissue = s.reissue := rfl
@[simp] theorem State.diemap_setCore (s : State) (c : CoreId) (x : Core) : (s.setCore c x).diemap = s.diemap := rfl
@[simp] theorem State.memsize_setCore (s : State) (c : CoreId) (x : Core) : (s.setCore c x).memsize = s.memsize := rfl
@[simp] theorem State.ewt_setCore (s : State) (c : CoreId) (x : Core) : (s.setCore c x).ewt = s.ewt := rfl
@[simp] theorem State.smpctl_setCore (s : State) (c : CoreId) (x : Core) : (s.setCore c x).smpctl = s.smpctl := rfl
@[simp] theorem State.pulses_setCore (s : State) (c : CoreId) (x : Core) : (s.setCore c x).pulses = s.pulses := rfl
@[simp] theorem State.pulseDue_setCore (s : State) (c : CoreId) (x : Core) : (s.setCore c x).pulseDue = s.pulseDue := rfl
@[simp] theorem State.out_setCore (s : State) (c : CoreId) (x : Core) : (s.setCore c x).out = s.out := rfl
@[simp] theorem State.heirs_setCore (s : State) (c : CoreId) (x : Core) : (s.setCore c x).heirs = s.heirs := rfl
@[simp] theorem State.errors_setCore (s : State) (c : CoreId) (x : Core) : (s.setCore c x).errors = s.errors := rfl
@[simp] theorem State.boot_setCore (s : State) (c : CoreId) (x : Core) : (s.setCore c x).boot = s.boot := rfl
@[simp] theorem State.nvme_setCore (s : State) (c : CoreId) (x : Core) : (s.setCore c x).nvme = s.nvme := rfl
@[simp] theorem State.firmware_setCore (s : State) (c : CoreId) (x : Core) : (s.setCore c x).firmware = s.firmware := rfl
@[simp] theorem State.reports_setCore (s : State) (c : CoreId) (x : Core) : (s.setCore c x).reports = s.reports := rfl
@[simp] theorem State.reads_setCore (s : State) (c : CoreId) (x : Core) : (s.setCore c x).reads = s.reads := rfl
@[simp] theorem State.debugReads_setCore (s : State) (c : CoreId) (x : Core) : (s.setCore c x).debugReads = s.debugReads := rfl
@[simp] theorem State.position_setCore (s : State) (c : CoreId) (x : Core) : (s.setCore c x).position = s.position := rfl
@[simp] theorem State.jobs_setCore (s : State) (c : CoreId) (x : Core) : (s.setCore c x).jobs = s.jobs := rfl
@[simp] theorem State.windows_setCore (s : State) (c : CoreId) (x : Core) : (s.setCore c x).windows = s.windows := rfl
@[simp] theorem State.links_setCore (s : State) (c : CoreId) (x : Core) : (s.setCore c x).links = s.links := rfl
@[simp] theorem State.unreachable_setCore (s : State) (c : CoreId) (x : Core) : (s.setCore c x).unreachable = s.unreachable := rfl
@[simp] theorem State.cycle_setCore (s : State) (c : CoreId) (x : Core) : (s.setCore c x).cycle = s.cycle := rfl
@[simp] theorem State.agenda_setCore (s : State) (c : CoreId) (x : Core) : (s.setCore c x).agenda = s.agenda := rfl
@[simp] theorem State.turn_setCore (s : State) (c : CoreId) (x : Core) : (s.setCore c x).turn = s.turn := rfl
@[simp] theorem State.picks_setCore (s : State) (c : CoreId) (x : Core) : (s.setCore c x).picks = s.picks := rfl
@[simp] theorem State.cur_setCore (s : State) (c : CoreId) (x : Core) : (s.setCore c x).cur = s.cur := rfl
@[simp] theorem State.latch_setCore (s : State) (c : CoreId) (x : Core) : (s.setCore c x).latch = s.latch := rfl
@[simp] theorem State.fresh_setCore (s : State) (c : CoreId) (x : Core) : (s.setCore c x).fresh = s.fresh := rfl

/-! ### modCluster -/

@[simp] theorem State.strands_modCluster (s : State) (c : ClusterId) (f : Cluster → Cluster) : (s.modCluster c f).strands = s.strands := rfl
@[simp] theorem State.cores_modCluster (s : State) (c : ClusterId) (f : Cluster → Cluster) : (s.modCluster c f).cores = s.cores := rfl
@[simp] theorem State.dies_modCluster (s : State) (c : ClusterId) (f : Cluster → Cluster) : (s.modCluster c f).dies = s.dies := rfl
@[simp] theorem State.places_modCluster (s : State) (c : ClusterId) (f : Cluster → Cluster) : (s.modCluster c f).places = s.places := rfl
@[simp] theorem State.hist_modCluster (s : State) (c : ClusterId) (f : Cluster → Cluster) : (s.modCluster c f).hist = s.hist := rfl
@[simp] theorem State.contexts_modCluster (s : State) (c : ClusterId) (f : Cluster → Cluster) : (s.modCluster c f).contexts = s.contexts := rfl
@[simp] theorem State.launches_modCluster (s : State) (c : ClusterId) (f : Cluster → Cluster) : (s.modCluster c f).launches = s.launches := rfl
@[simp] theorem State.mem_modCluster (s : State) (c : ClusterId) (f : Cluster → Cluster) : (s.modCluster c f).mem = s.mem := rfl
@[simp] theorem State.empties_modCluster (s : State) (c : ClusterId) (f : Cluster → Cluster) : (s.modCluster c f).empties = s.empties := rfl
@[simp] theorem State.tags_modCluster (s : State) (c : ClusterId) (f : Cluster → Cluster) : (s.modCluster c f).tags = s.tags := rfl
@[simp] theorem State.owners_modCluster (s : State) (c : ClusterId) (f : Cluster → Cluster) : (s.modCluster c f).owners = s.owners := rfl
@[simp] theorem State.poisoned_modCluster (s : State) (c : ClusterId) (f : Cluster → Cluster) : (s.modCluster c f).poisoned = s.poisoned := rfl
@[simp] theorem State.cxlDirty_modCluster (s : State) (c : ClusterId) (f : Cluster → Cluster) : (s.modCluster c f).cxlDirty = s.cxlDirty := rfl
@[simp] theorem State.grants_modCluster (s : State) (c : ClusterId) (f : Cluster → Cluster) : (s.modCluster c f).grants = s.grants := rfl
@[simp] theorem State.offers_modCluster (s : State) (c : ClusterId) (f : Cluster → Cluster) : (s.modCluster c f).offers = s.offers := rfl
@[simp] theorem State.posted_modCluster (s : State) (c : ClusterId) (f : Cluster → Cluster) : (s.modCluster c f).posted = s.posted := rfl
@[simp] theorem State.eventWaits_modCluster (s : State) (c : ClusterId) (f : Cluster → Cluster) : (s.modCluster c f).eventWaits = s.eventWaits := rfl
@[simp] theorem State.xlate_modCluster (s : State) (c : ClusterId) (f : Cluster → Cluster) : (s.modCluster c f).xlate = s.xlate := rfl
@[simp] theorem State.reissue_modCluster (s : State) (c : ClusterId) (f : Cluster → Cluster) : (s.modCluster c f).reissue = s.reissue := rfl
@[simp] theorem State.diemap_modCluster (s : State) (c : ClusterId) (f : Cluster → Cluster) : (s.modCluster c f).diemap = s.diemap := rfl
@[simp] theorem State.memsize_modCluster (s : State) (c : ClusterId) (f : Cluster → Cluster) : (s.modCluster c f).memsize = s.memsize := rfl
@[simp] theorem State.ewt_modCluster (s : State) (c : ClusterId) (f : Cluster → Cluster) : (s.modCluster c f).ewt = s.ewt := rfl
@[simp] theorem State.smpctl_modCluster (s : State) (c : ClusterId) (f : Cluster → Cluster) : (s.modCluster c f).smpctl = s.smpctl := rfl
@[simp] theorem State.pulses_modCluster (s : State) (c : ClusterId) (f : Cluster → Cluster) : (s.modCluster c f).pulses = s.pulses := rfl
@[simp] theorem State.pulseDue_modCluster (s : State) (c : ClusterId) (f : Cluster → Cluster) : (s.modCluster c f).pulseDue = s.pulseDue := rfl
@[simp] theorem State.out_modCluster (s : State) (c : ClusterId) (f : Cluster → Cluster) : (s.modCluster c f).out = s.out := rfl
@[simp] theorem State.heirs_modCluster (s : State) (c : ClusterId) (f : Cluster → Cluster) : (s.modCluster c f).heirs = s.heirs := rfl
@[simp] theorem State.errors_modCluster (s : State) (c : ClusterId) (f : Cluster → Cluster) : (s.modCluster c f).errors = s.errors := rfl
@[simp] theorem State.boot_modCluster (s : State) (c : ClusterId) (f : Cluster → Cluster) : (s.modCluster c f).boot = s.boot := rfl
@[simp] theorem State.nvme_modCluster (s : State) (c : ClusterId) (f : Cluster → Cluster) : (s.modCluster c f).nvme = s.nvme := rfl
@[simp] theorem State.firmware_modCluster (s : State) (c : ClusterId) (f : Cluster → Cluster) : (s.modCluster c f).firmware = s.firmware := rfl
@[simp] theorem State.reports_modCluster (s : State) (c : ClusterId) (f : Cluster → Cluster) : (s.modCluster c f).reports = s.reports := rfl
@[simp] theorem State.reads_modCluster (s : State) (c : ClusterId) (f : Cluster → Cluster) : (s.modCluster c f).reads = s.reads := rfl
@[simp] theorem State.debugReads_modCluster (s : State) (c : ClusterId) (f : Cluster → Cluster) : (s.modCluster c f).debugReads = s.debugReads := rfl
@[simp] theorem State.position_modCluster (s : State) (c : ClusterId) (f : Cluster → Cluster) : (s.modCluster c f).position = s.position := rfl
@[simp] theorem State.jobs_modCluster (s : State) (c : ClusterId) (f : Cluster → Cluster) : (s.modCluster c f).jobs = s.jobs := rfl
@[simp] theorem State.windows_modCluster (s : State) (c : ClusterId) (f : Cluster → Cluster) : (s.modCluster c f).windows = s.windows := rfl
@[simp] theorem State.links_modCluster (s : State) (c : ClusterId) (f : Cluster → Cluster) : (s.modCluster c f).links = s.links := rfl
@[simp] theorem State.unreachable_modCluster (s : State) (c : ClusterId) (f : Cluster → Cluster) : (s.modCluster c f).unreachable = s.unreachable := rfl
@[simp] theorem State.cycle_modCluster (s : State) (c : ClusterId) (f : Cluster → Cluster) : (s.modCluster c f).cycle = s.cycle := rfl
@[simp] theorem State.agenda_modCluster (s : State) (c : ClusterId) (f : Cluster → Cluster) : (s.modCluster c f).agenda = s.agenda := rfl
@[simp] theorem State.turn_modCluster (s : State) (c : ClusterId) (f : Cluster → Cluster) : (s.modCluster c f).turn = s.turn := rfl
@[simp] theorem State.picks_modCluster (s : State) (c : ClusterId) (f : Cluster → Cluster) : (s.modCluster c f).picks = s.picks := rfl
@[simp] theorem State.cur_modCluster (s : State) (c : ClusterId) (f : Cluster → Cluster) : (s.modCluster c f).cur = s.cur := rfl
@[simp] theorem State.latch_modCluster (s : State) (c : ClusterId) (f : Cluster → Cluster) : (s.modCluster c f).latch = s.latch := rfl
@[simp] theorem State.fresh_modCluster (s : State) (c : ClusterId) (f : Cluster → Cluster) : (s.modCluster c f).fresh = s.fresh := rfl

/-! ### modDie -/

@[simp] theorem State.strands_modDie (s : State) (d : BitVec 2) (f : Die → Die) : (s.modDie d f).strands = s.strands := rfl
@[simp] theorem State.cores_modDie (s : State) (d : BitVec 2) (f : Die → Die) : (s.modDie d f).cores = s.cores := rfl
@[simp] theorem State.clusters_modDie (s : State) (d : BitVec 2) (f : Die → Die) : (s.modDie d f).clusters = s.clusters := rfl
@[simp] theorem State.places_modDie (s : State) (d : BitVec 2) (f : Die → Die) : (s.modDie d f).places = s.places := rfl
@[simp] theorem State.hist_modDie (s : State) (d : BitVec 2) (f : Die → Die) : (s.modDie d f).hist = s.hist := rfl
@[simp] theorem State.contexts_modDie (s : State) (d : BitVec 2) (f : Die → Die) : (s.modDie d f).contexts = s.contexts := rfl
@[simp] theorem State.launches_modDie (s : State) (d : BitVec 2) (f : Die → Die) : (s.modDie d f).launches = s.launches := rfl
@[simp] theorem State.mem_modDie (s : State) (d : BitVec 2) (f : Die → Die) : (s.modDie d f).mem = s.mem := rfl
@[simp] theorem State.empties_modDie (s : State) (d : BitVec 2) (f : Die → Die) : (s.modDie d f).empties = s.empties := rfl
@[simp] theorem State.tags_modDie (s : State) (d : BitVec 2) (f : Die → Die) : (s.modDie d f).tags = s.tags := rfl
@[simp] theorem State.owners_modDie (s : State) (d : BitVec 2) (f : Die → Die) : (s.modDie d f).owners = s.owners := rfl
@[simp] theorem State.poisoned_modDie (s : State) (d : BitVec 2) (f : Die → Die) : (s.modDie d f).poisoned = s.poisoned := rfl
@[simp] theorem State.cxlDirty_modDie (s : State) (d : BitVec 2) (f : Die → Die) : (s.modDie d f).cxlDirty = s.cxlDirty := rfl
@[simp] theorem State.grants_modDie (s : State) (d : BitVec 2) (f : Die → Die) : (s.modDie d f).grants = s.grants := rfl
@[simp] theorem State.offers_modDie (s : State) (d : BitVec 2) (f : Die → Die) : (s.modDie d f).offers = s.offers := rfl
@[simp] theorem State.posted_modDie (s : State) (d : BitVec 2) (f : Die → Die) : (s.modDie d f).posted = s.posted := rfl
@[simp] theorem State.eventWaits_modDie (s : State) (d : BitVec 2) (f : Die → Die) : (s.modDie d f).eventWaits = s.eventWaits := rfl
@[simp] theorem State.xlate_modDie (s : State) (d : BitVec 2) (f : Die → Die) : (s.modDie d f).xlate = s.xlate := rfl
@[simp] theorem State.reissue_modDie (s : State) (d : BitVec 2) (f : Die → Die) : (s.modDie d f).reissue = s.reissue := rfl
@[simp] theorem State.diemap_modDie (s : State) (d : BitVec 2) (f : Die → Die) : (s.modDie d f).diemap = s.diemap := rfl
@[simp] theorem State.memsize_modDie (s : State) (d : BitVec 2) (f : Die → Die) : (s.modDie d f).memsize = s.memsize := rfl
@[simp] theorem State.ewt_modDie (s : State) (d : BitVec 2) (f : Die → Die) : (s.modDie d f).ewt = s.ewt := rfl
@[simp] theorem State.smpctl_modDie (s : State) (d : BitVec 2) (f : Die → Die) : (s.modDie d f).smpctl = s.smpctl := rfl
@[simp] theorem State.pulses_modDie (s : State) (d : BitVec 2) (f : Die → Die) : (s.modDie d f).pulses = s.pulses := rfl
@[simp] theorem State.pulseDue_modDie (s : State) (d : BitVec 2) (f : Die → Die) : (s.modDie d f).pulseDue = s.pulseDue := rfl
@[simp] theorem State.out_modDie (s : State) (d : BitVec 2) (f : Die → Die) : (s.modDie d f).out = s.out := rfl
@[simp] theorem State.heirs_modDie (s : State) (d : BitVec 2) (f : Die → Die) : (s.modDie d f).heirs = s.heirs := rfl
@[simp] theorem State.errors_modDie (s : State) (d : BitVec 2) (f : Die → Die) : (s.modDie d f).errors = s.errors := rfl
@[simp] theorem State.boot_modDie (s : State) (d : BitVec 2) (f : Die → Die) : (s.modDie d f).boot = s.boot := rfl
@[simp] theorem State.nvme_modDie (s : State) (d : BitVec 2) (f : Die → Die) : (s.modDie d f).nvme = s.nvme := rfl
@[simp] theorem State.firmware_modDie (s : State) (d : BitVec 2) (f : Die → Die) : (s.modDie d f).firmware = s.firmware := rfl
@[simp] theorem State.reports_modDie (s : State) (d : BitVec 2) (f : Die → Die) : (s.modDie d f).reports = s.reports := rfl
@[simp] theorem State.reads_modDie (s : State) (d : BitVec 2) (f : Die → Die) : (s.modDie d f).reads = s.reads := rfl
@[simp] theorem State.debugReads_modDie (s : State) (d : BitVec 2) (f : Die → Die) : (s.modDie d f).debugReads = s.debugReads := rfl
@[simp] theorem State.position_modDie (s : State) (d : BitVec 2) (f : Die → Die) : (s.modDie d f).position = s.position := rfl
@[simp] theorem State.jobs_modDie (s : State) (d : BitVec 2) (f : Die → Die) : (s.modDie d f).jobs = s.jobs := rfl
@[simp] theorem State.windows_modDie (s : State) (d : BitVec 2) (f : Die → Die) : (s.modDie d f).windows = s.windows := rfl
@[simp] theorem State.links_modDie (s : State) (d : BitVec 2) (f : Die → Die) : (s.modDie d f).links = s.links := rfl
@[simp] theorem State.unreachable_modDie (s : State) (d : BitVec 2) (f : Die → Die) : (s.modDie d f).unreachable = s.unreachable := rfl
@[simp] theorem State.cycle_modDie (s : State) (d : BitVec 2) (f : Die → Die) : (s.modDie d f).cycle = s.cycle := rfl
@[simp] theorem State.agenda_modDie (s : State) (d : BitVec 2) (f : Die → Die) : (s.modDie d f).agenda = s.agenda := rfl
@[simp] theorem State.turn_modDie (s : State) (d : BitVec 2) (f : Die → Die) : (s.modDie d f).turn = s.turn := rfl
@[simp] theorem State.picks_modDie (s : State) (d : BitVec 2) (f : Die → Die) : (s.modDie d f).picks = s.picks := rfl
@[simp] theorem State.cur_modDie (s : State) (d : BitVec 2) (f : Die → Die) : (s.modDie d f).cur = s.cur := rfl
@[simp] theorem State.latch_modDie (s : State) (d : BitVec 2) (f : Die → Die) : (s.modDie d f).latch = s.latch := rfl
@[simp] theorem State.fresh_modDie (s : State) (d : BitVec 2) (f : Die → Die) : (s.modDie d f).fresh = s.fresh := rfl

/-! ### modPlace -/

@[simp] theorem State.strands_modPlace (s : State) (p : Place) (f : PlaceState → PlaceState) : (s.modPlace p f).strands = s.strands := rfl
@[simp] theorem State.cores_modPlace (s : State) (p : Place) (f : PlaceState → PlaceState) : (s.modPlace p f).cores = s.cores := rfl
@[simp] theorem State.clusters_modPlace (s : State) (p : Place) (f : PlaceState → PlaceState) : (s.modPlace p f).clusters = s.clusters := rfl
@[simp] theorem State.dies_modPlace (s : State) (p : Place) (f : PlaceState → PlaceState) : (s.modPlace p f).dies = s.dies := rfl
@[simp] theorem State.hist_modPlace (s : State) (p : Place) (f : PlaceState → PlaceState) : (s.modPlace p f).hist = s.hist := rfl
@[simp] theorem State.contexts_modPlace (s : State) (p : Place) (f : PlaceState → PlaceState) : (s.modPlace p f).contexts = s.contexts := rfl
@[simp] theorem State.launches_modPlace (s : State) (p : Place) (f : PlaceState → PlaceState) : (s.modPlace p f).launches = s.launches := rfl
@[simp] theorem State.mem_modPlace (s : State) (p : Place) (f : PlaceState → PlaceState) : (s.modPlace p f).mem = s.mem := rfl
@[simp] theorem State.empties_modPlace (s : State) (p : Place) (f : PlaceState → PlaceState) : (s.modPlace p f).empties = s.empties := rfl
@[simp] theorem State.tags_modPlace (s : State) (p : Place) (f : PlaceState → PlaceState) : (s.modPlace p f).tags = s.tags := rfl
@[simp] theorem State.owners_modPlace (s : State) (p : Place) (f : PlaceState → PlaceState) : (s.modPlace p f).owners = s.owners := rfl
@[simp] theorem State.poisoned_modPlace (s : State) (p : Place) (f : PlaceState → PlaceState) : (s.modPlace p f).poisoned = s.poisoned := rfl
@[simp] theorem State.cxlDirty_modPlace (s : State) (p : Place) (f : PlaceState → PlaceState) : (s.modPlace p f).cxlDirty = s.cxlDirty := rfl
@[simp] theorem State.grants_modPlace (s : State) (p : Place) (f : PlaceState → PlaceState) : (s.modPlace p f).grants = s.grants := rfl
@[simp] theorem State.offers_modPlace (s : State) (p : Place) (f : PlaceState → PlaceState) : (s.modPlace p f).offers = s.offers := rfl
@[simp] theorem State.posted_modPlace (s : State) (p : Place) (f : PlaceState → PlaceState) : (s.modPlace p f).posted = s.posted := rfl
@[simp] theorem State.eventWaits_modPlace (s : State) (p : Place) (f : PlaceState → PlaceState) : (s.modPlace p f).eventWaits = s.eventWaits := rfl
@[simp] theorem State.xlate_modPlace (s : State) (p : Place) (f : PlaceState → PlaceState) : (s.modPlace p f).xlate = s.xlate := rfl
@[simp] theorem State.reissue_modPlace (s : State) (p : Place) (f : PlaceState → PlaceState) : (s.modPlace p f).reissue = s.reissue := rfl
@[simp] theorem State.diemap_modPlace (s : State) (p : Place) (f : PlaceState → PlaceState) : (s.modPlace p f).diemap = s.diemap := rfl
@[simp] theorem State.memsize_modPlace (s : State) (p : Place) (f : PlaceState → PlaceState) : (s.modPlace p f).memsize = s.memsize := rfl
@[simp] theorem State.ewt_modPlace (s : State) (p : Place) (f : PlaceState → PlaceState) : (s.modPlace p f).ewt = s.ewt := rfl
@[simp] theorem State.smpctl_modPlace (s : State) (p : Place) (f : PlaceState → PlaceState) : (s.modPlace p f).smpctl = s.smpctl := rfl
@[simp] theorem State.pulses_modPlace (s : State) (p : Place) (f : PlaceState → PlaceState) : (s.modPlace p f).pulses = s.pulses := rfl
@[simp] theorem State.pulseDue_modPlace (s : State) (p : Place) (f : PlaceState → PlaceState) : (s.modPlace p f).pulseDue = s.pulseDue := rfl
@[simp] theorem State.out_modPlace (s : State) (p : Place) (f : PlaceState → PlaceState) : (s.modPlace p f).out = s.out := rfl
@[simp] theorem State.heirs_modPlace (s : State) (p : Place) (f : PlaceState → PlaceState) : (s.modPlace p f).heirs = s.heirs := rfl
@[simp] theorem State.errors_modPlace (s : State) (p : Place) (f : PlaceState → PlaceState) : (s.modPlace p f).errors = s.errors := rfl
@[simp] theorem State.boot_modPlace (s : State) (p : Place) (f : PlaceState → PlaceState) : (s.modPlace p f).boot = s.boot := rfl
@[simp] theorem State.nvme_modPlace (s : State) (p : Place) (f : PlaceState → PlaceState) : (s.modPlace p f).nvme = s.nvme := rfl
@[simp] theorem State.firmware_modPlace (s : State) (p : Place) (f : PlaceState → PlaceState) : (s.modPlace p f).firmware = s.firmware := rfl
@[simp] theorem State.reports_modPlace (s : State) (p : Place) (f : PlaceState → PlaceState) : (s.modPlace p f).reports = s.reports := rfl
@[simp] theorem State.reads_modPlace (s : State) (p : Place) (f : PlaceState → PlaceState) : (s.modPlace p f).reads = s.reads := rfl
@[simp] theorem State.debugReads_modPlace (s : State) (p : Place) (f : PlaceState → PlaceState) : (s.modPlace p f).debugReads = s.debugReads := rfl
@[simp] theorem State.position_modPlace (s : State) (p : Place) (f : PlaceState → PlaceState) : (s.modPlace p f).position = s.position := rfl
@[simp] theorem State.jobs_modPlace (s : State) (p : Place) (f : PlaceState → PlaceState) : (s.modPlace p f).jobs = s.jobs := rfl
@[simp] theorem State.windows_modPlace (s : State) (p : Place) (f : PlaceState → PlaceState) : (s.modPlace p f).windows = s.windows := rfl
@[simp] theorem State.links_modPlace (s : State) (p : Place) (f : PlaceState → PlaceState) : (s.modPlace p f).links = s.links := rfl
@[simp] theorem State.unreachable_modPlace (s : State) (p : Place) (f : PlaceState → PlaceState) : (s.modPlace p f).unreachable = s.unreachable := rfl
@[simp] theorem State.cycle_modPlace (s : State) (p : Place) (f : PlaceState → PlaceState) : (s.modPlace p f).cycle = s.cycle := rfl
@[simp] theorem State.agenda_modPlace (s : State) (p : Place) (f : PlaceState → PlaceState) : (s.modPlace p f).agenda = s.agenda := rfl
@[simp] theorem State.turn_modPlace (s : State) (p : Place) (f : PlaceState → PlaceState) : (s.modPlace p f).turn = s.turn := rfl
@[simp] theorem State.picks_modPlace (s : State) (p : Place) (f : PlaceState → PlaceState) : (s.modPlace p f).picks = s.picks := rfl
@[simp] theorem State.cur_modPlace (s : State) (p : Place) (f : PlaceState → PlaceState) : (s.modPlace p f).cur = s.cur := rfl
@[simp] theorem State.latch_modPlace (s : State) (p : Place) (f : PlaceState → PlaceState) : (s.modPlace p f).latch = s.latch := rfl
@[simp] theorem State.fresh_modPlace (s : State) (p : Place) (f : PlaceState → PlaceState) : (s.modPlace p f).fresh = s.fresh := rfl

/-! ### modHist -/

@[simp] theorem State.strands_modHist (s : State) (i : SliceId) (f : HistSlice → HistSlice) : (s.modHist i f).strands = s.strands := rfl
@[simp] theorem State.cores_modHist (s : State) (i : SliceId) (f : HistSlice → HistSlice) : (s.modHist i f).cores = s.cores := rfl
@[simp] theorem State.clusters_modHist (s : State) (i : SliceId) (f : HistSlice → HistSlice) : (s.modHist i f).clusters = s.clusters := rfl
@[simp] theorem State.dies_modHist (s : State) (i : SliceId) (f : HistSlice → HistSlice) : (s.modHist i f).dies = s.dies := rfl
@[simp] theorem State.places_modHist (s : State) (i : SliceId) (f : HistSlice → HistSlice) : (s.modHist i f).places = s.places := rfl
@[simp] theorem State.contexts_modHist (s : State) (i : SliceId) (f : HistSlice → HistSlice) : (s.modHist i f).contexts = s.contexts := rfl
@[simp] theorem State.launches_modHist (s : State) (i : SliceId) (f : HistSlice → HistSlice) : (s.modHist i f).launches = s.launches := rfl
@[simp] theorem State.mem_modHist (s : State) (i : SliceId) (f : HistSlice → HistSlice) : (s.modHist i f).mem = s.mem := rfl
@[simp] theorem State.empties_modHist (s : State) (i : SliceId) (f : HistSlice → HistSlice) : (s.modHist i f).empties = s.empties := rfl
@[simp] theorem State.tags_modHist (s : State) (i : SliceId) (f : HistSlice → HistSlice) : (s.modHist i f).tags = s.tags := rfl
@[simp] theorem State.owners_modHist (s : State) (i : SliceId) (f : HistSlice → HistSlice) : (s.modHist i f).owners = s.owners := rfl
@[simp] theorem State.poisoned_modHist (s : State) (i : SliceId) (f : HistSlice → HistSlice) : (s.modHist i f).poisoned = s.poisoned := rfl
@[simp] theorem State.cxlDirty_modHist (s : State) (i : SliceId) (f : HistSlice → HistSlice) : (s.modHist i f).cxlDirty = s.cxlDirty := rfl
@[simp] theorem State.grants_modHist (s : State) (i : SliceId) (f : HistSlice → HistSlice) : (s.modHist i f).grants = s.grants := rfl
@[simp] theorem State.offers_modHist (s : State) (i : SliceId) (f : HistSlice → HistSlice) : (s.modHist i f).offers = s.offers := rfl
@[simp] theorem State.posted_modHist (s : State) (i : SliceId) (f : HistSlice → HistSlice) : (s.modHist i f).posted = s.posted := rfl
@[simp] theorem State.eventWaits_modHist (s : State) (i : SliceId) (f : HistSlice → HistSlice) : (s.modHist i f).eventWaits = s.eventWaits := rfl
@[simp] theorem State.xlate_modHist (s : State) (i : SliceId) (f : HistSlice → HistSlice) : (s.modHist i f).xlate = s.xlate := rfl
@[simp] theorem State.reissue_modHist (s : State) (i : SliceId) (f : HistSlice → HistSlice) : (s.modHist i f).reissue = s.reissue := rfl
@[simp] theorem State.diemap_modHist (s : State) (i : SliceId) (f : HistSlice → HistSlice) : (s.modHist i f).diemap = s.diemap := rfl
@[simp] theorem State.memsize_modHist (s : State) (i : SliceId) (f : HistSlice → HistSlice) : (s.modHist i f).memsize = s.memsize := rfl
@[simp] theorem State.ewt_modHist (s : State) (i : SliceId) (f : HistSlice → HistSlice) : (s.modHist i f).ewt = s.ewt := rfl
@[simp] theorem State.smpctl_modHist (s : State) (i : SliceId) (f : HistSlice → HistSlice) : (s.modHist i f).smpctl = s.smpctl := rfl
@[simp] theorem State.pulses_modHist (s : State) (i : SliceId) (f : HistSlice → HistSlice) : (s.modHist i f).pulses = s.pulses := rfl
@[simp] theorem State.pulseDue_modHist (s : State) (i : SliceId) (f : HistSlice → HistSlice) : (s.modHist i f).pulseDue = s.pulseDue := rfl
@[simp] theorem State.out_modHist (s : State) (i : SliceId) (f : HistSlice → HistSlice) : (s.modHist i f).out = s.out := rfl
@[simp] theorem State.heirs_modHist (s : State) (i : SliceId) (f : HistSlice → HistSlice) : (s.modHist i f).heirs = s.heirs := rfl
@[simp] theorem State.errors_modHist (s : State) (i : SliceId) (f : HistSlice → HistSlice) : (s.modHist i f).errors = s.errors := rfl
@[simp] theorem State.boot_modHist (s : State) (i : SliceId) (f : HistSlice → HistSlice) : (s.modHist i f).boot = s.boot := rfl
@[simp] theorem State.nvme_modHist (s : State) (i : SliceId) (f : HistSlice → HistSlice) : (s.modHist i f).nvme = s.nvme := rfl
@[simp] theorem State.firmware_modHist (s : State) (i : SliceId) (f : HistSlice → HistSlice) : (s.modHist i f).firmware = s.firmware := rfl
@[simp] theorem State.reports_modHist (s : State) (i : SliceId) (f : HistSlice → HistSlice) : (s.modHist i f).reports = s.reports := rfl
@[simp] theorem State.reads_modHist (s : State) (i : SliceId) (f : HistSlice → HistSlice) : (s.modHist i f).reads = s.reads := rfl
@[simp] theorem State.debugReads_modHist (s : State) (i : SliceId) (f : HistSlice → HistSlice) : (s.modHist i f).debugReads = s.debugReads := rfl
@[simp] theorem State.position_modHist (s : State) (i : SliceId) (f : HistSlice → HistSlice) : (s.modHist i f).position = s.position := rfl
@[simp] theorem State.jobs_modHist (s : State) (i : SliceId) (f : HistSlice → HistSlice) : (s.modHist i f).jobs = s.jobs := rfl
@[simp] theorem State.windows_modHist (s : State) (i : SliceId) (f : HistSlice → HistSlice) : (s.modHist i f).windows = s.windows := rfl
@[simp] theorem State.links_modHist (s : State) (i : SliceId) (f : HistSlice → HistSlice) : (s.modHist i f).links = s.links := rfl
@[simp] theorem State.unreachable_modHist (s : State) (i : SliceId) (f : HistSlice → HistSlice) : (s.modHist i f).unreachable = s.unreachable := rfl
@[simp] theorem State.cycle_modHist (s : State) (i : SliceId) (f : HistSlice → HistSlice) : (s.modHist i f).cycle = s.cycle := rfl
@[simp] theorem State.agenda_modHist (s : State) (i : SliceId) (f : HistSlice → HistSlice) : (s.modHist i f).agenda = s.agenda := rfl
@[simp] theorem State.turn_modHist (s : State) (i : SliceId) (f : HistSlice → HistSlice) : (s.modHist i f).turn = s.turn := rfl
@[simp] theorem State.picks_modHist (s : State) (i : SliceId) (f : HistSlice → HistSlice) : (s.modHist i f).picks = s.picks := rfl
@[simp] theorem State.cur_modHist (s : State) (i : SliceId) (f : HistSlice → HistSlice) : (s.modHist i f).cur = s.cur := rfl
@[simp] theorem State.latch_modHist (s : State) (i : SliceId) (f : HistSlice → HistSlice) : (s.modHist i f).latch = s.latch := rfl
@[simp] theorem State.fresh_modHist (s : State) (i : SliceId) (f : HistSlice → HistSlice) : (s.modHist i f).fresh = s.fresh := rfl

/-! ### bump -/

@[simp] theorem State.strands_bump (s : State) : (s.bump).strands = s.strands := rfl
@[simp] theorem State.cores_bump (s : State) : (s.bump).cores = s.cores := rfl
@[simp] theorem State.clusters_bump (s : State) : (s.bump).clusters = s.clusters := rfl
@[simp] theorem State.dies_bump (s : State) : (s.bump).dies = s.dies := rfl
@[simp] theorem State.places_bump (s : State) : (s.bump).places = s.places := rfl
@[simp] theorem State.hist_bump (s : State) : (s.bump).hist = s.hist := rfl
@[simp] theorem State.contexts_bump (s : State) : (s.bump).contexts = s.contexts := rfl
@[simp] theorem State.launches_bump (s : State) : (s.bump).launches = s.launches := rfl
@[simp] theorem State.mem_bump (s : State) : (s.bump).mem = s.mem := rfl
@[simp] theorem State.empties_bump (s : State) : (s.bump).empties = s.empties := rfl
@[simp] theorem State.tags_bump (s : State) : (s.bump).tags = s.tags := rfl
@[simp] theorem State.owners_bump (s : State) : (s.bump).owners = s.owners := rfl
@[simp] theorem State.poisoned_bump (s : State) : (s.bump).poisoned = s.poisoned := rfl
@[simp] theorem State.cxlDirty_bump (s : State) : (s.bump).cxlDirty = s.cxlDirty := rfl
@[simp] theorem State.grants_bump (s : State) : (s.bump).grants = s.grants := rfl
@[simp] theorem State.offers_bump (s : State) : (s.bump).offers = s.offers := rfl
@[simp] theorem State.posted_bump (s : State) : (s.bump).posted = s.posted := rfl
@[simp] theorem State.eventWaits_bump (s : State) : (s.bump).eventWaits = s.eventWaits := rfl
@[simp] theorem State.xlate_bump (s : State) : (s.bump).xlate = s.xlate := rfl
@[simp] theorem State.reissue_bump (s : State) : (s.bump).reissue = s.reissue := rfl
@[simp] theorem State.diemap_bump (s : State) : (s.bump).diemap = s.diemap := rfl
@[simp] theorem State.memsize_bump (s : State) : (s.bump).memsize = s.memsize := rfl
@[simp] theorem State.ewt_bump (s : State) : (s.bump).ewt = s.ewt := rfl
@[simp] theorem State.smpctl_bump (s : State) : (s.bump).smpctl = s.smpctl := rfl
@[simp] theorem State.pulses_bump (s : State) : (s.bump).pulses = s.pulses := rfl
@[simp] theorem State.pulseDue_bump (s : State) : (s.bump).pulseDue = s.pulseDue := rfl
@[simp] theorem State.out_bump (s : State) : (s.bump).out = s.out := rfl
@[simp] theorem State.heirs_bump (s : State) : (s.bump).heirs = s.heirs := rfl
@[simp] theorem State.errors_bump (s : State) : (s.bump).errors = s.errors := rfl
@[simp] theorem State.boot_bump (s : State) : (s.bump).boot = s.boot := rfl
@[simp] theorem State.nvme_bump (s : State) : (s.bump).nvme = s.nvme := rfl
@[simp] theorem State.firmware_bump (s : State) : (s.bump).firmware = s.firmware := rfl
@[simp] theorem State.reports_bump (s : State) : (s.bump).reports = s.reports := rfl
@[simp] theorem State.reads_bump (s : State) : (s.bump).reads = s.reads := rfl
@[simp] theorem State.debugReads_bump (s : State) : (s.bump).debugReads = s.debugReads := rfl
@[simp] theorem State.position_bump (s : State) : (s.bump).position = s.position := rfl
@[simp] theorem State.jobs_bump (s : State) : (s.bump).jobs = s.jobs := rfl
@[simp] theorem State.windows_bump (s : State) : (s.bump).windows = s.windows := rfl
@[simp] theorem State.links_bump (s : State) : (s.bump).links = s.links := rfl
@[simp] theorem State.unreachable_bump (s : State) : (s.bump).unreachable = s.unreachable := rfl
@[simp] theorem State.cycle_bump (s : State) : (s.bump).cycle = s.cycle := rfl
@[simp] theorem State.agenda_bump (s : State) : (s.bump).agenda = s.agenda := rfl
@[simp] theorem State.turn_bump (s : State) : (s.bump).turn = s.turn := rfl
@[simp] theorem State.picks_bump (s : State) : (s.bump).picks = s.picks := rfl
@[simp] theorem State.cur_bump (s : State) : (s.bump).cur = s.cur := rfl
@[simp] theorem State.latch_bump (s : State) : (s.bump).latch = s.latch := rfl

/-! ### modStrand -/

@[simp] theorem State.cores_modStrand (s : State) (h : Handle) (f : Strand → Strand) : (s.modStrand h f).cores = s.cores := by unfold State.modStrand; split <;> rfl
@[simp] theorem State.clusters_modStrand (s : State) (h : Handle) (f : Strand → Strand) : (s.modStrand h f).clusters = s.clusters := by unfold State.modStrand; split <;> rfl
@[simp] theorem State.dies_modStrand (s : State) (h : Handle) (f : Strand → Strand) : (s.modStrand h f).dies = s.dies := by unfold State.modStrand; split <;> rfl
@[simp] theorem State.places_modStrand (s : State) (h : Handle) (f : Strand → Strand) : (s.modStrand h f).places = s.places := by unfold State.modStrand; split <;> rfl
@[simp] theorem State.hist_modStrand (s : State) (h : Handle) (f : Strand → Strand) : (s.modStrand h f).hist = s.hist := by unfold State.modStrand; split <;> rfl
@[simp] theorem State.contexts_modStrand (s : State) (h : Handle) (f : Strand → Strand) : (s.modStrand h f).contexts = s.contexts := by unfold State.modStrand; split <;> rfl
@[simp] theorem State.launches_modStrand (s : State) (h : Handle) (f : Strand → Strand) : (s.modStrand h f).launches = s.launches := by unfold State.modStrand; split <;> rfl
@[simp] theorem State.mem_modStrand (s : State) (h : Handle) (f : Strand → Strand) : (s.modStrand h f).mem = s.mem := by unfold State.modStrand; split <;> rfl
@[simp] theorem State.empties_modStrand (s : State) (h : Handle) (f : Strand → Strand) : (s.modStrand h f).empties = s.empties := by unfold State.modStrand; split <;> rfl
@[simp] theorem State.tags_modStrand (s : State) (h : Handle) (f : Strand → Strand) : (s.modStrand h f).tags = s.tags := by unfold State.modStrand; split <;> rfl
@[simp] theorem State.owners_modStrand (s : State) (h : Handle) (f : Strand → Strand) : (s.modStrand h f).owners = s.owners := by unfold State.modStrand; split <;> rfl
@[simp] theorem State.poisoned_modStrand (s : State) (h : Handle) (f : Strand → Strand) : (s.modStrand h f).poisoned = s.poisoned := by unfold State.modStrand; split <;> rfl
@[simp] theorem State.cxlDirty_modStrand (s : State) (h : Handle) (f : Strand → Strand) : (s.modStrand h f).cxlDirty = s.cxlDirty := by unfold State.modStrand; split <;> rfl
@[simp] theorem State.grants_modStrand (s : State) (h : Handle) (f : Strand → Strand) : (s.modStrand h f).grants = s.grants := by unfold State.modStrand; split <;> rfl
@[simp] theorem State.offers_modStrand (s : State) (h : Handle) (f : Strand → Strand) : (s.modStrand h f).offers = s.offers := by unfold State.modStrand; split <;> rfl
@[simp] theorem State.posted_modStrand (s : State) (h : Handle) (f : Strand → Strand) : (s.modStrand h f).posted = s.posted := by unfold State.modStrand; split <;> rfl
@[simp] theorem State.eventWaits_modStrand (s : State) (h : Handle) (f : Strand → Strand) : (s.modStrand h f).eventWaits = s.eventWaits := by unfold State.modStrand; split <;> rfl
@[simp] theorem State.xlate_modStrand (s : State) (h : Handle) (f : Strand → Strand) : (s.modStrand h f).xlate = s.xlate := by unfold State.modStrand; split <;> rfl
@[simp] theorem State.reissue_modStrand (s : State) (h : Handle) (f : Strand → Strand) : (s.modStrand h f).reissue = s.reissue := by unfold State.modStrand; split <;> rfl
@[simp] theorem State.diemap_modStrand (s : State) (h : Handle) (f : Strand → Strand) : (s.modStrand h f).diemap = s.diemap := by unfold State.modStrand; split <;> rfl
@[simp] theorem State.memsize_modStrand (s : State) (h : Handle) (f : Strand → Strand) : (s.modStrand h f).memsize = s.memsize := by unfold State.modStrand; split <;> rfl
@[simp] theorem State.ewt_modStrand (s : State) (h : Handle) (f : Strand → Strand) : (s.modStrand h f).ewt = s.ewt := by unfold State.modStrand; split <;> rfl
@[simp] theorem State.smpctl_modStrand (s : State) (h : Handle) (f : Strand → Strand) : (s.modStrand h f).smpctl = s.smpctl := by unfold State.modStrand; split <;> rfl
@[simp] theorem State.pulses_modStrand (s : State) (h : Handle) (f : Strand → Strand) : (s.modStrand h f).pulses = s.pulses := by unfold State.modStrand; split <;> rfl
@[simp] theorem State.pulseDue_modStrand (s : State) (h : Handle) (f : Strand → Strand) : (s.modStrand h f).pulseDue = s.pulseDue := by unfold State.modStrand; split <;> rfl
@[simp] theorem State.out_modStrand (s : State) (h : Handle) (f : Strand → Strand) : (s.modStrand h f).out = s.out := by unfold State.modStrand; split <;> rfl
@[simp] theorem State.heirs_modStrand (s : State) (h : Handle) (f : Strand → Strand) : (s.modStrand h f).heirs = s.heirs := by unfold State.modStrand; split <;> rfl
@[simp] theorem State.errors_modStrand (s : State) (h : Handle) (f : Strand → Strand) : (s.modStrand h f).errors = s.errors := by unfold State.modStrand; split <;> rfl
@[simp] theorem State.boot_modStrand (s : State) (h : Handle) (f : Strand → Strand) : (s.modStrand h f).boot = s.boot := by unfold State.modStrand; split <;> rfl
@[simp] theorem State.nvme_modStrand (s : State) (h : Handle) (f : Strand → Strand) : (s.modStrand h f).nvme = s.nvme := by unfold State.modStrand; split <;> rfl
@[simp] theorem State.firmware_modStrand (s : State) (h : Handle) (f : Strand → Strand) : (s.modStrand h f).firmware = s.firmware := by unfold State.modStrand; split <;> rfl
@[simp] theorem State.reports_modStrand (s : State) (h : Handle) (f : Strand → Strand) : (s.modStrand h f).reports = s.reports := by unfold State.modStrand; split <;> rfl
@[simp] theorem State.reads_modStrand (s : State) (h : Handle) (f : Strand → Strand) : (s.modStrand h f).reads = s.reads := by unfold State.modStrand; split <;> rfl
@[simp] theorem State.debugReads_modStrand (s : State) (h : Handle) (f : Strand → Strand) : (s.modStrand h f).debugReads = s.debugReads := by unfold State.modStrand; split <;> rfl
@[simp] theorem State.position_modStrand (s : State) (h : Handle) (f : Strand → Strand) : (s.modStrand h f).position = s.position := by unfold State.modStrand; split <;> rfl
@[simp] theorem State.jobs_modStrand (s : State) (h : Handle) (f : Strand → Strand) : (s.modStrand h f).jobs = s.jobs := by unfold State.modStrand; split <;> rfl
@[simp] theorem State.windows_modStrand (s : State) (h : Handle) (f : Strand → Strand) : (s.modStrand h f).windows = s.windows := by unfold State.modStrand; split <;> rfl
@[simp] theorem State.links_modStrand (s : State) (h : Handle) (f : Strand → Strand) : (s.modStrand h f).links = s.links := by unfold State.modStrand; split <;> rfl
@[simp] theorem State.unreachable_modStrand (s : State) (h : Handle) (f : Strand → Strand) : (s.modStrand h f).unreachable = s.unreachable := by unfold State.modStrand; split <;> rfl
@[simp] theorem State.cycle_modStrand (s : State) (h : Handle) (f : Strand → Strand) : (s.modStrand h f).cycle = s.cycle := by unfold State.modStrand; split <;> rfl
@[simp] theorem State.agenda_modStrand (s : State) (h : Handle) (f : Strand → Strand) : (s.modStrand h f).agenda = s.agenda := by unfold State.modStrand; split <;> rfl
@[simp] theorem State.turn_modStrand (s : State) (h : Handle) (f : Strand → Strand) : (s.modStrand h f).turn = s.turn := by unfold State.modStrand; split <;> rfl
@[simp] theorem State.picks_modStrand (s : State) (h : Handle) (f : Strand → Strand) : (s.modStrand h f).picks = s.picks := by unfold State.modStrand; split <;> rfl
@[simp] theorem State.cur_modStrand (s : State) (h : Handle) (f : Strand → Strand) : (s.modStrand h f).cur = s.cur := by unfold State.modStrand; split <;> rfl
@[simp] theorem State.latch_modStrand (s : State) (h : Handle) (f : Strand → Strand) : (s.modStrand h f).latch = s.latch := by unfold State.modStrand; split <;> rfl
@[simp] theorem State.fresh_modStrand (s : State) (h : Handle) (f : Strand → Strand) : (s.modStrand h f).fresh = s.fresh := by unfold State.modStrand; split <;> rfl

/-! ### modContext -/

@[simp] theorem State.strands_modContext (s : State) (c : CtxId) (f : Context → Context) : (s.modContext c f).strands = s.strands := by unfold State.modContext; split <;> rfl
@[simp] theorem State.cores_modContext (s : State) (c : CtxId) (f : Context → Context) : (s.modContext c f).cores = s.cores := by unfold State.modContext; split <;> rfl
@[simp] theorem State.clusters_modContext (s : State) (c : CtxId) (f : Context → Context) : (s.modContext c f).clusters = s.clusters := by unfold State.modContext; split <;> rfl
@[simp] theorem State.dies_modContext (s : State) (c : CtxId) (f : Context → Context) : (s.modContext c f).dies = s.dies := by unfold State.modContext; split <;> rfl
@[simp] theorem State.places_modContext (s : State) (c : CtxId) (f : Context → Context) : (s.modContext c f).places = s.places := by unfold State.modContext; split <;> rfl
@[simp] theorem State.hist_modContext (s : State) (c : CtxId) (f : Context → Context) : (s.modContext c f).hist = s.hist := by unfold State.modContext; split <;> rfl
@[simp] theorem State.launches_modContext (s : State) (c : CtxId) (f : Context → Context) : (s.modContext c f).launches = s.launches := by unfold State.modContext; split <;> rfl
@[simp] theorem State.mem_modContext (s : State) (c : CtxId) (f : Context → Context) : (s.modContext c f).mem = s.mem := by unfold State.modContext; split <;> rfl
@[simp] theorem State.empties_modContext (s : State) (c : CtxId) (f : Context → Context) : (s.modContext c f).empties = s.empties := by unfold State.modContext; split <;> rfl
@[simp] theorem State.tags_modContext (s : State) (c : CtxId) (f : Context → Context) : (s.modContext c f).tags = s.tags := by unfold State.modContext; split <;> rfl
@[simp] theorem State.owners_modContext (s : State) (c : CtxId) (f : Context → Context) : (s.modContext c f).owners = s.owners := by unfold State.modContext; split <;> rfl
@[simp] theorem State.poisoned_modContext (s : State) (c : CtxId) (f : Context → Context) : (s.modContext c f).poisoned = s.poisoned := by unfold State.modContext; split <;> rfl
@[simp] theorem State.cxlDirty_modContext (s : State) (c : CtxId) (f : Context → Context) : (s.modContext c f).cxlDirty = s.cxlDirty := by unfold State.modContext; split <;> rfl
@[simp] theorem State.grants_modContext (s : State) (c : CtxId) (f : Context → Context) : (s.modContext c f).grants = s.grants := by unfold State.modContext; split <;> rfl
@[simp] theorem State.offers_modContext (s : State) (c : CtxId) (f : Context → Context) : (s.modContext c f).offers = s.offers := by unfold State.modContext; split <;> rfl
@[simp] theorem State.posted_modContext (s : State) (c : CtxId) (f : Context → Context) : (s.modContext c f).posted = s.posted := by unfold State.modContext; split <;> rfl
@[simp] theorem State.eventWaits_modContext (s : State) (c : CtxId) (f : Context → Context) : (s.modContext c f).eventWaits = s.eventWaits := by unfold State.modContext; split <;> rfl
@[simp] theorem State.xlate_modContext (s : State) (c : CtxId) (f : Context → Context) : (s.modContext c f).xlate = s.xlate := by unfold State.modContext; split <;> rfl
@[simp] theorem State.reissue_modContext (s : State) (c : CtxId) (f : Context → Context) : (s.modContext c f).reissue = s.reissue := by unfold State.modContext; split <;> rfl
@[simp] theorem State.diemap_modContext (s : State) (c : CtxId) (f : Context → Context) : (s.modContext c f).diemap = s.diemap := by unfold State.modContext; split <;> rfl
@[simp] theorem State.memsize_modContext (s : State) (c : CtxId) (f : Context → Context) : (s.modContext c f).memsize = s.memsize := by unfold State.modContext; split <;> rfl
@[simp] theorem State.ewt_modContext (s : State) (c : CtxId) (f : Context → Context) : (s.modContext c f).ewt = s.ewt := by unfold State.modContext; split <;> rfl
@[simp] theorem State.smpctl_modContext (s : State) (c : CtxId) (f : Context → Context) : (s.modContext c f).smpctl = s.smpctl := by unfold State.modContext; split <;> rfl
@[simp] theorem State.pulses_modContext (s : State) (c : CtxId) (f : Context → Context) : (s.modContext c f).pulses = s.pulses := by unfold State.modContext; split <;> rfl
@[simp] theorem State.pulseDue_modContext (s : State) (c : CtxId) (f : Context → Context) : (s.modContext c f).pulseDue = s.pulseDue := by unfold State.modContext; split <;> rfl
@[simp] theorem State.out_modContext (s : State) (c : CtxId) (f : Context → Context) : (s.modContext c f).out = s.out := by unfold State.modContext; split <;> rfl
@[simp] theorem State.heirs_modContext (s : State) (c : CtxId) (f : Context → Context) : (s.modContext c f).heirs = s.heirs := by unfold State.modContext; split <;> rfl
@[simp] theorem State.errors_modContext (s : State) (c : CtxId) (f : Context → Context) : (s.modContext c f).errors = s.errors := by unfold State.modContext; split <;> rfl
@[simp] theorem State.boot_modContext (s : State) (c : CtxId) (f : Context → Context) : (s.modContext c f).boot = s.boot := by unfold State.modContext; split <;> rfl
@[simp] theorem State.nvme_modContext (s : State) (c : CtxId) (f : Context → Context) : (s.modContext c f).nvme = s.nvme := by unfold State.modContext; split <;> rfl
@[simp] theorem State.firmware_modContext (s : State) (c : CtxId) (f : Context → Context) : (s.modContext c f).firmware = s.firmware := by unfold State.modContext; split <;> rfl
@[simp] theorem State.reports_modContext (s : State) (c : CtxId) (f : Context → Context) : (s.modContext c f).reports = s.reports := by unfold State.modContext; split <;> rfl
@[simp] theorem State.reads_modContext (s : State) (c : CtxId) (f : Context → Context) : (s.modContext c f).reads = s.reads := by unfold State.modContext; split <;> rfl
@[simp] theorem State.debugReads_modContext (s : State) (c : CtxId) (f : Context → Context) : (s.modContext c f).debugReads = s.debugReads := by unfold State.modContext; split <;> rfl
@[simp] theorem State.position_modContext (s : State) (c : CtxId) (f : Context → Context) : (s.modContext c f).position = s.position := by unfold State.modContext; split <;> rfl
@[simp] theorem State.jobs_modContext (s : State) (c : CtxId) (f : Context → Context) : (s.modContext c f).jobs = s.jobs := by unfold State.modContext; split <;> rfl
@[simp] theorem State.windows_modContext (s : State) (c : CtxId) (f : Context → Context) : (s.modContext c f).windows = s.windows := by unfold State.modContext; split <;> rfl
@[simp] theorem State.links_modContext (s : State) (c : CtxId) (f : Context → Context) : (s.modContext c f).links = s.links := by unfold State.modContext; split <;> rfl
@[simp] theorem State.unreachable_modContext (s : State) (c : CtxId) (f : Context → Context) : (s.modContext c f).unreachable = s.unreachable := by unfold State.modContext; split <;> rfl
@[simp] theorem State.cycle_modContext (s : State) (c : CtxId) (f : Context → Context) : (s.modContext c f).cycle = s.cycle := by unfold State.modContext; split <;> rfl
@[simp] theorem State.agenda_modContext (s : State) (c : CtxId) (f : Context → Context) : (s.modContext c f).agenda = s.agenda := by unfold State.modContext; split <;> rfl
@[simp] theorem State.turn_modContext (s : State) (c : CtxId) (f : Context → Context) : (s.modContext c f).turn = s.turn := by unfold State.modContext; split <;> rfl
@[simp] theorem State.picks_modContext (s : State) (c : CtxId) (f : Context → Context) : (s.modContext c f).picks = s.picks := by unfold State.modContext; split <;> rfl
@[simp] theorem State.cur_modContext (s : State) (c : CtxId) (f : Context → Context) : (s.modContext c f).cur = s.cur := by unfold State.modContext; split <;> rfl
@[simp] theorem State.latch_modContext (s : State) (c : CtxId) (f : Context → Context) : (s.modContext c f).latch = s.latch := by unfold State.modContext; split <;> rfl
@[simp] theorem State.fresh_modContext (s : State) (c : CtxId) (f : Context → Context) : (s.modContext c f).fresh = s.fresh := by unfold State.modContext; split <;> rfl

/-! ### modLaunch -/

@[simp] theorem State.strands_modLaunch (s : State) (n : Nat) (f : Launch → Launch) : (s.modLaunch n f).strands = s.strands := by unfold State.modLaunch; split <;> rfl
@[simp] theorem State.cores_modLaunch (s : State) (n : Nat) (f : Launch → Launch) : (s.modLaunch n f).cores = s.cores := by unfold State.modLaunch; split <;> rfl
@[simp] theorem State.clusters_modLaunch (s : State) (n : Nat) (f : Launch → Launch) : (s.modLaunch n f).clusters = s.clusters := by unfold State.modLaunch; split <;> rfl
@[simp] theorem State.dies_modLaunch (s : State) (n : Nat) (f : Launch → Launch) : (s.modLaunch n f).dies = s.dies := by unfold State.modLaunch; split <;> rfl
@[simp] theorem State.places_modLaunch (s : State) (n : Nat) (f : Launch → Launch) : (s.modLaunch n f).places = s.places := by unfold State.modLaunch; split <;> rfl
@[simp] theorem State.hist_modLaunch (s : State) (n : Nat) (f : Launch → Launch) : (s.modLaunch n f).hist = s.hist := by unfold State.modLaunch; split <;> rfl
@[simp] theorem State.contexts_modLaunch (s : State) (n : Nat) (f : Launch → Launch) : (s.modLaunch n f).contexts = s.contexts := by unfold State.modLaunch; split <;> rfl
@[simp] theorem State.mem_modLaunch (s : State) (n : Nat) (f : Launch → Launch) : (s.modLaunch n f).mem = s.mem := by unfold State.modLaunch; split <;> rfl
@[simp] theorem State.empties_modLaunch (s : State) (n : Nat) (f : Launch → Launch) : (s.modLaunch n f).empties = s.empties := by unfold State.modLaunch; split <;> rfl
@[simp] theorem State.tags_modLaunch (s : State) (n : Nat) (f : Launch → Launch) : (s.modLaunch n f).tags = s.tags := by unfold State.modLaunch; split <;> rfl
@[simp] theorem State.owners_modLaunch (s : State) (n : Nat) (f : Launch → Launch) : (s.modLaunch n f).owners = s.owners := by unfold State.modLaunch; split <;> rfl
@[simp] theorem State.poisoned_modLaunch (s : State) (n : Nat) (f : Launch → Launch) : (s.modLaunch n f).poisoned = s.poisoned := by unfold State.modLaunch; split <;> rfl
@[simp] theorem State.cxlDirty_modLaunch (s : State) (n : Nat) (f : Launch → Launch) : (s.modLaunch n f).cxlDirty = s.cxlDirty := by unfold State.modLaunch; split <;> rfl
@[simp] theorem State.grants_modLaunch (s : State) (n : Nat) (f : Launch → Launch) : (s.modLaunch n f).grants = s.grants := by unfold State.modLaunch; split <;> rfl
@[simp] theorem State.offers_modLaunch (s : State) (n : Nat) (f : Launch → Launch) : (s.modLaunch n f).offers = s.offers := by unfold State.modLaunch; split <;> rfl
@[simp] theorem State.posted_modLaunch (s : State) (n : Nat) (f : Launch → Launch) : (s.modLaunch n f).posted = s.posted := by unfold State.modLaunch; split <;> rfl
@[simp] theorem State.eventWaits_modLaunch (s : State) (n : Nat) (f : Launch → Launch) : (s.modLaunch n f).eventWaits = s.eventWaits := by unfold State.modLaunch; split <;> rfl
@[simp] theorem State.xlate_modLaunch (s : State) (n : Nat) (f : Launch → Launch) : (s.modLaunch n f).xlate = s.xlate := by unfold State.modLaunch; split <;> rfl
@[simp] theorem State.reissue_modLaunch (s : State) (n : Nat) (f : Launch → Launch) : (s.modLaunch n f).reissue = s.reissue := by unfold State.modLaunch; split <;> rfl
@[simp] theorem State.diemap_modLaunch (s : State) (n : Nat) (f : Launch → Launch) : (s.modLaunch n f).diemap = s.diemap := by unfold State.modLaunch; split <;> rfl
@[simp] theorem State.memsize_modLaunch (s : State) (n : Nat) (f : Launch → Launch) : (s.modLaunch n f).memsize = s.memsize := by unfold State.modLaunch; split <;> rfl
@[simp] theorem State.ewt_modLaunch (s : State) (n : Nat) (f : Launch → Launch) : (s.modLaunch n f).ewt = s.ewt := by unfold State.modLaunch; split <;> rfl
@[simp] theorem State.smpctl_modLaunch (s : State) (n : Nat) (f : Launch → Launch) : (s.modLaunch n f).smpctl = s.smpctl := by unfold State.modLaunch; split <;> rfl
@[simp] theorem State.pulses_modLaunch (s : State) (n : Nat) (f : Launch → Launch) : (s.modLaunch n f).pulses = s.pulses := by unfold State.modLaunch; split <;> rfl
@[simp] theorem State.pulseDue_modLaunch (s : State) (n : Nat) (f : Launch → Launch) : (s.modLaunch n f).pulseDue = s.pulseDue := by unfold State.modLaunch; split <;> rfl
@[simp] theorem State.out_modLaunch (s : State) (n : Nat) (f : Launch → Launch) : (s.modLaunch n f).out = s.out := by unfold State.modLaunch; split <;> rfl
@[simp] theorem State.heirs_modLaunch (s : State) (n : Nat) (f : Launch → Launch) : (s.modLaunch n f).heirs = s.heirs := by unfold State.modLaunch; split <;> rfl
@[simp] theorem State.errors_modLaunch (s : State) (n : Nat) (f : Launch → Launch) : (s.modLaunch n f).errors = s.errors := by unfold State.modLaunch; split <;> rfl
@[simp] theorem State.boot_modLaunch (s : State) (n : Nat) (f : Launch → Launch) : (s.modLaunch n f).boot = s.boot := by unfold State.modLaunch; split <;> rfl
@[simp] theorem State.nvme_modLaunch (s : State) (n : Nat) (f : Launch → Launch) : (s.modLaunch n f).nvme = s.nvme := by unfold State.modLaunch; split <;> rfl
@[simp] theorem State.firmware_modLaunch (s : State) (n : Nat) (f : Launch → Launch) : (s.modLaunch n f).firmware = s.firmware := by unfold State.modLaunch; split <;> rfl
@[simp] theorem State.reports_modLaunch (s : State) (n : Nat) (f : Launch → Launch) : (s.modLaunch n f).reports = s.reports := by unfold State.modLaunch; split <;> rfl
@[simp] theorem State.reads_modLaunch (s : State) (n : Nat) (f : Launch → Launch) : (s.modLaunch n f).reads = s.reads := by unfold State.modLaunch; split <;> rfl
@[simp] theorem State.debugReads_modLaunch (s : State) (n : Nat) (f : Launch → Launch) : (s.modLaunch n f).debugReads = s.debugReads := by unfold State.modLaunch; split <;> rfl
@[simp] theorem State.position_modLaunch (s : State) (n : Nat) (f : Launch → Launch) : (s.modLaunch n f).position = s.position := by unfold State.modLaunch; split <;> rfl
@[simp] theorem State.jobs_modLaunch (s : State) (n : Nat) (f : Launch → Launch) : (s.modLaunch n f).jobs = s.jobs := by unfold State.modLaunch; split <;> rfl
@[simp] theorem State.windows_modLaunch (s : State) (n : Nat) (f : Launch → Launch) : (s.modLaunch n f).windows = s.windows := by unfold State.modLaunch; split <;> rfl
@[simp] theorem State.links_modLaunch (s : State) (n : Nat) (f : Launch → Launch) : (s.modLaunch n f).links = s.links := by unfold State.modLaunch; split <;> rfl
@[simp] theorem State.unreachable_modLaunch (s : State) (n : Nat) (f : Launch → Launch) : (s.modLaunch n f).unreachable = s.unreachable := by unfold State.modLaunch; split <;> rfl
@[simp] theorem State.cycle_modLaunch (s : State) (n : Nat) (f : Launch → Launch) : (s.modLaunch n f).cycle = s.cycle := by unfold State.modLaunch; split <;> rfl
@[simp] theorem State.agenda_modLaunch (s : State) (n : Nat) (f : Launch → Launch) : (s.modLaunch n f).agenda = s.agenda := by unfold State.modLaunch; split <;> rfl
@[simp] theorem State.turn_modLaunch (s : State) (n : Nat) (f : Launch → Launch) : (s.modLaunch n f).turn = s.turn := by unfold State.modLaunch; split <;> rfl
@[simp] theorem State.picks_modLaunch (s : State) (n : Nat) (f : Launch → Launch) : (s.modLaunch n f).picks = s.picks := by unfold State.modLaunch; split <;> rfl
@[simp] theorem State.cur_modLaunch (s : State) (n : Nat) (f : Launch → Launch) : (s.modLaunch n f).cur = s.cur := by unfold State.modLaunch; split <;> rfl
@[simp] theorem State.latch_modLaunch (s : State) (n : Nat) (f : Launch → Launch) : (s.modLaunch n f).latch = s.latch := by unfold State.modLaunch; split <;> rfl
@[simp] theorem State.fresh_modLaunch (s : State) (n : Nat) (f : Launch → Launch) : (s.modLaunch n f).fresh = s.fresh := by unfold State.modLaunch; split <;> rfl

/-! ### setFull -/

@[simp] theorem State.strands_setFull (s : State) (k : Nat) (b : Bool) : (s.setFull k b).strands = s.strands := by unfold State.setFull; split <;> rfl
@[simp] theorem State.cores_setFull (s : State) (k : Nat) (b : Bool) : (s.setFull k b).cores = s.cores := by unfold State.setFull; split <;> rfl
@[simp] theorem State.clusters_setFull (s : State) (k : Nat) (b : Bool) : (s.setFull k b).clusters = s.clusters := by unfold State.setFull; split <;> rfl
@[simp] theorem State.dies_setFull (s : State) (k : Nat) (b : Bool) : (s.setFull k b).dies = s.dies := by unfold State.setFull; split <;> rfl
@[simp] theorem State.places_setFull (s : State) (k : Nat) (b : Bool) : (s.setFull k b).places = s.places := by unfold State.setFull; split <;> rfl
@[simp] theorem State.hist_setFull (s : State) (k : Nat) (b : Bool) : (s.setFull k b).hist = s.hist := by unfold State.setFull; split <;> rfl
@[simp] theorem State.contexts_setFull (s : State) (k : Nat) (b : Bool) : (s.setFull k b).contexts = s.contexts := by unfold State.setFull; split <;> rfl
@[simp] theorem State.launches_setFull (s : State) (k : Nat) (b : Bool) : (s.setFull k b).launches = s.launches := by unfold State.setFull; split <;> rfl
@[simp] theorem State.mem_setFull (s : State) (k : Nat) (b : Bool) : (s.setFull k b).mem = s.mem := by unfold State.setFull; split <;> rfl
@[simp] theorem State.tags_setFull (s : State) (k : Nat) (b : Bool) : (s.setFull k b).tags = s.tags := by unfold State.setFull; split <;> rfl
@[simp] theorem State.owners_setFull (s : State) (k : Nat) (b : Bool) : (s.setFull k b).owners = s.owners := by unfold State.setFull; split <;> rfl
@[simp] theorem State.poisoned_setFull (s : State) (k : Nat) (b : Bool) : (s.setFull k b).poisoned = s.poisoned := by unfold State.setFull; split <;> rfl
@[simp] theorem State.cxlDirty_setFull (s : State) (k : Nat) (b : Bool) : (s.setFull k b).cxlDirty = s.cxlDirty := by unfold State.setFull; split <;> rfl
@[simp] theorem State.grants_setFull (s : State) (k : Nat) (b : Bool) : (s.setFull k b).grants = s.grants := by unfold State.setFull; split <;> rfl
@[simp] theorem State.offers_setFull (s : State) (k : Nat) (b : Bool) : (s.setFull k b).offers = s.offers := by unfold State.setFull; split <;> rfl
@[simp] theorem State.posted_setFull (s : State) (k : Nat) (b : Bool) : (s.setFull k b).posted = s.posted := by unfold State.setFull; split <;> rfl
@[simp] theorem State.eventWaits_setFull (s : State) (k : Nat) (b : Bool) : (s.setFull k b).eventWaits = s.eventWaits := by unfold State.setFull; split <;> rfl
@[simp] theorem State.xlate_setFull (s : State) (k : Nat) (b : Bool) : (s.setFull k b).xlate = s.xlate := by unfold State.setFull; split <;> rfl
@[simp] theorem State.reissue_setFull (s : State) (k : Nat) (b : Bool) : (s.setFull k b).reissue = s.reissue := by unfold State.setFull; split <;> rfl
@[simp] theorem State.diemap_setFull (s : State) (k : Nat) (b : Bool) : (s.setFull k b).diemap = s.diemap := by unfold State.setFull; split <;> rfl
@[simp] theorem State.memsize_setFull (s : State) (k : Nat) (b : Bool) : (s.setFull k b).memsize = s.memsize := by unfold State.setFull; split <;> rfl
@[simp] theorem State.ewt_setFull (s : State) (k : Nat) (b : Bool) : (s.setFull k b).ewt = s.ewt := by unfold State.setFull; split <;> rfl
@[simp] theorem State.smpctl_setFull (s : State) (k : Nat) (b : Bool) : (s.setFull k b).smpctl = s.smpctl := by unfold State.setFull; split <;> rfl
@[simp] theorem State.pulses_setFull (s : State) (k : Nat) (b : Bool) : (s.setFull k b).pulses = s.pulses := by unfold State.setFull; split <;> rfl
@[simp] theorem State.pulseDue_setFull (s : State) (k : Nat) (b : Bool) : (s.setFull k b).pulseDue = s.pulseDue := by unfold State.setFull; split <;> rfl
@[simp] theorem State.out_setFull (s : State) (k : Nat) (b : Bool) : (s.setFull k b).out = s.out := by unfold State.setFull; split <;> rfl
@[simp] theorem State.heirs_setFull (s : State) (k : Nat) (b : Bool) : (s.setFull k b).heirs = s.heirs := by unfold State.setFull; split <;> rfl
@[simp] theorem State.errors_setFull (s : State) (k : Nat) (b : Bool) : (s.setFull k b).errors = s.errors := by unfold State.setFull; split <;> rfl
@[simp] theorem State.boot_setFull (s : State) (k : Nat) (b : Bool) : (s.setFull k b).boot = s.boot := by unfold State.setFull; split <;> rfl
@[simp] theorem State.nvme_setFull (s : State) (k : Nat) (b : Bool) : (s.setFull k b).nvme = s.nvme := by unfold State.setFull; split <;> rfl
@[simp] theorem State.firmware_setFull (s : State) (k : Nat) (b : Bool) : (s.setFull k b).firmware = s.firmware := by unfold State.setFull; split <;> rfl
@[simp] theorem State.reports_setFull (s : State) (k : Nat) (b : Bool) : (s.setFull k b).reports = s.reports := by unfold State.setFull; split <;> rfl
@[simp] theorem State.reads_setFull (s : State) (k : Nat) (b : Bool) : (s.setFull k b).reads = s.reads := by unfold State.setFull; split <;> rfl
@[simp] theorem State.debugReads_setFull (s : State) (k : Nat) (b : Bool) : (s.setFull k b).debugReads = s.debugReads := by unfold State.setFull; split <;> rfl
@[simp] theorem State.position_setFull (s : State) (k : Nat) (b : Bool) : (s.setFull k b).position = s.position := by unfold State.setFull; split <;> rfl
@[simp] theorem State.jobs_setFull (s : State) (k : Nat) (b : Bool) : (s.setFull k b).jobs = s.jobs := by unfold State.setFull; split <;> rfl
@[simp] theorem State.windows_setFull (s : State) (k : Nat) (b : Bool) : (s.setFull k b).windows = s.windows := by unfold State.setFull; split <;> rfl
@[simp] theorem State.links_setFull (s : State) (k : Nat) (b : Bool) : (s.setFull k b).links = s.links := by unfold State.setFull; split <;> rfl
@[simp] theorem State.unreachable_setFull (s : State) (k : Nat) (b : Bool) : (s.setFull k b).unreachable = s.unreachable := by unfold State.setFull; split <;> rfl
@[simp] theorem State.cycle_setFull (s : State) (k : Nat) (b : Bool) : (s.setFull k b).cycle = s.cycle := by unfold State.setFull; split <;> rfl
@[simp] theorem State.agenda_setFull (s : State) (k : Nat) (b : Bool) : (s.setFull k b).agenda = s.agenda := by unfold State.setFull; split <;> rfl
@[simp] theorem State.turn_setFull (s : State) (k : Nat) (b : Bool) : (s.setFull k b).turn = s.turn := by unfold State.setFull; split <;> rfl
@[simp] theorem State.picks_setFull (s : State) (k : Nat) (b : Bool) : (s.setFull k b).picks = s.picks := by unfold State.setFull; split <;> rfl
@[simp] theorem State.cur_setFull (s : State) (k : Nat) (b : Bool) : (s.setFull k b).cur = s.cur := by unfold State.setFull; split <;> rfl
@[simp] theorem State.latch_setFull (s : State) (k : Nat) (b : Bool) : (s.setFull k b).latch = s.latch := by unfold State.setFull; split <;> rfl
@[simp] theorem State.fresh_setFull (s : State) (k : Nat) (b : Bool) : (s.setFull k b).fresh = s.fresh := by unfold State.setFull; split <;> rfl

end Sys2Proof.Machine
end

