-- ==== Sys2Proof/Laws/Tables.lean ====
section
/-! SUPPORT. Tables: what a table reads as after one key is written or removed, and the same for the tasks, cores, clusters, dies, places,
contexts and launches of a state. -/

namespace Sys2Proof.Machine

theorem Table.find_put_same {κ α : Type} [DecidableEq κ] (k : κ) (v : α) (t : Table κ α) : Table.find k (Table.put k v t) = some v := by
  induction t with
  | nil => simp [Table.put, Table.find]
  | cons e t ih =>
    obtain ⟨k', v'⟩ := e
    by_cases hk : k' = k
    · simp [Table.put, Table.find, hk]
    · simp [Table.put, Table.find, hk, ih]

theorem Table.find_put_other {κ α : Type} [DecidableEq κ] (k j : κ) (v : α) (t : Table κ α) (hne : j ≠ k) :
    Table.find j (Table.put k v t) = Table.find j t := by
  induction t with
  | nil => simp [Table.put, Table.find, Ne.symm hne]
  | cons e t ih =>
    obtain ⟨k', v'⟩ := e
    by_cases hk : k' = k
    · subst hk; simp [Table.put, Table.find, Ne.symm hne]
    · simp only [Table.put, hk, if_false, Table.find, ih]

theorem Table.find_remove_same {κ α : Type} [DecidableEq κ] (k : κ) (t : Table κ α) : Table.find k (Table.remove k t) = none := by
  induction t with
  | nil => simp [Table.remove, Table.find]
  | cons e t ih =>
    obtain ⟨k', v'⟩ := e
    by_cases hk : k' = k <;> simp [Table.remove, Table.find, hk, ih]

theorem Table.find_remove_other {κ α : Type} [DecidableEq κ] (k j : κ) (t : Table κ α) (hne : j ≠ k) :
    Table.find j (Table.remove k t) = Table.find j t := by
  induction t with
  | nil => simp [Table.remove, Table.find]
  | cons e t ih =>
    obtain ⟨k', v'⟩ := e
    by_cases hk : k' = k
    · subst hk; simp [Table.remove, Table.find, ih, Ne.symm hne]
    · simp only [Table.remove, hk, if_false, Table.find, ih]

theorem Table.get_put_same {κ α : Type} [DecidableEq κ] (d : α) (k : κ) (v : α) (t : Table κ α) : Table.get d k (Table.put k v t) = v := by
  simp [Table.get, Table.find_put_same]

theorem Table.get_put_other {κ α : Type} [DecidableEq κ] (d : α) (k j : κ) (v : α) (t : Table κ α) (hne : j ≠ k) :
    Table.get d j (Table.put k v t) = Table.get d j t := by
  simp [Table.get, Table.find_put_other k j v t hne]

/-! ### Reads of a state after an update of the same table -/

@[simp] theorem State.strand?_setStrand_same (s : State) (h : Handle) (x : Strand) : (s.setStrand h x).strand? h = some x :=
  Table.find_put_same h x s.strands

theorem State.strand?_setStrand_other (s : State) (h k : Handle) (x : Strand) (hne : k ≠ h) :
    (s.setStrand h x).strand? k = s.strand? k := Table.find_put_other h k x s.strands hne

@[simp] theorem State.strand?_dropStrand_same (s : State) (h : Handle) : (s.dropStrand h).strand? h = none :=
  Table.find_remove_same h s.strands

theorem State.strand?_dropStrand_other (s : State) (h k : Handle) (hne : k ≠ h) : (s.dropStrand h).strand? k = s.strand? k :=
  Table.find_remove_other h k s.strands hne

@[simp] theorem State.core_setCore_same (s : State) (c : CoreId) (x : Core) : (s.setCore c x).core c = x :=
  Table.get_put_same Core.reset c x s.cores

theorem State.core_setCore_other (s : State) (c k : CoreId) (x : Core) (hne : k ≠ c) : (s.setCore c x).core k = s.core k :=
  Table.get_put_other Core.reset c k x s.cores hne

@[simp] theorem State.cluster_modCluster_same (s : State) (c : ClusterId) (f : Cluster → Cluster) :
    (s.modCluster c f).cluster c = f (s.cluster c) := Table.get_put_same Cluster.reset c (f (s.cluster c)) s.clusters

theorem State.cluster_modCluster_other (s : State) (c k : ClusterId) (f : Cluster → Cluster) (hne : k ≠ c) :
    (s.modCluster c f).cluster k = s.cluster k := Table.get_put_other Cluster.reset c k (f (s.cluster c)) s.clusters hne

@[simp] theorem State.die_modDie_same (s : State) (d : BitVec 2) (f : Die → Die) : (s.modDie d f).die d = f (s.die d) :=
  Table.get_put_same Die.reset d (f (s.die d)) s.dies

theorem State.die_modDie_other (s : State) (d k : BitVec 2) (f : Die → Die) (hne : k ≠ d) : (s.modDie d f).die k = s.die k :=
  Table.get_put_other Die.reset d k (f (s.die d)) s.dies hne

@[simp] theorem State.place_modPlace_same (s : State) (p : Place) (f : PlaceState → PlaceState) :
    (s.modPlace p f).place p = f (s.place p) := Table.get_put_same PlaceState.reset p (f (s.place p)) s.places

theorem State.place_modPlace_other (s : State) (p k : Place) (f : PlaceState → PlaceState) (hne : k ≠ p) :
    (s.modPlace p f).place k = s.place k := Table.get_put_other PlaceState.reset p k (f (s.place p)) s.places hne

@[simp] theorem State.histSlice_modHist_same (s : State) (i : SliceId) (f : HistSlice → HistSlice) :
    (s.modHist i f).histSlice i = f (s.histSlice i) := Table.get_put_same HistSlice.reset i (f (s.histSlice i)) s.hist

theorem State.context?_modContext_same (s : State) (c : CtxId) (f : Context → Context) :
    (s.modContext c f).context? c = (s.context? c).map f := by
  unfold State.modContext
  split
  · next x hx => simp [State.context?, Table.find_put_same] at hx ⊢; simp [hx]
  · next hx => simp [hx]

theorem State.context?_modContext_other (s : State) (c k : CtxId) (f : Context → Context) (hne : k ≠ c) :
    (s.modContext c f).context? k = s.context? k := by
  unfold State.modContext
  split
  · exact Table.find_put_other c k _ s.contexts hne
  · rfl

/-! ### Reads of a state after an update of another table -/

@[simp] theorem State.strand?_setCore (s : State) (c : CoreId) (x : Core) (h : Handle) : (s.setCore c x).strand? h = s.strand? h := rfl
@[simp] theorem State.strand?_modContext (s : State) (c : CtxId) (f : Context → Context) (h : Handle) :
    (s.modContext c f).strand? h = s.strand? h := by simp [State.strand?]
@[simp] theorem State.strand?_modCluster (s : State) (c : ClusterId) (f : Cluster → Cluster) (h : Handle) :
    (s.modCluster c f).strand? h = s.strand? h := rfl
@[simp] theorem State.strand?_modDie (s : State) (d : BitVec 2) (f : Die → Die) (h : Handle) : (s.modDie d f).strand? h = s.strand? h := rfl
@[simp] theorem State.strand?_modPlace (s : State) (p : Place) (f : PlaceState → PlaceState) (h : Handle) :
    (s.modPlace p f).strand? h = s.strand? h := rfl
@[simp] theorem State.strand?_setFull (s : State) (k : Nat) (b : Bool) (h : Handle) : (s.setFull k b).strand? h = s.strand? h := by
  simp [State.strand?]
@[simp] theorem State.strand?_bump (s : State) (h : Handle) : s.bump.strand? h = s.strand? h := rfl
@[simp] theorem State.core_setStrand (s : State) (h : Handle) (x : Strand) (c : CoreId) : (s.setStrand h x).core c = s.core c := rfl
@[simp] theorem State.core_modContext (s : State) (k : CtxId) (f : Context → Context) (c : CoreId) :
    (s.modContext k f).core c = s.core c := by simp [State.core]
@[simp] theorem State.core_modCluster (s : State) (k : ClusterId) (f : Cluster → Cluster) (c : CoreId) :
    (s.modCluster k f).core c = s.core c := rfl
@[simp] theorem State.core_modDie (s : State) (d : BitVec 2) (f : Die → Die) (c : CoreId) : (s.modDie d f).core c = s.core c := rfl
@[simp] theorem State.core_modPlace (s : State) (p : Place) (f : PlaceState → PlaceState) (c : CoreId) :
    (s.modPlace p f).core c = s.core c := rfl
@[simp] theorem State.core_setFull (s : State) (k : Nat) (b : Bool) (c : CoreId) : (s.setFull k b).core c = s.core c := by simp [State.core]
@[simp] theorem State.core_bump (s : State) (c : CoreId) : s.bump.core c = s.core c := rfl
@[simp] theorem State.cluster_setStrand (s : State) (h : Handle) (x : Strand) (c : ClusterId) :
    (s.setStrand h x).cluster c = s.cluster c := rfl
@[simp] theorem State.cluster_setCore (s : State) (k : CoreId) (x : Core) (c : ClusterId) : (s.setCore k x).cluster c = s.cluster c := rfl
@[simp] theorem State.place_setStrand (s : State) (h : Handle) (x : Strand) (p : Place) : (s.setStrand h x).place p = s.place p := rfl
@[simp] theorem State.place_setCore (s : State) (k : CoreId) (x : Core) (p : Place) : (s.setCore k x).place p = s.place p := rfl
@[simp] theorem State.context?_setStrand (s : State) (h : Handle) (x : Strand) (c : CtxId) : (s.setStrand h x).context? c = s.context? c := rfl
@[simp] theorem State.context?_setCore (s : State) (k : CoreId) (x : Core) (c : CtxId) : (s.setCore k x).context? c = s.context? c := rfl

end Sys2Proof.Machine
end

