-- ==== Sys2Proof/Laws/Memory.lean ====
section
/-! SUPPORT. Memory: a byte written reads back and leaves every other byte alone, and every operation keeps the canonical form (DESIGN CHOICE, log entry 11). -/

namespace Sys2Proof.Machine

/-! ### The canonical form -/

theorem Memory.wfFrom_mono {lo lo' : Nat} (m : List Host.Cell) (hle : lo ≤ lo') (h : Memory.wfFrom lo' m = true) : Memory.wfFrom lo m = true := by
  cases m with
  | nil => rfl
  | cons e t =>
    obtain ⟨a, b⟩ := e
    simp only [Memory.wfFrom, Bool.and_eq_true, decide_eq_true_eq] at h ⊢
    exact ⟨⟨by omega, h.1.2⟩, h.2⟩

theorem Memory.wfFrom_write {lo : Nat} (m : List Host.Cell) (k : Nat) (v : Byte) (hk : lo ≤ k) (h : Memory.wfFrom lo m = true) :
    Memory.wfFrom lo (Memory.write m k v) = true := by
  induction m generalizing lo with
  | nil =>
    simp only [Memory.write]
    split
    · rfl
    · next hv => simp [Memory.wfFrom, hk, hv]
  | cons e t ih =>
    obtain ⟨a, b⟩ := e
    simp only [Memory.wfFrom, Bool.and_eq_true, decide_eq_true_eq, Bool.not_eq_true', decide_eq_false_iff_not] at h
    obtain ⟨⟨hla, hb⟩, ht⟩ := h
    simp only [Memory.write]
    by_cases hak : a = k
    · subst hak
      by_cases hv : v = Memory.unlisted
      · simpa [hv] using Memory.wfFrom_mono t (by omega) ht
      · simp [hv, Memory.wfFrom, hla, ht]
    · by_cases hlt : k < a
      · by_cases hv : v = Memory.unlisted
        · simp [hak, hlt, hv, Memory.wfFrom, hla, hb, ht]
        · simp [hak, hlt, hv, Memory.wfFrom, hk, hb, ht, Nat.succ_le_of_lt hlt]
      · simp only [hak, hlt, if_false, Memory.wfFrom, Bool.and_eq_true, decide_eq_true_eq, Bool.not_eq_true', decide_eq_false_iff_not]
        exact ⟨⟨hla, hb⟩, ih (by omega) ht⟩

/-- One byte written keeps the canonical form. -/
theorem Memory.wf_write (m : List Host.Cell) (k : Nat) (v : Byte) (h : Memory.wf m = true) : Memory.wf (Memory.write m k v) = true :=
  Memory.wfFrom_write m k v (Nat.zero_le k) h

/-- A number written keeps the canonical form. -/
theorem Memory.wf_writeN (n : Nat) : ∀ (m : List Host.Cell) (a v : Nat), Memory.wf m = true → Memory.wf (Memory.writeN m a n v) = true := by
  induction n with
  | zero => intro m a v h; exact h
  | succ n ih => intro m a v h; exact ih _ _ _ (Memory.wf_write m a _ h)

/-- A byte string written keeps the canonical form. -/
theorem Memory.wf_writeBytes (l : List Byte) : ∀ (m : List Host.Cell) (a : Nat), Memory.wf m = true → Memory.wf (Memory.writeBytes m a l) = true := by
  induction l with
  | nil => intro m a h; exact h
  | cons b t ih => intro m a h; exact ih _ _ (Memory.wf_write m a b h)

theorem Memory.wfFrom_filter (p : Host.Cell → Bool) {lo : Nat} (m : List Host.Cell) (h : Memory.wfFrom lo m = true) :
    Memory.wfFrom lo (m.filter p) = true := by
  induction m generalizing lo with
  | nil => rfl
  | cons e t ih =>
    obtain ⟨a, b⟩ := e
    simp only [Memory.wfFrom, Bool.and_eq_true, decide_eq_true_eq, Bool.not_eq_true', decide_eq_false_iff_not] at h
    simp only [List.filter_cons]
    split
    · simp only [Memory.wfFrom, Bool.and_eq_true, decide_eq_true_eq, Bool.not_eq_true', decide_eq_false_iff_not]
      exact ⟨h.1, ih h.2⟩
    · exact Memory.wfFrom_mono _ (by omega) (ih h.2)

/-- A range cleared keeps the canonical form. -/
theorem Memory.wf_clear (m : List Host.Cell) (lo hi : Nat) (h : Memory.wf m = true) : Memory.wf (Memory.clear m lo hi) = true :=
  Memory.wfFrom_filter _ m h

/-- Reset memory has the canonical form. -/
theorem State.reset_memory_wf : Memory.wf State.reset.mem = true := rfl

/-! ### Reads after writes -/

theorem Memory.read_below {lo : Nat} (m : List Host.Cell) (h : Memory.wfFrom lo m = true) (k : Nat) (hk : k < lo) : Memory.read m k = Memory.unlisted := by
  cases m with
  | nil => rfl
  | cons e t =>
    obtain ⟨a, b⟩ := e
    simp only [Memory.wfFrom, Bool.and_eq_true, decide_eq_true_eq] at h
    have h1 : a ≠ k := by omega
    have h2 : k < a := by omega
    simp [Memory.read, h1, h2]

theorem Memory.read_write_from {lo : Nat} (m : List Host.Cell) (k j : Nat) (v : Byte) (h : Memory.wfFrom lo m = true) :
    Memory.read (Memory.write m k v) j = if j = k then v else Memory.read m j := by
  induction m generalizing lo with
  | nil =>
    simp only [Memory.write]
    by_cases hv : v = Memory.unlisted
    · by_cases hj : j = k <;> simp [hv, hj, Memory.read]
    · by_cases hj : j = k
      · simp [hv, hj, Memory.read]
      · simp [hv, hj, Memory.read, Ne.symm hj]
  | cons e t ih =>
    obtain ⟨a, b⟩ := e
    simp only [Memory.wfFrom, Bool.and_eq_true, decide_eq_true_eq] at h
    obtain ⟨-, ht⟩ := h
    simp only [Memory.write]
    by_cases hak : a = k
    · subst hak
      by_cases hv : v = Memory.unlisted
      · simp only [hv, if_true]
        by_cases hj : j = a
        · subst hj; simp [Memory.read_below t ht j (by omega)]
        · by_cases hlt : j < a
          · simp [hj, Memory.read, Ne.symm hj, hlt, Memory.read_below t ht j (by omega)]
          · simp [hj, Memory.read, Ne.symm hj, hlt]
      · by_cases hj : j = a
        · simp [hv, hj, Memory.read]
        · simp [hv, hj, Memory.read, Ne.symm hj]
    · by_cases hlt : k < a
      · by_cases hv : v = Memory.unlisted
        · by_cases hj : j = k
          · subst hj; simp [hak, hlt, hv, Memory.read]
          · simp [hak, hlt, hv, hj]
        · by_cases hj : j = k
          · simp [hak, hlt, hv, hj, Memory.read]
          · by_cases hjk : j < k
            · have h1 : a ≠ j := by omega
              have h2 : j < a := by omega
              simp [hak, hlt, hv, hj, Memory.read, Ne.symm hj, hjk, h1, h2]
            · simp [hak, hlt, hv, hj, Memory.read, Ne.symm hj, hjk]
      · simp only [hak, hlt, if_false, Memory.read]
        by_cases hj : a = j
        · have : j ≠ k := by omega
          simp [hj, this]
        · by_cases hja : j < a
          · have : j ≠ k := by omega
            simp [hj, hja, this]
          · simp [hj, hja, ih ht]

/-- A byte written reads back, and every other byte reads as before. -/
theorem Memory.read_write (m : List Host.Cell) (k j : Nat) (v : Byte) (h : Memory.wf m = true) :
    Memory.read (Memory.write m k v) j = if j = k then v else Memory.read m j := Memory.read_write_from m k j v h

/-- Bytes outside a written number read as before. -/
theorem Memory.read_writeN_outside (n : Nat) : ∀ (m : List Host.Cell) (a v j : Nat), Memory.wf m = true → (j < a ∨ a + n ≤ j) →
    Memory.read (Memory.writeN m a n v) j = Memory.read m j := by
  induction n with
  | zero => intro m a v j _ _; rfl
  | succ n ih =>
    intro m a v j h hj
    have hne : j ≠ a := by omega
    rw [Memory.writeN, ih _ _ _ _ (Memory.wf_write m a _ h) (by omega), Memory.read_write m a j _ h, if_neg hne]

/-- A number written reads back, truncated to its bytes. -/
theorem Memory.readN_writeN (n : Nat) : ∀ (m : List Host.Cell) (a v : Nat), Memory.wf m = true →
    Memory.readN (Memory.writeN m a n v) a n = v % 256 ^ n := by
  induction n with
  | zero => intro m a v _; simp [Memory.readN, Nat.mod_one]
  | succ n ih =>
    intro m a v h
    have hw := Memory.wf_write m a (BitVec.ofNat 8 v) h
    rw [Memory.writeN, Memory.readN, ih _ _ _ hw, Memory.read_writeN_outside n _ _ _ _ hw (by omega), Memory.read_write m a a _ h,
      if_pos rfl, BitVec.toNat_ofNat, show (256 : Nat) ^ (n + 1) = 256 * 256 ^ n from Nat.pow_succ', Nat.mod_mul (a := 256)]

end Sys2Proof.Machine
end

