-- ==== Sys2Proof/Laws/Places.lean ====
section
/-! SUPPORT. What a place does, as it shows in memory: which bytes a data write changes, and that every operation over memory keeps its
canonical form. -/

namespace Sys2Proof.Machine

/-- Memory of a state stands in its canonical form. -/
abbrev State.memOk (s : State) : Prop := Memory.wf s.mem = true

/-! ### What leaves memory alone -/

@[simp] theorem State.mem_deliver (s : State) (h : Handle) (r : Reply ⊕ FaultInfo) : (s.deliver h r).mem = s.mem := by
  simp [State.deliver]

@[simp] theorem State.mem_answer (s : State) (h : Handle) (v : Word) : (s.answer h v).mem = s.mem := by simp [State.answer]

@[simp] theorem State.mem_reportEvents (s : State) (a n : Nat) : (s.reportEvents a n).mem = s.mem := by
  unfold State.reportEvents; split <;> rfl

@[simp] theorem State.mem_noteAccess (s : State) (p : Place) (k n : Nat) : (s.noteAccess p k n).mem = s.mem := by
  unfold State.noteAccess
  cases p <;> simp only
  split <;> rfl

@[simp] theorem State.mem_answerWatch (s : State) (p : Place) (e : Watch) : (s.answerWatch p e).mem = s.mem := by
  simp [State.answerWatch]

/-- A fold of updates that leave memory alone leaves it alone. -/
theorem foldl_mem {α : Type} (f : State → α → State) (hf : ∀ s x, (f s x).mem = s.mem) (l : List α) :
    ∀ s, (l.foldl f s).mem = s.mem := by
  induction l with
  | nil => intro s; rfl
  | cons x t ih => intro s; rw [List.foldl_cons, ih, hf]

/-- A fold of updates that keep a property keeps it. -/
theorem foldl_keeps {α : Type} (P : State → Prop) (f : State → α → State) (hf : ∀ s x, P s → P (f s x)) (l : List α) :
    ∀ s, P s → P (l.foldl f s) := by
  induction l with
  | nil => intro s h; exact h
  | cons x t ih => intro s h; exact ih _ (hf s x h)

@[simp] theorem State.mem_wakeWatch (s : State) (p : Place) (a n : Nat) : (s.wakeWatch p a n).mem = s.mem := by
  unfold State.wakeWatch
  simp only
  split
  · simp
  · rw [State.mem_modPlace, foldl_mem _ (fun s e => by simp)]; simp

@[simp] theorem State.mem_addWatch (s : State) (p : Place) (e : Watch) : (s.addWatch p e).mem = s.mem := by
  simp only [State.addWatch, State.mem_modPlace]
  split
  · split <;> simp
  · rfl

@[simp] theorem State.mem_loseArrivals (s : State) (p : Place) (k : Nat) : (s.loseArrivals p k).mem = s.mem := by
  unfold State.loseArrivals; split <;> rfl

@[simp] theorem State.mem_clearTag (s : State) (p : Place) (k : Nat) : (s.clearTag p k).mem = s.mem := by
  unfold State.clearTag; split <;> simp

@[simp] theorem State.mem_freeSeq (s : State) (p : Place) (k : Nat) : (s.freeSeq p k).mem = s.mem := by
  unfold State.freeSeq; split <;> rfl

@[simp] theorem State.mem_unpin (s : State) (p : Place) (k : Nat) : (s.unpin p k).mem = s.mem := by
  simp only [State.unpin]
  split
  · rfl
  · rw [foldl_mem _ (fun s d => by simp)]; simp

@[simp] theorem State.mem_dirty (s : State) (k : Nat) (c : CtxId) : (s.dirty k c).mem = s.mem := by
  unfold State.dirty; split <;> rfl

@[simp] theorem State.mem_withdraw (s : State) (h : Handle) : (s.withdraw h).mem = s.mem := by
  rw [State.withdraw, foldl_mem _ (fun s e => by simp)]

@[simp] theorem State.mem_enterStation (s : State) (p : Place) (w : Waiter) : (s.enterStation p w).1.mem = s.mem := by
  unfold State.enterStation; simp only; split <;> rfl

/-! ### The bytes of a data write -/

@[simp] theorem State.mem_put (s : State) (p : Place) (k n v : Nat) (q : Bool) : (s.put p k n v q).mem = Memory.writeN s.mem k n v := by
  simp only [State.put, State.mem_wakeWatch]
  split <;> simp

@[simp] theorem State.mem_putTagged (s : State) (p : Place) (k : Nat) (v : Word) :
    (s.putTagged p k v).mem = Memory.writeN s.mem k 8 v.toNat := by simp [State.putTagged]

theorem State.put_keeps (s : State) (p : Place) (k n v : Nat) (q : Bool) (hs : s.memOk) : (s.put p k n v q).memOk := by
  simpa [State.memOk] using Memory.wf_writeN n s.mem k v hs

theorem State.putTagged_keeps (s : State) (p : Place) (k : Nat) (v : Word) (hs : s.memOk) : (s.putTagged p k v).memOk := by
  simpa [State.memOk] using Memory.wf_writeN 8 s.mem k v.toNat hs

/-- A request that waited and is applied writes only where it is a waiting `stf`, and then its own word. -/
theorem State.applyWaiter_mem (s : State) (p : Place) (w : Waiter) :
    (s.applyWaiter p w).mem = if w.kind = 2 then Memory.writeN s.mem w.key 8 w.value.toNat else s.mem := by
  have hk : w.kind.toNat = 2 ↔ w.kind = 2 := by
    constructor
    · intro h; exact BitVec.eq_of_toNat_eq (by simpa using h)
    · intro h; rw [h]; rfl
  unfold State.applyWaiter
  split
  · next h => rw [if_neg (by rw [← hk]; omega)]; simp
  · next h => rw [if_neg (by rw [← hk]; omega)]; simp
  · next h => rw [if_neg (by rw [← hk]; omega)]; simp
  · next h =>
    rw [if_pos (hk.1 h)]
    simp only [State.mem_answer]
    split <;> simp
  · next h0 h1 h2 h3 =>
    rw [if_neg (fun h => h3 (hk.2 h))]
    cases s.isTagged w.key <;> simp

/-- The outcomes of a request that waited: it fails and leaves memory alone, or it is applied. -/
theorem State.performWaiter_mem (s : State) (p : Place) (w : Waiter) :
    (s.performWaiter p w).mem = s.mem ∨ (s.performWaiter p w).mem = Memory.writeN s.mem w.key 8 w.value.toNat := by
  unfold State.performWaiter
  split
  · exact .inl (by simp)
  · rw [State.applyWaiter_mem]
    split
    · exact .inr (by simp)
    · exact .inl (by simp)

theorem State.performWaiter_keeps (s : State) (p : Place) (w : Waiter) (hs : s.memOk) : (s.performWaiter p w).memOk := by
  unfold State.memOk
  obtain h | h := State.performWaiter_mem s p w <;> rw [h]
  · exact hs
  · exact Memory.wf_writeN 8 s.mem _ _ hs

theorem State.serveLoop_keeps (p : Place) (word n : Nat) : ∀ s : State, s.memOk → (s.serveLoop p word n).memOk := by
  induction n with
  | zero => intro s hs; exact hs
  | succ n ih =>
    intro s hs
    unfold State.serveLoop
    split
    · refine ih _ ?_
      rw [State.memOk, State.mem_unpin]
      exact State.performWaiter_keeps _ p _ (by simpa [State.memOk] using hs)
    · exact hs

theorem State.serve_keeps (s : State) (p : Place) (k : Nat) (hs : s.memOk) : (s.serve p k).memOk := by
  unfold State.serve
  split
  · exact hs
  · exact State.serveLoop_keeps p _ _ s hs

theorem State.store_keeps (s : State) (p : Place) (k n v : Nat) (b q : Bool) (hs : s.memOk) : (s.store p k n v b q).memOk := by
  refine State.serve_keeps _ p k (State.put_keeps _ p k n v q ?_)
  unfold State.memOk at *
  split
  · simpa using hs
  · exact hs

theorem State.applyAdd_keeps (s : State) (p : Place) (k : Nat) (f64 : Bool) (v : Word) (hs : s.memOk) : (s.applyAdd p k f64 v).1.memOk :=
  State.store_keeps s p k _ _ false true hs

theorem State.applyHeld_keeps (p : Place) (k : Nat) (f64 : Bool) (n : Nat) : ∀ s : State, s.memOk → (s.applyHeld p k f64 n).memOk := by
  induction n with
  | zero => intro s hs; exact hs
  | succ n ih =>
    intro s hs
    unfold State.applyHeld
    split
    · split
      · refine ih _ ?_
        simp only [State.memOk, State.mem_deliver, State.mem_modPlace]
        exact State.applyAdd_keeps _ p k f64 _ (by simpa [State.memOk] using hs)
      · exact hs
    · exact hs

/-- Serving a word for which nothing waits changes nothing. -/
theorem State.serve_idle (s : State) (p : Place) (k : Nat) (h : waitingAt s p k = []) : s.serve p k = s := by
  unfold State.serve
  split
  · rfl
  · next hne =>
    cases hn : (s.place p).station.length with
    | zero => rfl
    | succ n =>
      unfold State.serveLoop
      split
      · next w hw =>
        have hm := List.mem_of_find?_eq_some hw
        have hp := List.find?_some hw
        simp only [Bool.and_eq_true] at hp
        have : w ∈ waitingAt s p k := by
          simp only [waitingAt, List.mem_filter]
          refine ⟨hm, ?_⟩
          have h1 := hp.1
          simp only [beq_iff_eq] at h1 ⊢
          rw [h1]
        rw [h] at this
        exact absurd this List.not_mem_nil
      · rfl

/-! ### The device's writes -/

theorem State.deviceWrite_keeps (s : State) (own : CoreId) (ctx : CtxId) (ea : Word) (n v : Nat) (hs : s.memOk) :
    (s.deviceWrite own ctx ea n v).memOk := by
  unfold State.deviceWrite
  split
  · exact State.store_keeps s _ _ n v false false hs
  · exact hs

theorem State.deviceWriteWords_keeps (own : CoreId) (ctx : CtxId) (l : List Word) :
    ∀ (s : State) (ea : Word), s.memOk → (s.deviceWriteWords own ctx ea l).memOk := by
  induction l with
  | nil => intro s ea hs; exact hs
  | cons w t ih => intro s ea hs; exact ih _ _ (State.deviceWrite_keeps s own ctx ea 8 _ hs)

end Sys2Proof.Machine
end

