-- ==== Sys2Proof/Laws/Ops.lean ====
section
/-! SUPPORT. The shared operations of a strand: everything that the frame of an instruction, a commit, a wait and a trap can do, said once. -/

namespace Sys2Proof.Machine

/-! ### The frame of an instruction -/

/-- Everything that the frame of an instruction can answer: it stops where no task issues; else it answers the state of a guarded-off instruction,
of a commit, or of what the body raised. -/
theorem issue_cases (g : Option Guard) (s : State) (body : Handle → Strand → Res State) :
    (s.issuing = none ∧ issue g s body = .fault .noStrand) ∨
    ∃ h st, s.issuing = some (h, st) ∧
      ((guardHolds g st = false ∧ st.reissue = none ∧ issue g s body = .next (skip s h st)) ∨
       (∃ t, body h st = .ok t ∧ issue g s body = .next t) ∨
       (∃ e, body h st = .error e ∧ issue g s body = .next (raise s h st e))) := by
  unfold issue
  cases hi : s.issuing with
  | none => exact .inl ⟨rfl, rfl⟩
  | some x =>
    obtain ⟨h, st⟩ := x
    refine .inr ⟨h, st, rfl, ?_⟩
    by_cases hg : (guardHolds g st || st.reissue.isSome) = true
    · simp only [hg, if_true]
      cases hb : body h st with
      | ok t => exact .inr (.inl ⟨t, rfl, rfl⟩)
      | error e => exact .inr (.inr ⟨e, rfl, rfl⟩)
    · simp only [Bool.or_eq_true, not_or, Bool.not_eq_true, Option.isSome_eq_false_iff, Option.isNone_iff_eq_none] at hg
      refine .inl ⟨hg.1, hg.2, ?_⟩
      simp [hg.1, hg.2]

/-- An instruction whose guard holds answers what its body gives. -/
theorem issue_ok {g : Option Guard} {s : State} {body : Handle → Strand → Res State} {h : Handle} {st : Strand} {t : State}
    (hi : s.issuing = some (h, st)) (hg : guardHolds g st = true) (hb : body h st = .ok t) : issue g s body = .next t := by
  simp [issue, hi, hg, hb]

/-- An instruction whose guard holds and whose body raises something answers the state of that. -/
theorem issue_raise {g : Option Guard} {s : State} {body : Handle → Strand → Res State} {h : Handle} {st : Strand} {e : Exc}
    (hi : s.issuing = some (h, st)) (hg : guardHolds g st = true) (hb : body h st = .error e) :
    issue g s body = .next (raise s h st e) := by
  simp [issue, hi, hg, hb]

/-- An instruction whose guard holds, written through what its body gives. -/
theorem issue_of {g : Option Guard} {s : State} {body : Handle → Strand → Res State} {h : Handle} {st : Strand}
    (hi : s.issuing = some (h, st)) (hg : guardHolds g st = true) :
    issue g s body = match body h st with
      | .ok t => .next t
      | .error e => .next (raise s h st e) := by
  cases hb : body h st <;> simp [issue, hi, hg, hb]

/-- Sequencing of what a body gives. -/
@[simp] theorem Res.ok_bind {α β : Type} (x : α) (f : α → Res β) : (Except.ok x >>= f) = f x := rfl
@[simp] theorem Res.error_bind {α β : Type} (e : Exc) (f : α → Res β) : ((Except.error e : Res α) >>= f) = .error e := rfl

/-- A guarded-off instruction answers the state in which only the PC has moved (R36). -/
theorem issue_off {g : Option Guard} {s : State} {body : Handle → Strand → Res State} {h : Handle} {st : Strand}
    (hi : s.issuing = some (h, st)) (hr : st.reissue = none) (hg : guardHolds g st = false) :
    issue g s body = .next (skip s h st) := by
  simp [issue, hi, hg, hr]

/-! ### Commits -/

/-- A commit whose destination has room. -/
theorem retireAt_room {s : State} {h : Handle} {st : Strand} {srcs : List Reg} {dst : Option (Reg × Word)} {pc : Word}
    (hr : hasRoom (s.core st.core) h srcs dst = none) : retireAt s h st srcs dst pc = .ok (commitAt s h st srcs dst pc) := by
  simp [retireAt, hr]

theorem retire_room {s : State} {h : Handle} {st : Strand} {srcs : List Reg} {dst : Option (Reg × Word)}
    (hr : hasRoom (s.core st.core) h srcs dst = none) : retire s h st srcs dst = .ok (commitAt s h st srcs dst (nextPc s st)) :=
  retireAt_room hr

@[simp] theorem hasRoom_none (c : Core) (h : Handle) (srcs : List Reg) : hasRoom c h srcs none = none := rfl
@[simp] theorem hasRoom_g (c : Core) (h : Handle) (srcs : List Reg) (i : Fin 24) (v : Word) : hasRoom c h srcs (some (.g i, v)) = none := rfl
@[simp] theorem hasRoom_s (c : Core) (h : Handle) (srcs : List Reg) (i : Fin 4) (v : Word) : hasRoom c h srcs (some (.s i, v)) = none := rfl

/-- A commit without a destination always goes through. -/
@[simp] theorem retireAt_none (s : State) (h : Handle) (st : Strand) (srcs : List Reg) (pc : Word) :
    retireAt s h st srcs none pc = .ok (commitAt s h st srcs none pc) := rfl

/-- A commit to a general register always goes through. -/
@[simp] theorem retireAt_g (s : State) (h : Handle) (st : Strand) (srcs : List Reg) (i : Fin 24) (v pc : Word) :
    retireAt s h st srcs (some (.g i, v)) pc = .ok (commitAt s h st srcs (some (.g i, v)) pc) := rfl

@[simp] theorem retire_none (s : State) (h : Handle) (st : Strand) (srcs : List Reg) :
    retire s h st srcs none = .ok (commitAt s h st srcs none (nextPc s st)) := rfl

@[simp] theorem retire_g (s : State) (h : Handle) (st : Strand) (srcs : List Reg) (i : Fin 24) (v : Word) :
    retire s h st srcs (some (.g i, v)) = .ok (commitAt s h st srcs (some (.g i, v)) (nextPc s st)) := rfl

@[simp] theorem Strand.r_keepRecords (s : State) (h : Handle) (st : Strand) : (keepRecords s h st).r = st.r := by
  unfold keepRecords; split <;> rfl

@[simp] theorem commitAt_mem (s : State) (h : Handle) (st : Strand) (srcs : List Reg) (dst : Option (Reg × Word)) (pc : Word) :
    (commitAt s h st srcs dst pc).mem = s.mem := by simp [commitAt]

@[simp] theorem commitAt_clusters (s : State) (h : Handle) (st : Strand) (srcs : List Reg) (dst : Option (Reg × Word)) (pc : Word) :
    (commitAt s h st srcs dst pc).clusters = s.clusters := by simp [commitAt]

@[simp] theorem commitAt_dies (s : State) (h : Handle) (st : Strand) (srcs : List Reg) (dst : Option (Reg × Word)) (pc : Word) :
    (commitAt s h st srcs dst pc).dies = s.dies := by simp [commitAt]

@[simp] theorem commitAt_places (s : State) (h : Handle) (st : Strand) (srcs : List Reg) (dst : Option (Reg × Word)) (pc : Word) :
    (commitAt s h st srcs dst pc).places = s.places := by simp [commitAt]

/-- A commit leaves the strand with its destination written, the PC at the next instruction, and no wait. -/
theorem commitAt_strand (s : State) (h : Handle) (st : Strand) (srcs : List Reg) (dst : Option (Reg × Word)) (pc : Word) :
    (commitAt s h st srcs dst pc).strand? h = some (commitStrand (keepRecords s h st) dst pc) := by simp [commitAt]

theorem commitAt_strand_other (s : State) (h k : Handle) (st : Strand) (srcs : List Reg) (dst : Option (Reg × Word)) (pc : Word)
    (hne : k ≠ h) : (commitAt s h st srcs dst pc).strand? k = s.strand? k := by
  simp [commitAt, State.strand?_setStrand_other _ h k _ hne]

theorem commitAt_core (s : State) (h : Handle) (st : Strand) (srcs : List Reg) (dst : Option (Reg × Word)) (pc : Word) :
    (commitAt s h st srcs dst pc).core st.core = commitCore (s.core st.core) h s.cycle srcs dst := by simp [commitAt]

theorem commitAt_core_other (s : State) (h : Handle) (st : Strand) (srcs : List Reg) (dst : Option (Reg × Word)) (pc : Word) (c : CoreId)
    (hne : c ≠ st.core) : (commitAt s h st srcs dst pc).core c = s.core c := by
  simp [commitAt, State.core_setCore_other _ st.core c _ hne]

/-- What a commit leaves in the registers: the destination where it is general, and the PC. -/
theorem commitStrand_r (st : Strand) (dst : Option (Reg × Word)) (pc : Word) :
    (commitStrand st dst pc).r = { (match dst with
      | some (.g i, v) => (st.setG i v).r
      | _ => st.r) with pc := pc } := by
  unfold commitStrand
  split <;> simp_all

/-! ### Waits -/

@[simp] theorem park_mem (s : State) (h : Handle) (st : Strand) (w : Wait) : (park s h st w).mem = s.mem := by
  unfold park; cases w <;> simp

/-- A wait leaves the strand as it is, parked. -/
@[simp] theorem park_strand (s : State) (h : Handle) (st : Strand) (w : Wait) :
    (park s h st w).strand? h = some { st with status := .parked w } := by
  unfold park; cases w <;> simp

/-! ### Traps -/

/-- A trap outside a handler saves the PC in `trappc`, fills the trap records, sets the in-trap bit and goes to the handler (R101); the tile command that
was about to enter has no name any more (R272). -/
theorem enterTrap_outside (s : State) (h : Handle) (st : Strand) (t : TrapInfo) (hn : st.r.inTrap = false) :
    enterTrap s h st t = trapAt s h { st.reissued with tile := none } (if st.reissue.isSome then 0 else s.words) t := by simp [enterTrap, hn]

/-- A trap inside a handler freezes the task with DOUBLE_TRAP (R102). -/
theorem enterTrap_inside (s : State) (h : Handle) (st : Strand) (t : TrapInfo) (hn : st.r.inTrap = true) :
    enterTrap s h st t = freeze s h st (doubleTrap t) := by simp [enterTrap, hn]

/-- Returning from a trap clears the in-trap bit and goes to `trappc` (R102). -/
theorem leaveTrap_strand (s : State) (h : Handle) (st : Strand) :
    (leaveTrap s h st).strand? h = some { st with r := { st.r with inTrap := false, pc := st.r.trappc }, status := .ready, counted := false } := by
  simp [leaveTrap]

@[simp] theorem leaveTrap_mem (s : State) (h : Handle) (st : Strand) : (leaveTrap s h st).mem = s.mem := by simp [leaveTrap]

/-! ### Memory through a task's end, a fault, a trap and the frame of an instruction -/

@[simp] theorem dropReserved_mem (s : State) (x : Sender) : (dropReserved s x).mem = s.mem := by unfold dropReserved; simp only; split <;> rfl

@[simp] theorem dropOffers_mem (s : State) (x : Sender) : (dropOffers s x).mem = s.mem := by unfold dropOffers; simp only; split <;> rfl

@[simp] theorem leaveWaits_mem (s : State) (h : Handle) (st : Strand) : (leaveWaits s h st).mem = s.mem := by simp [leaveWaits]

@[simp] theorem mapInFlight_mem (s : State) (c : CoreId) (f : VCmd → VCmd) : (mapInFlight s c f).mem = s.mem := by simp [mapInFlight]

@[simp] theorem laterPrior_mem (s : State) (c : CoreId) (m : VCmd) (a : Fin 24) (p : Word × Bool) : (laterPrior s c m a p).mem = s.mem := by
  simp [laterPrior]

@[simp] theorem restoreDest_mem (s : State) (c : CoreId) (m : VCmd) : (restoreDest s c m).mem = s.mem := by
  simp only [restoreDest]
  repeat' split
  all_goals simp

@[simp] theorem restoreDests_mem (s : State) (c : CoreId) (gone : List VCmd) : (restoreDests s c gone).mem = s.mem :=
  foldl_mem _ (fun s m => restoreDest_mem s c m) _ s

@[simp] theorem abandonVector_mem (s : State) (c : CoreId) (h : Handle) : (abandonVector s c h).mem = s.mem := by simp [abandonVector]

@[simp] theorem abandonMatrix_mem (s : State) (c : CoreId) (h : Handle) : (abandonMatrix s c h).mem = s.mem := by
  simp [abandonMatrix, State.modQuad]

@[simp] theorem closeKeys_mem (s : State) (h : Handle) : (closeKeys s h).mem = s.mem := by
  unfold closeKeys
  refine foldl_mem _ (fun s e => ?_) s.hist s
  simp only
  split
  · rfl
  · rw [foldl_mem _ (fun s w => by simp)]; simp

/-! Element writes that a command still has to perform when commands of its core are abandoned (R49). -/

@[simp] theorem State.mem_charge (s : State) (ctx : CtxId) (k : Fin 8) (n : Nat) : (s.charge ctx k n).mem = s.mem := by simp [State.charge]

/-- All that an access of a slice, a page table walk and the walk that a fault reports change: they charge events to a context (R398). -/
theorem State.sliceEvents_charges (s : State) (ctx : CtxId) (k : Nat) (away : Bool) :
    ∃ l : List (Fin 8 × Nat), s.sliceEvents ctx k away = l.foldl (fun s e => s.charge ctx e.1 e.2) s := by
  unfold State.sliceEvents
  by_cases h : k < 2 ^ 48 <;> cases away <;> simp only [h, if_true, if_false, Bool.false_eq_true]
  · exact ⟨[(4, 1), (5, _)], rfl⟩
  · exact ⟨[(4, 1), (5, _), (6, _)], rfl⟩
  · exact ⟨[(4, 1)], rfl⟩
  · exact ⟨[(4, 1), (6, _)], rfl⟩

theorem State.walkReads_charges (cl : ClusterId) (ctx : CtxId) : ∀ (l : List Nat) (s : State), ∃ c : List (Fin 8 × Nat),
    l.foldl (fun s a => s.sliceEvents ctx a ((s.homeOf a).die != cl.die)) s = c.foldl (fun s e => s.charge ctx e.1 e.2) s
  | [], _ => ⟨[], rfl⟩
  | a :: t, s => by
    obtain ⟨c1, h1⟩ := s.sliceEvents_charges ctx a ((s.homeOf a).die != cl.die)
    obtain ⟨c2, h2⟩ := State.walkReads_charges cl ctx t (s.sliceEvents ctx a ((s.homeOf a).die != cl.die))
    exact ⟨c1 ++ c2, by rw [List.foldl_cons, h2, List.foldl_append, ← h1]⟩

theorem State.countWalk_charges (s : State) (cl : ClusterId) (ctx : CtxId) (va : Nat) :
    ∃ l : List (Fin 8 × Nat), s.countWalk cl ctx va = l.foldl (fun s e => s.charge ctx e.1 e.2) s := by
  unfold State.countWalk
  split
  · exact ⟨[], rfl⟩
  · split
    · exact State.walkReads_charges cl ctx _ s
    · exact ⟨[], rfl⟩

theorem countFault_charges (s : State) (st : Strand) (f : FaultInfo) :
    ∃ l : List (Fin 8 × Nat), countFault s st f = l.foldl (fun s e => s.charge st.ctx e.1 e.2) s := by
  unfold countFault
  split
  · exact s.countWalk_charges _ _ _
  · exact ⟨[], rfl⟩

theorem State.mem_charges (s : State) (ctx : CtxId) (l : List (Fin 8 × Nat)) : (l.foldl (fun s e => s.charge ctx e.1 e.2) s).mem = s.mem :=
  foldl_mem _ (fun s e => by simp) l s

@[simp] theorem State.mem_sliceEvents (s : State) (ctx : CtxId) (k : Nat) (away : Bool) : (s.sliceEvents ctx k away).mem = s.mem := by
  obtain ⟨l, h⟩ := s.sliceEvents_charges ctx k away; rw [h, State.mem_charges]

@[simp] theorem State.mem_countWalk (s : State) (cl : ClusterId) (ctx : CtxId) (va : Nat) : (s.countWalk cl ctx va).mem = s.mem := by
  obtain ⟨l, h⟩ := s.countWalk_charges cl ctx va; rw [h, State.mem_charges]

@[simp] theorem countFault_mem (s : State) (st : Strand) (f : FaultInfo) : (countFault s st f).mem = s.mem := by
  obtain ⟨l, h⟩ := countFault_charges s st f; rw [h, State.mem_charges]

@[simp] theorem State.mem_account (s : State) (ctx : CtxId) (p : Place) (k n : Nat) (away : Bool) : (s.account ctx p k n away).mem = s.mem := by
  unfold State.account; split <;> simp

@[simp] theorem leavePool_mem (s : State) (c : CoreId) (m : VCmd) : (leavePool s c m).mem = s.mem := rfl

theorem ElementWrite.perform_keeps (s : State) (h : Handle) (ctx : CtxId) (e : ElementWrite) (hs : s.memOk) : (ElementWrite.perform s h ctx e).memOk := by
  unfold ElementWrite.perform
  simp only [State.memOk, State.mem_modStrand, State.mem_dirty]
  exact State.store_keeps _ _ _ _ _ false false (by simpa [State.memOk] using hs)

theorem performWrites_keeps (h : Handle) (ctx : CtxId) (l : List ElementWrite) : ∀ s : State, s.memOk → (performWrites s h ctx l).memOk := by
  induction l with
  | nil => intro s hs; exact hs
  | cons e t ih => intro s hs; exact ih _ (ElementWrite.perform_keeps s h ctx e hs)

theorem commitStore_keeps (s : State) (c : CoreId) (m : VCmd) (hs : s.memOk) : (commitStore s c m).memOk := by
  unfold commitStore
  split
  · simp only [State.memOk, State.mem_charge, leavePool_mem]
    exact performWrites_keeps _ _ _ s hs
  · exact hs

theorem finishStores_keeps (s : State) (c : CoreId) (sel : VCmd → Bool) (hs : s.memOk) : (finishStores s c sel).memOk := by
  unfold finishStores
  generalize (s.core c).vec.running.filter (fun m => sel m && !m.owed.isEmpty) = l
  induction l generalizing s with
  | nil => exact hs
  | cons m t ih => exact ih _ (commitStore_keeps s c m hs)

/-- Where no command of a core still has element writes to perform, nothing is finished. -/
theorem finishStores_idle (s : State) (c : CoreId) (sel : VCmd → Bool) (h : ∀ m ∈ (s.core c).vec.running, sel m = true → m.owed = []) :
    finishStores s c sel = s := by
  unfold finishStores
  have : ((s.core c).vec.running.filter fun m => sel m && !m.owed.isEmpty) = [] := by
    rw [List.filter_eq_nil_iff]
    intro m hm
    cases hsel : sel m
    · simp
    · simp [h m hm hsel]
  rw [this]; rfl

/-- A task's end writes memory only by the stores of its commands that have begun. -/
theorem endTask_keeps (s : State) (h : Handle) (hs : s.memOk) : (endTask s h).memOk := by
  unfold endTask; split
  · rw [State.memOk, State.mem_dropStrand, State.mem_modContext, State.modCore_eq, State.mem_setCore, closeKeys_mem, abandonMatrix_mem,
      abandonVector_mem]
    exact finishStores_keeps _ _ _ (by simpa [State.memOk] using hs)
  · exact hs

/-- A fault writes memory only as the device's fault record. -/
theorem reportFault_keeps (s : State) (h : Handle) (st : Strand) (z : Frozen) (hs : s.memOk) : (reportFault s h st z).memOk := by
  unfold reportFault
  split
  · exact hs
  · split
    · simpa [State.memOk] using hs
    · simp only
      have h1 : (s.bump.modContext st.ctx fun x => { x with waitingRecord := dropAll (.task h) x.waitingRecord }).memOk := by
        simpa [State.memOk] using hs
      split
      · refine endTask_keeps _ _ ?_
        rw [State.memOk, State.mem_setStrand]
        exact State.deviceWriteWords_keeps _ _ _ _ _ h1
      · unfold State.memOk
        rw [State.mem_modCluster, State.mem_setStrand, State.mem_modContext]
        exact State.deviceWriteWords_keeps _ _ _ _ _ h1

@[simp] theorem notePoison_mem (s : State) (f : FaultInfo) : (notePoison s f).mem = s.mem := by unfold notePoison; split <;> rfl

theorem freezeAt_keeps (s : State) (h : Handle) (st : Strand) (f : FaultInfo) (pc : Word) (skip : Nat) (again : Option VCmd) (hs : s.memOk) :
    (freezeAt s h st f pc skip again).memOk := by
  unfold freezeAt
  exact reportFault_keeps _ _ _ _ (by simpa [State.memOk] using hs)

theorem freeze_keeps (s : State) (h : Handle) (st : Strand) (f : FaultInfo) (hs : s.memOk) : (freeze s h st f).memOk :=
  freezeAt_keeps s h _ f _ _ _ hs

/-- A trap leaves memory alone. -/
@[simp] theorem trapAt_mem (s : State) (h : Handle) (st : Strand) (n : Nat) (t : TrapInfo) : (trapAt s h st n t).mem = s.mem := by
  simp [trapAt]

theorem enterTrap_keeps (s : State) (h : Handle) (st : Strand) (t : TrapInfo) (hs : s.memOk) : (enterTrap s h st t).memOk := by
  unfold enterTrap
  split
  · exact freeze_keeps s h st _ hs
  · simpa [State.memOk] using hs

/-- What an exception brings along keeps memory canonical. -/
def Exc.memOk : Exc → Prop
  | .act s => s.memOk
  | _ => True

theorem raise_keeps (s : State) (h : Handle) (st : Strand) (e : Exc) (hs : s.memOk) (he : e.memOk) : (raise s h st e).memOk := by
  cases e with
  | trap t => exact enterTrap_keeps s h st t hs
  | fault f => exact freeze_keeps s h st f hs
  | park w => simpa [State.memOk, raise] using hs
  | act s' => exact he

/-- The frame of an instruction keeps memory canonical where its body does. -/
theorem issue_keeps {g : Option Guard} {s t : State} {body : Handle → Strand → Res State} (hs : s.memOk)
    (hok : ∀ h st t, body h st = .ok t → t.memOk) (herr : ∀ h st e, body h st = .error e → e.memOk)
    (ht : issue g s body = .next t) : t.memOk := by
  rcases issue_cases g s body with ⟨-, h⟩ | ⟨h, st, -, ⟨-, -, hc⟩ | ⟨t', hb, hc⟩ | ⟨e, hb, hc⟩⟩
  · rw [h] at ht; cases ht
  · rw [hc] at ht; cases ht
    simpa [State.memOk, skip] using hs
  · rw [hc] at ht; cases ht
    exact hok h st _ hb
  · rw [hc] at ht; cases ht
    exact raise_keeps s h st e hs (herr h st e hb)

/-- A commit keeps memory as it is, so that it stays canonical. -/
theorem retireAt_keeps {s t : State} {h : Handle} {st : Strand} {srcs : List Reg} {dst : Option (Reg × Word)} {pc : Word} (hs : s.memOk)
    (ht : retireAt s h st srcs dst pc = .ok t) : t.memOk := by
  unfold retireAt at ht
  split at ht
  · cases ht
  · cases ht; simpa [State.memOk] using hs

/-! ### Operations that are performed, not replayed (R392) -/

@[simp] theorem replayed_fresh {st : Strand} (k : Nat) (a : Word) (h : st.replay = none) : replayed st k a = .ok none := by simp [replayed, h]

@[simp] theorem Strand.core_record (st : Strand) (k n : Nat) (a : Word) (v : List Word) : (st.record k n a v).core = st.core := by
  unfold Strand.record; split <;> rfl
@[simp] theorem Strand.r_record (st : Strand) (k n : Nat) (a : Word) (v : List Word) : (st.record k n a v).r = st.r := by
  unfold Strand.record; split <;> rfl
@[simp] theorem Strand.redo_record (st : Strand) (k n : Nat) (a : Word) (v : List Word) : (st.record k n a v).redo = st.redo := by
  unfold Strand.record; split <;> rfl
@[simp] theorem Strand.replay_record (st : Strand) (k n : Nat) (a : Word) (v : List Word) : (st.record k n a v).replay = st.replay := by
  unfold Strand.record; split <;> rfl
@[simp] theorem Strand.core_setRange (l : List Word) : ∀ (st : Strand) (i : Fin 24), (st.setRange i l).core = st.core := by
  induction l with
  | nil => intro st i; rfl
  | cons v t ih => intro st i; simp [Strand.setRange, ih, Strand.setG]

end Sys2Proof.Machine
end

