-- ==== Sys2Proof/Tests/Slice0.lean ====
section
/-! SUPPORT. Tests: ill-formed terms, words of every family written out from the encoding tables, small steps whose results the manual gives, and for the
hypotheses of every statement a concrete state and operands that meet them. -/

open Sys2Proof Sys2Proof.Machine Sys2Proof.Safety

namespace Sys2Proof.Tests

-- One theorem after another: the kernel's checks in parallel would take a stack each.
set_option Elab.async false

/-! ### Ill-formed terms (R34, R38-R43, R50, R51 and the instruction entries) -/

theorem test_one_queue_in_two_sources : (Instr.add none .s64 (.g 0) (.q 1) (.q 1)).wf = false := by decide +kernel
theorem test_li_out_of_range : (Instr.li none (.g 0) 0x2000000000).wf = false := by decide +kernel
theorem test_li_in_range : (Instr.li none (.g 0) 0x1FFFFFFFFF).wf = true := by decide +kernel
theorem test_compare_unordered_integers : (Instr.cmp none .s64 .uo 1 (.g 0) (.g 1)).wf = false := by decide +kernel
theorem test_field_beyond_the_register : (Instr.bfx none false (.g 0) (.g 1) 60 4).wf = false := by decide +kernel
theorem test_stochastic_scalar_rounding : (Instr.fadd none .f32 .rst (.g 0) (.g 1) (.g 2)).wf = false := by decide +kernel
theorem test_fcvt_to_its_own_type : (Instr.fcvt none .f32 .f32 .rne (.g 0) (.g 1)).wf = false := by decide +kernel
theorem test_narrow_fe : (Instr.ld none .s32 ⟨.strand, .plain, false, true, false⟩ (.g 0) ⟨1, .disp 0⟩).wf = false := by decide +kernel
theorem test_narrow_ldf : (Instr.ldf none .s32 ⟨.strand, .plain, false, false, false⟩ (.g 0) ⟨1, .disp 0⟩).wf = false := by decide +kernel
theorem test_stf_keep : (Instr.stf none .s64 ⟨.strand, .plain, false, false, true⟩ (.g 0) ⟨1, .disp 0⟩).wf = false := by decide +kernel
theorem test_narrow_atomic : (Instr.amoAdd none .s16 ⟨.strand, .plain, false, false, false⟩ (.g 0) 1 (.g 2)).wf = false := by decide +kernel
theorem test_releasing_waita : (Instr.waita none .s64 ⟨.strand, .rel, false, false, false⟩ (.g 0) ⟨1, .disp 0⟩).wf = false := by decide +kernel
theorem test_send_past_g23 : (Instr.send none (.g 0) 22 3 3).wf = false := by decide +kernel
theorem test_recv_past_g23 : (Instr.recv none 18 1).wf = false := by decide +kernel
theorem test_recv_of_no_mailbox : (Instr.recv none 0 0).wf = false := by decide +kernel
theorem test_spawn_past_g23 : (Instr.spawn none false (.g 0) 20).wf = false := by decide +kernel
theorem test_claim_limits_crossed : (Instr.vclaim none 0 2 1).wf = false := by decide +kernel
theorem test_vld_of_a_microscaling_type : (Instr.vld none .mx4 0 ⟨1, .disp 0⟩).wf = false := by decide +kernel
theorem test_rounded_integer_vadd : (Instr.vadd none .s32 .rtz 0 1 2).wf = false := by decide +kernel
theorem test_vfma_of_integers : (Instr.vfma none .s32 .rne 0 1 2).wf = false := by decide +kernel
theorem test_vexp2_stochastic : (Instr.vexp2 none .rst 0 1).wf = false := by decide +kernel
theorem test_vcvt_between_integers : (Instr.vcvt none .s32 .n32 false .rne 0 1).wf = false := by decide +kernel
theorem test_dfrom_half_of_f64 : (Instr.dfrom none true true 0 0).wf = false := by decide +kernel
theorem test_mst_of_integers : (Instr.mst none .s32 .rne 0 1).wf = false := by decide +kernel
theorem test_rnd_past_g23 : (Instr.rnd none (.g 0) (.g 1) 23).wf = false := by decide +kernel
theorem test_hfront_past_g23 : (Instr.hfront none 22 (.g 0)).wf = false := by decide +kernel
theorem test_hget_past_g23 : (Instr.hget none (.g 0) (.g 1) 23).wf = false := by decide +kernel
theorem test_five_prefixes : (Instr.addi (some ⟨false, 0⟩) .s32 (.g 0) (.g 1) 0x1FFFFFFF).wf = false := by decide +kernel
theorem test_four_prefixes : (Instr.addi (some ⟨false, 0⟩) .s32 (.g 0) (.g 1) 0x1FFFFF).wf = true := by decide +kernel
theorem test_sysw_of_an_instruction_of_its_own : (Instr.sysw none (.g 0) 0x28).wf = false := by decide +kernel

/-! ### Words written out from R32-R44 and the entries -/

/-- `sub.n32 g7, g2, q1`: EXT C = 25, QUAL size 5, major 1 (R33, R35, R38, R39, R42, R44). -/
theorem test_word_sub : decode [0b1110111001000000#16, 0b1111100000000101#16, 0b0000010011100010#16] =
    .instr (.sub none .n32 (.g 7) (.g 2) (.q 1)) 3 := by decide +kernel
/-- `bfx.n64 g1, g2, 8, 16`: QUAL size 4, IMM 8 * 64 + 15, major 26 (R34, R113). -/
theorem test_word_bfx : decode [0b1111100000000100#16, 0b1110001000001111#16, 0b0110100000100010#16] =
    .instr (.bfx none false (.g 1) (.g 2) 8 15) 3 := by decide +kernel
/-- `fcvt.n32.bf16.rtz g1, g2`: QUAL rounding 1, source 0x02, class 7, major 43 (R38-R40, R123). -/
theorem test_word_fcvt : decode [0b1111100100010111#16, 0b1010110000100010#16] = .instr (.fcvt none .n32 .bf16 .rtz (.g 1) (.g 2)) 2 := by decide +kernel
/-- `ldf.keep g2, [g3 + g4]`: EXT C = 4, QUAL bit 3, major 46 (R38, R43, R128). -/
theorem test_word_ldf : decode [0b1110100100000000#16, 0b1111100000001000#16, 0b1011100001000011#16] =
    .instr (.ldf none .s64 ⟨.strand, .plain, false, false, true⟩ (.g 2) ⟨3, .index 4⟩) 3 := by decide +kernel
/-- `!p2? cas g2, [g1], g3`: EXT C = 3, G = 1, N = 1, P = 2, major 49 (R35, R135). -/
theorem test_word_cas : decode [0b1110100011110010#16, 0b1100010001000001#16] =
    .instr (.cas (some ⟨true, 2⟩) .s64 ⟨.strand, .plain, false, false, false⟩ (.g 2) 1 (.g 3)) 2 := by decide +kernel
/-- `recv g2, 0x21`: page 1, IMM 1, major 1, immediate field 1 (R34, R165). -/
theorem test_word_recv : decode [0b1111000010000000#16, 0b1110000000000001#16, 0b0000010001000001#16] = .instr (.recv none 2 0x21) 3 := by decide +kernel
/-- `cwait c3, 5`: page 1, major 12 (R179). -/
theorem test_word_cwait : decode [0b1111000010000000#16, 0b0011000001100101#16] = .instr (.cwait none 3 5) 2 := by decide +kernel
/-- `vcvt.bf16.f32 v1, v2`: page 2, type 0x02, major 22 (R37, R230). -/
theorem test_word_vcvt : decode [0b1111000100001000#16, 0b0101100000100010#16] = .instr (.vcvt none .bf16 .f32 false .rne 1 2) 2 := by decide +kernel
/-- `dld.rn d2, [g5]`: page 3, variant 1, major 2 (R250). -/
theorem test_word_dld_rn : decode [0b1111000110000001#16, 0b0000100001000101#16] = .instr (.dldRn none 2 ⟨5, .disp 0⟩) 2 := by decide +kernel
/-- `rnd g1, g2, g3`: page 4, EXT C = 3, major 12 (R75). -/
theorem test_word_rnd : decode [0b1111001000000000#16, 0b1110100011000000#16, 0b0011000000100010#16] = .instr (.rnd none (.g 1) (.g 2) 3) 3 := by
  decide +kernel
/-- `mst.bf16 g1, g2`: page 4, type 0x02, major 4 (R269). -/
theorem test_word_mst : decode [0b1111001000001000#16, 0b0001000000100010#16] = .instr (.mst none .bf16 .rne 1 2) 2 := by decide +kernel
/-- `hput g1, g2, g3`: page 5, EXT C = 3, major 1 (R341). -/
theorem test_word_hput : decode [0b1111001010000000#16, 0b1110100011000000#16, 0b0000010000100010#16] = .instr (.hput none (.g 1) (.g 2) (.g 3)) 3 := by
  decide +kernel
/-- `skset g1, g2, g3`: page 6, EXT C = 3, major 4 (R366). -/
theorem test_word_skset : decode [0b1111001100000000#16, 0b1110100011000000#16, 0b0001000000100010#16] = .instr (.skset none (.g 1) (.g 2) (.g 3)) 3 := by
  decide +kernel
/-- `sysr g4, 0x0A`: page 7, major 1 (R384). -/
theorem test_word_sysr : decode [0b1111001110000000#16, 0b0000010010001010#16] = .instr (.sysr none 4 0x0A) 2 := by decide +kernel
/-- Page 9 is reserved: cause 2 (R37, R47). -/
theorem test_word_page_9 : decode [0b1111010010000000#16, 0b1000110000000000#16] = .illegal ⟨2, 0, 0⟩ 2 := by decide +kernel
/-- A fifth prefix: cause 3 at word 4 (R41, R47). -/
theorem test_word_fifth_prefix : decode [0b1110000000000001#16, 0b1110000000000001#16, 0b1110000000000001#16, 0b1111100000000001#16, 0b1110100000000000#16] =
    .illegal ⟨3, 4, 0⟩ 5 := by decide +kernel
/-- The four bytes of the first worked encoding, as the host numbers their bits (chapter 02). -/
theorem test_table_word_add : decodeTableWord 32 0x00A5E863 = some (.add (some ⟨false, 3⟩) .s64 (.g 5) (.g 5) (.g 1)) := by decide +kernel

/-! ### A small module: one task of a system context, with a lease on its bank below the replay region -/

def lease : Launch :=
  { ctx := 1, queue := 0, die := 0, role := 0, lists := 0, listTable := 0, entry := 0, args := Vector.replicate 4 0, event := 0, tasks := 1, cores := 1
    clusters := 1, dies := 1, modules := 1, priority := 0, fmta := 0, fmtb := 0, scla := 0, sclb := 0, origin := 0, length := 0x1E000, level := 0
    logical := [bootCore], placed := true, retired := false, granting := [], leases := [bootCore], freed := [] }

def h0 : Handle := bootHandle

def task : Strand := boundTask { placedSource with launch := 1 } bootCore 0

def core0 : Core := { Core.reset with ctx := some 1 }

/-- Its context, whose page table at 0x1000 maps the first GiB of addresses to themselves. -/
def context0 : Context := { placedContext with ptroot := 0x1000 }

def table0 : List Host.Cell := [(0x1000, 1), (0x1001, 0x20), (0x2000, 0xF)]

/-- The module with that task as `st` and its core as `c`, issuing an instruction of two words. -/
def boxed (st : Strand) (c : Core) : State :=
  { State.reset with
    boot := .running
    contexts := [(1, context0)]
    mem := table0
    cores := [(bootCore, c)]
    clusters := [(clusterOf bootCore, { Cluster.reset with tlb := [placedPage] })]
    strands := [(bootHandle, st)]
    launches := [(1, lease)]
    cur := some bootHandle
    latch := [0, 0] }

def box (st : Strand) : State := boxed st core0

/-- A word of the task's own bank. -/
def at0 (off : Nat) : Word := coordAddr bootCore off

/-- The task of the placed program, with g1 = the first word of its bank, the handle of a second task in slot 1 of its core, and another core. -/
def cluster0 : ClusterId := clusterOf bootCore
def core1 : CoreId := coreOf cluster0 1
def aimed0 : Strand := (boundTask placedSource bootCore 0).setG 1 (at0 0)
def h1 : Handle := handleOf bootCore 1 1

/-- The state after an outcome has a property. -/
def after (o : Out) (f : State → Bool) : Bool := (answers o).any f

/-- The registers of the task after an outcome have a property. -/
def regs (o : Out) (f : Regs → Bool) : Bool := after o fun t => (t.strand? h0).any fun y => f y.r

/-! ### Hypotheses of the statements, met together -/

set_option maxRecDepth 20000 in
theorem test_meets_step :
    let s := { State.reset.withFetchWord 32 0x00A5E800 with cycle := 0 }
    let s1 := { s with agenda := [], picks := [] }
    ∃ n slot st ws s3 i, s.reissue = [] ∧ s.agenda = [⟨.issue bootCore, 1, []⟩] ∧ nextIssue s1 bootCore false = some (n, slot, some (h0, st)) ∧
      (∀ k, timeLeft s1 = some k → n - s1.cycle ≤ k) ∧ st.reissue = none ∧ st.r.pc.getLsbD 0 = false ∧
      Fetches (noteIssue (passTime s1 (n - s1.cycle)) bootCore st) h0 st 0 ws s3 ∧ WordsOf ws i ∧
      s3.strand? h0 = some st ∧
      (behind s3 st (portBanks s3 h0 st i) && guardHolds (guardOf i) st && (travels i).any (sourcesReady s3 h0 st i)) = false := by
  refine ⟨0, _, _, [0xE800, 0x00A5], _, .add none .s64 (.g 5) (.g 5) (.g 0), rfl, rfl, rfl, fun k _ => Nat.zero_le k, rfl, rfl, ⟨_, rfl, _, rfl, rfl⟩,
    ⟨by decide +kernel, by decide, by decide, ?_⟩, rfl, by decide +kernel⟩
  intro k h1 h2
  match k, h1, h2 with
  | 1, _, _ => decide +kernel

/-- A store of core 0 to its own bank behind an earlier request of that core, of its second task, that is on its way there. -/
def queuedAtPort : State :=
  let s := State.reset.withFetchWord 16 0xB441
  { s with
    cycle := 1
    strands := [(h0, aimed0), (h1, { boundTask placedSource bootCore 1 with status := .parked (.transit [] (Vector.replicate 24 0) false [] [bootCore]) })] }

set_option maxRecDepth 20000 in
theorem test_meets_departure :
    let s1 := { queuedAtPort with agenda := [], picks := [] }
    let i : Instr := .st none .s64 ⟨.strand, .plain, false, false, false⟩ (.g 2) ⟨1, .disp 0⟩
    ∃ n slot s3, queuedAtPort.reissue = [] ∧ queuedAtPort.agenda = [⟨.issue bootCore, 1, []⟩] ∧
      nextIssue s1 bootCore false = some (n, slot, some (h0, aimed0)) ∧ (∀ k, timeLeft s1 = some k → n - s1.cycle ≤ k) ∧ aimed0.reissue = none ∧
      aimed0.r.pc.getLsbD 0 = false ∧ Fetches (noteIssue (passTime s1 (n - s1.cycle)) bootCore aimed0) h0 aimed0 0 [0xB441] s3 ∧ WordsOf [0xB441] i ∧
      s3.strand? h0 = some aimed0 ∧ (behind s3 aimed0 (portBanks s3 h0 aimed0 i) && guardHolds (guardOf i) aimed0 && (travels i).any (sourcesReady s3 h0 aimed0 i)) = true ∧ travels i = some [.g 2] := by
  refine ⟨1, 0, _, rfl, rfl, by decide +kernel, fun k _ => Nat.zero_le k, rfl, rfl, ⟨_, rfl, rfl⟩, ⟨by decide +kernel, by decide, by decide, ?_⟩, rfl, by decide +kernel, rfl⟩
  intro k h1 h2
  exact absurd h2 (by simp; omega)

theorem test_meets_memory_wf : Memory.wf (State.reset.withFetchWord 32 0x00A5E800).mem = true ∧
    (answers (step (State.reset.withFetchWord 32 0x00A5E800))).isSome = true := by decide +kernel

theorem test_meets_fetch : (box task).space bootCore 1 2 = .ok (.global 2) ∧ (box task).translate (clusterOf bootCore) 1 2 .fetch = .ok 2 0xF ∧
    ((box task).paKind 2).isSome = true ∧ (box task).isPoisoned 2 = false ∧
    cachedLine ((box task).keepLeaf (clusterOf bootCore) 1 2) (clusterOf bootCore) 1 2 = none ∧ 2 % 2 = 0 ∧ 2 % 64 = 2 % 64 :=
  ⟨rfl, rfl, rfl, rfl, rfl, rfl, rfl⟩

theorem test_meets_round_trip : (Instr.rnd (some ⟨true, 15⟩) (.s 3) (.q 0) 22).wf = true ∧ encode (.rnd (some ⟨true, 15⟩) (.s 3) (.q 0) 22) ≠ [] := by
  decide +kernel

theorem test_meets_guard : (box task).issuing = some (h0, task) ∧ task.reissue = none ∧ guardOf (.nop (some ⟨false, 3⟩)) = some ⟨false, 3⟩ ∧
    task.r.preds.getLsbD 3 = false := by decide +kernel

theorem test_meets_frame : registerOnly (.fadd none .f32 .rne (.g 1) (.g 2) (.g 3)) = true ∧ (box task).issuing = some (h0, task) ∧
    after (exec (.fadd none .f32 .rne (.g 1) (.g 2) (.g 3)) (box task)) (fun t => (t.strand? h0).any fun y => !y.r.inTrap && y.status != .frozen) := by
  decide +kernel

/-- g1 = -7, g2 = 2, g3 = 0, g4 = -2^63, g5 = -1. -/
def numbers : Strand := ((((task.setG 1 (-7)).setG 2 2).setG 3 0).setG 4 0x8000000000000000).setG 5 (-1)

theorem test_meets_arithmetic : Issues (box numbers) h0 numbers none ∧ src (box numbers) h0 numbers 0 (.g 4) = .ok 0x8000000000000000 ∧
    src (box numbers) h0 numbers 1 (.g 5) = .ok (-1) ∧ src (box numbers) h0 numbers 1 (.g 3) = .ok 0 ∧ Room (box numbers) h0 numbers [.g 4, .g 5] (.q 0) :=
  ⟨by decide +kernel, rfl, rfl, rfl, rfl⟩

theorem test_meets_moves : Issues (box numbers) h0 numbers none ∧ src (box numbers) h0 numbers 0 (.g 3) = .ok 0 ∧ src (box numbers) h0 numbers 1 (.g 2) = .ok 2 ∧
    Room (box numbers) h0 numbers [.g 3] (.g 0) ∧ Room (box numbers) h0 numbers [] (.g 0) ∧ Room (box numbers) h0 numbers [.g 3, .g 2] (.g 0) ∧
    numbers.r.full.getLsbD 23 = true ∧ src (box numbers) h0 numbers 2 (.g 1) = .ok (-7) ∧ (63#6).toNat + (0#6).toNat + 1 ≤ 64 ∧
    (0#6).toNat + (63#6).toNat + 1 ≤ 64 := ⟨by decide +kernel, rfl, rfl, rfl, rfl, rfl, rfl, rfl, by decide, by decide⟩

/-- At an odd address. -/
def oddly : Strand := { (task.setG 23 1).setG 1 3 with r := { ((task.setG 23 1).setG 1 3).r with pc := 1 } }

theorem test_meets_odd_transfers : (box oddly).issuing = some (h0, oddly) ∧ oddly.reissue = none ∧ oddly.r.inTrap = false ∧ (box oddly).latch.length ≤ 5 ∧
    (oddly.r.pc + 2 * (7 : Word)).getLsbD 0 = true ∧ guardHolds (some ⟨true, 1⟩) oddly = true ∧ src (box oddly) h0 oddly 0 (.g 1) = .ok 3 ∧ (3 : Word) ≠ 1 ∧
    oddly.r.full.getLsbD 23 = true ∧ oddly.r.gpr[(23 : Fin 24)].getLsbD 0 = true ∧ (3 : Word).getLsbD 0 = true :=
  ⟨by decide +kernel, rfl, rfl, by decide, rfl, by decide +kernel, rfl, by decide, rfl, rfl, rfl⟩

theorem test_meets_control : task.r.pc.getLsbD 0 = false ∧ Issues (box task) h0 task (some ⟨true, 1⟩) ∧ Issues (box task) h0 task none ∧
    task.r.full.getLsbD 23 = true ∧ task.r.gpr[(23 : Fin 24)].getLsbD 0 = false ∧ Room (box numbers) h0 numbers [.g 2] (.g 2) ∧
    src (box numbers) h0 numbers 0 (.g 2) = .ok 2 ∧ src (box numbers) h0 numbers 0 (.g 5) = .ok (-1) ∧ (-1 : Word).getLsbD 0 = true ∧
    guardHolds none numbers = true ∧ numbers.r.inTrap = false ∧ (box numbers).latch.length ≤ 5 :=
  ⟨rfl, by decide +kernel, by decide +kernel, rfl, rfl, rfl, rfl, rfl, rfl, rfl, rfl, by decide⟩

/-- In a handler. -/
def trapped : Strand := { task with r := { task.r with inTrap := true, trappc := 64 } }

theorem test_meets_traps : Issues (box task) h0 task none ∧ task.reissue = none ∧ task.r.inTrap = false ∧ (box task).context? 1 = some context0 ∧
    (box task).deviceRead bootCore 1 (context0.traptab + 40) 8 = some 0 ∧ Issues (box trapped) h0 trapped none ∧ trapped.reissue = none ∧
    trapped.r.inTrap = true := ⟨by decide +kernel, rfl, rfl, rfl, rfl, by decide +kernel, rfl, rfl⟩

/-- A fault table at address 0 whose entry 1 is 256. -/
def faultable : State := { box task with mem := (9, 1) :: table0 }

theorem test_meets_fault : faultable.strand? h0 = some task ∧ task.reissue = none ∧ faultable.context? 1 = some context0 ∧
    freeRecord context0 = some 0 ∧ faultable.deviceRead bootCore 1 (context0.flttab + BitVec.ofNat 64 (8 * 1)) 8 = some 256 :=
  ⟨rfl, rfl, rfl, by decide +kernel, rfl⟩

/-- g1 = 1.5f, g2 = 2.5f, g3 = the least positive subnormal of binary32. -/
def floats : Strand := ((task.setG 1 0x3FC00000).setG 2 0x40200000).setG 3 1

theorem test_meets_floats : Issues (box floats) h0 floats none ∧ src (box floats) h0 floats 0 (.g 1) = .ok 0x3FC00000 ∧
    src (box floats) h0 floats 1 (.g 2) = .ok 0x40200000 ∧ src (box floats) h0 floats 2 (.g 2) = .ok 0x40200000 ∧
    FFmt.f32.subnormal 0x3FC00000 = false ∧ FFmt.f32.subnormal 0x40200000 = false ∧ Room (box floats) h0 floats [.g 1, .g 2] (.g 0) ∧
    Room (box floats) h0 floats [.g 1, .g 2, .g 2] (.g 2) ∧ src (box floats) h0 floats 1 (.g 3) = .ok 1 ∧ FFmt.f32.subnormal 1 = true ∧
    ((box floats).core bootCore).daz = false ∧ floats.reissue = none ∧ floats.r.inTrap = false ∧ src (box floats) h0 floats 0 (.g 3) = .ok 1 ∧
    etypeFmt ((box floats).core bootCore).xr .f32 = some .f32 ∧ src (box floats) h0 floats 2 (.g 3) = .ok 1 ∧
    Room (boxed floats { core0 with daz := true }) h0 floats [.g 1, .g 3] (.g 0) ∧ ((boxed floats { core0 with daz := true }).core bootCore).daz = true :=
  ⟨by decide +kernel, rfl, rfl, rfl, by decide +kernel, by decide +kernel, rfl, rfl, rfl, by decide +kernel, rfl, rfl, rfl, rfl, rfl, rfl, rfl, rfl⟩

theorem test_meets_fcvt : ∃ v, Issues (box floats) h0 floats none ∧ src (box floats) h0 floats 0 (.g 1) = .ok 0x3FC00000 ∧
    cvtSource (box floats) floats .f32 0x3FC00000 = .ok v ∧ Room (box floats) h0 floats [.g 1] (.g 0) := ⟨_, by decide +kernel, rfl, rfl, rfl⟩

theorem test_meets_representable : FFmt.bf16 ∈ [FFmt.f64, .f32, .f16, .bf16, .e4m3 false, .e4m3 true, .e5m2 false, .e5m2 true] ∧
    0xFF7F < 2 ^ (FFmt.bf16.signPos + 1) ∧ (FFmt.bf16.value 0xFF7F).isNan = false := by decide +kernel

/-- g1 holds an address. -/
def aims (ea : Word) : Strand := task.setG 1 ea

/-- A format-M operand with base g1. -/
def mem1 : Mem := ⟨1, .disp 0⟩

def plain : MemQ := ⟨.strand, .plain, false, false, false⟩

/-- An access of the small module reaches a place. -/
def reaches (ea : Word) (n : Nat) (kind : AccessKind) (s1 : State) (l : Loc) : Prop :=
  Issues (box (aims ea)) h0 (aims ea) none ∧ effAddr (aims ea) mem1 = .ok ea ∧ locate (box (aims ea)) h0 (aims ea) ea n kind false = .ok (s1, l)

theorem test_meets_bank_access : (box task).clusterIn (clusterOf bootCore) = true ∧ 0x1DFF8 < 0x1E000 ∧ 0x1DFF8 % 8 = 0 ∧ 8 ∣ 8 ∧
    (box task).launch? task.launch = some lease ∧ lease.covers (coreOf (clusterOf bootCore) 0) 0x1DFF8 8 = true ∧
    (box task).sweeping (coreOf (clusterOf bootCore) 0) 0x1DFF8 8 = none ∧ coreOf (clusterOf bootCore) 0 = bootCore := by decide +kernel

theorem test_meets_global_access : (0xFFF8 : Word).extractLsb' 47 17 = 0 ∧ (0xFFF8 : Word).toNat % 8 = 0 ∧ levelOf (box task) task ≠ 2 ∧
    (box task).translate (clusterOf bootCore) task.ctx (0xFFF8 : Word).toNat .write = .ok 0xFFF8 0xF ∧ ((box task).paLoc 0xFFF8 0xFFF8 (pteShwr 0xF)).isSome = true ∧
    (box task).isPoisoned 0xFFF8 = false := by decide +kernel

/-- A bank of another cluster, the first word of the replay region, a misaligned word, and a bank without a lease. -/
theorem test_meets_failing_accesses :
    Issues (box (aims (coordAddr ⟨0, 1, 0⟩ 0))) h0 (aims (coordAddr ⟨0, 1, 0⟩ 0)) none ∧ (effAddr (aims (coordAddr ⟨0, 1, 0⟩ 0)) mem1).toOption = some (coordAddr ⟨0, 1, 0⟩ 0) ∧
    Issues (box (aims (at0 0x1E000))) h0 (aims (at0 0x1E000)) none ∧ (effAddr (aims (at0 0x1E000)) mem1).toOption = some (at0 0x1E000) ∧
    Issues (box (aims (at0 4))) h0 (aims (at0 4)) none ∧ (effAddr (aims (at0 4)) mem1).toOption = some (at0 4) ∧
    Issues (box (aims (coordAddr ⟨0, 0, 1⟩ 0))) h0 (aims (coordAddr ⟨0, 0, 1⟩ 0)) none ∧ (effAddr (aims (coordAddr ⟨0, 0, 1⟩ 0)) mem1).toOption = some (coordAddr ⟨0, 0, 1⟩ 0) ∧
    ((box task).space bootCore 1 (coordAddr ⟨0, 1, 0⟩ 0)).toOption = some (.bank ⟨0, 1, 0⟩ 0) ∧
    ((box task).space bootCore 1 (at0 0x1E000)).toOption = some (.bank bootCore 0x1E000) ∧ ((box task).space bootCore 1 (at0 4)).toOption = some (.bank bootCore 4) ∧
    (at0 4).toNat % sizeBytes .s64 ≠ 0 ∧ ((box task).space bootCore 1 (coordAddr ⟨0, 0, 1⟩ 0)).toOption = some (.bank ⟨0, 0, 1⟩ 0) ∧
    ((box task).launch? task.launch).any (fun l => l.covers ⟨0, 0, 1⟩ 0 8) = false := by decide +kernel

/-- A replayed access of the bank whose next record is of its kind and address, or of another kind; an empty record list has none. -/
def rerun (kind : Nat) : Strand := { aims (at0 0) with replay := some 0, records := [⟨kind, 0, at0 0, [9]⟩] }

theorem test_meets_replayed_accesses : ∀ kind ∈ [1, 2, 3], Issues (box (rerun kind)) h0 (rerun kind) none ∧ (rerun kind).replay = some 0 ∧
    (∃ r, (rerun kind).records[0]? = some r ∧ r.kind = kind ∧ r.addr = at0 0) ∧ (effAddr (rerun kind) mem1).toOption = some (at0 0) ∧
    ((box (rerun kind)).space bootCore 1 (at0 0)).toOption = some (.bank bootCore 0) ∧ (releaseFence (box (rerun kind)) (rerun kind) plain).toOption.isSome ∧
    (fence (box (rerun kind)) (rerun kind) .strand).toOption.isSome ∧ (gsrc (rerun kind) 1).toOption = some (at0 0) ∧
    (∀ i ∈ [0, 1], (src (box (rerun kind)) h0 (rerun kind) i (.g 2)).toOption = some 0) ∧ (hasRoom ((box (rerun kind)).core bootCore) h0 [.g 2] (some (.g 2, 0))).isNone := by
  intro kind hk
  refine ⟨?_, rfl, ⟨_, rfl, rfl, rfl⟩, ?_⟩ <;> revert kind <;> decide +kernel

/-- The operands of a store or an atomic whose word stands in core 1's bank, and the task with and without a grant, which cannot migrate. -/
theorem test_meets_moving_accesses : Issues (box (aims (coordAddr ⟨0, 0, 1⟩ 0))) h0 (aims (coordAddr ⟨0, 0, 1⟩ 0)) none ∧
    gsrc (aims (coordAddr ⟨0, 0, 1⟩ 0)) 1 = .ok (coordAddr ⟨0, 0, 1⟩ 0) ∧ effAddr (aims (coordAddr ⟨0, 0, 1⟩ 0)) mem1 = .ok (coordAddr ⟨0, 0, 1⟩ 0) ∧
    (∀ i ∈ [0, 1, 2], (src (box (aims (coordAddr ⟨0, 0, 1⟩ 0))) h0 (aims (coordAddr ⟨0, 0, 1⟩ 0)) i (.g 2)).toOption = some 0) ∧
    (⟨.strand, .plain, false, false, true⟩ : MemQ).mig = false ∧ (⟨.strand, .plain, true, false, false⟩ : MemQ).mig = true ∧
    clusterOf (⟨0, 0, 1⟩ : CoreId) = clusterOf (aims (coordAddr ⟨0, 0, 1⟩ 0)).core ∧ (⟨0, 0, 1⟩ : CoreId) ≠ (aims (coordAddr ⟨0, 0, 1⟩ 0)).core ∧
    (aims (coordAddr ⟨0, 0, 1⟩ 0)).r.inTrap = false ∧ cannotMigrate (box (aims (coordAddr ⟨0, 0, 1⟩ 0))) h0 (aims (coordAddr ⟨0, 0, 1⟩ 0)) = false ∧
    cannotMigrate (box { aims 0 with vl := 32 }) h0 { aims 0 with vl := 32 } = true ∧ levelOf (box (aims 0)) (aims 0) = 0 :=
  ⟨by decide +kernel, rfl, rfl, by decide +kernel, rfl, rfl, by decide, by decide, rfl, by decide +kernel, by decide +kernel, rfl⟩

theorem test_meets_load : (∃ s1 l, reaches (at0 0x1DFFC) 4 .read s1 l) ∧ releaseFence (box (aims (at0 0x1DFFC))) (aims (at0 0x1DFFC)) plain = .ok (aims (at0 0x1DFFC)) ∧
    Fresh task ∧ Room (box (aims (at0 0x1DFFC))) h0 (aims (at0 0x1DFFC)) [] (.g 2) ∧ Memory.wf (box task).mem = true :=
  ⟨⟨_, _, by decide +kernel, rfl, rfl⟩, rfl, rfl, rfl, by decide +kernel⟩

theorem test_meets_store : (∃ s1 l, reaches (at0 0) 8 .write s1 l ∧ waitingAt s1 l.place l.key = []) ∧
    src (box (aims (at0 0))) h0 (aims (at0 0)) 0 (.g 2) = .ok 0 ∧ (∃ st1, releaseFence (box (aims (at0 0))) (aims (at0 0)) ⟨.cluster, .rel, false, false, false⟩ = .ok st1) ∧
    Fresh (aims (at0 0)) ∧ Memory.wf (box task).mem = true := ⟨⟨_, _, ⟨by decide +kernel, rfl, rfl⟩, rfl⟩, rfl, ⟨_, rfl⟩, rfl, by decide +kernel⟩

/-- The small module with the word at offset 0 of the task's bank empty. -/
def emptied (st : Strand) : State := { box st with empties := [(at0 0).toNat] }

theorem test_meets_synchronising :
    (∃ s1 l, reaches (at0 0) 8 .read s1 l ∧ busyCheck s1 l = .ok () ∧ s1.isFull l.key = true ∧ Room (box (aims (at0 0))) h0 (aims (at0 0)) [] (.g 2)) ∧
    (∃ s1 l, locate (emptied (aims (at0 0))) h0 (aims (at0 0)) (at0 0) 8 .read false = .ok (s1, l) ∧ busyCheck s1 l = .ok () ∧ s1.isFull l.key = false ∧
      (s1.enterStation l.place ⟨h0, l.key, 0, 0, l.ea⟩).2 = true) ∧
    (∃ s1 l, locate (emptied (aims (at0 0))) h0 (aims (at0 0)) (at0 0) 8 .write false = .ok (s1, l) ∧ s1.isFull l.key = false) ∧
    (∃ s1 l, reaches (at0 0) 8 .write s1 l ∧ s1.isFull l.key = true ∧ (s1.enterStation l.place ⟨h0, l.key, 2, 0, l.ea⟩).2 = true) ∧
    (∃ st1, fence (box (aims (at0 0))) (aims (at0 0)) .strand = .ok st1) ∧ src (box (aims (at0 0))) h0 (aims (at0 0)) 0 (.g 2) = .ok 0 :=
  ⟨⟨_, _, ⟨by decide +kernel, rfl, rfl⟩, rfl, rfl, rfl⟩, ⟨_, _, rfl, rfl, rfl, rfl⟩, ⟨_, _, rfl, rfl⟩, ⟨_, _, ⟨by decide +kernel, rfl, rfl⟩, rfl, rfl⟩, ⟨_, rfl⟩, rfl⟩

theorem test_meets_atomics : (∃ s1 l, reaches (at0 8) 8 .write s1 l ∧ ∃ s2, seqEntry s1 l .f64 0 = .ok (s2, ⟨l.key, true, 0, []⟩)) ∧
    gsrc (aims (at0 8)) 1 = .ok (at0 8) ∧ src (box (aims (at0 8))) h0 (aims (at0 8)) 1 (.g 2) = .ok 0 ∧ src (box (aims (at0 8))) h0 (aims (at0 8)) 2 (.g 3) = .ok 0 ∧
    releaseFence (box (aims (at0 8))) (aims (at0 8)) plain = .ok (aims (at0 8)) ∧ (box task).picks.headD 0 ≠ 1 ∧ levelOf (box (aims (at0 8))) (aims (at0 8)) = 0 ∧
    Room (box (aims (at0 8))) h0 (aims (at0 8)) [.g 2, .g 3] (.g 3) :=
  ⟨⟨_, _, ⟨by decide +kernel, rfl, rfl⟩, _, rfl⟩, rfl, rfl, rfl, rfl, by decide, rfl, rfl⟩

/-- A request in transit or at its place. -/
def held : Pending :=
  { dst := some (.g 2), pdst := none, sz := .s64, pops := [], len := 2, kind := 0, sel := 0, addr := at0 0, tmask := 0, reply := none }

/-- The word at offset 8 of the bank with the addition numbered 1 of the second task held, before that numbered 0. -/
def sequenced : State :=
  { box (aims (at0 8)) with
    strands := [(h0, aims (at0 8)), (h1, { boundTask placedSource bootCore 1 with status := .parked (.atPlace (.bank bootCore)), pending := some held })]
    places := [(.bank bootCore, { PlaceState.reset with seq := [⟨(at0 8).toNat, true, 0, [⟨h1, 1, 0, at0 8⟩]⟩] })] }

theorem test_meets_held_additions : Issues sequenced h0 (aims (at0 8)) none ∧ (∃ s1 l, locate sequenced h0 (aims (at0 8)) (at0 8) 8 .write false = .ok (s1, l) ∧
      seqEntry s1 l .f64 0 = .ok (s1, ⟨l.key, true, 0, [⟨h1, 1, 0, at0 8⟩]⟩) ∧ waitingAt s1 l.place l.key = [] ∧ (s1.strand? h1).any (fun k => k.pending == some held)) ∧
    (1 : BitVec 16) ≠ 0 ∧ (1 : BitVec 16) = 0 + 1 ∧ Memory.wf sequenced.mem = true :=
  ⟨by decide +kernel, ⟨_, _, rfl, rfl, rfl, by decide +kernel⟩, by decide, rfl, by decide +kernel⟩

/-- A `cas` whose word, under a running sweep, differs from A = 1. -/
theorem test_meets_failing_cas : (∃ s1 l, reaches (at0 8) 8 .read s1 l ∧ l.place = .bank bootCore ∧ Memory.readN (box (aims (at0 8))).mem l.key 8 = 0) ∧
    (0 : BitVec (sizeBits .s64)) ≠ narrow .s64 1 := ⟨⟨_, _, ⟨by decide +kernel, rfl, rfl⟩, rfl, by decide +kernel⟩, by decide⟩

/-- A task that waits for a word to differ. -/
def watching : Strand := { task with status := .parked (.atPlace (.bank bootCore)), pending := some held }

def watched : State := { box watching with places := [(.bank bootCore, { PlaceState.reset with watch := [⟨h0, (at0 0).toNat, 8, at0 0⟩] })] }

theorem test_meets_watch : needsWriteBack (box task) task .sys = false ∧ (∃ s1 l, reaches (at0 0) 8 .read s1 l ∧
      (BitVec.ofNat 64 (Memory.readN (box (aims (at0 0))).mem l.key 8) : Word) = 0) ∧
    src (box (aims (at0 0))) h0 (aims (at0 0)) 0 (.g 2) = .ok 0 ∧ (watched.place (.bank bootCore)).watch = [⟨h0, (at0 0).toNat, 8, at0 0⟩] ∧
    (⟨h0, (at0 0).toNat, 8, at0 0⟩ : Watch).hit ((at0 0).toNat + 7) 1 = true ∧ watched.strand? h0 = some watching ∧ watching.pending.isSome = true :=
  ⟨by decide +kernel, ⟨_, _, ⟨by decide +kernel, rfl, rfl⟩, by decide +kernel⟩, rfl, rfl, by decide +kernel, rfl, rfl⟩

/-! Messages, tasks and barriers. -/

/-- A message of the other XR mode or of this one, sent by the task to itself. -/
def letter (xr : Bool) : Message :=
  { sender := h0, seq := 7, xr := xr, len := 1, mbox := 3, firmware := false, engine := false, dest := h0, words := [5] }

/-- The small module with messages in mailbox 3 of the task's core. -/
def posted (msgs : List Message) (st : Strand) : State := boxed st { core0 with mb := core0.mb.set 3 ⟨msgs, []⟩ }

/-- g1 = the task's own handle with sequence number 7. -/
def writer : Strand := task.setG 1 (7#32 ++ h0)

/-- A send whose first refusal lies further back than its limit. -/
def overdueSend : SendWait := ⟨some 10, 0, bootCore, letter false, 2⟩
def overdue : Strand := { writer with sending := some overdueSend }
def overdueBox : State := { box overdue with cycle := 0x0010000A }

theorem test_meets_overdue_send : Issues overdueBox h0 overdue none ∧ Fresh overdue ∧ sendOver overdueBox overdue = some overdueSend ∧
    src overdueBox h0 overdue 0 (.g 1) = .ok (7#32 ++ h0) ∧ clusterOf (targetCore overdueBox h0) = clusterOf overdue.core ∧ sendOver (box writer) writer = none ∧
    receivable ((posted [letter true] writer).core bootCore) h0 (.exact 3 h0 7) = some (3, 0, letter true) :=
  ⟨by decide +kernel, by decide, by decide +kernel, rfl, rfl, by decide +kernel, by decide +kernel⟩

theorem test_meets_messages : Issues (box writer) h0 writer none ∧ Fresh writer ∧ src (box writer) h0 writer 0 (.g 1) = .ok (7#32 ++ h0) ∧
    grange writer 2 (6#3).toNat = .ok [0, 0, 0, 0, 0, 0] ∧ clusterOf (targetCore (box writer) h0) = clusterOf writer.core ∧
    accepts (box writer) (targetCore (box writer) h0) 3 (.strand h0) = true ∧
    accepts (posted (List.replicate 8 (letter false)) writer) bootCore 3 (.strand h0) = false ∧
    sendExpired (box writer) writer.ctx (overdueSend.refused 0) = false ∧ writer.sending = none ∧ overdueSend.msg.mbox = 3 ∧
    clusterOf overdueSend.core = clusterOf overdue.core ∧ sendOver (box overdue) overdue = none ∧
    sendOver (posted (List.replicate 8 (letter false)) overdue) overdue = none ∧
    receivable ((posted [letter false] writer).core bootCore) h0 (.mask 0x0008) = some (3, 0, letter false) ∧
    receivable ((posted [letter true] writer).core bootCore) h0 (.mask 0x0008) = some (3, 0, letter true) ∧
    receivable ((posted [letter false] writer).core bootCore) h0 (.mask 0xFFF7) = none ∧
    receivable ((posted [letter false] writer).core bootCore) h0 (.exact 3 h0 7) = some (3, 0, letter false) ∧ (letter true).xr ≠ (core0).xr ∧
    Room (box writer) h0 writer [] (.g 2) ∧ ({ writer with kept := some (.want (.exact 3 h0 7) 7) } : Strand).kept = some (.want (.exact 3 h0 7) 7) ∧
    (∀ W word, writer.kept ≠ some (.want W word)) ∧ receivable ((box writer).core bootCore) h0 (.exact 3 h0 7) = none :=
  ⟨by decide +kernel, rfl, rfl, rfl, rfl, by decide +kernel, by decide +kernel, by decide +kernel, rfl, rfl, rfl, by decide +kernel, by decide +kernel,
    by decide +kernel, by decide +kernel, by decide +kernel, by decide +kernel, by decide, rfl, rfl, nofun, by decide +kernel⟩

/-- g1 = an entry, g2-g5 = arguments, of which g5 names a join word. -/
def parent : Strand := (task.setG 1 64).setG 5 (at0 0)

theorem test_meets_tasks : Issues (box parent) h0 parent none ∧ Fresh parent ∧ src (box parent) h0 parent 0 (.g 1) = .ok 64 ∧
    grange parent 2 4 = .ok [0, 0, 0, at0 0] ∧ grange parent 1 5 = .ok [64, 0, 0, 0, at0 0] ∧ dequeFull ((box parent).core bootCore) h0 = false ∧
    dequeRoom ((box parent).core bootCore) h0 = true ∧ (∃ u l, joinStep (box parent) h0 parent (at0 0) true = .ok (u, l)) ∧
    (let x := { core0 with deque := List.replicate 64 placedSource, dqspill := 0x100000 }
     dequeFull x h0 = false ∧ dequeRoom x h0 = false ∧ dequeFull { x with spilled := List.replicate (spillCap x) (0, placedSource) } h0 = true) ∧
    ({ parent with kept := some (.entry core1 placedSource) } : Strand).kept = some (.entry core1 placedSource) ∧ (∀ c x, parent.kept ≠ some (.entry c x)) :=
  ⟨by decide +kernel, rfl, rfl, rfl, rfl, by decide +kernel, by decide +kernel, ⟨_, _, rfl⟩, by decide +kernel, rfl, nofun⟩

/-- The join word at its greatest count. -/
def counted (st : Strand) : State := { box st with mem := table0 ++ (List.range 4).map fun i => ((at0 0).toNat + i, 0xFF) }

theorem test_meets_join_range : ∃ s1 l, locateBank (counted parent) h0 parent (at0 0) .write false = .ok (s1, l) ∧ 0xFFFFFFFF ≤ (s1.readWord l.key).toNat :=
  ⟨_, _, rfl, by decide +kernel⟩

theorem test_meets_join : (∃ s1 l, locateBank (box (aims (at0 0))) h0 (aims (at0 0)) (at0 0) .read false = .ok (s1, l) ∧ s1.isFull l.key = true) ∧
    (∃ s1 l, locateBank (emptied (aims (at0 0))) h0 (aims (at0 0)) (at0 0) .read false = .ok (s1, l) ∧ s1.isFull l.key = false ∧
      (s1.enterStation l.place ⟨h0, l.key, 3, 0, at0 0⟩).2 = true) ∧ effAddr (aims (at0 0)) mem1 = .ok (at0 0) ∧ Room (box (aims (at0 0))) h0 (aims (at0 0)) [] (.g 2) :=
  ⟨⟨_, _, rfl, rfl⟩, ⟨_, _, rfl, rfl, rfl⟩, rfl, rfl⟩

/-- The join word stands at 1, and g3 names it. -/
def child : Strand := task.setG 3 (at0 0)
def joined : State := { box child with mem := table0 ++ [((at0 0).toNat, 1)] }

theorem test_meets_exit : vectorBusy (box task) h0 bootCore = false ∧ matrixBusy (box task) h0 bootCore = false ∧ Issues joined h0 child none ∧
    (∃ st1, fence joined child .die = .ok st1 ∧ gsrc st1 3 = .ok (at0 0) ∧ ∃ u l, joinStep joined h0 st1 (at0 0) false = .ok (u, l)) :=
  ⟨by decide +kernel, by decide +kernel, by decide +kernel, ⟨_, rfl, rfl, _, _, rfl⟩⟩

/-- g1 = 5, so that `migrate` names core 5, and the task with a grant of lanes. -/
def mover : Strand := task.setG 1 5
def granted (st : Strand) : Strand := { st with vl := 32 }

theorem test_meets_places : Issues (box mover) h0 mover none ∧ src (box mover) h0 mover 0 (.g 1) = .ok 5 ∧ coreOf (clusterOf bootCore) 5 ≠ bootCore ∧
    mover.r.inTrap = false ∧ cannotMigrate (box (granted mover)) h0 (granted mover) = true ∧ cannotMigrate (box mover) h0 mover = false ∧
    ((box mover).core (coreOf (clusterOf bootCore) 5)).inbox = [] ∧ (box mover).freeSlots (coreOf (clusterOf bootCore) 5) ≠ [] ∧
    (box mover).coreIn (coreOf (clusterOf bootCore) 5) = true ∧ (box mover).admitsCtx (coreOf (clusterOf bootCore) 5) mover.ctx = true ∧
    (0x3FFFFFFF : Word).extractLsb' 30 34 = 0 ∧ (0x40000000 : Word).extractLsb' 30 34 ≠ 0 ∧ Room (box mover) h0 mover [] (.q 3) ∧ Fresh mover :=
  ⟨by decide +kernel, rfl, by decide, rfl, by decide +kernel, by decide +kernel, rfl, by decide +kernel, by decide +kernel, by decide +kernel, by decide, by decide, rfl, rfl⟩

/-- A barrier object at offset 0 that expects two arrivals and has seen `n`. -/
def barred (n : BitVec 16) (st : Strand) : State :=
  { box st with mem := table0 ++ [((at0 0).toNat + 2, n.setWidth 8), ((at0 0).toNat + 4, 2)].filter (fun e => e.2 != 0), tags := [(at0 0).toNat] }

theorem test_meets_barriers : (0 : BitVec 16) ≤ 0 ∧ (0 : BitVec 16) < 1 ∧ effAddr (aims (at0 0)) mem1 = .ok (at0 0) ∧ Memory.wf (barred 1 (aims (at0 0))).mem = true ∧
    (∃ s1 l, locateBank (box (aims (at0 0))) h0 (aims (at0 0)) (at0 0) .write false = .ok (s1, l) ∧ s1.isTagged l.key = false ∧ waitingAt s1 l.place l.key = []) ∧
    (∃ s1 l, locateBank (barred 1 (aims (at0 0))) h0 (aims (at0 0)) (at0 0) .write false = .ok (s1, l) ∧ s1.isTagged l.key = true ∧
      barArrived (s1.readWord l.key) ≠ 0 ∧ barArrived (s1.readWord l.key) + 1 = barExpect (s1.readWord l.key)) ∧
    (∃ s1 l, locateBank (barred 0 (aims (at0 0))) h0 (aims (at0 0)) (at0 0) .write false = .ok (s1, l) ∧ s1.isTagged l.key = true ∧
      barArrived (s1.readWord l.key) = 0 ∧ barWaiters s1 l = 0 ∧ barArrived (s1.readWord l.key) + 1 ≠ barExpect (s1.readWord l.key)) ∧
    (∃ s1 l, locateBank (barred 0 (aims (at0 0))) h0 (aims (at0 0)) (at0 0) .read false = .ok (s1, l) ∧ s1.isTagged l.key = true ∧
      barGen (s1.readWord l.key) = (0 : Word).setWidth 16 ∧ barGen (s1.readWord l.key) ≠ (1 : Word).setWidth 16 ∧
      (s1.enterStation l.place ⟨h0, l.key, 4, 0, at0 0⟩).2 = true) ∧
    (∃ st1, fence (box (aims (at0 0))) (aims (at0 0)) .cluster = .ok st1) ∧ (0xFFFF : Word).setWidth 16 ≠ (0 : BitVec 16) ∧ (0xFFFF : Word).extractLsb' 16 48 = 0 :=
  ⟨by decide, by decide, rfl, by decide +kernel, ⟨_, _, rfl, rfl, rfl⟩, ⟨_, _, rfl, by decide +kernel, by decide +kernel, by decide +kernel⟩,
    ⟨_, _, rfl, by decide +kernel, by decide +kernel, by decide +kernel, by decide +kernel⟩,
    ⟨_, _, rfl, by decide +kernel, by decide +kernel, by decide +kernel, by decide +kernel⟩, ⟨_, rfl⟩, by decide, by decide⟩

/-- g1, g2 = a copy command of one word from the bank to address 0, which counter 1 counts. -/
def copier : Strand := (task.setG 1 0x8000).setG 2 (BitVec.ofNat 64 (2 ^ 24))

/-- A second task, in slot 1 of the core. -/
def source1 : TaskSource := { placedSource with launch := 1 }
def paired (st : Strand) : State := { box st with strands := [(h0, st), (h1, boundTask { placedSource with launch := 1 } bootCore 1)] }

theorem test_meets_copy_and_fill : Issues (box copier) h0 copier none ∧ gsrc copier 1 = .ok 0x8000 ∧ gsrc copier 2 = .ok (BitVec.ofNat 64 (2 ^ 24)) ∧
    copyIllegal 0 1 = true ∧ (copyChecks (box copier) copier 0x8000 (BitVec.ofNat 64 (2 ^ 24))).isNone = true ∧ ((box copier).core bootCore).copyReg = none ∧
    copyKind (BitVec.ofNat 64 (2 ^ 24)) = 0 ∧ ((box copier).core bootCore).c[(copyIdx (BitVec.ofNat 64 (2 ^ 24))).toFin] ≠ BitVec.allOnes 16 ∧
    (box task).strand? h1 = none ∧ h1 ≠ h0 ∧ ((paired task).strand? h1).any (fun x => x.status == .ready) ∧ task.status = .ready :=
  ⟨by decide +kernel, rfl, rfl, by decide +kernel, by decide +kernel, rfl, by decide +kernel, by decide +kernel, rfl, by decide, by decide +kernel, rfl⟩

/-- The context with command queue 2 of 16 slots at address 0x8000, which the device feeds. -/
def queued : CmdQueue := { CmdQueue.reset with ring := 0x8000, slots := 16, deviceFed := true, enabled := true }
def fed (st : Strand) : State := { box st with contexts := [(1, { context0 with queues := [(2, queued)] })] }

theorem test_meets_wdq_and_launch : (∃ s1 l, locateBank (box (aims (at0 0))) h0 (aims (at0 0)) (at0 0) .read false = .ok (s1, l) ∧ waitingAt s1 l.place l.key = []) ∧
    ((box task).core bootCore).wdqOpen < 16 ∧ spaceCode 0x8000 < 8 ∧ (∃ s1 ws, loadWords (fed (aims 0x8000)) h0 (aims 0x8000) 0x8000 8 = .ok (s1, ws)) ∧
    (∃ st1, fence (fed (aims 0x8000)) ((aims 0x8000).orTmask (touchWords (fed (aims 0x8000)) h0 (aims 0x8000) 0x8000 8)) .pkg = .ok st1) ∧
    ((fed (aims 0x8000)).context? 1).bind (fun k => Table.find (2 : BitVec 4) k.queues) = some queued ∧ queued.deviceFed = true ∧ queued.enabled = true ∧
    queued.tail.toNat - queued.head.toNat < queued.slots ∧ queued.head.toNat ≤ queued.tail.toNat :=
  ⟨⟨_, _, rfl, rfl⟩, by decide, by decide, ⟨_, _, rfl⟩, ⟨_, rfl⟩, by decide +kernel, rfl, rfl, by decide, by decide⟩

/-! Vectors, directions, matrices and quantisation. -/

/-- A command of the task. -/
def command (op : Instr) (args : List Word) : VCmd :=
  { id := 1, op := op, h := h0, pc := 0, words := [0, 0], args := args, daz := false, xr := false, trap := false, ahead := false, prior := none, got := [], owed := [] }

/-- The small module with a command in the pool. -/
def pooled (op : Instr) (args : List Word) : State :=
  boxed (granted task) { core0 with vec := { VectorFile.reset with running := [command op args], vn := 1, d := [(2, (Vector.replicate 128 1, 5))] } }

theorem test_meets_vector_entry : Issues (box task) h0 task none ∧ task.vl = 0 ∧ (granted task).vl ≠ 0 ∧ Issues (box (granted task)) h0 (granted task) none ∧
    capturesNothing (.vfma none .f32 .rne 1 2 3) = true ∧ guardOf (.vfma none .f32 .rne 1 2 3) = none ∧ DispatchRoom (box (granted task)) (granted task) ∧
    ¬DispatchRoom (boxed (granted task) { core0 with vec := { VectorFile.reset with queue := List.replicate 8 (command (.dmov none 0 1) []) } }) (granted task) := by
  decide +kernel

theorem test_meets_vector_capture : Issues (box (granted (aims 2))) h0 (granted (aims 2)) none ∧ effAddr (granted (aims 2)) mem1 = .ok 2 ∧
    (strandSpace (box (granted (aims 2))) (granted (aims 2)) 2).toOption = some (.global 2) ∧ (2 : Word).toNat % (etypeBits .bf16 / 8) = 0 ∧
    (2 : Word).toNat % (etypeBits .f32 / 8) ≠ 0 ∧ (8 : Word).toNat % 8 = 0 ∧ gsrc (granted (aims 2)) 1 = .ok 2 ∧
    src (box (granted (aims 2))) h0 (granted (aims 2)) 0 (.g 1) = .ok 2 :=
  ⟨by decide +kernel, rfl, by decide +kernel, by decide, by decide, by decide, rfl, rfl⟩

theorem test_meets_claims : vectorBusy (box task) h0 bootCore = false ∧ vectorBusy (pooled (.dmov none 0 1) []) h0 bootCore = true ∧
    Issues (pooled (.dmov none 0 1) []) h0 (granted task) none ∧ DispatchRoom (box task) task := by decide +kernel

theorem test_meets_pool_commit : (∀ op args, ((pooled op args).core bootCore).vec.performable = some (command op args)) ∧
    (∀ op args, (pooled op args).strand? h0 = some (granted task)) ∧ (granted task).core = bootCore ∧
    (∀ op args, ((pooled op args).core bootCore).vec.vn = 1) ∧ (∀ wide, ∀ F ∈ [FFmt.f32, .f64],
      F.subnormal (VReg.pos (((pooled (.vadd none .f32 .rne 1 2 3) []).core bootCore).vec.reg 2) wide 0) = false) ∧
    trappingFmt .bf16 = some .bf16 ∧ isWide .s64 = true ∧ etypeBits .s64 = 64 ∧ isMx .mx4 = true ∧ isMx .f32 = false :=
  ⟨fun _ _ => rfl, fun _ _ => rfl, rfl, fun _ _ => rfl, by decide +kernel, rfl, rfl, rfl, rfl, rfl⟩

/-- A load and a store of the one active position at the first word of the bank. -/
theorem test_meets_pool_accesses : (command (.vld none .f32 1 mem1) [at0 0]).got = [] ∧ (command (.vld none .f32 1 mem1) [at0 0]).owed = [] ∧ (pooled (.vld none .f32 1 mem1) [at0 0]).picks = [] ∧ isMx .f32 = false ∧
    EType.f32 ≠ .px8 ∧
    (∃ s1 ls, poolLocateAll (pooled (.vld none .f32 1 mem1) [at0 0]) (command (.vld none .f32 1 mem1) [at0 0]) (granted task) 4 .read [(0, at0 0)] = .ok (s1, ls) ∧
      ls.length = 1) ∧
    (∃ s1 ls, poolLocateAll (pooled (.vst none .f32 1 mem1) [at0 0]) (command (.vst none .f32 1 mem1) [at0 0]) (granted task) 4 .write [(0, at0 0)] = .ok (s1, ls) ∧
      ∀ e ∈ ls, ((pooled (.vst none .f32 1 mem1) [at0 0]).place e.2.place).station = []) ∧ Memory.wf (pooled (.vst none .f32 1 mem1) [at0 0]).mem = true :=
  ⟨rfl, rfl, rfl, rfl, by decide, ⟨_, _, rfl, rfl⟩, ⟨_, _, rfl, by decide⟩, by decide +kernel⟩

/-- Codes of binary32: zero, infinity, -1, 8 = 2^20 * 2^-17 and 1 = 1 * 2^23 * 2^-23. -/
theorem test_meets_special_values : FFmt.f32.value 0 = .fin false 0 (-149) ∧ FFmt.f32.value 0x7F800000 = .inf false ∧ FFmt.f32.value 0xBF800000 = .fin true (2 ^ 23) (-23) ∧
    FFmt.f32.value 0x41000000 = .fin false (2 ^ 23) (-20) ∧ FFmt.f32.value 0x3F800000 = .fin false (1 * 2 ^ 23) (-23) := ⟨rfl, rfl, rfl, rfl, rfl⟩

/-- The small module with a directional command over a direction of a code, and vector register 2 full of a code of binary32. -/
def aimed (e : BitVec 32) (x : BitVec 32) (op : Instr) (args : List Word) : State :=
  boxed (granted task)
    { core0 with vec := { VectorFile.reset with running := [command op args], v := [(2, Vector.replicate 256 x)], d := [(2, (Vector.replicate 128 1, e)), (3, (Vector.replicate 128 (-32768), 5))] } }
def aimedReg (e : BitVec 32) : Vector (BitVec 16) 128 × BitVec 32 := ((aimed e 0 (.dmov none 0 2) []).core bootCore).vec.dreg 2

theorem test_meets_directional_commit : (∀ e x op args, ((aimed e x op args).core bootCore).vec.performable = some (command op args)) ∧
    (∀ e x op args, (aimed e x op args).strand? h0 = some (granted task)) ∧
    DReg.cls (aimedReg 5) = .finite ∧ DReg.cls (aimedReg 0x80000000) = .zero ∧ DReg.cls (aimedReg 0x7FFFFFFE) = .infinite ∧ DReg.cls (aimedReg 0x7FFFFFFF) = .invalid ∧
    0x7FFFFFFD < (aimedReg 5).2.toInt + (0x7FFFFFFF : Word).toInt ∧ (aimedReg 5).2.toInt + (-0x80000010 : Word).toInt < -0x7FFFFFFF ∧
    -0x7FFFFFFF ≤ (aimedReg 5).2.toInt + (3 : Word).toInt ∧ (aimedReg 5).2.toInt + (3 : Word).toInt ≤ 0x7FFFFFFD ∧
    (∀ i : Fin 128, (aimedReg 5).1[i] ≠ 0x8000#16) ∧ (∃ i : Fin 128, (((aimed 5 0 (.dmov none 0 2) []).core bootCore).vec.dreg 3).1[i] = 0x8000#16) ∧
    (∀ i : Fin 128, DReg.zero.1[i] = 0) ∧ (∀ i : Fin 128, (aimedReg 5).1[i] ≠ 0) ∧ ((3 : Word).setWidth 32 : BitVec 32) ≠ 0x80000000 ∧
    ((3 : Word).setWidth 32 : BitVec 32) ≠ 0x7FFFFFFF := by
  refine ⟨fun _ _ _ _ => rfl, fun _ _ _ _ => rfl, ?_⟩
  decide +kernel

/-- Elements that are NaN, infinite and finite; dot products of two directions of one sign, of which one is infinite; a weight of 1.5 and one that is infinite. -/
theorem test_meets_renormalising : (∀ i, i < 128 → (FFmt.f32.value (VReg.pos (((aimed 5 0x7FC00000 (.dmov none 0 2) []).core bootCore).vec.reg 2) false i)).isNan = true) ∧
    (∀ i, i < 128 → (FFmt.f32.value (VReg.pos (((aimed 5 0x7F800000 (.dmov none 0 2) []).core bootCore).vec.reg 2) false i)) = .inf false) ∧
    (∀ i, i < 128 → (FFmt.f32.value (VReg.pos (((aimed 5 0x3F800000 (.dmov none 0 2) []).core bootCore).vec.reg 2) false i)).special = false) ∧
    ((List.finRange 128).map fun i => (aimedReg 5).1[i].toInt * (aimedReg 0x7FFFFFFE).1[i].toInt).sum = 128 ∧
    FFmt.f32.value 0x3FC00000 = .fin false (3 * 2 ^ 22) (-(23 : Nat)) ∧ FFmt.f32.value 0x4B800000 = .fin false (2 ^ 23) (1 : Nat) ∧
    (FFmt.f32.value 0x7F800000).special = true := by decide +kernel

/-- The 33 words of an image from the first of the bank on. -/
theorem test_meets_images : (command (.dld none 2 mem1) [at0 0]).got = [] ∧ (command (.dld none 2 mem1) [at0 0]).owed = [] ∧ (aimed 5 0 (.dld none 2 mem1) [at0 0]).picks = [] ∧
    (∃ s1 ls, poolLocateAll (aimed 5 0 (.dld none 2 mem1) [at0 0]) (command (.dld none 2 mem1) [at0 0]) (granted task) 8 .read
      ((List.range 33).map fun i => (i, at0 0 + BitVec.ofNat 64 (8 * i))) = .ok (s1, ls) ∧ ls.length = 33) ∧
    (∃ s1 ls, poolLocateAll (aimed 5 0 (.dst none 2 mem1) [at0 0]) (command (.dst none 2 mem1) [at0 0]) (granted task) 8 .write
      ((List.range 33).map fun i => (i, at0 0 + BitVec.ofNat 64 (8 * i))) = .ok (s1, ls) ∧
      ls.all (fun e => ((aimed 5 0 (.dst none 2 mem1) [at0 0]).place e.2.place).station == []) = true) ∧
    Memory.wf (aimed 5 0 (.dst none 2 mem1) [at0 0]).mem = true :=
  ⟨rfl, rfl, rfl, ⟨_, _, rfl, rfl⟩, ⟨_, _, rfl, by decide +kernel⟩, by decide +kernel⟩

/-- g1, g2 = a tile descriptor of two bf16 operands, or the descriptor of a move of 256-byte rows. -/
def product : Strand := { task.setG 2 (BitVec.ofNat 64 (2 ^ 42 + 2 ^ 33 + 2 ^ 19)) with r := { (task.setG 2 (BitVec.ofNat 64 (2 ^ 42 + 2 ^ 33 + 2 ^ 19))).r with fmta := 2, fmtb := 2 } }
def moving : Word := BitVec.ofNat 64 (2 ^ 44)

/-- A tile command of the task. -/
def tile (op : Instr) : MCmd := matrixCommand (box product) h0 product op 0 moving []

theorem test_meets_matrix_entry : Issues (box product) h0 product none ∧ gsrc product 1 = .ok 0 ∧
    (productChecks (box product) product 0 (BitVec.ofNat 64 (2 ^ 42 + 2 ^ 33 + 2 ^ 19))).toOption = some [] ∧
    (moveChecks false 4 (box product) product 0 moving).toOption = some [] ∧ (moveChecks true 4 (box product) product 0 moving).toOption = some [] ∧
    (scaleChecks (box product) product 0 0).toOption = some [] ∧ tileIllegal 1 0 .bf16 .bf16 = true ∧ ((box product).core bootCore).mqueue.length < 4 ∧
    ¬((boxed product { core0 with mqueue := List.replicate 4 (tile (.mzero none 0)) }).core bootCore).mqueue.length < 4 ∧
    quadCommands (box product) (quadOf bootCore) = [] ∧
    quadCommands (boxed product { core0 with mqueue := [tile (.mzero none 0)] }) (quadOf bootCore) ≠ [] ∧ product.kept = none ∧
    (({ product with kept := some (.tile (tile (.mmul none 1 2))) } : Strand).kept.any fun k => match k with | .tile _ => true | _ => false) = true :=
  ⟨by decide +kernel, rfl, by decide +kernel, by decide +kernel, by decide +kernel, by decide +kernel, by decide +kernel, by decide, by decide,
    by decide +kernel, by decide +kernel, by decide +kernel, by decide +kernel⟩

/-- A quantisation command from binary32 to bfloat16, counter 1, its block at 0x8000: one row of 32 columns from 0x10000 to 0x20000. -/
def control : Word := BitVec.ofNat 64 (2 * 2 ^ 59 + 2 ^ 45)
def quant : Strand := (task.setG 1 0x8000).setG 2 control
def block (rows : Byte) : State :=
  { box quant with mem := table0 ++ [(0x8002, 1), (0x800A, 2)] ++ (if rows = 0 then [] else [(0x8018, rows)]) ++ [(0x801C, 32), (0x8020, 0x80), (0x8024, 0x40)] }

theorem test_meets_quant : Issues (block 1) h0 quant none ∧ gsrc quant 1 = .ok 0x8000 ∧ gsrc quant 2 = .ok control ∧ qIllegal 1 = true ∧ qIllegal control = false ∧
    (∃ s1 ws, loadWords (block 1) h0 quant 0x8000 8 = .ok (s1, ws) ∧ qBadField control (params8 ws) = none ∧ qSpaceFault s1 quant (qSides control (params8 ws)) = none ∧
      qEngine s1 quant.core.die = some 0 ∧ (s1.die 0).qqueue.length < 256 ∧ qKind control = 0 ∧ (s1.core bootCore).c[(qIdx control).toFin] ≠ BitVec.allOnes 16) ∧
    (∃ s1 ws, loadWords (block 0) h0 quant 0x8000 8 = .ok (s1, ws) ∧ qBadField control (params8 ws) = some (0x18, 0)) ∧ qcmdsOf (block 1) h0 = [] :=
  ⟨by decide +kernel, rfl, rfl, by decide +kernel, by decide +kernel,
    ⟨_, _, rfl, by decide +kernel, by decide +kernel, by decide +kernel, by decide +kernel, by decide +kernel, by decide +kernel⟩,
    ⟨_, _, rfl, by decide +kernel⟩, by decide +kernel⟩

/-- A quantisation command of the task in die 0's engine. -/
def qcmd1 : QCmd :=
  { id := 5, h := h0, ctx := 1, launch := 1, core := bootCore, ctrl := control, blockAt := 0x8000, params := params8 [0x10000, 0x20000, 0, 0x2000000001, 0x4000000080]
    xr := false, level := 0, epoch := 0, block := 0, pos := 0, rowPos := 0, tail := [], aside := false, reread := false, missed := false, flags := {}, amax := none }

def quantising : State := { block 1 with dies := [(0, { Die.reset with qqueue := [qcmd1] })] }

theorem test_meets_random : qcmdsOf quantising h0 ≠ [] ∧ src (box (aims 0x8000)) h0 (aims 0x8000) 0 (.g 1) = .ok 0x8000 ∧ gsrc (aims 0x8000) 23 = .ok 0 ∧
    gsrc (aims 0x8000) (gplus 22 1) = .ok 0 ∧ Room (box (aims 0x8000)) h0 (aims 0x8000) [.g 1] (.g 2) ∧
    (∃ s1 ws, loadWords (box (aims 0x8000)) h0 (aims 0x8000) 0x8000 4 = .ok (s1, ws) ∧ (imageReservation ws).ok = true ∧
      refusesReservation s1 bootCore.die 1 (imageReservation ws) = none) ∧
    (∃ s1 ws, loadWords { box (aims 0x8000) with dies := [(0, { Die.reset with rng := [(1, [⟨0, 0, 0, 0, 0⟩])] })] } h0 (aims 0x8000) 0x8000 4 = .ok (s1, ws) ∧
      refusesReservation s1 bootCore.die 1 (imageReservation ws) = some (1, 0)) :=
  ⟨by decide +kernel, rfl, rfl, rfl, rfl, ⟨_, _, rfl, by decide +kernel, by decide +kernel⟩, ⟨_, _, rfl, by decide +kernel⟩⟩

/-! History memory and element contexts. -/

/-- A key in slot 0 of slice 0 of die 0, of task `owner`, with its states; its handle is 0. -/
def key0 (owner : Handle) (states : List (Nat × List Word)) : Key :=
  { slot := 0, gen := 0, ctx := 1, owner := owner, pkg := false, size := 16, f64 := false, keep := 2, xlim := 1, horizon := 3, states := states
    retired := none, closed := false }

def keyed (k : Key) (st : Strand) : State := { paired st with hist := [(⟨0, 0⟩, { HistSlice.reset with keys := [k] })] }

/-- A descriptor at 0x8000: 16 bytes, keep 2, step 1, limit 1, horizon 1. -/
def declaring : State := { box (aims 0x8000) with mem := table0 ++ [(0x8000, 16), (0x8003, 2), (0x8008, 1), (0x8010, 1), (0x8018, 1)] }

theorem test_meets_hdecl : Issues declaring h0 (aims 0x8000) none ∧ src declaring h0 (aims 0x8000) 0 (.g 1) = .ok 0x8000 ∧ spaceCode 0x8000 ≠ 10 ∧
    Room declaring h0 (aims 0x8000) [.g 1] (.g 2) ∧
    (∃ s0 l s1 ws, locate declaring h0 (aims 0x8000) 0x8000 8 .read false = .ok (s0, l) ∧ loadWords declaring h0 (aims 0x8000) 0x8000 8 = .ok (s1, ws) ∧
      descBad ws = none ∧
      let home := keyHome s1 bootCore (descAddr l 0x8000) (descByte ws 4 == 1)
      freeKeySlot (s1.histSlice home) = some 0 ∧ s1.sliceIn home = true ∧ granulesUsed (s1.histSlice home) + keyGranules (descKeep ws) (descSize ws) ≤ 4096) :=
  ⟨by decide +kernel, rfl, by decide, rfl, ⟨_, _, _, _, rfl, rfl, by decide +kernel, by decide +kernel, by decide +kernel, by decide +kernel⟩⟩

/-- That descriptor with a byte of its last 32 set, and with a size that is no multiple of 8. -/
theorem test_meets_bad_descriptors : ∀ e ∈ [((0x8028, 1), 0x20), ((0x8001, 1), 0)],
    (loadWords { declaring with mem := table0 ++ Memory.write [(0x8000, 16), (0x8003, 2), (0x8008, 1), (0x8010, 1), (0x8018, 1)] e.1.1 e.1.2 } h0 (aims 0x8000) 0x8000 8).toOption.any
      (fun x => ((descBad x.2).map (·.1)) == some e.2) = true := by decide +kernel

/-- g1 = 0, the key's handle, g2 = a buffer, g3 = the stamp 5. -/
def putter : Strand := (task.setG 2 (at0 0)).setG 3 5

theorem test_meets_hput : Issues (keyed (key0 h0 []) putter) h0 putter none ∧ src (keyed (key0 h0 []) putter) h0 putter 0 (.g 1) = .ok 0 ∧
    src (keyed (key0 h0 []) putter) h0 putter 1 (.g 2) = .ok (at0 0) ∧ src (keyed (key0 h0 []) putter) h0 putter 2 (.g 3) = .ok 5 ∧
    keyOf (keyed (key0 h0 []) putter) 1 0 = some (key0 h0 []) ∧ keyOf (keyed (key0 h0 [(5, [1, 2])]) putter) 1 0 = some (key0 h0 [(5, [1, 2])]) ∧
    (5 : Word).toNat ≤ (key0 h0 [(5, [1, 2])]).newest ∧ (key0 h0 [(4, [1, 2])]).newest < (5 : Word).toNat ∧
    (∃ s1 ls, bufferLocs (keyed (key0 h0 []) putter) h0 putter (at0 0) .read (recordLen 16) = .ok (s1, ls) ∧
      ∃ st1, fence (keyed (key0 h0 []) putter) (putter.orTmask (bufferBits putter ls)) .die = .ok st1) ∧ ((keyed (key0 h0 []) putter).histSlice (handleSlice 0)).waits = [] :=
  ⟨by decide +kernel, rfl, rfl, rfl, by decide +kernel, by decide +kernel, by decide +kernel, by decide +kernel, ⟨_, _, rfl, _, rfl⟩, rfl⟩

/-- g1 = 0, the key's handle, g2 = the instant 5, g3 = a buffer. -/
def reader : Strand := (task.setG 2 5).setG 3 (at0 0)

theorem test_meets_hget : src (keyed (key0 h1 [(5, [1, 2])]) reader) h0 reader 0 (.g 1) = .ok 0 ∧ gsrc reader 2 = .ok 5 ∧ gsrc reader (gplus 2 1) = .ok (at0 0) ∧
    keyOf (keyed (key0 h1 [(5, [1, 2])]) reader) 1 0 = some (key0 h1 [(5, [1, 2])]) ∧
    (∃ s1 ls, bufferLocs (keyed (key0 h1 [(5, [1, 2])]) reader) h0 reader (at0 0) .read (recordLen 16) = .ok (s1, ls)) ∧
    decideRead (key0 h1 [(5, [1, 2])]) 5 (levelOf (keyed (key0 h1 []) reader) reader) true = .served 0 0 [1, 2] {} ∧
    decideRead (key0 h1 [(3, [1, 2])]) 5 (levelOf (keyed (key0 h1 []) reader) reader) true = .park ∧ (key0 h1 []).closed = false ∧
    ((keyed (key0 h1 []) reader).histSlice (handleSlice 0)).waits.length < 1000 ∧ ((keyed (key0 h1 []) reader).histSlice (handleSlice 0)).refused = [] ∧
    (key0 h1 []).owner ≠ h0 ∧ waitOf (keyed (key0 h1 []) reader) h1 = none ∧ keyOf (box reader) 1 0 = none ∧
    Room (keyed (key0 h1 []) reader) h0 reader [.g 1] (.g 4) ∧ recordBusy (keyed (key0 h1 [(5, [1, 2])]) reader) bootCore (at0 0) 2 = none :=
  ⟨rfl, rfl, rfl, by decide +kernel, ⟨_, _, rfl⟩, rfl, rfl, rfl, by decide, rfl, by decide, by decide +kernel, by decide +kernel, rfl, by decide +kernel⟩

/-- States in rising order; an instant between two of them, at the end of the limit, at the end of the horizon and beyond; no state and one state. -/
theorem test_meets_history_decision : (key0 h1 [(2, [1, 2]), (4, [3, 4])]).states.Pairwise (fun x y => x.1 < y.1) ∧
    (key0 h1 [(2, [1, 2]), (4, [3, 4])]).states = [] ++ (2, [1, 2]) :: (4, [3, 4]) :: [] ∧ (key0 h1 [(2, [1, 2]), (4, [3, 4])]).oldest = 2 ∧
    (key0 h1 [(2, [1, 2]), (4, [3, 4])]).newest + (key0 h1 []).xlim = 5 ∧ (key0 h1 [(2, [1, 2]), (4, [3, 4])]).newest + (key0 h1 []).horizon = 7 ∧
    (key0 h1 []).states = [] ∧ (key0 h1 [(5, [1, 2])]).states = [(5, [1, 2])] := by decide

/-- g2 = a placement in bank 0, g1 = a descriptor at 0x8000 of one binary32 element whose program, one `ehalt`, stands at 0x9000. -/
def placed : Strand := (task.setG 1 0x8000).setG 2 (BitVec.ofNat 64 (2 ^ 48 + 128 * 2 ^ 16))
def tensing : State :=
  { box placed with mem := table0 ++ [(0x8000, 1), (0x8004, 1), (0x8008, 1), (0x800C, 1), (0x8011, 0x90), (0x9000, 1), (0x9003, 0xD0)] }

theorem test_meets_tdecl : Issues tensing h0 placed none ∧ gsrc placed 2 = .ok (BitVec.ofNat 64 (2 ^ 48 + 128 * 2 ^ 16)) ∧
    src tensing h0 placed 1 (.g 1) = .ok 0x8000 ∧ pwIllegal (BitVec.ofNat 64 (2 ^ 48 + 128 * 2 ^ 16)) = false ∧ pwIllegal 0 = true ∧
    (∃ s1 ws s2 prog bits, loadWords tensing h0 placed 0x8000 4 = .ok (s1, ws) ∧ descTensorBad ws = none ∧
      loadImage s1 h0 placed (ws.getD 2 0) = .ok (s2, prog, bits) ∧
      (checkTensor s2 placed (BitVec.ofNat 64 (2 ^ 48 + 128 * 2 ^ 16)) 0x8000 ws prog).toOption.isSome = true) :=
  ⟨by decide +kernel, rfl, rfl, by decide +kernel, by decide +kernel, ⟨_, _, _, _, _, rfl, by decide +kernel, rfl, by decide +kernel⟩⟩

/-- A tensor of one element in bank 0 of the task's cluster, in slot 0 of its brush; its handle is 0. -/
def tensor0 : Tensor :=
  { gen := 0, ctx := 1, launch := 1, die := false, cluster0 := clusterOf bootCore, slabs := [clusterOf bootCore], slab := 0, e0 := 1, e1 := 1, e2 := 1, ty := 0
    bmax := false, banks := 1, soff := 0, koff := 1024, prog := [0xD000], halo := [], cross := [] }

def sweepCmd (f : BrushCmd → BrushCmd) : BrushCmd :=
  f { id := 9, h := h0, launch := 1, core := bootCore, xr := false, slot := 0, ctrl := 0, prog := none, started := true, sweeps := 0, passed := false
      ended := false, visits := 0, bad := 0, flags := {} }

/-- The small module with that tensor and the commands of its brush. -/
def brushed (queue : List BrushCmd) (st : Strand) : State :=
  let b : Brush := { Brush.reset with slots := #v[some tensor0, none, none, none], queue := queue }
  { box st with clusters := [(clusterOf bootCore, { Cluster.reset with tlb := [placedPage], brush := b })] }

theorem test_meets_busy_records : (recordBusy { keyed (key0 h1 [(5, [1, 2])]) reader with clusters := (brushed [sweepCmd id] task).clusters } bootCore (at0 0) 2).isSome := by
  decide +kernel

/-- g1 = 0, the tensor's handle; g2 = 0, an element, a control word or a context word; g3 = a program at 0x9000. -/
def painter : Strand := task.setG 3 0x9000

theorem test_meets_elements : Issues (brushed [] painter) h0 painter none ∧ src (brushed [] painter) h0 painter 0 (.g 1) = .ok 0 ∧
    (namedTensor (brushed [] painter) painter 0).toOption = some (0, tensor0) ∧ (namedTensor (brushed [sweepCmd id] painter) painter 0).toOption = some (0, tensor0) ∧
    (∃ s1 prog bits, loadImage { brushed [] painter with mem := tensing.mem } h0 painter 0x9000 = .ok (s1, prog, bits) ∧
      (s1.cluster (clusterOf bootCore)).brush.queue = []) ∧
    (∃ s1 prog bits, loadImage { brushed [sweepCmd id] painter with mem := tensing.mem } h0 painter 0x9000 = .ok (s1, prog, bits) ∧
      (s1.cluster (clusterOf bootCore)).brush.queue ≠ [] ∧ (s1.cluster (clusterOf bootCore)).brush.queue.length < 8) ∧
    swIllegal 0 = false ∧ tensor0.slabs.Nodup ∧ sweepsOf (brushed [] painter) h0 painter 0 = [] ∧ sweepsOf (brushed [sweepCmd id] painter) h0 painter 0 ≠ [] ∧
    sweepRuns (brushed [] painter) (clusterOf bootCore) 0 = false ∧ ctxWait ((0 : Word).setWidth 32) < 5 ∧ (0 : Word).extractLsb' 48 16 = 0 ∧
    (0 : Word).toNat + ((0 : Word).extractLsb' 32 16).toNat + 1 ≤ tensor0.count ∧ (0 : Word).extractLsb' 7 57 = 0 ∧ (0 : Word).toNat < tensor0.count :=
  ⟨by decide +kernel, rfl, by decide +kernel, by decide +kernel, ⟨_, _, _, rfl, by decide +kernel⟩, ⟨_, _, _, rfl, by decide +kernel, by decide +kernel⟩,
    by decide +kernel, by decide, by decide +kernel, by decide +kernel, by decide +kernel, by decide +kernel, by decide, by decide +kernel, by decide, by decide +kernel⟩

/-! System instructions. -/

/-- The small module with its context outside the system context. -/
def user (st : Strand) : State := { box st with contexts := [(1, { context0 with system := false })] }

theorem test_meets_system : (box task).context? 1 = some context0 ∧ context0.system = true ∧ isSystem (box task) task = true ∧ isSystem (user task) task = false ∧
    Issues (user task) h0 task none ∧ systemOnly 0x20 = true ∧ (box task).deviceRead bootCore 1 (context0.qtab + BitVec.ofNat 64 (16 * (15 % 16))) 8 = some 0 ∧
    (box task).deviceRead bootCore 1 (context0.qtab + BitVec.ofNat 64 (16 * (15 % 16)) + 8) 8 = some 0 ∧ src (box (aims 32)) h0 (aims 32) 0 (.g 1) = .ok 32 ∧
    (EType.ofCode ((0x17 : Word).setWidth 5)).isSome = true ∧ (EType.ofCode ((0x07 : Word).setWidth 5)).isNone = true ∧ (3 : Word).extractLsb' 6 58 = 0 ∧
    (3 : Word).extractLsb' 2 2 = 0 ∧ (64 : Word).extractLsb' 6 58 ≠ 0 ∧ (4 : Word).extractLsb' 2 2 ≠ 0 ∧ 1 ≤ (1 : Word).toNat % 256 ∧ (32 : Word).toNat % 256 ≤ 32 ∧
    32 < (33 : Word).toNat % 256 ∧ (256 : Word).toNat % 256 = 0 ∧ (BitVec.ofNat 64 (7 * 2 ^ 56)).toNat / 2 ^ 56 = (7 : Fin 8).val ∧
    8 ≤ (BitVec.ofNat 64 (8 * 2 ^ 56)).toNat / 2 ^ 56 ∧ (0x10A : Word).toNat % 32 = 10 ∧ (0x11E : Word).toNat % 32 = 30 ∧ (0x109 : Word).getLsbD 8 = true ∧
    (0x11F : Word).toNat % 32 = 31 ∧ context0.shown ≤ context0.energy ∧ context0.past = [] ∧ context0.waitingRecord = [] ∧ (64 : Word).toNat % 8 = 0 ∧ (4 : Word).toNat % 8 ≠ 0 :=
  ⟨rfl, rfl, by decide +kernel, by decide +kernel, by decide +kernel, by decide +kernel, by decide +kernel, by decide +kernel, rfl, by decide⟩

/-- The second task frozen, with record slot 0, and its handle in g1. -/
def fault0 : FaultInfo := ⟨1, 0, [1]⟩
def frozenTask (st : Strand) : Strand :=
  { st with status := .frozen, frozen := some { info := fault0, pc := 0, skip := 4, again := none, slot := some 0, handled := true } }
def keeper : Strand := task.setG 1 (h1.setWidth 64)
def freezing : State :=
  { box keeper with
    strands := [(h0, keeper), (h1, frozenTask (boundTask { placedSource with launch := 1 } bootCore 1))]
    contexts := [(1, { context0 with records := [0] })] }

theorem test_meets_frozen : Issues freezing h0 keeper none ∧ src freezing h0 keeper 0 (.g 1) = .ok (h1.setWidth 64) ∧ h1 = (h1.setWidth 64 : Word).setWidth 32 ∧
    h1 ≠ h0 ∧ (freezing.strand? h1).any (fun x => x.frozen.isSome && x.ctx == keeper.ctx && x.status != .preempted) ∧
    (freezing.context? 1).map Context.waitingRecord = some [] ∧ ((paired keeper).strand? h1).all (fun y => y.frozen.isNone) :=
  ⟨by decide +kernel, rfl, by decide, by decide, by decide +kernel, rfl, by decide +kernel⟩

/-- The second task waits for a page. -/
def paging : State :=
  { box task with
    strands := [(h0, task), (h1, { boundTask { placedSource with launch := 1 } bootCore 1 with status := .parked .translation })]
    xlate := [.strand h1]
    dies := [(0, Die.reset)] }

theorem test_meets_translation : Issues paging h0 task none ∧ isSystem paging task = true ∧ (paging.strand? h1).any (fun x => x.status == .parked .translation) ∧
    XlateWait.strand h1 ∈ paging.xlate ∧ paging.reissue ++ paging.xlate ≠ [] ∧ (box task).reissue ++ (box task).xlate = [] ∧ (∃ y, (0, y) ∈ paging.dies) ∧ src (box (aims 0x2001)) h0 (aims 0x2001) 0 (.g 1) = .ok 0x2001 ∧
    (0x2001 : Word).extractLsb' 15 49 = 0 ∧ (0x2001 : Word).extractLsb' 12 2 = 2 ∧ (0x1001 : Word).extractLsb' 12 2 = 1 ∧ (0x3001 : Word).extractLsb' 12 2 = 3 ∧
    (0x8000 : Word).extractLsb' 15 49 ≠ 0 ∧ (∃ st1, fence (box (aims 0x2001)) (aims 0x2001) .pkg = .ok st1) :=
  ⟨by decide +kernel, by decide +kernel, by decide +kernel, by decide +kernel, by decide, rfl, ⟨_, List.mem_singleton.2 rfl⟩, rfl, by decide, by decide, by decide, by decide,
    by decide, ⟨_, rfl⟩⟩

/-- A page that has come: the task at the head of the list issues its store, counted before it waited, whatever the agenda says. -/
def again : Strand := { aimed0 with status := .parked .translation, counted := true }
def reissuing : State :=
  { State.reset.withFetchWord 16 0xB441 with reissue := [.strand h0], strands := [(h0, again)], agenda := [⟨.issue core1, 1, []⟩] }

set_option maxRecDepth 20000 in
theorem test_meets_reissue :
    let y := { again with status := .ready }
    let s0 := { reissuing with reissue := [], picks := [] }.setStrand h0 y
    ∃ s1, reissuing.reissue = [.strand h0] ∧ (∀ t rest, reissuing.agenda = t :: rest → t.what ≠ .auto) ∧ reissuing.strand? h0 = some again ∧
      again.status = .parked .translation ∧ again.counted = true ∧ again.reissue = none ∧ strandReady s0 y.core y = true ∧ again.r.pc.getLsbD 0 = false ∧
      Fetches s0 h0 y 0 [0xB441] s1 ∧ WordsOf [0xB441] (.st none .s64 plain (.g 2) mem1) ∧
      behind s1 y (portBanks s1 h0 y (.st none .s64 plain (.g 2) mem1)) = false := by
  refine ⟨_, rfl, fun t rest e => ?_, rfl, rfl, rfl, rfl, by decide +kernel, rfl, ⟨_, rfl, rfl⟩, ⟨by decide +kernel, by decide, by decide, ?_⟩, by decide +kernel⟩
  · injection e with e _
    subst e
    decide
  · intro k h1 h2
    exact absurd h2 (by simp; omega)

/-- The `replay` that waits for the last of what it issued again. -/
theorem test_meets_waiting_replay :
    let st := { task with status := .parked .replaying, pending := some held }
    (box st).strand? h0 = some st ∧ st.pending = some held ∧ (box st).reissue = [] := ⟨rfl, rfl, rfl⟩

/-- The second task's load has gone to its place with its translation, of a word of memory. -/
def loading : State :=
  { box task with
    strands := [(h0, task), (h1, { boundTask source1 bootCore 1 with
      status := .parked (.atPlace (.slice ⟨0, 0⟩)), pending := some { held with kind := 3, addr := 0x8000 } })] }

/-- A vector store of the task that has begun still owes an element write to a slice. -/
def owes : State :=
  boxed task { core0 with vec := { VectorFile.reset with running := [{ command (.vst none .f32 1 mem1) [0x8000] with owed := [⟨0, .slice ⟨0, 0⟩, 0x8000, 4, 1, 0⟩] }] } }

theorem test_meets_used_translation : loading.posted = [] ∧ (loading.strand? h1).any (fun x => x.status == .parked (.atPlace (.slice ⟨0, 0⟩)) &&
      x.pending == some { held with kind := 3, addr := 0x8000 } && x.ctx == (0x1001 : Word).setWidth 12) ∧ held.reply = none ∧ spaceCode 0x8000 < 8 ∧
    (0x1001 : Word).extractLsb' 12 2 = 1 ∧ Issues loading h0 task none ∧ isSystem loading task = true ∧
    (∀ z ∈ (box task).strands, ∀ q, z.2.status ≠ .parked (.atPlace q)) ∧ (∀ k ∈ (box task).cores, ∀ m ∈ k.2.vec.running, m.owed = []) ∧
    (∃ k ∈ (owes.cores), ∃ m ∈ k.2.vec.running, owes.strand? m.h = some task ∧ task.ctx = (0x1001 : Word).setWidth 12 ∧ ∃ o ∈ m.owed, o.key < 2 ^ 48) :=
  ⟨rfl, by decide +kernel, rfl, by decide, by decide, by decide +kernel, by decide +kernel,
    fun z hz q => by cases List.mem_singleton.1 hz; exact (fun h => nomatch h), by decide +kernel, by decide +kernel⟩

/-! ### Events -/


/-- The small module with its cluster changed. -/
def clustered (f : Cluster → Cluster) : State := { box task with clusters := [(cluster0, f { Cluster.reset with tlb := [placedPage] })] }

/-- Its core changed. -/
def cored (f : Core → Core) : State := boxed task (f core0)

/-- An entry has spilled to a bank on the way to which an access of the core's second task is. -/
def spilling : State :=
  let s := cored fun x => { x with spilled := [(0, source1)] }
  { s with strands := s.strands ++ [(h1, { boundTask source1 bootCore 1 with status := .parked (.transit [] (Vector.replicate 24 0) false [] [bootCore]) })] }

theorem test_meets_binding :
    ((clustered fun x => { x with handlers := [⟨h1, 0, 0, source1⟩] }).cluster cluster0).handlers.find? (fun y =>
      (handlerCore (clustered fun x => { x with handlers := [⟨h1, 0, 0, source1⟩] }) cluster0 y).isSome) = some ⟨h1, 0, 0, source1⟩ ∧
    handlerCore (clustered fun x => { x with handlers := [⟨h1, 0, 0, source1⟩] }) cluster0 ⟨h1, 0, 0, source1⟩ = some bootCore ∧
    slotFor (cored fun x => { x with deque := [source1] }) bootCore .deque = some 1 ∧
    dequeEntry (cored fun x => { x with deque := [source1] }) bootCore 1 = some (0, source1) ∧ slotFor (box task) bootCore .deque = none ∧
    slotFor (cored fun x => { x with work := [source1] }) bootCore .work = some 1 ∧ urgentPacket (cored fun x => { x with work := [source1] }) bootCore 1 = none ∧
    workPacket (cored fun x => { x with work := [source1] }) bootCore 1 = some (0, source1) ∧
    slotFor (cored fun x => { x with deque := [source1] }) core1 .steal = some 0 ∧
    victim (cored fun x => { x with deque := [source1] }) core1 0 = some (bootCore, 0, source1) ∧ entryFree (cored fun x => { x with deque := [source1] }) bootCore 0 = true ∧
    dequeEntry spilling bootCore 2 = some (0, source1) ∧ victim spilling core1 0 = some (bootCore, 0, source1) ∧ entryFree spilling bootCore 0 = false ∧ (box task).strands.length < 65536 := by decide +kernel

/-- A pre-empted second task of a launch of priority 0, and a packet of one of priority 1. -/
def away1 : State :=
  { boxed task { core0 with away := [h1], work := [{ source1 with launch := 2 }] } with
    strands := [(h0, task), (h1, { boundTask source1 bootCore 1 with status := .preempted })]
    launches := [(1, lease), (2, { lease with priority := 1 })] }

theorem test_meets_return : urgentPacket away1 bootCore 1 = some (0, { source1 with launch := 2 }) ∧ slotFor away1 bootCore .work = some 1 ∧
    (returning { away1 with launches := [(1, lease)] } bootCore).map (·.1) = some h1 ∧ slotFor { away1 with launches := [(1, lease)] } bootCore .returning = some 1 ∧
    slotFor (cored fun x => { x with inbox := [⟨h0⟩] }) bootCore .inbox = some 1 ∧ (cored fun x => { x with inbox := [⟨h0⟩] }).strand? h0 = some task ∧
    64 ≤ (List.replicate 64 source1).length ∧ ({ core0 with dequeRes := [h0] }).dequeRes ≠ [] ∧ (core0).deque = [] ∧
    ({ core0 with spilled := [(0, source1)] }).spilled ≠ [] ∧ Memory.wf (box task).mem = true ∧
    dequeEntry (cored fun x => { x with spilled := [(0, source1)] }) bootCore 1 = some (0, source1) := by decide +kernel

/-- The task waits for the word at offset 0 of its bank with a request of a kind, the word full or empty. -/
def waits (kind : BitVec 3) (full : Bool) : State :=
  { box { watching with status := .parked (.atPlace (.bank bootCore)) } with
    places := [(.bank bootCore, { PlaceState.reset with station := [⟨h0, (at0 0).toNat, kind, 9, at0 0⟩] })]
    empties := if full then [] else [(at0 0).toNat] }

theorem test_meets_waiting : ∀ kind ∈ [(0 : BitVec 3), 2], ∀ full ∈ [true, false], (waits kind full).strand? h0 = some watching ∧
    (((waits kind full).place (.bank bootCore)).station.find? fun e => decide (e.h = h0)) = some ⟨h0, (at0 0).toNat, kind, 9, at0 0⟩ ∧
    waitingAt (waits kind full) (.bank bootCore) (at0 0).toNat = [⟨h0, (at0 0).toNat, kind, 9, at0 0⟩] ∧ Memory.wf (waits kind full).mem = true ∧
    (waits kind full).isFull (at0 0).toNat = full ∧ (∀ e ∈ ((waits kind full).place (.bank bootCore)).seq, ∀ d ∈ e.held, d.h ≠ h0) := by decide +kernel

/-- Its word lies under a running sweep. -/
theorem test_meets_busy_waits : ∀ kind ∈ [(0 : BitVec 3), 2],
    let s := { waits kind (kind == 0) with clusters := (brushed [sweepCmd id] task).clusters }
    s.strand? h0 = some watching ∧ waitingAt s (.bank bootCore) (at0 0).toNat = [⟨h0, (at0 0).toNat, kind, 9, at0 0⟩] ∧
    s.admits ⟨h0, (at0 0).toNat, kind, 9, at0 0⟩ = true ∧ (s.busyFault (.bank bootCore) (at0 0).toNat 8 (at0 0)).isSome = true ∧
    ((waits kind (kind == 0)).busyFault (.bank bootCore) (at0 0).toNat 8 (at0 0)).isNone = true := by decide +kernel

/-- The task's access has been answered. -/
def answered : Strand := { watching with status := .parked .reply, pending := some { held with reply := some (.inl ⟨7, 0⟩) } }
def refused : Strand := { watching with status := .parked .reply, pending := some { held with reply := some (.inr fault0) } }
def reducing : State :=
  { box watching with clusters := [(cluster0, { Cluster.reset with outbox := [⟨1, .bank bootCore, (at0 0).toNat, 1, .s64, true, .one h0 3⟩] })] }

theorem test_meets_replies : (box answered).strand? h0 = some answered ∧ answered.reply? = some ({ held with reply := some (.inl ⟨7, 0⟩) }, .inl ⟨7, 0⟩) ∧
    hasRoom ((box answered).core answered.core) h0 held.pops (held.dst.map fun d => (d, extend held.sz (7 : Word).toNat)) = none ∧
    refused.reply? = some ({ held with reply := some (.inr fault0) }, .inr fault0) ∧ watching.reply? = none ∧
    (∀ e ∈ (reducing.place (.bank bootCore)).station, e.h ≠ h0) ∧
    (reducing.cluster cluster0).outbox = [⟨1, .bank bootCore, (at0 0).toNat, 1, .s64, true, .one h0 3⟩] ∧ reducing.picks.headD 0 ≠ 1 ∧
    waitingAt reducing (.bank bootCore) (at0 0).toNat = [] ∧ Memory.wf reducing.mem = true ∧ watching.pending = some held := by decide +kernel

/-- The task's send was first refused at cycle 10. -/
def sender (inTrap : Bool) : Strand :=
  { task with status := .parked (.mailboxRoom bootCore 3), sending := some overdueSend, r := { task.r with inTrap := inTrap } }

theorem test_meets_retries : (Wait.mailboxRoom bootCore 3).retries = true ∧ Wait.mailbox.retries = false ∧ (box (sender false)).strand? h0 = some (sender false) ∧
    (box (sender false)).cycle < 10 + sendLimit (box (sender false)) 1 ∧
    10 + sendLimit { box (sender true) with cycle := 0x0010000A } 1 ≤ ({ box (sender true) with cycle := 0x0010000A }).cycle ∧ (sender true).r.inTrap = true ∧
    (box { task with status := .parked .fence }).strand? h0 = some { task with status := .parked .fence } := by decide +kernel

def slice0 : SliceId := ⟨0, 0⟩
def slice1 : SliceId := ⟨0, 1⟩
def offer0 (sender : Sender) (path : List SliceId) : Offer := { id := 4, sender := sender, blocking := false, core := bootCore, msg := letter false, path := path }
def offering (sender : Sender) (path : List SliceId) (full : Bool) (st : Strand) : State :=
  { posted (if full then List.replicate 8 (letter false) else []) st with offers := [offer0 sender path] }

theorem test_meets_offers : (offering (.engine 4) [] false task).offers.find? (fun e => e.id == 4 && e.path.isEmpty) = some (offer0 (.engine 4) []) ∧
    accepts (offering (.engine 4) [] false task) bootCore 3 (.engine 4) = true ∧ accepts (offering (.engine 4) [] true task) bootCore 3 (.engine 4) = false ∧
    (offering (.strand h0) [slice0] false watching).offers.find? (fun e => e.id == 4) = some (offer0 (.strand h0) [slice0]) ∧
    (offering (.strand h0) [slice0] false watching).strand? h0 = some watching ∧ accepts (offering (.strand h0) [slice0] false watching) bootCore 3 (.strand h0) = true ∧
    accepts (offering (.strand h0) [slice0] true watching) bootCore 3 (.strand h0) = false ∧ (offer0 (.strand h0) []).blocking = false ∧ slice0 ≠ slice1 ∧
    relayRoom (offering (.strand h0) [slice0, slice1] false watching) slice1 = true := by decide +kernel

/-- The task travels to core 1, has fills waiting, and replays a fill. -/
def travelling : Strand := { task with status := .parked (.inbox core1) }
def filling : Strand := { task with fills := [(2, 7), (2, 8)] }
def replaying : Strand := { task with replay := some 0, records := [⟨6, 2, 2, [7]⟩] }

theorem test_meets_packets : (box travelling).strand? h0 = some travelling ∧ ((box travelling).core core1).inbox = [] ∧ (box travelling).freeSlots core1 ≠ [] ∧
    (box travelling).coreIn core1 = true ∧ (box travelling).admitsCtx core1 1 = true ∧ ((box travelling).core core1).leaving = false ∧ (box filling).strand? h0 = some filling ∧ filling.replay = none ∧
    (box replaying).strand? h0 = some replaying ∧ replaying.fills = [] ∧ replaying.records[0]? = some ⟨6, 2, 2, [7]⟩ := by decide +kernel

/-- A claim of one to eight groups at the head of the pool, with no group, two groups, and none in service. -/
def claims (lo hi : BitVec 2) (out : List HwUnit) (vl : Nat) : State :=
  { clustered fun x => { x with claims := [⟨h0, lo, hi, false⟩] } with
    strands := [(h0, { watching with status := .parked .claim }), (h1, { boundTask source1 bootCore 1 with vl := vl })], out := out }

theorem test_meets_lane_claims : (∀ out ∈ [[], (List.range 8).map fun i => HwUnit.laneGroup cluster0 (BitVec.ofNat 3 i)],
      ((claims 0 3 out 0).cluster cluster0).claims = [⟨h0, 0, 3, false⟩] ∧ ((claims 0 3 out 0).strand? h0).any (fun x => x.pending == some held)) ∧
    (∀ e ∈ ((claims 0 3 [] 0).cluster cluster0).claims, claimGroups e.lo ≤ grantBelow ((claims 0 3 [] 0).groupsIn cluster0)) ∧
    (let s := claims 0 3 ((List.range 8).map fun i => HwUnit.laneGroup cluster0 (BitVec.ofNat 3 i)) 0
     (s.cluster cluster0).claims.find? (fun e => decide (grantBelow (s.groupsIn cluster0) < claimGroups e.lo)) = some ⟨h0, 0, 3, false⟩) ∧
    grantBelow ((claims 0 3 ((List.range 8).map fun i => HwUnit.laneGroup cluster0 (BitVec.ofNat 3 i)) 0).groupsIn cluster0) < claimGroups 0 ∧
    claimGroups 3 ≤ grantBelow ((claims 3 3 [] 32).groupsIn cluster0) ∧
    grantBelow (min (claimGroups 3) ((claims 3 3 [] 32).groupsIn cluster0 - groupsHeld (claims 3 3 [] 32) cluster0)) < claimGroups 3 ∧
    claimGroups 0 ≤ grantBelow (min (claimGroups 3) ((claims 0 3 [] 32).groupsIn cluster0 - groupsHeld (claims 0 3 [] 32) cluster0)) := by decide +kernel

/-- A command in the dispatch queue, and an exception in flight or a fault owed to the task. -/
def dispatching : State := cored fun x => { x with vec := { VectorFile.reset with queue := [command (.dmov none 0 1) []] } }
def inFlight (x : TrapInfo ⊕ FaultInfo) : Strand := { task with flight := some ⟨command (.dmov none 0 1) [], 1, x⟩ }
def owing : Strand := { task with due := [fault0] }

/-- The queue is held by an exception, and a command of a handler goes ahead of it. -/
def ahead0 : VCmd := { command (.dmov none 0 1) [] with trap := true, ahead := true }
def handling : State := cored fun x => { x with vec := { VectorFile.reset with trapQueue := [ahead0], held := [(h0, true)] } }

theorem test_meets_dispatch : (dispatching.core bootCore).vec.running = [] ∧ (command (.dmov none 0 1) []).trap = false ∧ ahead0.trap = true ∧
    (dispatching.core bootCore).regrant = false ∧ (handling.core bootCore).regrant = false ∧ (handling.core bootCore).vec.isHeld = true ∧
    (let s := cored fun x => { x with regrant := true, vec := { VectorFile.reset with queue := [command (.dmov none 0 1) []] } }
     dispatchTurn s cluster0 = some bootCore ∧ (s.core bootCore).regrant = true) ∧
    (let s := cored fun x => { x with leaving := true, vec := { VectorFile.reset with queue := [command (.dmov none 0 1) []] } }
     dispatchTurn s cluster0 = some bootCore ∧ (s.core bootCore).leaving = true) ∧ (dispatching.core bootCore).leaving = false ∧ (handling.core bootCore).leaving = false ∧
    (handling.core bootCore).vec.undelivered h0 = false ∧
    (let f : VectorFile := { VectorFile.reset with trapQueue := [ahead0], held := [(h0, false)] }
     f.undelivered ahead0.h = true) ∧
    (let s := cored fun x => { x with vec := { VectorFile.reset with trapQueue := [{ ahead0 with ahead := false }], queue := [{ command (.dmov none 0 1) [] with id := 2 }] } }
     dispatchTurn s cluster0 = some bootCore ∧ (s.core bootCore).vec.isHeld = false ∧ (s.core bootCore).vec.running = []) ∧
    (dispatching.cluster cluster0).dbg.halted = false ∧ dispatchTurn handling cluster0 = some bootCore ∧ (handling.core bootCore).vec.trapQueue = [ahead0] ∧
    (handling.core bootCore).vec.running = [] ∧
    (let s := { dispatching with clusters := [(cluster0, { Cluster.reset with dbg := { Debug.reset with halted := true } })] }
     dispatchTurn s cluster0 = some bootCore ∧ (s.cluster cluster0).dbg.halted = true) := by decide +kernel

/-- A command in the pool that has begun, behind one that has not. -/
theorem test_meets_pool_order :
    let m := command (.vld none .f32 1 mem1) [at0 0]
    let v := { VectorFile.reset with running := [m, { m with id := 2, got := [(0, 0)] }] }
    m ∈ v.running ∧ m.id ∉ v.waiting ∧ m.begun = false ∧ (v.performable.map VCmd.id) = some 2 ∧
      ((pooled (.dmov none 0 1) []).core bootCore).vec.running = [command (.dmov none 0 1) []] ∧ ((pooled (.dmov none 0 1) []).core bootCore).vec.waiting = [] ∧
      (command (.dmov none 0 1) []).begun = false ∧ v.undelivered m.h = false ∧ ((pooled (.dmov none 0 1) []).core bootCore).vec.isHeld = false := by decide +kernel

theorem test_meets_pool : (dispatching.core bootCore).vec.queue = [command (.dmov none 0 1) []] ∧ (dispatching.core bootCore).vec.trapQueue = [] ∧
    (dispatching.core bootCore).vec.held = [] ∧ (dispatching.core bootCore).vec.waiting = [] ∧ dispatchTurn dispatching cluster0 = some bootCore ∧
    ((box task).core bootCore).vec.dispatchable = none ∧ ((box task).core bootCore).vec.performable = none ∧
    ((pooled (.vrenSetn none (.g 1)) [256]).core bootCore).vec.performable = some (command (.vrenSetn none (.g 1)) [256]) ∧
    1 ≤ ((command (.vrenSetn none (.g 1)) [1]).args.headD 0).toNat % 512 ∧ ((command (.vrenSetn none (.g 1)) [256]).args.headD 0).toNat % 512 ≤ 256 ∧
    256 < ((command (.vrenSetn none (.g 1)) [257]).args.headD 0).toNat % 512 ∧ ((command (.vrenSetn none (.g 1)) [512]).args.headD 0).toNat % 512 = 0 ∧
    (box (inFlight (.inl { number := 1 }))).strand? h0 = some (inFlight (.inl { number := 1 })) ∧ atDelivery (inFlight (.inl { number := 1 })) = true ∧
    atDelivery (inFlight (.inr fault0)) = true ∧ atDelivery owing = true ∧ owing.flight = none ∧ owing.status = .ready := by decide +kernel

/-- The smallest scale that holds 1.5 and -0.5 exactly. -/
theorem test_meets_tile_sum : [FVal.fin false 3 (-1)].length = [FVal.fin true 1 (-1)].length ∧
    (∀ v, v ∈ [FVal.fin false 3 (-1)] ∨ v ∈ [FVal.fin true 1 (-1)] → ∃ n m e, v = .fin n m e ∧ -((1 : Nat) : Int) ≤ e) := by
  refine ⟨rfl, fun v h => ?_⟩
  simp only [List.mem_singleton] at h
  exact h.elim (fun h => ⟨_, _, _, h, by decide⟩) (fun h => ⟨_, _, _, h, by decide⟩)

/-- The small module with a command at the array, its strand out of rotation, or in the queue. -/
def quad0 : QuadId := quadOf bootCore
def away : Strand := { product with status := .removed }
def arrayed (op : Instr) : State :=
  { box away with clusters := [(cluster0, { Cluster.reset with tlb := [placedPage], quads := #v[{ Quad.reset with running := some (tile op, 0) }, Quad.reset] })] }
def waitingTile (op : Instr) (level : BitVec 2) (issued : Nat) : State :=
  { boxed away { core0 with mqueue := [tile op], level := level } with
    clusters := [(cluster0, { Cluster.reset with tlb := [placedPage], quads := #v[{ Quad.reset with issued := issued }, Quad.reset] })] }

theorem test_meets_matrix_start : ((waitingTile (.mzero none 1) 0 0).quad quad0).running = none ∧ quadStrict (waitingTile (.mzero none 1) 0 0) quad0 = false ∧
    nextMatrixCore (waitingTile (.mzero none 1) 0 0) quad0 = some bootCore ∧ ((waitingTile (.mzero none 1) 0 0).core bootCore).mqueue = [tile (.mzero none 1)] ∧
    (∀ e ∈ coresOfQuad quad0, ∀ x ∈ ((waitingTile (.mmul none 1 2) 0 24).core e).mqueue, isProduct x = true) ∧
    ((waitingTile (.mmul none 1 2) 0 24).quad quad0).budget ≤ issuedNow (waitingTile (.mmul none 1 2) 0 24) quad0 ∧
    quadStrict (waitingTile (.mzero none 1) 2 0) quad0 = true ∧ ((waitingTile (.mzero none 1) 2 0).quad quad0).turn = (waitingTile (.mzero none 1) 2 0).cycle / 512 ∧
    ((waitingTile (.mzero none 1) 2 0).quad quad0).turnStarted = false ∧ quadCore quad0 0 = bootCore ∧ commandAcq (tile (.mzero none 1)) = false ∧
    ((waitingTile (.mzero none 1) 2 0).cluster cluster0).dbg.halted = false ∧ ((waitingTile (.mzero none 1) 0 0).core bootCore).leaving = false ∧
    ((waitingTile (.mzero none 1) 2 0).core bootCore).leaving = false ∧
    quadStrict { waitingTile (.mzero none 1) 2 0 with clusters := (arrayed (.mzero none 1)).clusters } quad0 = true ∧
    (let s := { waitingTile (.mzero none 1) 2 0 with cycle := 512 }
     (s.quad quad0).turn ≠ s.cycle / 512 ∧ s.cycle % 512 = 0) ∧
    (let s := { waitingTile (.mzero none 1) 2 0 with cycle := 513 }
     (s.quad quad0).turn ≠ s.cycle / 512 ∧ s.cycle % 512 ≠ 0) := by decide +kernel

theorem test_meets_matrix_commit : ((arrayed (.mld none 1 2)).quad quad0).running = some (tile (.mld none 1 2), 0) ∧ quadStrict (arrayed (.mld none 1 2)) quad0 = false ∧
    (arrayed (.mld none 1 2)).strand? h0 = some away ∧ away.status = .removed ∧ away.pending = none ∧ away.r.pc = (tile (.mld none 1 2)).pc ∧
    (∀ i : Fin 64, ((Side.mk bootCore ((moveDesc moving).off + i.val * (moveDesc moving).str) 256).leaseFault (arrayed (.mld none 1 2)) away.launch away.ctx).isNone = true) ∧
    (∀ i : Fin 64, (arrayed (.mst none .f32 .rne 1 2)).sweeping bootCore ((moveDesc moving).off + i.val * (moveDesc moving).str) 256 = none) ∧
    256 ≤ (moveDesc moving).str ∧ (moveDesc moving).off + 63 * (moveDesc moving).str + 256 ≤ 0x1E000 ∧
    ((arrayed (.mst none .f32 .rne 1 2)).place (.bank bootCore)).station = [] ∧ Memory.wf (arrayed (.mst none .f32 .rne 1 2)).mem = true ∧
    (runMatrix (arrayed (.mzero none 1)) (tile (.mzero none 1)) away).toOption.isSome = true ∧
    (runMatrix { arrayed (.mld none 1 2) with launches := [] } (tile (.mld none 1 2)) away).toOption.isNone = true := by decide +kernel

/-- A copy of one word out of the bank to address 0x8000, or from a bank without a lease, of a completion kind; state and words done. -/
def copyHi (kind : Nat) : Word := BitVec.ofNat 64 (2 ^ 30 + kind * 2 ^ 28)
def copy0 (lo hi : Word) (state : BitVec 3) (done : Nat) : Copy :=
  { id := 6, h := h0, ctx := 1, launch := 1, core := bootCore, lo := lo, hi := hi, level := 0, xr := false, issued := 0, home := clusterOf bootCore, state := state, done := done
    firmware := false, epoch := 0, missed := false }
def copying (m : Copy) : State := cored fun x => { x with copies := [m] }

theorem test_meets_copy_burst : ((cored fun x => { x with copyReg := some (copy0 0x8000 (copyHi 0) 0 0) }).core bootCore).copyReg = some (copy0 0x8000 (copyHi 0) 0 0) ∧
    ((cored fun x => { x with copies := List.replicate 127 (copy0 0x8000 (copyHi 0) 1 0) }).core bootCore).copies.length < 128 ∧
    activeCopy (copying (copy0 0x8000 (copyHi 0) 1 0)) bootCore = some (copy0 0x8000 (copyHi 0) 1 0) ∧ (copy0 0x8000 (copyHi 0) 1 0).done + 1 = (copy0 0x8000 (copyHi 0) 1 0).len ∧
    burstTurn (copying (copy0 0x8000 (copyHi 0) 1 0)) cluster0 = some bootCore ∧ ((copying (copy0 0x8000 (copyHi 0) 1 0)).cluster cluster0).dbg.halted = false ∧
    Memory.wf (copying (copy0 0x8000 (copyHi 0) 1 0)).mem = true ∧
    activeCopy (copying (copy0 (coordAddr core1 0) (copyHi 0) 0 0)) bootCore = some (copy0 (coordAddr core1 0) (copyHi 0) 0 0) ∧
    (copyFault (copying (copy0 (coordAddr core1 0) (copyHi 0) 0 0)) (copy0 (coordAddr core1 0) (copyHi 0) 0 0)).isSome = true := by decide +kernel

theorem test_meets_copy_words : ∃ u1 l u2 k, engineLoc ((copying (copy0 0x8000 (copyHi 0) 1 0)).modCluster cluster0 fun y => { y with nextCopy := 1 }) bootCore 1 .read
      ((copy0 0x8000 (copyHi 0) 1 0).srcAt 0) = .ok (u1, l) ∧ engineLoc u1 bootCore 1 .write ((copy0 0x8000 (copyHi 0) 1 0).dstAt 0) = .ok (u2, k) ∧
    waitingAt (copying (copy0 0x8000 (copyHi 0) 1 0)) k.place k.key = [] := ⟨_, _, _, _, rfl, rfl, rfl⟩

/-- A copy of one word to memory that the schedule has posted, an acquiring copy that waits for a write on its way, and the turn of an arrival. -/
def outgoing : Copy := copy0 0x8000 (copyHi 0) 1 0
def acquiring : Copy := copy0 0x8000 (copyHi 0 ||| 0x4C) 0 0
def onItsWay (cmd : Nat) : Posted := ⟨.copyEngine cluster0, cmd, bootCore, h0, 1, 1, .slice slice0, 0x8000, 8, 7, 3⟩
def arrival (i : Nat) : State :=
  { copying acquiring with posted := [onItsWay 1, onItsWay 2], agenda := [⟨.arrive i, 0, []⟩] }

/-- Example 4.3 with rel = 0: the copy has moved its words while memory still holds the old one. -/
theorem test_posted_write : after (exec (.copyBurst bootCore) { copying outgoing with picks := [1] }) (fun t =>
    t.posted.map Posted.key == [0x8000] && t.posted.map Posted.n == [8] && decide (t.mem = (copying outgoing).mem) &&
    (t.core bootCore).copies.map Copy.finished == [true] && t.posted.map (fun p => match p.place with | .bank _ => false | _ => true) == [true]) := by decide +kernel

theorem test_meets_posting : (arrival 0).reissue = [] ∧ activeCopy (copying outgoing) bootCore = some outgoing ∧ copyKind outgoing.hi ≠ 2 ∧ outgoing.level ≠ 2 ∧ copyRel outgoing.hi = false ∧
    (arrival 0).posted[0]? = some (onItsWay 1) ∧ (arrival 1).posted[1]? = some (onItsWay 2) ∧ onItsWay 1 ∈ (arrival 1).posted.take 1 ∧
    waitingAt (arrival 0) (.slice slice0) 0x8000 = [] ∧ Memory.wf (arrival 0).mem = true ∧ activeCopy (arrival 0) bootCore = some acquiring ∧
    (onItsWay 1).swept (arrival 0) = false ∧
    ({ onItsWay 1 with place := .bank bootCore, key := (at0 0).toNat } : Posted).swept (brushed [sweepCmd id] task) = true ∧ copyAcq acquiring.hi = true ∧ (onItsWay 1).cmd < acquiring.id ∧ (onItsWay 1).scope ≤ copyScope acquiring.hi := by decide +kernel

theorem test_arrival : after (step (arrival 0)) (fun t => Memory.readN t.mem 0x8000 8 == 7 && t.posted == [onItsWay 2]) := by decide +kernel

/-- A finished copy of each kind; for kind 2 with its arrival at a barrier object that expects two. -/
def done0 (kind : Nat) : Copy := copy0 (if kind = 2 then coordAddr core1 0 else 0x8000) (copyHi kind) 1 1
def arriving : State :=
  { copying (done0 2) with places := [(.bank bootCore, { PlaceState.reset with arrivals := [⟨6, (at0 0).toNat, 0, 0⟩] })], tags := [(at0 0).toNat] }

theorem test_meets_copy_complete : (∀ kind ∈ [0, 1, 2, 3], (((copying (done0 kind)).core bootCore).copies.find? fun y =>
      y.finished && !y.scheduled (copying (done0 kind)) && !arrivalHeld (copying (done0 kind)) y) =
      some (done0 kind) ∧ copyKind (done0 kind).hi = kind) ∧ ((arriving.place (.bank ((done0 2).object arriving).1)).arrivals.find? fun y => y.copy == 6) =
      some ⟨6, (at0 0).toNat, 0, 0⟩ ∧ barGen (arriving.readWord ((done0 2).objectAddr arriving).toNat) = 0 ∧ Memory.wf arriving.mem = true ∧
    waitingAt arriving (.bank ((done0 2).object arriving).1) ((done0 2).objectAddr arriving).toNat = [] ∧ arrivalHeld arriving (done0 2) = false ∧
    arrivalHeld { arriving with clusters := (brushed [sweepCmd id] task).clusters } (done0 2) = true := by decide +kernel

/-- A copy that a page has stopped, and one of level 2 whose epoch is over. -/
def stopped : Copy := copy0 0x8000 (copyHi 0) 2 0
def late : Copy := { done0 0 with level := 2, missed := true }

def waiting0 (s : State) : Option Copy :=
  (s.core bootCore).copies.find? fun y => firmwareReady s y && !s.onPage (.copy y.id)

/-- A copy of one word from address 0x8000 into the bank, before and after its command was handed over, whose line is poisoned. -/
def reading (state : BitVec 3) (firmware : Bool) : Copy := { copy0 0x8000 0 state 0 with firmware := firmware }
def poisonedAt (s : State) (pa : Nat) : State := { s with poisoned := [(pa / 64, 1)] }

theorem test_meets_poisoned_copies : (∃ f, engineLoc ((poisonedAt (copying (reading 1 false)) 0x8000).modCluster cluster0 fun y => { y with nextCopy := 1 }) bootCore 1 .read
      ((reading 1 false).srcAt 0) = .error (.poisoned f)) ∧ (∃ f, engineLoc (poisonedAt (copying (reading 2 true)) 0x8000) bootCore 1 .read ((reading 2 true).srcAt 0) =
      .error (.poisoned f)) ∧ activeCopy (poisonedAt (copying (reading 1 false)) 0x8000) bootCore = some (reading 1 false) ∧
    burstTurn (poisonedAt (copying (reading 1 false)) 0x8000) cluster0 = some bootCore ∧ waiting0 (poisonedAt (copying (reading 2 true)) 0x8000) = some (reading 2 true) ∧
    (reading 2 true).done < (reading 2 true).len ∧ (poisonedAt (copying (reading 2 true)) 0x8000).strand? h0 = some task :=
  ⟨⟨_, rfl⟩, ⟨_, rfl⟩, by decide +kernel, by decide +kernel, by decide +kernel, by decide +kernel, rfl⟩

theorem test_meets_poisoned_blocks : (∃ f, quantBlock (poisonedAt quantising 0x10000) qcmd1 = .error (.poisoned f)) ∧
    activeQcmd (poisonedAt quantising 0x10000) 0 = some qcmd1 ∧ qReady (poisonedAt quantising 0x10000) qcmd1 = true ∧ qcmd1.block < qcmd1.total ∧
    (poisonedAt quantising 0x10000).picks = [] ∧ qcmd1.scheduled = false ∧ qcmd1.reread = false ∧ ({ qcmd1 with reread := true }).reread = true :=
  ⟨⟨_, rfl⟩, by decide +kernel, by decide +kernel, by decide +kernel, rfl, by decide +kernel, rfl, rfl⟩

theorem test_meets_copy_rest : waiting0 (copying stopped) = some stopped ∧ (copying stopped).picks.headD 0 ≠ 1 ∧ (copying stopped).posted = [] ∧ stopped.level ≠ 2 ∧ copyKind stopped.hi ≠ 2 ∧
    ({ copying late with cycle := 4096 }.core bootCore).copies.find? (fun y => y.finished && y.scheduled { copying late with cycle := 4096 } &&
      epochOver { copying late with cycle := 4096 } y.epoch && !arrivalHeld { copying late with cycle := 4096 } y) = some late ∧
    (overdueQcmd { quantising with cycle := 4096, dies := [(0, { Die.reset with qqueue := [{ qcmd1 with level := 2, block := 1, aside := false }] })] } bootCore).map (·.1) = some 0 := by
  decide +kernel

theorem test_meets_quant_events : activeQcmd quantising 0 = some qcmd1 ∧ qReady quantising qcmd1 = true ∧ (qUnleased quantising qcmd1 (qSides control qcmd1.params)).isNone = true ∧
    quantising.picks = [] ∧ qKind control = 0 ∧ qcmd1.core = bootCore ∧
    ((({ quantising with dies := [(0, { Die.reset with qqueue := [{ qcmd1 with aside := true }] })] } : State).die 0).qqueue.find? fun y => y.aside) =
      some { qcmd1 with aside := true } := by decide +kernel

theorem test_meets_quant_block : ∃ u1 q1, quantBlock quantising qcmd1 = .ok (u1, q1) := ⟨_, _, rfl⟩

/-- A tensor over two slabs, with the sweep at the head of both brushes. -/
def cluster1 : ClusterId := ⟨0, 1⟩
def brushOf (t : Tensor) (queue : List BrushCmd) : Cluster :=
  { Cluster.reset with brush := { Brush.reset with slots := #v[some t, none, none, none], queue := queue } }
def slabbed (m n : BrushCmd) : State :=
  let t := { tensor0 with die := true, e0 := 64, slabs := [cluster0, cluster1] }
  { box task with clusters := [(cluster0, brushOf t [m]), (cluster1, brushOf { t with slab := 1 } [n])] }
def passed : BrushCmd := sweepCmd fun m => { m with passed := true, sweeps := 1 }

theorem test_meets_sweeps : headCmd (brushed [sweepCmd id] task) cluster0 = some (sweepCmd id) ∧ tensorIn (brushed [sweepCmd id] task) cluster0 (sweepCmd id).slot = some tensor0 ∧
    (sweepCmd id).prog = none ∧ (sweepCmd id).passed = false ∧ (sweepCmd id).ended = false ∧ (sweepCmd id).started = true ∧ tensor0.slabs = [cluster0] ∧
    ((brushed [sweepCmd id] task).cluster cluster0).brush.pending = [] ∧ swCount (sweepCmd id).ctrl ≤ (sweepCmd id).sweeps + 1 ∧
    headCmd (slabbed passed passed) cluster0 = some passed ∧ headCmd (slabbed passed passed) cluster1 = some passed ∧
    ((tensorIn (slabbed passed passed) cluster0 passed.slot).map Tensor.slabs) = some [cluster0, cluster1] ∧ passed.passed = true ∧ passed.ended = false ∧
    headCmd (slabbed passed (sweepCmd id)) cluster1 = some (sweepCmd id) ∧
    (tensorIn (slabbed passed { passed with id := 8 }) cluster0 passed.slot).any (fun t => !atEveryHead (slabbed passed { passed with id := 8 }) t passed.id) ∧
    headCmd (brushed [sweepCmd fun m => { m with ended := true }] task) cluster0 = some (sweepCmd fun m => { m with ended := true }) ∧
    (sweepCmd fun m => { m with ended := true }).ended = true ∧
    headCmd (brushed [sweepCmd fun m => { m with prog := some [0xD000] }] task) cluster0 = some (sweepCmd fun m => { m with prog := some [0xD000] }) ∧
    atEveryHead (brushed [sweepCmd fun m => { m with prog := some [0xD000] }] task) tensor0 9 = true ∧ cluster0 ∈ tensor0.slabs := by decide +kernel

/-- A link that is up. -/
def lane0 : Lane := (0, .xp, 2)
def linked (flits sent : Nat) (retrying : Bool) : State := { box task with links := [(lane0, ⟨true, false, flits, sent, retrying, 1⟩)] }

/-- A collective window of a group of two 64-bit sums on the first of two members, with contributions that it holds. -/
def window0 (g : Nat) (held : List Contribution) : Window := ⟨⟨1, slice0, 0, 0, some (g, .s64, .add, false)⟩, [], held⟩
def collecting (g : Nat) (held : List Contribution) : State := { linked 0 0 false with jobs := [(1, [0, 1])], windows := [window0 g held] }

theorem test_meets_members : (∀ n ∈ [1, 2], windowHolds (window0 3 []).bind 8 n = true) ∧ (collecting 3 []).anyLink = true ∧ (collecting 3 []).picks.headD 0 = 0 ∧
    ({ collecting 3 [] with picks := [1] } : State).picks.headD 0 ≠ 0 ∧ windowHolds (window0 3 []).bind 4 1 = false ∧ windowHolds (window0 3 []).bind 65528 2 = false ∧
    ({ collecting 3 [] with links := [] } : State).anyLink = false ∧ (window0 3 []).bind.home = (collecting 3 []).position := by decide +kernel

theorem test_meets_collectives : (collecting 3 []).windows[0]? = some (window0 3 []) ∧ (1 : Fin 2).val < 3 ∧
    memberIndex (collecting 3 []) (window0 3 []) ≠ some (1 : Fin 2).val ∧ (window0 3 []).pending.length + 1 < 3 ∧ nextGeneration (window0 3 []) 1 = 0 ∧
    (collecting 2 [⟨0, 0, 8, [5], none⟩]).windows[0]? = some (window0 2 [⟨0, 0, 8, [5], none⟩]) ∧
    memberIndex (collecting 2 [⟨0, 0, 8, [5], none⟩]) (window0 2 [⟨0, 0, 8, [5], none⟩]) ≠ some (1 : Fin 2).val ∧ (1 - (1 : Fin 2)).val = 0 ∧
    Memory.wf (collecting 2 []).mem = true ∧
    (let l := (collecting 2 []).sliceLoc 1 (sliceAddr slice0 8) slice0 8
     waitingAt (collecting 2 []) l.place l.key = []) ∧
    ((window0 3 [⟨0, 0, 8, [5], none⟩]).pending.find? fun x => x.gen == nextGeneration (window0 3 [⟨0, 0, 8, [5], none⟩]) 1) = some ⟨0, 0, 8, [5], none⟩ ∧ (box task).windows[0]? = none := by decide +kernel

/-- The context with queue 2: a ring of 16 slots at 0x8000 that holds one packet, which bytes of memory give; `lease` is a launch of queue 0. -/
def ring2 : CmdQueue := { queued with deviceFed := false, tail := 1 }
def queueing (q : CmdQueue) (cells : List Host.Cell) : State := { fed task with contexts := [(1, { context0 with level := 1, queues := [(2, q)] })], mem := table0 ++ cells }

/-- A LAUNCH whose descriptor stands at 0x9000, of one task, with `n` lists. -/
def launching (n : Byte) : State :=
  queueing ring2 ([(0x8000, 1)] ++ (if n = 0 then [] else [(0x8002, n)]) ++ [(0x8009, 0x90)] ++ (if n = 0 then [] else [(0x8031, 0xA0)]) ++
    (List.range 5).map fun i => (0x9008 + i, 1))

/-- The head of the queue is a packet of a type, and its words have a property. -/
def packetIs (s : State) (type : Nat) (f : List Word → Bool) : Bool :=
  match headPacket s 1 2 with
  | some (.ok (_, ws)) => decide (packetByte ws 0 = type) && f ws
  | _ => false

/-- More bytes of memory. -/
def more (s : State) (cells : List Host.Cell) : State := { s with mem := s.mem ++ cells }
def descOk (s : State) (ws : List Word) : Option Bool := (frontWords s 1 2 (ws.getD 1 0) 8).map descriptorOk
def fits (s : State) (ws : List Word) : Bool := (frontWords s 1 2 (ws.getD 1 0) 8).any fun d => shapePossible s (launchOf 1 2 1 (frontDie s 2) ws d)

theorem test_meets_launch_packet :
    packetIs (launching 0) 1 (fun ws => !launchPacketBad ws && descOk (launching 0) ws == some true &&
      listsError (launching 0) 1 2 (ws.getD 6 0) (packetByte ws 2) == none && fits (launching 0) ws) ∧
    ((launching 0).context? 1).map Context.setdet = some [] ∧
    packetIs (launching 1) 1 (fun ws => !launchPacketBad ws && descOk (launching 1) ws == some true &&
      listsError (launching 1) 1 2 (ws.getD 6 0) (packetByte ws 2) == none) ∧
    queue? (launching 0) 1 2 = some ring2 ∧ headPacket (box task) 1 2 = none := by decide +kernel

/-- A role above 3; a descriptor in no page; no tasks; a list with a word that must be 0 set; 257 modules; a packet of no type; a ring in no page. -/
theorem test_meets_bad_launches :
    packetIs (queueing ring2 [(0x8000, 1), (0x8001, 4)]) 1 launchPacketBad ∧
    packetIs (queueing ring2 [(0x8000, 1), (0x800D, 1)]) 1 (fun ws => !launchPacketBad ws && descOk (queueing ring2 [(0x8000, 1), (0x800D, 1)]) ws == none) ∧
    packetIs (queueing ring2 [(0x8000, 1), (0x8009, 0x90)]) 1
      (fun ws => !launchPacketBad ws && descOk (queueing ring2 [(0x8000, 1), (0x8009, 0x90)]) ws == some false) ∧
    packetIs (more (launching 1) [(0xA018, 1), (0xA01F, 1)]) 1
      (fun ws => listsError (more (launching 1) [(0xA018, 1), (0xA01F, 1)]) 1 2 (ws.getD 6 0) (packetByte ws 2) == some 2) ∧
    packetIs (more (launching 0) [(0x900D, 1)]) 1 (fun ws => descOk (more (launching 0) [(0x900D, 1)]) ws == some true && !fits (more (launching 0) [(0x900D, 1)]) ws) ∧
    (headPacket (queueing ring2 [(0x8000, 6)]) 1 2).any (fun x => x.toOption.isNone) ∧
    (headPacket (queueing { ring2 with ring := 0x10000000000 } []) 1 2).any (fun x => x.toOption.isNone) := by decide +kernel

/-- A packet of another type: its type and second byte, its event address 0xA000, and its value. -/
def packet (type b value : Byte) : State :=
  queueing ring2 ([(0x8000, type)] ++ (if b = 0 then [] else [(0x8001, b)]) ++ [(0x8009, 0xA0)] ++ (if value = 0 then [] else [(0x8010, value)]))
def bare (type b : Byte) : State := queueing ring2 ([(0x8000, type)] ++ (if b = 0 then [] else [(0x8001, b)]))
def idle (s : State) : State := { s with launches := [(1, { lease with retired := true })] }
def inQueue (s : State) : State := { s with launches := [(1, { lease with queue := 2 })] }


/-- A WAITEV or SIGNAL is in order. -/
def waitevOk (ws : List Word) : Bool := zeroBytes ws 1 8 && zeroBytes ws 24 64 && !badEvent (ws.getD 1 0)
def signalOk (ws : List Word) : Bool := zeroBytes ws 2 8 && zeroBytes ws 24 64 && !badEvent (ws.getD 1 0) && decide (packetByte ws 1 ≤ 1)
def eventLoc (s : State) (kind : AccessKind) (ws : List Word) : Option Loc := frontLoc s 1 2 (ws.getD 1 0) kind
def unmapped (type : Byte) : State := queueing ring2 [(0x8000, type), (0x800D, 1)]

theorem test_meets_waitev_and_signal :
    (∀ value ∈ [(0 : Byte), 1], packetIs (packet 2 0 value) 2 (fun ws => waitevOk ws && decide ((ws.getD 2 0).toNat = value.toNat) &&
      (eventLoc (packet 2 0 value) .read ws).any fun l => (packet 2 0 value).readWord l.key == 0)) ∧ ring2.state ≠ 2 ∧
    packetIs (packet 2 1 0) 2 (fun ws => !waitevOk ws) ∧ packetIs (unmapped 2) 2 (fun ws => waitevOk ws && eventLoc (unmapped 2) .read ws == none) ∧
    packetIs (packet 3 2 0) 3 (fun ws => !signalOk ws) ∧ packetIs (inQueue (packet 3 1 1)) 3 signalOk ∧ queueBusy (inQueue (packet 3 1 1)) 1 2 = true ∧
    queueBusy (packet 3 1 1) 1 2 = false ∧ packetIs (unmapped 3) 3 (fun ws => signalOk ws && eventLoc (unmapped 3) .write ws == none) ∧
    (∀ b ∈ [(0 : Byte), 1], packetIs (packet 3 b 1) 3 (fun ws => signalOk ws && decide (packetByte ws 1 = b.toNat) &&
      (eventLoc (packet 3 b 1) .write ws).any fun l => waitingAt (packet 3 b 1) l.place l.key == [])) ∧ Memory.wf (packet 3 1 1).mem = true := by decide +kernel

theorem test_meets_setdet_and_qfence :
    packetIs (bare 4 3) 4 (fun ws => zeroBytes ws 2 64 && decide (2 < packetByte ws 1)) ∧ packetIs (packet 4 2 0) 4 (fun ws => !zeroBytes ws 2 64) ∧
    packetIs (bare 4 2) 4 (fun ws => zeroBytes ws 2 64 && decide (packetByte ws 1 ≤ 2)) ∧ contextBusy (bare 4 2) 1 = true ∧
    packetIs (idle (bare 4 2)) 4 (fun ws => zeroBytes ws 2 64) ∧ contextBusy (idle (bare 4 2)) 1 = false ∧
    packetIs (bare 5 1) 5 (fun ws => !zeroBytes ws 1 64) ∧ packetIs (inQueue (bare 5 0)) 5 (fun ws => zeroBytes ws 1 64) ∧
    queueBusy (inQueue (bare 5 0)) 1 2 = true ∧ packetIs (bare 5 0) 5 (fun ws => zeroBytes ws 1 64) ∧ queueBusy (bare 5 0) 1 2 = false := by decide +kernel

/-- The queue waits for its event word to reach 4, with a report that has come. -/
def reported (v : Word) : State := { queueing { ring2 with state := 2 } [] with eventWaits := [⟨1, 2, 0xA000, 4, [v]⟩] }

theorem test_meets_reports : (reported 4).eventWaits = [⟨1, 2, 0xA000, 4, [4]⟩] ∧ (reported 3).eventWaits = [⟨1, 2, 0xA000, 4, [3]⟩] ∧
    queue? (reported 4) 1 2 = some { ring2 with state := 2 } ∧ queue? (reported 3) 1 2 = some { ring2 with state := 2 } ∧
    ((reported 3).eventWaits.find? fun y => decide (y.ctx = 1) && y.queue == 2) = some ⟨1, 2, 0xA000, 4, [3]⟩ := ⟨rfl, rfl, rfl, rfl, rfl⟩

theorem test_meets_tails : queue? (fed task) 1 2 = some queued ∧ queued.deviceFed = true ∧ ring2.deviceFed = false ∧ ring2.slots = 16 ∧
    (((16 : Word).setWidth 32 : BitVec 32) - 0).toNat ≤ 16 ∧ 16 < (((17 : Word).setWidth 32 : BitVec 32) - 0).toNat :=
  ⟨rfl, rfl, rfl, rfl, by decide, by decide⟩

/-- A second launch of the context, one task on each of `n` clusters, not yet placed. -/
def next0 (n tasks priority : Nat) (level : BitVec 2) : Launch :=
  { lease with tasks := tasks, clusters := n, priority := priority, level := level, placed := false, logical := [], granting := [], leases := [], length := 0 }
def placing (l : Launch) : State := { box task with launches := [(1, lease), (2, l)] }

/-- A module is linked, whichever way round the packets go, where the links of both ways stand alike. -/
theorem linked_alike (s : State) (m : BitVec 12) (dim : Nat) (b : Bool) (h : (s.wayTo m).head? = some dim)
    (hp : (lanesIn (dirsOf dim).1).any (fun k => (s.link k).up && s.laneLeft k) = b)
    (hq : (lanesIn (dirsOf dim).2).any (fun k => (s.link k).up && s.laneLeft k) = b) : s.linked m = b := by
  unfold State.linked State.leaves
  rw [h]
  simp only [Option.map_some, Option.any_some]
  split <;> split <;> assumption

/-- The module as one of the two members of its context's job, with or without a link to the other. -/
def joining (position : BitVec 12) (up : Bool) : State :=
  { placing (next0 1 1 0 1) with position := position, jobs := [(1, [0, 1])], links := [(lane0, ⟨up, false, 5, 5, false, 1⟩), ((0, .xm, 2), ⟨up, false, 5, 5, false, 1⟩)] }

theorem test_meets_placement : headLaunch (placing (next0 1 1 0 1)) 0 = some (2, next0 1 1 0 1) ∧ (next0 1 1 0 1).modules = 1 ∧
    (placementOf (placing (next0 1 1 0 1)) (next0 1 1 0 1) (roomOn (placing (next0 1 1 0 1)) (next0 1 1 0 1))).any (fun cs => decide cs.Nodup) ∧
    headLaunch (box task) 0 = none ∧ moduleNumber (placing (next0 1 1 0 1)) 1 < (next0 1 1 0 1).modules ∧ otherMembers (placing (next0 1 1 0 1)) 1 = [] ∧
    (∀ position ∈ [(0 : BitVec 12), 1], let s := joining position true
      headLaunch s 0 = some (2, next0 1 1 0 1) ∧ otherMembers s 1 ≠ [] ∧ s.picks.headD 0 ≠ 1 ∧
        (moduleNumber s 1 < (next0 1 1 0 1).modules ↔ position = 0)) ∧ ({ joining 0 true with picks := [1] } : State).picks.headD 0 = 1 ∧
    (let s := joining 0 false
     headLaunch s 0 = some (2, next0 1 1 0 1) ∧ (next0 1 1 0 1).logical = []) := by decide +kernel

theorem test_meets_links : (∀ position ∈ [(0 : BitVec 12), 1], ∀ j ∈ otherMembers (joining position true) 1, (joining position true).linked j = true) ∧
    ∃ j ∈ otherMembers (joining 0 false) 1, (joining 0 false).linked j = false := by
  refine ⟨?_, 1, by decide +kernel, linked_alike _ _ 0 _ (by decide +kernel) (by decide +kernel) (by decide +kernel)⟩
  intro position hp j hj
  have h : position = 0 ∧ j = 1 ∨ position = 1 ∧ j = 0 := by revert position j; decide +kernel
  obtain ⟨rfl, rfl⟩ | ⟨rfl, rfl⟩ := h <;> exact linked_alike _ _ 0 _ (by decide +kernel) (by decide +kernel) (by decide +kernel)

theorem test_meets_no_placement : headLaunch (placing (next0 128 15 1 1)) (frontDie (placing (next0 128 15 1 1)) 0) = some (2, next0 128 15 1 1) ∧
    (placementOf (placing (next0 128 15 1 1)) (next0 128 15 1 1) (roomSoon (placing (next0 128 15 1 1)) (next0 128 15 1 1))).isNone = true ∧
    (placementOf (placing (next0 1 1 0 1)) (next0 1 1 0 1) (roomSoon (placing (next0 1 1 0 1)) (next0 1 1 0 1))).isSome = true ∧
    (placementOf (placing (next0 128 15 1 1)) (next0 128 15 1 1) fun c => if (placing (next0 128 15 1 1)).coreIn c then 15 else 0).isSome = true ∧
    (∀ m ∈ ((placing (next0 128 15 1 1)).core bootCore).vec.inFlight, m.h ≠ h0) ∧
    victims (placing (next0 128 15 1 1)) (next0 128 15 1 1) = [(h0, task)] ∧ task.ctx = (next0 128 15 1 1).ctx ∧ task.pending = none ∧
    (let l := { next0 128 15 1 1 with ctx := 2 }
     headLaunch (placing l) (frontDie (placing l) 0) = some (2, l) ∧ (placementOf (placing l) l (roomSoon (placing l) l)).isNone = true ∧
     (placementOf (placing l) l fun c => if (placing l).coreIn c then 15 else 0).isSome = true ∧ victims (placing l) l = [(h0, task)] ∧ task.ctx ≠ l.ctx ∧
     (beginLeave (placing l) bootCore).isSome = true) := by decide +kernel

/-- The launch alone on the module, before its lease is granted, with it, and with a completion event. -/
def alone (l : Launch) : State := { boxed task core0 with strands := [], launches := [(1, l)] }
def granting0 : Launch := { lease with granting := [bootCore], leases := [] }
def ending : Launch := { lease with event := 0xA000 }

theorem test_meets_leases : bootCore ∈ granting0.granting ∧ bootCore ∈ lease.leases ∧ tasksOn (alone lease) 1 bootCore = false ∧ engineOn (alone lease) lease bootCore = false ∧
    waitersOn (alone lease) lease bootCore = [] ∧ tasksOn (box task) 1 bootCore = true ∧ Memory.wf (alone granting0).mem = true ∧
    (coordAddr bootCore granting0.origin).toNat / 64 ≤ (coordAddr bootCore granting0.origin).toNat / 64 ∧ granting0.length = 0x1E000 ∧
    launchTasks (box task) 1 = true ∧ launchTasks (alone ending) 1 = false ∧ launchCommands (alone ending) 1 = false ∧ ending.placed = true ∧ ending.retired = false ∧
    (frontLoc (alone ending) ending.ctx ending.queue ending.event .write).any (fun k => waitingAt (alone ending) k.place k.key == []) := by decide +kernel

/-- A query of list 0, of two coordinates from 16 on with step 3, at 0xA000; its claim word is `claim`. -/
def query (level : BitVec 2) (i : Nat) : WorkQuery := ⟨h0, bootCore, 1, 1, level, some 0, 0, i, (at0 0).toNat⟩
def distributing (q : WorkQuery) (claim : Byte) (runs : List WorkRun) : State :=
  { box task with
    launches := [(1, { lease with lists := 1, listTable := 0xA000 })]
    mem := table0 ++ [(0xA000, 16), (0xA008, 2), (0xA010, 3)] ++ (if claim = 0 then [] else [(0xA018, claim)])
    dies := [(0, { Die.reset with queries := [q], runs := runs })] }

theorem test_meets_queries : ∀ q ∈ [query 1 0, query 1 1, query 0 0],
    ((distributing q 2 []).die 0).queries = [q] ∧ (distributing q 2 []).launch? q.launch = some { lease with lists := 1, listTable := 0xA000 } ∧ q.list < 1 ∧
    frontWords (distributing q 2 []) q.ctx 0 0xA000 4 = some [16, 2, 3, 2] ∧
    (distributing q 2 []).leasedBy q.ctx (bankOfKey q.key) (q.key % 2 ^ 17) 8 = true ∧ Memory.wf (distributing q 2 []).mem = true ∧
    waitingAt (distributing q 2 []) (.bank (bankOfKey q.key)) q.key = [] ∧ runOf (distributing q 2 []) 0 q.launch q.list = none ∧
    runOf (distributing q 0 [⟨1, 0, 1, 2⟩]) 0 q.launch q.list = some ⟨1, 0, 1, 2⟩ ∧ q.index = some 0 := by decide +kernel

/-- An answer that the schedule has kept back. -/
def answering : State := { distributing (query 1 0) 2 [] with dies := [(0, { Die.reset with answers := [(query 1 0, 16)] })] }

theorem test_meets_answers : (answering.die 0).answers[0]? = some (query 1 0, 16) ∧ answering.leasedBy 1 (bankOfKey (query 1 0).key) ((query 1 0).key % 2 ^ 17) 8 = true ∧
    Memory.wf answering.mem = true ∧ waitingAt answering (.bank (bankOfKey (query 1 0).key)) (query 1 0).key = [] ∧
    ({ answering with picks := [2] }).picks.headD 0 = 0 + 2 ∧ (distributing (query 1 0) 2 []).picks.headD 0 = 0 ∧ ({ answering with picks := [1] }).picks.headD 0 = 1 := by
  decide +kernel

/-- The coordinates that the query of a level-1 task asks for: its first, and one past the end of the list. -/
theorem test_meets_query_ends : (0 : BitVec 32).toNat + (query 1 0).i * lease.total < 2 ∧ ¬(0 : BitVec 32).toNat + (query 1 2).i * lease.total < 2 ∧
    ((box task).die 0).queries = [] ∧ ((box task).die 0).answers = [] := by decide +kernel

/-- The core without tasks, and without a context after a switch. -/
def saved0 : SavedCore := ⟨bootCore, { core0 with daz := true }⟩
def switched : State := { boxed task Core.reset with strands := [], contexts := [(1, { context0 with saved := [saved0] })] }

/-- A context is leaving the core, with or without a copy outstanding. -/
def leavingCore (quiet : Bool) : State := cored fun x => { x with leaving := true, copies := if quiet then [] else [copy0 0x8000 (copyHi 0) 1 0] }

theorem test_meets_context_switch : ((alone lease).core bootCore).ctx = some 1 ∧ coreQuiet (alone lease) bootCore = true ∧ tasksOf (alone lease) bootCore = [] ∧
    ((alone lease).core bootCore).vec.inFlight = [] ∧ ((alone lease).core bootCore).vec.waiting = [] ∧ ((alone lease).core bootCore).mqueue = [] ∧
    saved0.image.vec.inFlight = [] ∧ saved0.image.vec.waiting = [] ∧ ((alone lease).quad (quadOf bootCore)).running = none ∧
    ((alone lease).context? 1).isSome ∧ ((alone lease).core bootCore).leaving = false ∧ tasksOf (box watching) bootCore = [h0] ∧
    (box watching).strand? h0 = some watching ∧ watching.status = .parked (.atPlace (.bank bootCore)) ∧ watching.reply? = none ∧
    (switched.core bootCore).leaving = false ∧ (∀ quiet ∈ [true, false],
      ((leavingCore quiet).core bootCore).leaving = true ∧ ((leavingCore quiet).core bootCore).ctx = some 1 ∧ coreQuiet (leavingCore quiet) bootCore = quiet ∧
      ((leavingCore quiet).context? 1).isSome) ∧ ((alone lease).core bootCore).regrant = false ∧ (switched.core bootCore).regrant = false ∧ restoreHeld switched bootCore 1 = false ∧
    restoreHeld { switched with launches := [(2, { next0 1 1 0 0 with ctx := 2, freed := [bootCore] })] } bootCore 1 = true ∧ (switched.core bootCore).ctx = none ∧
    switched.context? 1 = some { context0 with saved := [saved0] } ∧ ([saved0].find? fun k => decide (k.core = bootCore)) = some saved0 ∧
    coreQuiet (copying (copy0 0x8000 (copyHi 0) 0 0)) bootCore = false := by decide +kernel

/-- The cluster with a trigger that has occurred, halted, and with another that listens to its network triggers. -/
def debugging (f : Debug → Debug) : State :=
  { box task with clusters := [(cluster0, { Cluster.reset with dbg := f Debug.reset }), (cluster1, { Cluster.reset with dbg := { Debug.reset with xin := true } })] }
def haltedOne : State := debugging fun d => { d with halted := true }
def matchedOne : State := debugging fun d => { d with xout := true, matched := [.pc 3] }

theorem test_meets_halts : matchedOne.isOut (.debug cluster0) = false ∧ HaltCause.pc 3 ∈ (matchedOne.cluster cluster0).dbg.matched ∧
    (matchedOne.cluster cluster0).dbg.halted = false ∧ (matchedOne.cluster cluster0).dbg.xout = true ∧ (matchedOne.cluster cluster1).dbg.xin = true ∧
    cluster1.die = cluster0.die ∧ cluster1 ≠ cluster0 ∧ (haltedOne.cluster (clusterOf bootCore)).dbg.halted = true ∧ HaltCause.network ∉ (haltedOne.cluster cluster0).dbg.matched ∧
    ({ box task with out := [.debug cluster0] } : State).isOut (.debug cluster0) = true := by decide +kernel

/-- The module with units out of service. -/
def without (out : List HwUnit) : State := { box task with out := out }

theorem test_meets_errors : Table.find 3 (box task).poisoned = none ∧ (box task).strand? h0 = some task ∧ task.frozen = none ∧ task.unreplayable = false ∧
    task.occupies = true ∧ (box task).present task = true ∧ (without [.core bootCore]).coreIn task.core = false ∧
    (replayCore (without [.core bootCore]) task).isSome = true ∧ (without [.core bootCore]).picks.headD 0 ≠ 1 ∧ (box task).coreIn task.core = true ∧
    (without [.core bootCore]).isOut (.core bootCore) = true ∧ (box task).isOut (.ringLink 0) = false ∧ (box task).isOut (.slice slice0) = false ∧
    (box task).isOut (.debug cluster0) = false := by decide +kernel

/-- A copy whose next word stands in line 512, of which the re-read succeeds. -/
theorem test_meets_mended_lines : activeCopy (copying (reading 1 false)) bootCore = some (reading 1 false) ∧ (reading 1 false).state = 1 ∧
    copyReady (copying (reading 1 false)) (reading 1 false) = true ∧ (match moveWord ((copying (reading 1 false)).faulty 512) (reading 1 false) with
      | .error (.poisoned _) => true
      | _ => false) = true ∧ (lineUsers (copying (reading 1 false)) 512).length = 1 ∧ ({ copying (reading 1 false) with picks := [1] } : State).picks = [0 + 1] ∧
    (copying (reading 1 false)).picks.headD 0 = 0 := by decide +kernel

/-- The ROM with an image in NVMe, in recovery, and a module whose firmware runs an image. -/
def booting (boot : Boot) : State := { State.reset with boot := boot, nvme := some [1], firmware := some [1] }
def image1 (system : Bool) : ContextImage := ⟨1, system, 0, 0, 0, 0, 0x1000, 0, 0, [1], 0x8000⟩

theorem test_meets_boot : State.reset.boot = .rom ∧ (booting .recovery).boot = .recovery ∧ (booting .running).boot = .running ∧ (booting .running).firmware = some [1] ∧
    (booting .running).context? 1 = none ∧ (booting .running).systemContext = none ∧ (image1 true).system = true ∧ (box task).systemContext = some 1 ∧
    (box task).context? 2 = none ∧ (box task).context? 1 = some context0 ∧ (box task).sliceIn slice0 = true ∧ (∀ g ∈ (box task).grants, g.2.1 = slice0 → g.2.2 ≠ 0) ∧
    Memory.wf (box task).mem = true ∧ (sliceAddr slice0 (65536 * (0 : BitVec 4).toNat)).toNat ≤ (sliceAddr slice0 0).toNat ∧
    (without [.slice slice0]).sliceIn slice0 = false ∧ ((box task).core bootCore).ctx = some 1 ∧
    context0.measurement.length = 64 ∧ (box task).posted = [] ∧ (∀ e ∈ (box task).cores, ∀ y ∈ e.2.vec.running, y.owed = []) ∧
    (1, slice0, (0 : BitVec 4)) ∈ ({ box task with grants := [(1, slice0, 0)] } : State).grants := by decide +kernel

/-- An image for memory that no context has open, and one beyond the LPDDR6 that is installed. -/
theorem test_meets_images_loaded :
    let s := booting .running
    let s1 := { s.bump with contexts := Table.put 1 (newContext (image1 true) s.fresh) s.contexts }
    imageFits s1 0x8000 1 = true ∧ imageFits s1 (2 ^ 44 - 65536) 1 = false ∧ (∀ j, j < 1 → s.onModule (0x8000 + j) = true) ∧ Memory.wf s.mem = true ∧
    (∀ i, (s.place (.slice i)).station = []) := by
  refine ⟨by decide +kernel, by decide +kernel, by decide +kernel, by decide +kernel, fun _ => rfl⟩

/-- Walks of the small module: a leaf, no page, and a malformed entry; a full fault buffer. -/
theorem test_meets_walks : (∃ pte size, (box task).leafFor cluster0 1 0x10000 = .leaf pte size ∧ 0 < size) ∧
    (∃ level, (box task).leafFor cluster0 1 (2 ^ 40) = .absent level) ∧
    (∃ pte, ({ box task with mem := [(0x1000, 1), (0x1001, 0x20), (0x1008, 1), (0x100F, 0x80), (0x2000, 0xF)] } : State).leafFor cluster0 1 (2 ^ 39) = .malformed pte) ∧
    ((Die.reset.unread.find? fun e => decide (e.ctx = 1) && e.page == 2 ^ 40 / 65536) = none) ∧ Die.reset.unread.length < 64 ∧
    ¬({ Die.reset with fb := (List.range 64).map fun i => ⟨i, 2, i, 1⟩, fbtail := 64 } : Die).unread.length < 64 :=
  ⟨⟨_, _, rfl, by decide⟩, ⟨_, rfl⟩, ⟨_, rfl⟩, by decide +kernel, by decide +kernel, by decide +kernel⟩

/-- A job of this module and another, with a granted window; an open page; a sampling ring. -/
def joined0 : State := { box task with jobs := [(1, [0, 1])], grants := [(1, slice0, 0)] }
def opened : State := { box task with mem := [(0x1000, 1), (0x1001, 0x20), (0x2000, 0x4F)] }
/-- All lanes of one dimension but one have failed. -/
def lastLane : State :=
  { box task with links := ((lanesIn .xp ++ lanesIn .xm).filter fun k => k != lane0).map fun k => (k, ⟨false, true, 0, 0, false, 0⟩) }
/-- A window that is homed here, and a write to it from another module. -/
def homed : State := { joined0 with windows := [⟨⟨1, slice0, 0, 0, none⟩, [], []⟩], links := (linked 0 0 false).links, agenda := [⟨.foreign ⟨1, slice0, 8, 3, .write 8 7 true⟩, 0, []⟩] }
def sampling : State :=
  { box task with smpctl := 0x10A, pulseDue := 0, out := [.die 1, .die 2, .die 3], contexts := [(1, { context0 with smpbuf := 0x8000 })] }

theorem test_meets_fabric : (box task).context? 1 = some context0 ∧ (box task).position ∈ [(0 : BitVec 12), 1] ∧ (box task).position ∉ [(1 : BitVec 12)] ∧
    (1, slice0, (0 : BitVec 4)) ∈ joined0.grants ∧ (1 : BitVec 12) ∈ Table.get [] 1 joined0.jobs ∧ joined0.windows = [] ∧
    (2 : BitVec 12) ∉ Table.get [] 1 joined0.jobs ∧ (2 : BitVec 2).toNat < 3 ∧ ((box task).link lane0).up = false ∧ ((box task).link lane0).failed = false ∧
    (∀ r ∈ [true, false], ((linked 5 5 r).link lane0).up = true ∧ ((linked 5 5 r).link lane0).flits < 2 ^ 32 ∧ ((linked 5 5 r).link lane0).sent < 2 ^ 32 ∧
      ((linked 5 5 r).link lane0).retrying = r) ∧
    2 ^ 32 ≤ ((linked (2 ^ 32) 5 false).link lane0).flits ∧ 2 ^ 32 ≤ ((linked 5 (2 ^ 32) false).link lane0).sent := by decide +kernel

theorem test_meets_lost_modules : (lastLane.link lane0).failed = false ∧ lastLane.lost 1 = false ∧ coordOf 1 0 ≠ coordOf lastLane.position 0 ∧ (∀ e : Nat, e < 0 → coordOf 1 e = coordOf lastLane.position e) ∧
    after (exec (.laneFail 0 .xp 2) lastLane) (fun u => !u.dirLeft (dirsOf 0).1 && !u.dirLeft (dirsOf 0).2 && u.lost 1) = true ∧
    (1 : BitVec 12) ≠ (box task).position ∧ (box task).reissue = [] ∧ ({ box task with agenda := [⟨.cut 1, 0, []⟩] }).agenda = ⟨.cut 1, 0, []⟩ :: [] := by decide +kernel

theorem test_meets_foreign : homed.reissue = [] ∧ homed.agenda = [⟨.foreign ⟨1, slice0, 8, 3, .write 8 7 true⟩, 0, []⟩] ∧ foreignOk homed ⟨1, slice0, 8, 3, .write 8 7 true⟩ = true ∧
    homed.windowHome 1 slice0 8 = some homed.position ∧ Memory.wf homed.mem = true ∧
    waitingAt homed (.slice slice0) (homed.sliceLoc 1 (sliceAddr slice0 8) slice0 8).key = [] := by decide +kernel

theorem test_foreign_write : after (step homed) (fun u => Memory.readN u.mem (homed.sliceLoc 1 (sliceAddr slice0 8) slice0 8).key 8 == 7) = true := by decide +kernel

theorem test_meets_host : (box task).boot = .running ∧ State.reset.boot ≠ .running ∧ hostReach opened 0x8000 = true ∧ Memory.wf opened.mem = true ∧
    waitingAt opened (.slice (opened.homeOf 0x8000)) 0x8000 = [] ∧ queue? (fed task) 1 2 = some queued ∧ (0x10 : BitVec 8).toNat ≠ 0x27 ∧
    (readSystem (box task) (coreOf cluster0 0) ((box task).systemContext.getD 0) 0x10).isSome = true := by decide +kernel

theorem test_meets_closed_host : (booting .running).boot = .running ∧ ∀ j, hostReach (booting .running) j = false := ⟨rfl, fun _ => rfl⟩

theorem test_meets_sampling : (box task).smpctl.getLsbD 8 = false ∧ sampling.smpctl.getLsbD 8 = true ∧ sampling.pulseDue ≤ sampling.cycle ∧
    sampling.diesIn = [0] ∧ sampling.deviceRead ⟨0, 0, 0⟩ 1 (0x8000 &&& 0xFFFFFFFFFFFFF000) 8 = some 0 ∧
    64 + 0 + 8 * (sampleRecord sampling 0 1).length ≤ ((0x8000 : Word).toNat % 4096 + 1) * 4096 := by decide +kernel

/-! ### One step with the result that the manual gives -/

/-- R109's example: `div.s32` of -7 by 2 gives -3, and `rem.s32` gives -1. -/
theorem test_div : regs (exec (.div none .s32 (.g 6) (.g 1) (.g 2)) (box numbers)) (fun r => r.gpr[(6 : Fin 24)] == -3) := by decide +kernel
theorem test_rem : regs (exec (.rem none .s32 (.g 6) (.g 1) (.g 2)) (box numbers)) (fun r => r.gpr[(6 : Fin 24)] == -1) := by decide +kernel
/-- R109: a quotient by zero is all ones in N bits. -/
theorem test_div_by_zero : regs (exec (.div none .n8 (.g 6) (.g 1) (.g 3)) (box numbers)) (fun r => r.gpr[(6 : Fin 24)] == 0xFF) := by decide +kernel
/-- R106: a 32-bit signed result wraps and is sign-extended. -/
theorem test_addi_wraps : regs (exec (.addi none .s32 (.g 4) (.g 4) 1) (box (numbers.setG 4 0x7FFFFFFF))) (fun r => r.gpr[(4 : Fin 24)] == 0xFFFFFFFF80000000) := by
  decide +kernel
/-- The shift table: `sar` brings in copies of a[N-1], whatever the suffix's sign. -/
theorem test_sar : regs (exec (.sar none .n8 (.g 6) (.g 1) (.g 2)) (box (numbers.setG 1 0x80))) (fun r => r.gpr[(6 : Fin 24)] == 0xE0) := by decide +kernel
/-- R110: `clz` of zero is N. -/
theorem test_clz : regs (exec (.clz none .n16 (.g 6) (.g 3)) (box numbers)) (fun r => r.gpr[(6 : Fin 24)] == 16) := by decide +kernel
/-- 1.5 + 2.5 = 4 in binary32, exactly. -/
theorem test_fadd : regs (exec (.fadd none .f32 .rne (.g 6) (.g 1) (.g 2)) (box floats)) (fun r => r.gpr[(6 : Fin 24)] == 0x40800000 && r.sflags == 0) := by
  decide +kernel
/-- 2.5 rounds toward zero to 2, inexactly. -/
theorem test_fcvt : regs (exec (.fcvt none .n32 .f32 .rtz (.g 6) (.g 2)) (box floats)) (fun r => r.gpr[(6 : Fin 24)] == 2 && r.sflags != 0) := by
  decide +kernel
def at64 : Strand := { task with r := { task.r with pc := 64 } }

/-- R118, R101: `trap` saves its own PC and its immediate, and sets the in-trap bit. -/
theorem test_trap : regs (exec (.trap none 9) (box at64)) (fun r => r.inTrap && r.trappc == 64 && r.trec[2] == 9) := by decide +kernel
/-- R116: `jmp` counts halfwords from its own address. -/
theorem test_jmp : regs (exec (.jmp (-2)) (box at64)) (fun r => r.pc == 60) := by decide +kernel
/-- R164: a blocking `send` that was refused goes out with the message of its issue, whatever its registers hold by now. -/
theorem test_send_again : after (exec (.send none (.g 1) 2 3 0) (box { writer with sending := some { overdueSend with since := none } })) (fun t =>
    (mailboxOf t bootCore 3).msgs == [letter false]) := by decide +kernel
/-- A `cas` that fails under a running sweep delivers the old value (R135, R363). -/
theorem test_failed_cas : regs (exec (.cas none .s64 plain (.g 2) 1 (.g 3)) (brushed [sweepCmd id] ((aims (at0 0)).setG 2 1))) (fun r => r.gpr[(2 : Fin 24)] == 0) := by
  decide +kernel
/-- FIPS 180-4's example for SHA-512: the digest of "abc" begins DDAF3561 and ends A54CA49F. -/
theorem test_sha512 : let d := sha512 [0x61, 0x62, 0x63]
    d.take 4 = [0xDD, 0xAF, 0x35, 0xA1] ∧ d.drop 60 = [0xA5, 0x4C, 0xA4, 0x9F] := by decide +kernel
/-- A byte store writes its byte alone, at the last byte of the lease. -/
theorem test_st : after (exec (.st none .n8 plain (.g 2) mem1) (box ((aims (at0 0x1DFFF)).setG 2 0x1AB))) (fun t =>
    Memory.read t.mem (at0 0x1DFFF).toNat == 0xAB && Memory.read t.mem (at0 0x1DFFE).toNat == 0) := by decide +kernel
/-- A signed byte load extends the sign. -/
theorem test_ld : regs (exec (.ld none .s8 plain (.g 2) mem1) { box (aims (at0 1)) with mem := table0 ++ [((at0 1).toNat, 0x80)] }) (fun r =>
    r.gpr[(2 : Fin 24)] == 0xFFFFFFFFFFFFFF80) := by decide +kernel
/-- `%coord(1, 2, 5, 3, 0x40)` and R174's example. -/
theorem test_coordinate : coordAddr ⟨1, 0x25, 3⟩ 0x40 = 0x852B000000000040 := by decide +kernel
/-- R288's example: the home of PA 0x0000_0040_0000_1000 is slice 2 of its die. -/
theorem test_home_slice : ((box task).homeOf 0x4000001000).slice = 2 := by decide +kernel

end Sys2Proof.Tests
end

section
/-! The encoding family (R30-R52): what the guard of an instruction decides before its operands are read. -/

namespace Sys2Proof.Machine

/-- R36: every instruction that can carry a guard, whatever its row and its operands, executes in the one frame that tests the guard before the body runs. -/
theorem exec_issue_of_guardOf {i : Instr} {g : Guard} (hg : guardOf i = some g) (s : State) :
    ∃ body : Handle → Strand → Res State, exec i s = issue (some g) s body := by
  cases i <;> cases hg
  -- only the rows with a guard are left: the arm of each is a use of `issue` with that guard, and its operands occur in the body alone
  all_goals
    unfold exec
    exact ⟨_, rfl⟩

/-- A guard fails where its predicate has the value that it negates (R12). -/
theorem guardHolds_eq_false {g : Guard} {st : Strand} (hp : st.r.preds.getLsbD g.p.toNat = g.neg) : guardHolds (some g) st = false := by
  simp [guardHolds, hp]

/-- Without a recorded vector instruction to issue again, the next PC follows the instruction's words (R30). -/
theorem nextPc_of_reissue_none {s : State} {st : Strand} (hr : st.reissue = none) : nextPc s st = st.r.pc + BitVec.ofNat 64 (2 * s.words) := by
  simp [nextPc, hr]

/-- R36: an instruction whose guard fails answers the commit of nothing, whatever its body would do. -/
theorem exec_guardedOff {i : Instr} {g : Guard} {s : State} {h : Handle} {st : Strand} (hi : s.issuing = some (h, st)) (hr : st.reissue = none)
    (hg : guardOf i = some g) (hp : st.r.preds.getLsbD g.p.toNat = g.neg) :
    exec i s = .next (commitAt s h st [] none (st.r.pc + BitVec.ofNat 64 (2 * s.words))) := by
  obtain ⟨body, hbody⟩ := exec_issue_of_guardOf hg s
  rw [hbody, issue_off hi hr (guardHolds_eq_false hp), skip, nextPc_of_reissue_none hr]

/-- R36, R48: an ill-formed instruction has no guard to fail, and traps ILLEGAL. -/
theorem exec_unassignedEncoding {s : State} {h : Handle} {st : Strand} (hi : s.issuing = some (h, st)) (d : IllegalDetail) :
    exec (.unassignedEncoding d) s = .next (enterTrap s h st (illegalInfo s.latch d)) :=
  issue_raise (g := none) (body := fun _ _ => .error (.trap (illegalInfo s.latch d))) hi rfl rfl

/-- Settles O9: a guarded instruction is executed in the frame, which tests the guard first; an ill-formed one is framed without a guard. -/
theorem guardedOffAdvances : Obligations.GuardedOffAdvances := by
  unfold Obligations.GuardedOffAdvances
  intro s h st hi hr
  exact ⟨fun i g hg hp => exec_guardedOff hi hr hg hp, exec_unassignedEncoding hi⟩

end Sys2Proof.Machine
end

section
/-! Strand instructions (R106-R113): the rows that read registers and write one result, and the results at a size. -/

namespace Sys2Proof.Machine

open Sys2Proof.Safety

/-! ### The commit of a register instruction -/

/-- Room at a destination does not depend on the value that is to be written (R145). -/
theorem hasRoom_value (c : Core) (h : Handle) (srcs : List Reg) (a : Reg) (v w : Word) :
    hasRoom c h srcs (some (a, v)) = hasRoom c h srcs (some (a, w)) := by
  cases a <;> rfl

section
variable {s : State} {h : Handle} {st : Strand} {g : Option Guard} {a b c : Reg} {x y : Word}

theorem retire_of_room {srcs : List Reg} (hr : Room s h st srcs a) (v : Word) :
    retire s h st srcs (some (a, v)) = .ok (commitAt s h st srcs (some (a, v)) (nextPc s st)) :=
  retire_room ((hasRoom_value _ _ _ _ v 0).trans hr)

/-- R30, R49: a row of two sources commits its function of what the sources give. -/
theorem alu3_commits (hi : Issues s h st g) (hx : src s h st 0 b = .ok x) (hy : src s h st 1 c = .ok y) (hr : Room s h st [b, c] a)
    {f : Word → Word → Word} {v : Word} (hv : f x y = v) : alu3 g a b c f s = commits s h st [b, c] (some (a, v)) :=
  issue_ok hi.1 hi.2 (by simp only [hx, hy, Res.ok_bind, retire_of_room hr, hv])

/-- R30, R49: a row of one source commits its function of what the source gives. -/
theorem alu2_commits (hi : Issues s h st g) (hx : src s h st 0 b = .ok x) (hr : Room s h st [b] a)
    {f : Word → Word} {v : Word} (hv : f x = v) : alu2 g a b f s = commits s h st [b] (some (a, v)) :=
  issue_ok hi.1 hi.2 (by simp only [hx, Res.ok_bind, retire_of_room hr, hv])

end

/-! ### Values and results at a size (R53, R106) -/

/-- The value of the low bits of a number is that of the bit vector they form, signed or unsigned. -/
theorem intOfBits_eq (signed : Bool) (n bits : Nat) :
    intOfBits signed n bits = if signed then (BitVec.ofNat n bits).toInt else ((BitVec.ofNat n bits).toNat : Int) := by
  cases signed with
  | false => simp only [intOfBits, Bool.false_and, Bool.false_eq_true, if_false, BitVec.toNat_ofNat]
  | true =>
    have top : 2 ^ (n - 1) ≤ bits % 2 ^ n ↔ ¬ 2 * (bits % 2 ^ n) < 2 ^ n := by
      cases n with
      | zero => rw [Nat.pow_zero, Nat.mod_one]; decide
      | succ k => rw [Nat.add_sub_cancel, Nat.pow_succ]; omega
    simp only [intOfBits, Bool.true_and, decide_eq_true_eq, if_true, BitVec.toInt_eq_toNat_cond, BitVec.toNat_ofNat, ge_iff_le, top]
    by_cases low : 2 * (bits % 2 ^ n) < 2 ^ n
    · rw [if_neg (not_not_intro low), if_pos low]
    · rw [if_pos low, if_neg low, Int.natCast_pow]; rfl

/-- An integer that is the value of some bits, taken into a register: those bits extended by the sign or by zeros (R53). -/
theorem ofInt_intOfBits (m : Nat) (signed : Bool) (n bits : Nat) :
    BitVec.ofInt m (intOfBits signed n bits) = if signed then (BitVec.ofNat n bits).signExtend m else (BitVec.ofNat n bits).setWidth m := by
  rw [intOfBits_eq]
  cases signed with
  | true => rfl
  | false => simp only [Bool.false_eq_true, if_false, BitVec.ofInt_natCast, BitVec.ofNat_toNat]

/-- The value of `N` bits under a suffix: signed for `.sN`, unsigned for `.nN` (R106). -/
def sizeValue (z : Size) (u : BitVec (sizeBits z)) : Int := if sizeSigned z then u.toInt else u.toNat

theorem narrow_eq_ofNat (z : Size) (x : Word) : narrow z x = BitVec.ofNat (sizeBits z) x.toNat := (BitVec.ofNat_toNat _ x).symm

theorem toNat_narrow (z : Size) (x : Word) : (narrow z x).toNat = lowBits z x := BitVec.toNat_setWidth _ x

theorem lowBits_eq_zero_iff {z : Size} {x : Word} : lowBits z x = 0 ↔ narrow z x = 0 := by
  rw [← toNat_narrow, BitVec.toNat_eq]; rfl

theorem sizedInt_eq_sizeValue (z : Size) (x : Word) : sizedInt z x = sizeValue z (narrow z x) := by
  rw [sizedInt, intOfBits_eq, ← narrow_eq_ofNat, sizeValue]

/-- The value of `N` bits wraps back to those bits. -/
@[simp] theorem ofInt_sizeValue (z : Size) (u : BitVec (sizeBits z)) : BitVec.ofInt (sizeBits z) (sizeValue z u) = u := by
  unfold sizeValue
  split
  · exact BitVec.ofInt_toInt
  · rw [BitVec.ofInt_natCast, BitVec.ofNat_toNat, BitVec.setWidth_eq]

/-- The value of the low `N` bits of an operand in `2N` bits is the operand extended to them. -/
theorem ofInt_doubled (z : Size) (x : Word) : BitVec.ofInt (2 * sizeBits z) (sizedInt z x) = doubled z x := by
  rw [sizedInt, ofInt_intOfBits, ← narrow_eq_ofNat, doubled]

theorem extend_eq_extended (z : Size) (n : Nat) : extend z n = extended z (BitVec.ofNat (sizeBits z) n) := by
  rw [extend, ofInt_intOfBits, extended]

theorem extend_toNat (z : Size) (x : Word) : extend z x.toNat = extended z (narrow z x) := by
  rw [extend_eq_extended, narrow_eq_ofNat]

theorem bitsOfInt_eq_toNat (n : Nat) (i : Int) : bitsOfInt n i = (BitVec.ofInt n i).toNat := by
  rw [bitsOfInt, BitVec.toNat_ofInt]
  norm_cast

theorem extendInt_eq_extended (z : Size) (i : Int) : extendInt z i = extended z (BitVec.ofInt (sizeBits z) i) := by
  rw [extendInt, extend_eq_extended, bitsOfInt_eq_toNat, BitVec.ofNat_toNat, BitVec.setWidth_eq]

/-- An integer function of the operands whose value wraps to `v` at `N` bits writes `v` extended by the suffix (R106). -/
theorem extendInt_of_ofInt {z : Size} {i : Int} {v : BitVec (sizeBits z)} (hv : BitVec.ofInt (sizeBits z) i = v) : extendInt z i = extended z v := by
  rw [extendInt_eq_extended, hv]

/-! ### The arithmetic functions at a size (R108, R109) -/

theorem addAt_eq (z : Size) (x y : Word) : addAt z x y = extended z (narrow z x + narrow z y) := by
  rw [addAt, extend_eq_extended, BitVec.ofNat_add, narrow_eq_ofNat, narrow_eq_ofNat]

theorem subAt_eq (z : Size) (x y : Word) : subAt z x y = extended z (narrow z x - narrow z y) := by
  apply extendInt_of_ofInt
  rw [sizedInt_eq_sizeValue, sizedInt_eq_sizeValue, Int.sub_eq_add_neg, BitVec.ofInt_add, BitVec.ofInt_neg, ofInt_sizeValue, ofInt_sizeValue,
    BitVec.sub_eq_add_neg]

theorem mulAt_eq (z : Size) (x y : Word) : mulAt z x y = extended z (narrow z x * narrow z y) := by
  apply extendInt_of_ofInt
  rw [sizedInt_eq_sizeValue, sizedInt_eq_sizeValue, BitVec.ofInt_mul, ofInt_sizeValue, ofInt_sizeValue]

theorem toNat_ofInt_cast (n : Nat) (i : Int) : ((BitVec.ofInt n i).toNat : Int) = i % 2 ^ n := by
  have modulus : ((2 ^ n : Nat) : Int) = 2 ^ n := Int.natCast_pow 2 n
  rw [BitVec.toNat_ofInt, modulus, Int.toNat_of_nonneg (Int.emod_nonneg _ (Int.pow_ne_zero (by decide)))]

/-- Bits [2N-1:N] of an integer taken at `2N` bits are its quotient by `2^N`, rounded down. -/
theorem extractLsb'_ofInt_double (n : Nat) (i : Int) : (BitVec.ofInt (2 * n) i).extractLsb' n n = BitVec.ofInt n (i / 2 ^ n) := by
  have halves : i % (2 ^ n * 2 ^ n) / 2 ^ n = i / 2 ^ n % 2 ^ n := by
    have positive : (0 : Int) < 2 ^ n := Int.pow_pos (by decide)
    rw [Int.emod_def, Int.emod_def, Int.mul_assoc, Int.sub_mul_ediv_left _ _ (Int.ne_of_gt positive), Int.ediv_ediv_of_nonneg (Int.le_of_lt positive)]
  apply BitVec.eq_of_toNat_eq
  apply Int.ofNat_inj.mp
  rw [BitVec.extractLsb'_toNat, Nat.shiftRight_eq_div_pow, Int.natCast_emod, Int.natCast_ediv, Int.natCast_pow, toNat_ofInt_cast, toNat_ofInt_cast,
    Nat.two_mul, Int.pow_add]
  exact (congrArg (· % (2 ^ n : Int)) halves).trans (Int.emod_emod _ _)

theorem mulhAt_eq (z : Size) (x y : Word) :
    mulhAt z x y = extended z ((doubled z x * doubled z y).extractLsb' (sizeBits z) (sizeBits z)) := by
  apply extendInt_of_ofInt
  rw [← extractLsb'_ofInt_double, BitVec.ofInt_mul, ofInt_doubled, ofInt_doubled]

/-- The quotient truncated toward zero wraps to the quotient of bit vectors of the suffix's sign, also -2^(N-1) by -1 (R109). -/
theorem ofInt_tdiv_sizeValue (z : Size) (u v : BitVec (sizeBits z)) :
    BitVec.ofInt (sizeBits z) ((sizeValue z u).tdiv (sizeValue z v)) = if sizeSigned z then u.sdiv v else u.udiv v := by
  unfold sizeValue
  split
  · rw [← BitVec.toInt_inj, BitVec.toInt_ofInt, BitVec.toInt_sdiv]
  · rw [← Int.ofNat_tdiv, BitVec.ofInt_natCast, ← BitVec.toNat_udiv, BitVec.ofNat_toNat, BitVec.setWidth_eq, BitVec.udiv_eq]

/-- The remainder of that quotient is the remainder of bit vectors of the suffix's sign (R109). -/
theorem ofInt_tmod_sizeValue (z : Size) (u v : BitVec (sizeBits z)) :
    BitVec.ofInt (sizeBits z) ((sizeValue z u).tmod (sizeValue z v)) = if sizeSigned z then u.srem v else u.umod v := by
  unfold sizeValue
  split
  · rw [← BitVec.toInt_srem, BitVec.ofInt_toInt]
  · rw [← Int.ofNat_tmod, BitVec.ofInt_natCast, ← BitVec.toNat_umod, BitVec.ofNat_toNat, BitVec.setWidth_eq, BitVec.umod_eq]

theorem divAt_eq (z : Size) (x y : Word) :
    divAt z x y = extended z (if narrow z y = 0 then BitVec.allOnes _
      else if sizeSigned z then (narrow z x).sdiv (narrow z y) else (narrow z x).udiv (narrow z y)) := by
  unfold divAt
  simp only [lowBits_eq_zero_iff]
  split
  · rw [extend_eq_extended, BitVec.allOnes, BitVec.ofNatLT_eq_ofNat]
  · apply extendInt_of_ofInt
    rw [sizedInt_eq_sizeValue, sizedInt_eq_sizeValue, ofInt_tdiv_sizeValue]

theorem remAt_eq (z : Size) (x y : Word) :
    remAt z x y = extended z (if narrow z y = 0 then narrow z x
      else if sizeSigned z then (narrow z x).srem (narrow z y) else (narrow z x).umod (narrow z y)) := by
  unfold remAt
  simp only [lowBits_eq_zero_iff]
  split
  · exact extend_toNat z x
  · apply extendInt_of_ofInt
    rw [sizedInt_eq_sizeValue, sizedInt_eq_sizeValue, ofInt_tmod_sizeValue]

theorem below_iff (z : Size) (x y : Word) : below z x y = true ↔ sizedInt z x < sizedInt z y := by
  rw [sizedInt_eq_sizeValue, sizedInt_eq_sizeValue]
  unfold below sizeValue
  split
  · exact BitVec.slt_iff_toInt_lt
  · rw [BitVec.ult_iff_lt, BitVec.lt_def, Int.ofNat_lt]

theorem minAt_eq (z : Size) (x y : Word) : minAt z x y = extended z (if below z y x then narrow z y else narrow z x) := by
  apply extendInt_of_ofInt
  simp only [below_iff]
  split
  case isTrue hlt => rw [Int.min_eq_right (Int.le_of_lt hlt), sizedInt_eq_sizeValue, ofInt_sizeValue]
  case isFalse hge => rw [Int.min_eq_left (Int.not_lt.mp hge), sizedInt_eq_sizeValue, ofInt_sizeValue]

theorem maxAt_eq (z : Size) (x y : Word) : maxAt z x y = extended z (if below z x y then narrow z y else narrow z x) := by
  apply extendInt_of_ofInt
  simp only [below_iff]
  split
  case isTrue hlt => rw [Int.max_eq_right (Int.le_of_lt hlt), sizedInt_eq_sizeValue, ofInt_sizeValue]
  case isFalse hge => rw [Int.max_eq_left (Int.not_lt.mp hge), sizedInt_eq_sizeValue, ofInt_sizeValue]

/-- Settles O12: each row of two sources commits its function, and each function at a size is the operation on the low N bits. -/
theorem arithmeticResults : Obligations.ArithmeticResults := by
  unfold Obligations.ArithmeticResults
  intro s h st g z a b c x y hi hx hy hr
  have row {f : Word → Word → Word} {v : Word} (hv : f x y = v) := alu3_commits hi hx hy hr hv
  exact ⟨row (addAt_eq z x y), row (subAt_eq z x y), row (mulAt_eq z x y), row (mulhAt_eq z x y), row (divAt_eq z x y), row (remAt_eq z x y),
    row (minAt_eq z x y), row (maxAt_eq z x y)⟩

end Sys2Proof.Machine
end

section
/-! Moves and fields (R110-R113, R131): what holds of each row, and the access on its way for which O14 fails. -/

namespace Sys2Proof.Machine

open Sys2Proof.Safety

/-! ### Counts (R110) -/

/-- Leading zero bits of a number of `n` bits, `n` where it is zero. -/
def leadingZeros (n v : Nat) : Nat := if v = 0 then n else n - 1 - Nat.log2 v

theorem clzAt_eq (z : Size) (x : Word) : clzAt z x = extended z (BitVec.ofNat _ (leadingZeros (sizeBits z) (narrow z x).toNat)) := by
  rw [clzAt, extend_eq_extended, toNat_narrow, leadingZeros]

theorem leadingZeros_le (n v : Nat) : leadingZeros n v ≤ n := by
  unfold leadingZeros
  split <;> omega

/-- Bits before the leading zeros end are zero: those beyond the highest one. -/
theorem getMsbD_of_lt_leadingZeros {n : Nat} (u : BitVec n) {i : Nat} (hi : i < leadingZeros n u.toNat) : u.getMsbD i = false := by
  rw [BitVec.getMsbD_eq_getLsbD, ← BitVec.testBit_toNat]
  unfold leadingZeros at hi
  split at hi
  case isTrue h0 => rw [h0, Nat.zero_testBit, Bool.and_false]
  case isFalse h0 =>
    have beyond : u.toNat < 2 ^ (n - 1 - i) := (Nat.log2_lt h0).mp (by omega)
    rw [Nat.testBit_lt_two_pow beyond, Bool.and_false]

/-- The bit at which the leading zeros end is the highest one. -/
theorem getMsbD_leadingZeros {n : Nat} (u : BitVec n) (hk : leadingZeros n u.toNat < n) : u.getMsbD (leadingZeros n u.toNat) = true := by
  rw [BitVec.getMsbD_eq_getLsbD, ← BitVec.testBit_toNat, decide_eq_true hk, Bool.true_and]
  unfold leadingZeros at hk ⊢
  split at hk
  case isTrue => omega
  case isFalse h0 =>
    have top : u.toNat.log2 < n := (Nat.log2_lt h0).mpr u.isLt
    rw [if_neg h0, show n - 1 - (n - 1 - u.toNat.log2) = u.toNat.log2 by omega, Nat.testBit_log2 h0]

theorem popcAt_eq (z : Size) (x : Word) :
    popcAt z x = extended z (BitVec.ofNat _ ((List.range (sizeBits z)).filter fun i => (narrow z x).getLsbD i).length) := by
  have low : ∀ i ∈ List.range (sizeBits z), x.getLsbD i = (narrow z x).getLsbD i := fun i hi => by
    rw [narrow, BitVec.getLsbD_setWidth, decide_eq_true (List.mem_range.mp hi), Bool.true_and]
  rw [popcAt, extend_eq_extended, List.filter_congr low]

/-! ### Fields (R113) -/

theorem fieldOf_eq (x : Word) (pos len : BitVec 6) : BitVec.ofNat (len.toNat + 1) (fieldOf x pos len) = x.extractLsb' pos.toNat (len.toNat + 1) := by
  apply BitVec.eq_of_toNat_eq
  rw [BitVec.toNat_ofNat, fieldOf, Nat.mod_mod, BitVec.extractLsb'_toNat, Nat.shiftRight_eq_div_pow]

/-- The word that `bfx` writes: the field of `len + 1` bits at `pos`, extended by its top bit or by zeros. -/
def extractField (signed : Bool) (x : Word) (pos len : BitVec 6) : Word :=
  BitVec.ofInt 64 (intOfBits signed (len.toNat + 1) (fieldOf x pos len))

theorem extractField_eq (signed : Bool) (x : Word) (pos len : BitVec 6) :
    extractField signed x pos len =
      if signed then (x.extractLsb' pos.toNat (len.toNat + 1)).signExtend 64 else (x.extractLsb' pos.toNat (len.toNat + 1)).setWidth 64 := by
  rw [extractField, ofInt_intOfBits, fieldOf_eq]

theorem getLsbD_extractField (signed : Bool) (x : Word) (pos len : BitVec 6) {i : Nat} (hi : i < 64) :
    (extractField signed x pos len).getLsbD i =
      if i ≤ len.toNat then x.getLsbD (pos.toNat + i) else signed && x.getLsbD (pos.toNat + len.toNat) := by
  rw [extractField_eq]
  have within : decide (i < len.toNat + 1) = decide (i ≤ len.toNat) := decide_eq_decide.mpr Nat.lt_succ_iff
  have top : decide (len.toNat < len.toNat + 1) = true := decide_eq_true (Nat.lt_succ_self _)
  cases signed with
  | true =>
    rw [if_pos rfl, BitVec.getLsbD_signExtend, decide_eq_true hi, Bool.true_and, Bool.true_and, BitVec.msb_eq_getLsbD_last, BitVec.getLsbD_extractLsb',
      BitVec.getLsbD_extractLsb', Nat.add_sub_cancel, top, Bool.true_and]
    by_cases hl : i ≤ len.toNat
    · rw [if_pos (Nat.lt_succ_of_le hl), if_pos hl, within, decide_eq_true hl, Bool.true_and]
    · rw [if_neg (fun h => hl (Nat.le_of_lt_succ h)), if_neg hl]
  | false =>
    rw [if_neg Bool.false_ne_true, BitVec.getLsbD_setWidth, decide_eq_true hi, Bool.true_and, Bool.false_and, BitVec.getLsbD_extractLsb', within]
    by_cases hl : i ≤ len.toNat
    · rw [decide_eq_true hl, Bool.true_and, if_pos hl]
    · rw [decide_eq_false hl, Bool.false_and, if_neg hl]

/-- The ones of a field's mask are the bits of the field. -/
theorem getLsbD_fieldMask (pos len i : Nat) :
    (BitVec.ofNat 64 ((2 ^ (len + 1) - 1) * 2 ^ pos)).getLsbD i = (decide (i < 64) && decide (pos ≤ i ∧ i ≤ pos + len)) := by
  rw [BitVec.getLsbD_ofNat, Nat.mul_comm, Nat.testBit_two_pow_mul, Nat.testBit_two_pow_sub_one, Bool.decide_and]
  congr 2
  rw [decide_eq_decide]
  omega

theorem getLsbD_moveUp (y : Word) (n : Nat) {i : Nat} (hi : i < 64) (hn : n ≤ i) : (BitVec.ofNat 64 (y.toNat * 2 ^ n)).getLsbD i = y.getLsbD (i - n) := by
  rw [BitVec.getLsbD_ofNat, Nat.mul_comm, Nat.testBit_two_pow_mul, decide_eq_true hi, decide_eq_true hn, Bool.true_and, Bool.true_and, BitVec.testBit_toNat]

/-- The word that `bfi` writes: the low bits of `y` in the field of `len + 1` bits at `pos`, and `x` around it. -/
theorem getLsbD_insertField (x y : Word) (pos len : BitVec 6) {i : Nat} (hi : i < 64) :
    (insertField x y pos len).getLsbD i =
      if pos.toNat ≤ i ∧ i ≤ pos.toNat + len.toNat then y.getLsbD (i - pos.toNat) else x.getLsbD i := by
  unfold insertField
  simp only [BitVec.getLsbD_or, BitVec.getLsbD_and, BitVec.getLsbD_not, getLsbD_fieldMask, hi, decide_true, Bool.true_and]
  by_cases hf : pos.toNat ≤ i ∧ i ≤ pos.toNat + len.toNat
  · rw [getLsbD_moveUp y _ hi hf.1, if_pos hf, decide_eq_true hf, Bool.not_true, Bool.and_false, Bool.false_or, Bool.and_true]
  · rw [if_neg hf, decide_eq_false hf, Bool.not_false, Bool.and_true, Bool.and_false, Bool.or_false]

/-! ### The rows (R110-R113, R131) -/

section
variable {s : State} {h : Handle} {st : Strand} {g : Option Guard} {a b c : Reg} {x y : Word}

theorem exec_sel_commits (hi : Issues s h st g) (hx : src s h st 0 b = .ok x) (hy : src s h st 1 c = .ok y) (hr : Room s h st [b, c] a) (p : BitVec 4) :
    exec (.sel g a b c p) s = commits s h st [b, c] (some (a, if st.r.preds.getLsbD p.toNat then x else y)) :=
  issue_ok hi.1 hi.2 (by simp only [hx, hy, Res.ok_bind, retire_of_room hr])

theorem exec_bfi_commits (hi : Issues s h st g) (hx : src s h st 0 b = .ok x) (hy : src s h st 2 a = .ok y) (hr : Room s h st [b, a] a)
    (pos len : BitVec 6) : exec (.bfi g a b pos len) s = commits s h st [b, a] (some (a, insertField y x pos len)) :=
  issue_ok hi.1 hi.2 (by simp only [hx, hy, Res.ok_bind, retire_of_room hr])

theorem exec_li_commits (hi : Issues s h st g) (hr : Room s h st [] a) (imm : Word) : exec (.li g a imm) s = commits s h st [] (some (a, imm)) :=
  issue_ok hi.1 hi.2 (retire_of_room hr imm)

theorem gsrc_full {i : Fin 24} (hf : st.r.full.getLsbD i.val = true) : gsrc st i = .ok st.sources[i] := if_pos hf

theorem exec_lea_disp_commits (hi : Issues s h st g) (hr : Room s h st [] a) {m : Fin 24} (hm : st.r.full.getLsbD m.val = true) (d : Word) :
    exec (.lea g a ⟨m, .disp d⟩) s = commits s h st [] (some (a, st.sources[m] + d)) :=
  issue_ok hi.1 hi.2 (by simp only [effAddr, gsrc_full hm, Res.ok_bind, retire_of_room hr])

theorem exec_lea_index_commits (hi : Issues s h st g) (hr : Room s h st [] a) {m i : Fin 24} (hm : st.r.full.getLsbD m.val = true)
    (hx : st.r.full.getLsbD i.val = true) : exec (.lea g a ⟨m, .index i⟩) s = commits s h st [] (some (a, st.sources[m] + st.sources[i])) :=
  issue_ok hi.1 hi.2 (by simp only [effAddr, gsrc_full hm, gsrc_full hx, Res.ok_bind, retire_of_room hr])

end

/-! ### What holds in every state, and what fails on the way to a place -/

/-- The statement of O14 with the registers from which `lea` forms its address left open. -/
def MoveAndFieldRows (gpr : Strand → Vector Word 24) : Prop :=
  (∀ (s : State) (h : Handle) (st : Strand) (g : Option Guard) (z : Size) (a b c : Reg) (x y imm : Word) (p : BitVec 4) (m i : Fin 24),
    Issues s h st g → src s h st 0 b = .ok x →
    (Room s h st [b] a →
      (∃ k, k ≤ sizeBits z ∧ (∀ i, i < k → (narrow z x).getMsbD i = false) ∧ (k < sizeBits z → (narrow z x).getMsbD k = true) ∧
        exec (.clz g z a b) s = commits s h st [b] (some (a, extended z (BitVec.ofNat _ k)))) ∧
      exec (.popc g z a b) s = commits s h st [b] (some (a, extended z (BitVec.ofNat _
        (((List.range (sizeBits z)).filter fun i => (narrow z x).getLsbD i).length)))) ∧
      exec (.mov g z a b) s = commits s h st [b] (some (a, extended z (narrow z x))) ∧
      exec (.addi g z a b imm) s = commits s h st [b] (some (a, extended z (narrow z x + narrow z imm)))) ∧
    (Room s h st [] a → exec (.li g a imm) s = commits s h st [] (some (a, imm)) ∧
      (st.r.full.getLsbD m.val = true →
        exec (.lea g a ⟨m, .disp imm⟩) s = commits s h st [] (some (a, (gpr st)[m] + imm)) ∧
        (st.r.full.getLsbD i.val = true → exec (.lea g a ⟨m, .index i⟩) s = commits s h st [] (some (a, (gpr st)[m] + (gpr st)[i]))))) ∧
    (src s h st 1 c = .ok y → Room s h st [b, c] a →
      exec (.sel g a b c p) s = commits s h st [b, c] (some (a, if st.r.preds.getLsbD p.toNat then x else y)))) ∧
  (∀ (s : State) (h : Handle) (st : Strand) (g : Option Guard) (signed : Bool) (a b : Reg) (x y : Word) (pos len : BitVec 6), Issues s h st g →
    src s h st 0 b = .ok x → pos.toNat + len.toNat + 1 ≤ 64 →
    (Room s h st [b] a → ∃ v : Word, exec (.bfx g signed a b pos len) s = commits s h st [b] (some (a, v)) ∧
      (∀ i, i ≤ len.toNat → v.getLsbD i = x.getLsbD (pos.toNat + i)) ∧
      (∀ i, len.toNat < i → i < 64 → v.getLsbD i = (signed && x.getLsbD (pos.toNat + len.toNat)))) ∧
    (src s h st 2 a = .ok y → Room s h st [b, a] a → ∃ v : Word, exec (.bfi g a b pos len) s = commits s h st [b, a] (some (a, v)) ∧
      (∀ i, i ≤ len.toNat → v.getLsbD (pos.toNat + i) = x.getLsbD i) ∧
      (∀ i, i < pos.toNat ∨ pos.toNat + len.toNat < i → v.getLsbD i = y.getLsbD i)))

theorem moveAndFieldResults_iff : Obligations.MoveAndFieldResults ↔ MoveAndFieldRows (·.r.gpr) := Iff.rfl

/-- Every clause of O14 holds where `lea` forms its address from the registers that the strand's instruction reads (R49, R131). -/
theorem moveAndFieldRows_sources : MoveAndFieldRows Strand.sources := by
  refine ⟨fun s h st g z a b c x y imm p m i hi hx => ⟨fun hr => ?_, fun hr => ?_, fun hy hr => exec_sel_commits hi hx hy hr p⟩,
    fun s h st g signed a b x y pos len hi hx hfit => ⟨fun hr => ?_, fun hy hr => ?_⟩⟩
  · have row {f : Word → Word} {v : Word} (hv : f x = v) := alu2_commits hi hx hr hv
    exact ⟨⟨_, leadingZeros_le _ _, fun _ => getMsbD_of_lt_leadingZeros _, getMsbD_leadingZeros _, row (clzAt_eq z x)⟩,
      row (popcAt_eq z x), row (extend_toNat z x), row (addAt_eq z x imm)⟩
  · exact ⟨exec_li_commits hi hr imm, fun hm => ⟨exec_lea_disp_commits hi hr hm imm, exec_lea_index_commits hi hr hm⟩⟩
  · refine ⟨extractField signed x pos len, alu2_commits hi hx hr rfl, fun i hl => ?_, fun i hl h64 => ?_⟩
    · rw [getLsbD_extractField signed x pos len (by omega), if_pos hl]
    · rw [getLsbD_extractField signed x pos len h64, if_neg (by omega)]
  · refine ⟨insertField y x pos len, exec_bfi_commits hi hx hy hr pos len, fun i hl => ?_, fun i ho => ?_⟩
    · rw [getLsbD_insertField y x pos len (by omega), if_pos (by omega), Nat.add_sub_cancel_left]
    · by_cases h64 : i < 64
      · rw [getLsbD_insertField y x pos len h64, if_neg (by omega)]
      · rw [BitVec.getLsbD_of_ge _ _ (by omega), BitVec.getLsbD_of_ge _ _ (by omega)]

/-- A commit to a general register shows the value that it writes. -/
theorem commits_general_inj {s : State} {h : Handle} {st : Strand} {srcs : List Reg} {i : Fin 24} {v w : Word}
    (he : commits s h st srcs (some (.g i, v)) = commits s h st srcs (some (.g i, w))) : v = w := by
  have strands := congrArg (State.strand? · h) (Host.Outcome.next.inj he)
  simp only [commitAt_strand, Option.some.injEq] at strands
  have values := congrArg (fun y => y.r.gpr[i]) strands
  simp only [commitStrand_r, Strand.setG, Fin.getElem_fin, Vector.getElem_set_self] at values
  exact values

/-- A task whose access is on its way: at its issue it read 1 from every general register, and a fill has since written 0 to g1 (R124, R175). -/
def filledInTransit : Strand :=
  { (boundTask placedSource bootCore 0).setG 1 0 with status := .parked (.transit [] (Vector.replicate 24 1) false [] []) }

/-- The module in which that task's instruction executes. -/
def atFilledInTransit : State := { State.reset with strands := [(bootHandle, filledInTransit)], cur := some bootHandle }

/-- Refutes O14: it takes the base of `lea` from the registers as they stand, whatever the strand's status; of a strand whose access is on its way the model
reads every general register as at the issue (`Strand.sources`; R49, R124), so that here `lea g2, [g1]` writes 1 where the statement says 0. Only the rows of
`travels` depart, and `lea` is none of them: the statement lacks a hypothesis on the strand's status, and all its other clauses hold
(`moveAndFieldRows_sources`). -/
theorem not_moveAndFieldResults : ¬ Obligations.MoveAndFieldResults := by
  rw [moveAndFieldResults_iff]
  rintro ⟨registers, -⟩
  have issues : Issues atFilledInTransit bootHandle filledInTransit none := ⟨rfl, rfl⟩
  have full : filledInTransit.r.full.getLsbD (1 : Fin 24).val = true := by decide
  obtain ⟨-, immediates, -⟩ := registers atFilledInTransit bootHandle filledInTransit none .s64 (.g 2) (.g 1) (.g 1) 1 1 0 0 1 1 issues rfl
  obtain ⟨-, addresses⟩ := immediates rfl
  obtain ⟨claimed, -⟩ := addresses full
  have executed := exec_lea_disp_commits (a := .g 2) issues rfl full 0
  have zero_eq_one : filledInTransit.r.gpr[(1 : Fin 24)] + 0 = filledInTransit.sources[(1 : Fin 24)] + 0 :=
    commits_general_inj (claimed.symm.trans executed)
  exact absurd zero_eq_one (by decide)

end Sys2Proof.Machine
end

section
/-! History memory (R331, R332): the rows of the decision of a read at determinism level 0, over retained states in rising order of their stamps. -/

namespace Sys2Proof.Machine

variable {k : Key} {t : Nat} {l : List (Nat × List Word)}

/-- Stamps rise along a list of states, as along the retained states of a key (R330). -/
def Rising (l : List (Nat × List Word)) : Prop := l.Pairwise fun x y => x.1 < y.1

/-! ### The oldest and the newest stamp -/

theorem Key.oldest_of_cons {a : Nat × List Word} (hs : k.states = a :: l) : k.oldest = a.1 := by
  simp only [Key.oldest, hs, List.head?_cons, Option.map_some, Option.getD_some]

theorem Key.newest_of_append_singleton {b : Nat × List Word} (hs : k.states = l ++ [b]) : k.newest = b.1 := by
  simp only [Key.newest, hs, List.getLast?_concat, Option.map_some, Option.getD_some]

theorem Rising.oldest_le (hr : Rising k.states) {x : Nat × List Word} (hx : x ∈ k.states) : k.oldest ≤ x.1 := by
  cases hs : k.states with
  | nil => rw [hs] at hx; cases hx
  | cons a l =>
    rw [hs] at hr hx
    obtain ⟨later, -⟩ := List.pairwise_cons.mp hr
    rw [Key.oldest_of_cons hs]
    rcases List.mem_cons.mp hx with rfl | hx
    · exact Nat.le_refl _
    · exact Nat.le_of_lt (later x hx)

theorem Rising.le_newest (hr : Rising k.states) {x : Nat × List Word} (hx : x ∈ k.states) : x.1 ≤ k.newest := by
  have hs : k.states = k.states.dropLast ++ [k.states.getLast (List.ne_nil_of_mem hx)] := (List.dropLast_concat_getLast _).symm
  rw [Key.newest_of_append_singleton hs]
  rw [hs] at hr hx
  obtain ⟨-, -, earlier⟩ := List.pairwise_append.mp hr
  rcases List.mem_append.mp hx with hx | hx
  · exact Nat.le_of_lt (earlier x hx _ List.mem_cons_self)
  · exact Nat.le_of_eq (congrArg Prod.fst (List.mem_singleton.mp hx))

/-! ### The state that carries the stamp -/

theorem exactAt_of_mem (hr : Rising l) {ws : List Word} (hm : (t, ws) ∈ l) : exactAt t l = some (.served 0 0 ws {}) := by
  induction l with
  | nil => cases hm
  | cons x l ih =>
    obtain ⟨rises, hr⟩ := List.pairwise_cons.mp hr
    rcases List.mem_cons.mp hm with rfl | hm
    · simp [exactAt]
    · have later : x.1 ≠ t := Nat.ne_of_lt (rises _ hm)
      simpa [exactAt, later] using ih hr hm

theorem exactAt_eq_none (h : ∀ x ∈ l, x.1 ≠ t) : exactAt t l = none := by
  simpa [exactAt] using h

/-! ### The two states around an instant -/

/-- A state is passed over where it is no earlier than the instant, or the next one is no later. -/
theorem between_cons_of_imp {x : Nat × List Word} (h : x.1 < t → ∀ y ∈ l.head?, y.1 ≤ t) : between k t (x :: l) = between k t l := by
  cases l with
  | nil => rfl
  | cons y l =>
    have passed : x.1 < t → y.1 ≤ t := fun hx => h hx y rfl
    rw [between, if_neg (by simpa using passed)]

theorem between_eq_none_of_le (h : ∀ x ∈ l, x.1 ≤ t) : between k t l = none := by
  induction l with
  | nil => rfl
  | cons x l ih =>
    obtain ⟨-, h⟩ := List.forall_mem_cons.mp h
    rw [between_cons_of_imp fun _ y hy => h y (List.mem_of_mem_head? hy), ih h]

theorem between_eq_none_of_ge (h : ∀ x ∈ l, t ≤ x.1) : between k t l = none := by
  induction l with
  | nil => rfl
  | cons x l ih =>
    obtain ⟨hx, h⟩ := List.forall_mem_cons.mp h
    rw [between_cons_of_imp fun before => absurd hx (Nat.not_le.mpr before), ih h]

/-- The states before one that is no later than the instant are passed over, as each of them is followed by one no later. -/
theorem between_append_cons {a : Nat × List Word} {y : List (Nat × List Word)} (hl : ∀ x ∈ l, x.1 ≤ t) (ha : a.1 ≤ t) :
    between k t (l ++ a :: y) = between k t (a :: y) := by
  induction l with
  | nil => rfl
  | cons x l ih =>
    obtain ⟨-, hl⟩ := List.forall_mem_cons.mp hl
    have next : ∀ z ∈ (l ++ a :: y).head?, z.1 ≤ t := by
      cases l with
      | nil => simpa using ha
      | cons z l => simpa using hl z List.mem_cons_self
    rw [List.cons_append, between_cons_of_imp fun _ => next, ih hl]

/-! ### The results of R332 -/

theorem mixed_of_lt {a b : Nat × List Word} (h : t < b.1) :
    let w := FFmt.f32.quotient .rne false (t - a.1) 0 (b.1 - a.1) 0
    let r := mixWords k.f64 w.1 a.2 b.2
    mixed k t a b = .served 1 w.1 r.1 (w.2.or r.2) := by
  simp only [mixed, mixWeight, if_pos h]

theorem mixed_of_ge {a b : Nat × List Word} (h : b.1 ≤ t) :
    let w := FFmt.f32.quotient .rne false (t - a.1) 0 (b.1 - a.1) 0
    let r := mixWords k.f64 w.1 a.2 b.2
    mixed k t a b = .served 2 w.1 r.1 (w.2.or r.2) := by
  simp only [mixed, mixWeight, if_neg (Nat.not_lt.mpr h)]

theorem beyond_append_pair {a b : Nat × List Word} : beyond k t (l ++ [a, b]) = mixed k t a b := by
  simp [beyond]

/-! ### The rows of R331 -/

theorem decide0_of_nil (hs : k.states = []) : decide0 k t = if t ≤ k.horizon then .park else .ahead := by
  simp [decide0, hs]

theorem decide0_of_exactAt {v : Verdict} (hne : k.states ≠ []) (hv : exactAt t k.states = some v) : decide0 k t = v := by
  simp [decide0, hne, hv]

theorem decide0_of_between {v : Verdict} (hne : k.states ≠ []) (hn : exactAt t k.states = none) (hv : between k t k.states = some v) :
    decide0 k t = v := by
  simp [decide0, hne, hn, hv]

theorem decide0_of_none (hne : k.states ≠ []) (hn : exactAt t k.states = none) (hb : between k t k.states = none) :
    decide0 k t = if t < k.oldest then .retired else if t ≤ k.newest + k.xlim then beyond k t k.states
      else if t ≤ k.newest + k.horizon then .park else .ahead := by
  simp [decide0, hne, hn, hb]

theorem decide0_of_mem (hr : Rising k.states) {ws : List Word} (hm : (t, ws) ∈ k.states) : decide0 k t = .served 0 0 ws {} :=
  decide0_of_exactAt (List.ne_nil_of_mem hm) (exactAt_of_mem hr hm)

/-- Between two neighbours no state carries the stamp, and the pair around the instant is theirs. -/
theorem decide0_of_adjacent (hr : Rising k.states) {x y : List (Nat × List Word)} {a b : Nat × List Word} (hs : k.states = x ++ a :: b :: y) (ha : a.1 < t)
    (hb : t < b.1) : decide0 k t = mixed k t a b := by
  rw [hs] at hr
  obtain ⟨-, rises, earlier⟩ := List.pairwise_append.mp hr
  obtain ⟨-, rises⟩ := List.pairwise_cons.mp rises
  obtain ⟨later, -⟩ := List.pairwise_cons.mp rises
  have before : ∀ z ∈ x, z.1 < t := fun z hz => Nat.lt_trans (earlier z hz a List.mem_cons_self) ha
  have after : ∀ z ∈ y, t < z.1 := fun z hz => Nat.lt_trans hb (later z hz)
  have inexact : ∀ z ∈ x ++ a :: b :: y, z.1 ≠ t := by
    simp only [List.forall_mem_append, List.forall_mem_cons]
    exact ⟨fun z hz => Nat.ne_of_lt (before z hz), Nat.ne_of_lt ha, Nat.ne_of_gt hb, fun z hz => Nat.ne_of_gt (after z hz)⟩
  refine decide0_of_between (by simp [hs]) (hs ▸ exactAt_eq_none inexact) ?_
  rw [hs, between_append_cons (fun z hz => Nat.le_of_lt (before z hz)) (Nat.le_of_lt ha)]
  simp [between, ha, hb]

theorem decide0_of_lt_oldest (hr : Rising k.states) (hne : k.states ≠ []) (ht : t < k.oldest) : decide0 k t = .retired := by
  have after : ∀ x ∈ k.states, t < x.1 := fun x hx => Nat.lt_of_lt_of_le ht (hr.oldest_le hx)
  rw [decide0_of_none hne (exactAt_eq_none fun x hx => Nat.ne_of_gt (after x hx)) (between_eq_none_of_ge fun x hx => Nat.le_of_lt (after x hx)),
    if_pos ht]

/-- After the newest state only the key's limit and horizon decide. -/
theorem decide0_of_newest_lt (hr : Rising k.states) (hne : k.states ≠ []) (ht : k.newest < t) :
    decide0 k t = if t ≤ k.newest + k.xlim then beyond k t k.states else if t ≤ k.newest + k.horizon then .park else .ahead := by
  have before : ∀ x ∈ k.states, x.1 < t := fun x hx => Nat.lt_of_le_of_lt (hr.le_newest hx) ht
  have unretired : ¬ t < k.oldest := by
    obtain ⟨x, hx⟩ := List.exists_mem_of_ne_nil _ hne
    exact Nat.not_lt.mpr (Nat.le_trans (hr.oldest_le hx) (Nat.le_of_lt (before x hx)))
  rw [decide0_of_none hne (exactAt_eq_none fun x hx => Nat.ne_of_lt (before x hx)) (between_eq_none_of_le fun x hx => Nat.le_of_lt (before x hx)),
    if_neg unretired]

theorem decide0_of_le_xlim (hr : Rising k.states) (hne : k.states ≠ []) (ht : k.newest < t) (hx : t ≤ k.newest + k.xlim) :
    decide0 k t = beyond k t k.states := by
  rw [decide0_of_newest_lt hr hne ht, if_pos hx]

theorem decide0_of_xlim_lt (hr : Rising k.states) (hne : k.states ≠ []) (hx : k.newest + k.xlim < t) :
    decide0 k t = if t ≤ k.newest + k.horizon then .park else .ahead := by
  rw [decide0_of_newest_lt hr hne (by omega), if_neg (Nat.not_le.mpr hx)]

/-- Settles O43: one row of R331 per clause, where the rising stamps exclude every row above it. -/
theorem historyDecision : Obligations.HistoryDecision := by
  unfold Obligations.HistoryDecision
  intro k t arrival hr
  have level0 : decideRead k t 0 arrival = decide0 k t := rfl
  rw [level0]
  refine ⟨fun ws hm => decide0_of_mem hr hm, fun x a b y hs ha hb => ?_, decide0_of_lt_oldest hr, fun x a b hs hb hx => ?_, fun hne hx hh => ?_,
    fun hne hx hh => ?_, decide0_of_nil, fun a hs ha hx => ?_⟩
  · rw [decide0_of_adjacent hr hs ha hb, mixed_of_lt hb]
  · have newest : k.newest = b.1 := Key.newest_of_append_singleton (l := x ++ [a]) (by simp [hs])
    rw [decide0_of_le_xlim hr (by simp [hs]) (newest ▸ hb) (newest ▸ hx), hs, beyond_append_pair, mixed_of_ge (Nat.le_of_lt hb)]
  · rw [decide0_of_xlim_lt hr hne hx, if_pos hh]
  · rw [decide0_of_xlim_lt hr hne hx, if_neg (Nat.not_le.mpr hh)]
  · have newest : k.newest = a.1 := Key.newest_of_append_singleton (l := []) hs
    rw [decide0_of_le_xlim hr (by simp [hs]) (newest ▸ ha) (newest ▸ hx), hs]
    rfl

end Sys2Proof.Machine
end
